-- ==== Sys2Proof/Word.lean ====
section
/-! DEFINITION. Word.lean: the word types of the Baltrin 1640, as the Conventions of 00_scope.md name them. -/

namespace Sys2Proof

/-- A byte of the tester link: 8 bits (00_scope.md, Conventions). -/
abbrev Byte := BitVec 8

/-- A die word, an image word, a die address or a sixteen-bit field: 16 bits (00_scope.md, Conventions). -/
abbrev Word := BitVec 16

/-- A 32-bit field: key index, batch label, lot, sequence number, accounting counter. -/
abbrev Long := BitVec 32

/-- A 256-bit key, or the 32 ciphertext bytes of a wrapped key. Byte k0 stands in the TOP byte (R65, R178). -/
abbrev KeyBits := BitVec 256

/-- A physical port number, and the number of its context and of its Burn Supply Controller, 0..15. -/
abbrev PortId := Fin 16

/-- A logical site number, 0..15. -/
abbrev SiteId := Fin 16

end Sys2Proof
end

