-- ==== Sys2Proof/Config.lean ====
section
/-! DEFINITION. Config.lean: what one part fixes. Capacities and defaults are the spec's own numbers; the two opaque
constants have no body, so that a claim holds whatever they are. -/

namespace Sys2Proof.Config

/-- The transport key id, "fixed in the part" and given no value by the spec (R33, R185). Free: assumption 1. -/
opaque transportKeyId : Word

/-- What the n-th STRAP READ finds on the four strap pins of the port it names: "whatever the probe card and die place on
the pin" (R98). Free: assumption 2. -/
opaque strapSense : Nat → BitVec 4

/-- Part code returned by IDENTIFY (R172, R185). -/
def partCode : Word := 0x1640
/-- Revision returned by IDENTIFY (R172, R185). -/
def revision : Byte := 0x01

/-- Most keys in the pool, and the pool custody count at which KEY LOAD is refused (R31, R33). -/
def poolCapacity : Nat := 64
/-- Most log records plus log reservations (R37, R151). -/
def logCapacity : Nat := 256
/-- Most map entries plus map slot reservations (R133). -/
def mapCapacity : Nat := 4096
/-- Most requests in one site queue (R84). -/
def siteQueueCapacity : Nat := 8
/-- Most commands in the control queue (R168). -/
def controlQueueCapacity : Nat := 4
/-- Most response frames in the upstream stream (R174). -/
def streamCapacity : Nat := 192
/-- Largest payload length of a frame (R163). -/
def maxPayload : Nat := 48
/-- Saturation point of a map entry's attempts (R133). -/
def maxDieAttempts : Nat := 7

/-- Sync bytes of every frame (R162, R177). -/
def sync0 : Byte := 0x7E
/-- Sync bytes of every frame (R162, R177). -/
def sync1 : Byte := 0xB1
/-- Site field of the control site (R165). -/
def controlSite : Byte := 31

/-- Ticks of one RESP_TMO unit, 10 µs (R89). -/
def respUnitTicks : Nat := 400
/-- Ticks of one BURN_TMO unit, 1 ms (R89). -/
def burnUnitTicks : Nat := 40000
/-- Ticks of the break interval, 100 µs (R93). -/
def breakTicks : Nat := 4000

end Sys2Proof.Config
end

