-- ==== Sys2Proof/Syntax.lean ====
section
/-! DEFINITION. Syntax.lean: the commands of the block. `Instr` has one constructor per row of spec/opcode_table.json, with
the row's operands; `Command` is what the control queue holds (R166). -/

namespace Sys2Proof

/-- The parameter block of RULE WRITE as its sixteen bytes carry it (R178). Yes-or-no bytes read any non-zero value as
yes (R166). -/
structure RuleBlock where
  number : Byte
  enabled : Byte
  kind : Byte
  addrValue : Word
  addrMask : Word
  dataValue : Word
  dataMask : Word
  chain : Byte
  action : Byte
  argument : Byte
  argMask : Word
  deriving DecidableEq, Repr

/-- The parameter block of KEY LOAD, 46 bytes (R33, R178): key index, transport key id, 32 ciphertext bytes and the
8-byte integrity tag. -/
structure KeyRecord where
  index : Long
  keyId : Word
  ciphertext : KeyBits
  integrity : BitVec 64
  deriving DecidableEq, Repr

/-- A command of the command table with its parameters, the length check of R167 behind it (R166). -/
inductive Command where
  | identify
  | status (page : Byte)
  | paramSet (id : Byte) (value : Word)
  | paramGet (id : Byte)
  | ruleWrite (block : RuleBlock)
  | ruleRead (number : Byte)
  | siteMapWrite (site port enabled : Byte)
  | siteMapRead (site : Byte)
  | groupWrite (group : Byte) (members : Word)
  | groupRead (group : Byte)
  | strapSet (port directions levels : Byte)
  | strapRead (port : Byte)
  | batchOpen (label floor : Long)
  | keyLoad (record : KeyRecord)
  | keyPurge
  | waferOpen (lot : Long) (number : Byte)
  | waferClose
  | touchdownBegin (enable : Word)
  | touchdownEnd
  | siteAbort (site : Byte)
  | mapQuery (x y : Word)
  | logRead
  | logDrop (count : Word)
  | eventRead
  | eventClear (keep : Word)
  deriving DecidableEq, Repr

/-- What a die puts on the response lines (R88): a positive or negative acknowledgement, good or bad parity, and a word
if one is present. -/
structure DieAnswer where
  positive : Bool
  parityGood : Bool
  word : Option Word
  deriving DecidableEq, Repr

/-- The commands of the block, one constructor per row of spec/opcode_table.json.

* The three byte rows carry the byte that arrives (assumption 5).
* A control-command row carries the tag of its frame and the command's parameters: the command reaches the Control
  Executor with the arrival checks 1 and 2 of R167 behind it (assumption 6).
* An event row of one port carries the port. -/
inductive Instr where
  -- reset and link
  | reset
  | resetRelease
  | receiverStart
  | frameLengthError (b : Byte)
  | requestFrame (b : Byte)
  | responseEmission
  | frameLeavesStream
  | linkRdyFall
  | linkRdyRise
  -- control commands
  | identify (tag : Byte)
  | status (tag page : Byte)
  | paramSet (tag id : Byte) (value : Word)
  | paramGet (tag id : Byte)
  | ruleWrite (tag : Byte) (block : RuleBlock)
  | ruleRead (tag number : Byte)
  | siteMapWrite (tag site port enabled : Byte)
  | siteMapRead (tag site : Byte)
  | groupWrite (tag group : Byte) (members : Word)
  | groupRead (tag group : Byte)
  | strapSet (tag port directions levels : Byte)
  | strapRead (tag port : Byte)
  | batchOpen (tag : Byte) (label floor : Long)
  | keyLoad (tag : Byte) (record : KeyRecord)
  /-- The unwrap ends: `some key` when the integrity tag matches, with the recovered key, `none` when it does not
  (assumption 3). -/
  | unwrapCompletion (recovered : Option KeyBits)
  | keyPurge (tag : Byte)
  | waferOpen (tag : Byte) (lot : Long) (number : Byte)
  | waferClose (tag : Byte)
  | touchdownBegin (tag : Byte) (enable : Word)
  | touchdownEnd (tag : Byte)
  | touchdownEndCompletion
  | siteAbort (tag site : Byte)
  | mapQuery (tag : Byte) (x y : Word)
  | logRead (tag : Byte)
  | logDrop (tag : Byte) (count : Word)
  | eventRead (tag : Byte)
  | eventClear (tag : Byte) (keep : Word)
  -- events at the ports, supplies and pins
  | transactionStart (port : PortId)
  | dieResponse (port : PortId) (answer : DieAnswer)
  | keyService
  | responseTimeout (port : PortId)
  | breakEnd (port : PortId)
  | settleExpiry (port : PortId)
  | supplyGoodChange (port : PortId) (good : Bool)
  | contactFall
  | contactRise
  | downstreamByte (b : Byte)
  deriving DecidableEq, Repr

end Sys2Proof
end

