-- ==== Sys2Proof/WellFormed.lean ====
section
/-! DEFINITION. WellFormed.lean: which commands can occur as the table describes them. The operand types allow only ports
and sites that exist, and parameters out of range are answered by the part itself (BADARG), so one check is left. -/

namespace Sys2Proof

/-- A FRAME_LENGTH_ERROR is "a header length byte above 48" (R163, and the table's row). -/
def Instr.wellFormed : Instr → Bool
  | .frameLengthError b => decide (Config.maxPayload < b.toNat)
  | _ => true

end Sys2Proof
end

