-- ==== Sys2Proof/Decode.lean ====
section
/-! DEFINITION. Decode.lean: the command a word spells by the table's bits. spec/opcode_table.json gives NO row any bits
("fields": [] throughout, no "fixed"), so no word spells a command (assumption 4). The decoding the part itself does, of
the bytes of the tester link (R162..R167, R177, R178), is in Machine/Operands.lean and Machine/Link.lean. -/

namespace Sys2Proof

/-- The command that `w`, read as `nbits` bits, spells by the opcode table: none, since no row has bits. -/
def decodeTableWord (_nbits _w : Nat) : Option Instr := none

end Sys2Proof
end

