-- ==== Sys2Proof/Machine/State.lean ====
section
/-! DEFINITION. State.lean: everything the spec lets the part hold, as plain data, and its value after reset. Where the spec
keeps the same fact twice (a count beside the marks it counts, an output beside the state that drives it) it is stored
once and the other view is a function of Machine/Flags.lean or Machine/Ops.lean; INVENTORY.md lists both. -/

namespace Sys2Proof.Machine

/-! ## Reset phase and pins -/

/-- Where the part stands in its reset (R187). -/
inductive Phase where
  /-- RSTn is low, or the power-on detector holds reset: "no input changes any state". -/
  | held
  /-- The part has left reset; bytes are "discarded without count" until the receiver starts. -/
  | released
  /-- The receiver hunts. -/
  | running
  deriving DecidableEq, Repr

/-- The levels of the input pins (R188). Reset does not change them (R148). -/
structure Pins where
  /-- CONTACT: high while the probes are down (R137). -/
  contact : Bool
  /-- LINK_RDY, the upstream ready input: the upstream lane is UP while it is high (R161, R176). -/
  linkRdy : Bool
  /-- SITEn supply good: high while the site's supply reports good (R119, R124). -/
  supplyGood : Vector Bool 16
  deriving DecidableEq, Repr

/-! ## Tester link (R161) -/

/-- Receive states (R162, R163). -/
inductive RxState where
  | hunt | syncSeen | header | payload | check
  deriving DecidableEq, Repr

/-- Status codes (R170). -/
inductive Status where
  | ok | dieNak | dieTimeout | refused | blocked | aborted | lost | noSite | qFull | partialOk
  | badSite | badKind | badLen
  | badCmd | badArg | busy | state | noBatch | poolFull | staleIndex | keyId | unwrapFail | noWafer | noContact | conflict
  deriving DecidableEq, Repr

/-- A response as a block hands it to the Link Interface (R173): tag and site of the request, status and payload. -/
structure Response where
  tag : Byte
  site : Byte
  status : Status
  payload : List Byte
  deriving DecidableEq, Repr

/-- The response frame whose bytes are being sent, with the flags byte and the check formed at its emission (R175). -/
structure SentFrame where
  response : Response
  flags : Byte
  check : Word
  deriving DecidableEq, Repr

/-- Link Interface state (R161). The upstream lane follows the pin `Pins.linkRdy` and is not stored a second time. -/
structure Link where
  rx : RxState
  /-- The bytes of the frame being received, from the tag on. -/
  partialFrame : List Byte
  /-- The count of bytes still expected in the present receive state. -/
  expected : Nat
  /-- Response frames produced and not yet sent completely, oldest first; the head is the one in transmission, if any. -/
  stream : List Response
  transmitting : Option SentFrame
  deriving DecidableEq, Repr

/-! ## Frame rules (R44) -/

/-- Kind match of a rule. -/
inductive KindMatch where
  | any | write | read
  deriving DecidableEq, Repr

/-- Identity fields a CAPTURE rule names (R44, R56). The argument mask exists for LOCK alone (R44, R45), so it stands in
that constructor. -/
inductive CaptureField where
  | lotHi | lotLo | wafer | xPos | yPos
  | lock (mask : Word)
  deriving DecidableEq, Repr

/-- Rule actions with their arguments (R44). Word numbers are 0..16 (R46). -/
inductive Action where
  | pass
  | capture (field : CaptureField)
  | inject (word : Fin 17)
  | verify (word : Fin 17)
  | gateBurn
  | gateLock
  | block
  deriving DecidableEq, Repr

/-- A stored rule (R44), in the normal form of R45. -/
structure Rule where
  enabled : Bool
  kind : KindMatch
  addrValue : Word
  addrMask : Word
  dataValue : Word
  dataMask : Word
  chain : Bool
  action : Action
  deriving DecidableEq, Repr

/-- The match record of a transaction (R53); argument and argument mask stand in the action. -/
structure MatchRecord where
  rule : Option (Fin 64)
  action : Action
  deriving DecidableEq, Repr

/-! ## Site ports (R82) -/

/-- The die operation of a request: kind, and the data word of a WRITE (R84). -/
inductive DieOp where
  | write (data : Word)
  | read
  deriving DecidableEq, Repr

/-- Names the merge record that collects a member request's result, and the member (R84, R113). -/
structure MergeRef where
  record : Fin 8
  member : SiteId
  deriving DecidableEq, Repr

/-- A request of a site queue (R84). -/
structure Request where
  tag : Byte
  site : Byte
  address : Word
  op : DieOp
  merge : Option MergeRef
  deriving DecidableEq, Repr

/-- Park causes (R82). -/
inductive ParkCause where
  | noTouchdown | notEnabled | contact
  deriving DecidableEq, Repr

/-- A transaction in flight (R82): the request as sent, its match record, the window read at its start in ticks (R89) and
the gear it was sent at (R95). -/
structure Transaction where
  request : Request
  record : MatchRecord
  window : Nat
  gear : Nat
  deriving DecidableEq, Repr

/-- Port states (R83). The park cause is present while PARKED, the transaction and the response timer while BUSY, the
break timer while BREAK; a timer holds the ticks it was loaded with (assumption 8). -/
inductive PortState where
  | parked (cause : ParkCause)
  | idle
  | busy (transaction : Transaction) (responseTimer : Nat)
  | breaking (breakTimer : Nat)
  deriving DecidableEq, Repr

/-- The port record (R82). -/
structure Port where
  state : PortState
  admissionClosed : Bool
  queue : List Request
  prevRule : Option (Fin 64)
  gear : Nat
  strapDirections : BitVec 4
  strapLevels : BitVec 4
  deriving DecidableEq, Repr

/-! ## Logical sites and groups (R104, R107, R114) -/

/-- An entry of the logical site map (R104). -/
structure MapSlot where
  port : PortId
  enabled : Bool
  deriving DecidableEq, Repr

/-- A member's result in a merge record (R114): its status, and its word for a READ with status OK. -/
structure MemberResult where
  status : Status
  word : Option Word
  deriving DecidableEq, Repr

/-- A merge record (R114). A member's done flag is that its slot is filled. -/
structure MergeRecord where
  tag : Byte
  group : Byte
  members : BitVec 16
  slots : Vector (Option MemberResult) 16
  deriving DecidableEq, Repr

/-! ## Provisioning contexts (R1, R2) -/

/-- Drain causes (R1): ABORTED, with the mark of a drain entered from LOCKING, or SUPPLY_FAULT. That a SUPPLY_FAULT drain
entered from LOCKING carries no mark either is a DESIGN CHOICE (assumption 20): R1 could be read to give it one, R18 names
none at that entry, and no rule reads it. -/
inductive DrainCause where
  | aborted (fromLocking : Bool)
  | supplyFault
  deriving DecidableEq, Repr

/-- The fourteen context states (R2). The drain cause is present exactly in DRAINING (R1) and stands in that
constructor. -/
inductive ContextState where
  | idle | ident | wait | held | loading | settling | ready | burning | checking | reburn | verified | locking
  | draining (cause : DrainCause)
  | done
  deriving DecidableEq, Repr

/-- Verdict codes (R26). -/
inductive Verdict where
  | none | bound | alreadyBound | lockMissing | scrap | foreignLock | wrongWafer | badId | duplicateDie | mapFull
  | abandoned | voided
  deriving DecidableEq, Repr

/-- Void reasons (R26). -/
inductive VoidReason where
  | fatalBits | retryLimit | supplyFault | contactLost | aborted | dieTimeout | dieNak
  deriving DecidableEq, Repr

/-- Pass kinds (R1). -/
inductive PassKind where
  | full | reburn
  deriving DecidableEq, Repr

/-- A die coordinate (X, Y). -/
structure Coord where
  x : Byte
  y : Byte
  deriving DecidableEq, Repr

/-- A captured identity (R1, R56). Uncaptured parts read 0 (R56); `captured` has bit n for capture field code n. -/
structure Identity where
  lot : Long
  wafer : Byte
  coord : Coord
  lock : Bool
  captured : BitVec 6
  deriving DecidableEq, Repr

/-- A key with its index and the label of its batch, in the pool or held by a context (R1, R31). -/
structure Key where
  index : Long
  bits : KeyBits
  label : Long
  deriving DecidableEq, Repr

/-- A verdict record (R1): verdict, void reason (VOIDED only), key index (BOUND and VOIDED only) and burn attempts. -/
structure VerdictRecord where
  verdict : Verdict
  reason : Option VoidReason
  keyIndex : Option Long
  attempts : Nat
  deriving DecidableEq, Repr

/-- The context record (R1) with the Image Unit's digest (R64). -/
structure Context where
  state : ContextState
  site : SiteId
  identity : Identity
  heldKey : Option Key
  exposed : Bool
  digest : Option Word
  image : Option (Vector Word 17)
  pass : PassKind
  injected : BitVec 17
  verified : BitVec 17
  missing : Vector Word 17
  attempts : Nat
  claim : Option Coord
  mapReserved : Bool
  logReserved : Bool
  verdict : Option VerdictRecord
  deriving DecidableEq, Repr

/-! ## Burn supplies (R119) -/

/-- Supply states (R119). The settle timer runs in SETTLING only and holds the ticks it was loaded with (assumption 8). -/
inductive SupplyState where
  | off
  | settling (timer : Nat)
  | onGood
  deriving DecidableEq, Repr

/-- The controller record (R119); the switch output is on in SETTLING and ON_GOOD. -/
structure Supply where
  state : SupplyState
  interval : Option Nat
  deriving DecidableEq, Repr

/-! ## Control Executor (R168) and Unwrap Unit (R34) -/

/-- An unwrap in flight: the wrapped key, the key index and the batch label read at its start (R34), and the tag its
response will carry (R173). -/
structure UnwrapJob where
  tag : Byte
  index : Long
  ciphertext : KeyBits
  integrity : BitVec 64
  label : Long
  deriving DecidableEq, Repr

/-- The Control Executor: IDLE, or EXECUTING one of the two commands that take time (R168). -/
inductive Executor where
  | idle
  | unwrapping (job : UnwrapJob)
  | endingTouchdown (tag : Byte)
  deriving DecidableEq, Repr

/-- Control Executor and control queue (R168). A queued command keeps its frame's tag. -/
structure Control where
  executor : Executor
  queue : List (Byte × Command)
  deriving DecidableEq, Repr

/-! ## Key pool, batch, wafer, die map, log, events, parameters -/

/-- Batch state (R29). -/
structure Batch where
  isOpen : Bool
  label : Long
  floor : Long
  deriving DecidableEq, Repr

/-- The four key accounting counters (R41). -/
structure KeyCounters where
  accepted : Long
  bound : Long
  voided : Long
  purged : Long
  deriving DecidableEq, Repr

/-- Touchdown states (R130, R131). -/
inductive TdState where
  | noWafer | waferOpen | touchdownOpen | touchdownEnding
  deriving DecidableEq, Repr

/-- The open wafer's lot and wafer number (R130). -/
structure Wafer where
  lot : Long
  number : Byte
  deriving DecidableEq, Repr

/-- The wafer and touchdown record (R130). -/
structure Touchdown where
  state : TdState
  wafer : Option Wafer
  number : Word
  enabled : BitVec 16
  contactLost : Bool
  deriving DecidableEq, Repr

/-- Outcomes of a map entry (R133); the key index is present for BOUND and VOIDED. -/
inductive MapOutcome where
  | bound (keyIndex : Long)
  | voided (keyIndex : Long)
  | tried
  deriving DecidableEq, Repr

/-- An entry of the die map (R133). -/
structure MapEntry where
  coord : Coord
  outcome : MapOutcome
  attempts : Nat
  lastTouchdown : Word
  deriving DecidableEq, Repr

/-- A log record (R150); `reason` is present for VOIDED. -/
structure LogRecord where
  sequence : Long
  kind : Verdict
  reason : Option VoidReason
  keyIndex : Long
  label : Long
  lot : Long
  wafer : Byte
  coord : Coord
  digest : Word
  attempts : Nat
  site : SiteId
  touchdown : Word
  deriving DecidableEq, Repr

/-- The Issuance Log (R149): the records, oldest first, and the next sequence number. -/
structure Log where
  records : List LogRecord
  nextSequence : Long
  deriving DecidableEq, Repr

/-- The Event Unit (R180, R184): latch n at bit n, and the three diagnostic counters. -/
structure Events where
  latches : BitVec 12
  linkErrors : Word
  unwrapFails : Word
  lateResponses : Word
  deriving DecidableEq, Repr

/-- The stored parameters (R171) but for GEAR_n, which stands in its port's record (R82). -/
structure Params where
  respTmo : Nat
  burnTmo : Nat
  settleCode : Nat
  settleScale : Nat
  burnLimit : Nat
  poolLow : Nat
  logHigh : Nat
  eventEnable : BitVec 12
  deriving DecidableEq, Repr

/-! ## The state of the part -/

/-- The state. `pending` and `strapSamples` are the model's own: the queue of commands on their way to the block, and the
number of STRAP READ samples taken, to which the free value `Config.strapSense` is applied (assumption 2). -/
structure State where
  phase : Phase
  pins : Pins
  link : Link
  control : Control
  siteMap : Vector MapSlot 16
  groups : Vector (BitVec 16) 15
  merge : Vector (Option MergeRecord) 8
  ports : Vector Port 16
  rules : Vector Rule 64
  contexts : Vector Context 16
  waitList : List PortId
  batch : Batch
  pool : List Key
  counters : KeyCounters
  supplies : Vector Supply 16
  td : Touchdown
  dieMap : List MapEntry
  log : Log
  events : Events
  params : Params
  transportKeyId : Word
  strapSamples : Nat
  pending : List Instr
  deriving DecidableEq, Repr

/-! ## Values after reset -/

/-- Identity with nothing captured (R1). -/
def Identity.reset : Identity :=
  { lot := 0, wafer := 0, coord := { x := 0, y := 0 }, lock := false, captured := 0 }

/-- Context n after reset (R1, R64); its logical site is n. -/
def Context.reset (n : PortId) : Context :=
  { state := .idle, site := n, identity := .reset, heldKey := none, exposed := false, digest := none, image := none,
    pass := .full, injected := 0, verified := 0, missing := Vector.replicate 17 0, attempts := 0, claim := none,
    mapReserved := false, logReserved := false, verdict := none }

/-- A port after reset (R82). -/
def Port.reset : Port :=
  { state := .parked .noTouchdown, admissionClosed := false, queue := [], prevRule := none, gear := 2,
    strapDirections := 0, strapLevels := 0 }

/-- A rule after reset: every field 0 (R44). -/
def Rule.reset : Rule :=
  { enabled := false, kind := .any, addrValue := 0, addrMask := 0, dataValue := 0, dataMask := 0, chain := false,
    action := .pass }

/-- Parameters after reset (R171). -/
def Params.reset : Params :=
  { respTmo := 50, burnTmo := 20, settleCode := 100, settleScale := 2, burnLimit := 3, poolLow := 8, logHigh := 192,
    eventEnable := 0 }

/-- The machine right after reset, with the part just released from it (R187): every field at the value its chapter states
for reset. The input pins, which reset does not set, stand as assumption 7 names them; the receiver has not started yet. -/
def State.reset : State :=
  { phase := .released
    pins := { contact := false, linkRdy := true, supplyGood := Vector.replicate 16 false }
    link := { rx := .hunt, partialFrame := [], expected := 0, stream := [], transmitting := none }
    control := { executor := .idle, queue := [] }
    siteMap := Vector.ofFn fun n => { port := n, enabled := false }
    groups := Vector.replicate 15 0
    merge := Vector.replicate 8 none
    ports := Vector.replicate 16 Port.reset
    rules := Vector.replicate 64 Rule.reset
    contexts := Vector.ofFn Context.reset
    waitList := []
    batch := { isOpen := false, label := 0, floor := 0 }
    pool := []
    counters := { accepted := 0, bound := 0, voided := 0, purged := 0 }
    supplies := Vector.replicate 16 { state := .off, interval := none }
    td := { state := .noWafer, wafer := none, number := 0, enabled := 0, contactLost := false }
    dieMap := []
    log := { records := [], nextSequence := 0 }
    events := { latches := 0, linkErrors := 0, unwrapFails := 0, lateResponses := 0 }
    params := Params.reset
    transportKeyId := Config.transportKeyId
    strapSamples := 0
    pending := [] }

/-! ## How a step can stop -/

/-- Faults: none. The spec makes every event of the part total (refusals it names are statuses of responses), so no
command stops the block; `Fault` has no constructor. -/
inductive Fault where
  deriving DecidableEq, Repr

/-- Refusals. -/
inductive Refusal where
  /-- Raised by an arm of `exec` whose command has no meaning yet (none has none). Safe: nothing is claimed of it. -/
  | notModelled (mnemonic : String)
  deriving DecidableEq, Repr

end Sys2Proof.Machine
end

