-- ==== Sys2Proof/Machine/Operands.lean ====
section
/-! DEFINITION. Operands.lean: the byte layouts of the part and the codes they carry. Multi-byte fields are most significant
byte first (R166, R177); Fletcher-16 is the one check function (R67). -/

namespace Sys2Proof.Machine

/-! ## Bytes -/

/-- A 16-bit field, most significant byte first (R177). -/
def be16 (w : Word) : List Byte := [w.extractLsb' 8 8, w.extractLsb' 0 8]

/-- A 32-bit field, most significant byte first (R166). -/
def be32 (w : Long) : List Byte :=
  [w.extractLsb' 24 8, w.extractLsb' 16 8, w.extractLsb' 8 8, w.extractLsb' 0 8]

/-- The 16-bit field of two bytes, the first the most significant (R177). -/
def word16 (hi lo : Byte) : Word := hi ++ lo

/-- The 32-bit field of four bytes, the first the most significant (R166). -/
def long32 (a b c d : Byte) : Long := a ++ b ++ c ++ d

/-- A byte string read as one number, the first byte the most significant (R166, R178). -/
def beNat (bytes : List Byte) : Nat := bytes.foldl (fun n b => n * 256 + b.toNat) 0

/-- A count as one byte of a result. -/
def byteOf (n : Nat) : Byte := BitVec.ofNat 8 n

/-- A count as two bytes of a result. -/
def wordOf (n : Nat) : Word := BitVec.ofNat 16 n

/-- A yes-or-no byte, reported as 0x01 or 0x00 (R166). -/
def flagByte (b : Bool) : Byte := if b then 1 else 0

/-- A yes-or-no byte as read: any non-zero value is yes (R166). -/
def readFlag (b : Byte) : Bool := b != 0

/-! ## Fletcher-16 (R67) -/

/-- The running sums A and B after one byte (R67, step 2). -/
def fletcherStep (sums : Nat × Nat) (b : Byte) : Nat × Nat :=
  let a := (sums.1 + b.toNat) % 255
  (a, (sums.2 + a) % 255)

/-- Fletcher-16 of a byte sequence: B × 256 + A (R67). -/
def fletcher16 (bytes : List Byte) : Word :=
  let sums := bytes.foldl fletcherStep (0, 0)
  wordOf (sums.2 * 256 + sums.1)

/-! ## Codes -/

/-- Status byte (R170). -/
def Status.code : Status → Byte
  | .ok => 0x00 | .dieNak => 0x01 | .dieTimeout => 0x02 | .refused => 0x03 | .blocked => 0x04 | .aborted => 0x05
  | .lost => 0x06 | .noSite => 0x07 | .qFull => 0x08 | .partialOk => 0x09
  | .badSite => 0x10 | .badKind => 0x11 | .badLen => 0x12
  | .badCmd => 0x20 | .badArg => 0x21 | .busy => 0x22 | .state => 0x23 | .noBatch => 0x24 | .poolFull => 0x25
  | .staleIndex => 0x26 | .keyId => 0x27 | .unwrapFail => 0x28 | .noWafer => 0x29 | .noContact => 0x2A
  | .conflict => 0x2B

/-- State code reported by STATUS and SITE ABORT (R2). -/
def ContextState.code : ContextState → Byte
  | .idle => 0 | .ident => 1 | .wait => 2 | .held => 3 | .loading => 4 | .settling => 5 | .ready => 6 | .burning => 7
  | .checking => 8 | .reburn => 9 | .verified => 10 | .locking => 11 | .draining _ => 12 | .done => 13

/-- Verdict code (R26). -/
def Verdict.code : Verdict → Byte
  | .none => 0x00 | .bound => 0x01 | .alreadyBound => 0x02 | .lockMissing => 0x03 | .scrap => 0x04
  | .foreignLock => 0x05 | .wrongWafer => 0x06 | .badId => 0x07 | .duplicateDie => 0x08 | .mapFull => 0x09
  | .abandoned => 0x0A | .voided => 0x0B

/-- Void reason code; absent is carried as 0x00 (R26). -/
def voidReasonCode : Option VoidReason → Byte
  | none => 0x00
  | some .fatalBits => 0x01 | some .retryLimit => 0x02 | some .supplyFault => 0x03 | some .contactLost => 0x04
  | some .aborted => 0x05 | some .dieTimeout => 0x06 | some .dieNak => 0x07

/-- Touchdown state code of STATUS page 0 (R172). -/
def TdState.code : TdState → Byte
  | .noWafer => 0 | .waferOpen => 1 | .touchdownOpen => 2 | .touchdownEnding => 3

/-- Map outcome code (R172). -/
def MapOutcome.code : MapOutcome → Byte
  | .bound _ => 0x01 | .voided _ => 0x02 | .tried => 0x03

/-- The key index of a map entry; it reads 0 for a TRIED entry (R146). -/
def MapOutcome.keyIndex : MapOutcome → Long
  | .bound i => i | .voided i => i | .tried => 0

/-- The kind of a die operation as a rule matches it (R49). -/
def DieOp.kind : DieOp → KindMatch
  | .write _ => .write
  | .read => .read

/-- Kind match code (R44). -/
def KindMatch.code : KindMatch → Byte
  | .any => 0 | .write => 1 | .read => 2

/-- Kind match of a code; above 2 there is none (R46, order 3). -/
def KindMatch.ofCode (b : Byte) : Option KindMatch :=
  if b = 0 then some .any else if b = 1 then some .write else if b = 2 then some .read else none

/-- Capture field code (R44). -/
def CaptureField.code : CaptureField → Byte
  | .lotHi => 0 | .lotLo => 1 | .wafer => 2 | .xPos => 3 | .yPos => 4 | .lock _ => 5

/-- Capture field of a code, the argument mask kept for LOCK alone (R44, R45); above 5 there is none (R46, order 8). -/
def CaptureField.ofCode (b : Byte) (mask : Word) : Option CaptureField :=
  match b.toNat with
  | 0 => some .lotHi | 1 => some .lotLo | 2 => some .wafer | 3 => some .xPos | 4 => some .yPos | 5 => some (.lock mask)
  | _ => none

/-- Action code (R44). -/
def Action.code : Action → Byte
  | .pass => 0 | .capture _ => 1 | .inject _ => 2 | .verify _ => 3 | .gateBurn => 4 | .gateLock => 5 | .block => 6

/-- The argument of a stored rule (R44, R45). -/
def Action.argument : Action → Byte
  | .capture f => f.code
  | .inject w => byteOf w.val
  | .verify w => byteOf w.val
  | _ => 0

/-- The argument mask of a stored rule: as written for CAPTURE of LOCK, 0x0000 in every other rule (R45). -/
def Action.argMask : Action → Word
  | .capture (.lock mask) => mask
  | _ => 0

/-- A word number 0..16, if the argument is one (R46, order 7). -/
def wordNumber (b : Byte) : Option (Fin 17) := if h : b.toNat < 17 then some ⟨b.toNat, h⟩ else none

/-- The action of an action code and its argument: none for a code above 6 or an argument out of the action's range
(R46, orders 3, 7 and 8). The argument of PASS, the gates and BLOCK is dropped (R45). -/
def Action.ofCode (code argument : Byte) (mask : Word) : Option Action :=
  match code.toNat with
  | 0 => some .pass
  | 1 => (CaptureField.ofCode argument mask).map .capture
  | 2 => (wordNumber argument).map .inject
  | 3 => (wordNumber argument).map .verify
  | 4 => some .gateBurn
  | 5 => some .gateLock
  | 6 => some .block
  | _ => none

/-- Whether an action may stand in a rule of a kind match (R46, orders 5 and 6). -/
def Action.allows : Action → KindMatch → Bool
  | .inject _, k => k == .write
  | .verify _, k => k == .read
  | .capture _, k => k == .read
  | _, _ => true

/-- The rule a RULE WRITE block stands for, in its normal form (R45), with its number, or none where one of the BADARG checks 2..8 of R46
applies. -/
def ruleOfBlock (r : RuleBlock) : Option (Fin 64 × Rule) :=
  if h : r.number.toNat < 64 then
    match KindMatch.ofCode r.kind, Action.ofCode r.action r.argument r.argMask with
    | some kind, some action =>
      if r.number = 0 ∧ readFlag r.chain then none
      else if action.allows kind then
        some (⟨r.number.toNat, h⟩,
          { enabled := readFlag r.enabled
            kind := kind
            addrValue := r.addrValue &&& r.addrMask
            addrMask := r.addrMask
            dataValue := if kind = .read then 0 else r.dataValue &&& r.dataMask
            dataMask := if kind = .read then 0 else r.dataMask
            chain := readFlag r.chain
            action := action })
      else none
    | _, _ => none
  else none

/-- A stored rule in the sixteen-byte layout of R178. -/
def Rule.bytes (n : Fin 64) (r : Rule) : List Byte :=
  [byteOf n.val, flagByte r.enabled, r.kind.code] ++ be16 r.addrValue ++ be16 r.addrMask ++ be16 r.dataValue ++
    be16 r.dataMask ++ [flagByte r.chain, r.action.code, r.action.argument] ++ be16 r.action.argMask

/-! ## Records and results -/

/-- A log record in the 28-byte layout of R179. -/
def LogRecord.bytes (r : LogRecord) : List Byte :=
  be32 r.sequence ++ [r.kind.code, voidReasonCode r.reason] ++ be32 r.keyIndex ++ be32 r.label ++ be32 r.lot ++
    [r.wafer, r.coord.x, r.coord.y] ++ be16 r.digest ++ [byteOf r.attempts, byteOf r.site.val] ++ be16 r.touchdown ++ [0]

/-- The MAP QUERY result, 11 bytes (R146, R172). -/
def mapQueryBytes (c : Coord) (claimed : Bool) : Option MapEntry → List Byte
  | none => [c.x, c.y, (if claimed then 2 else 0), 0, 0, 0, 0, 0, 0, 0, 0]
  | some e => [c.x, c.y, (if claimed then 3 else 1), e.outcome.code] ++ be32 e.outcome.keyIndex ++
      [byteOf e.attempts] ++ be16 e.lastTouchdown

/-- The checked bytes of a response frame (R177): tag, site, status, flags, length, payload. -/
def Response.body (r : Response) (flags : Byte) : List Byte :=
  [r.tag, r.site, r.status.code, flags, byteOf r.payload.length] ++ r.payload

/-- A response frame as it goes onto the link (R177). -/
def SentFrame.bytes (f : SentFrame) : List Byte :=
  [Config.sync0, Config.sync1] ++ f.response.body f.flags ++ be16 f.check

/-- The three-byte member entry of a merged response: status, then the word, 0x0000 where the member has none (R116). -/
def MemberResult.bytes (m : MemberResult) : List Byte := m.status.code :: be16 (m.word.getD 0)

/-! ## Request frames and command parameters -/

/-- A request frame that the receiver has completed (R163, R177): its bytes from the tag on, but for the check. -/
structure RequestFrame where
  tag : Byte
  site : Byte
  kind : Byte
  address : Word
  payload : List Byte
  deriving DecidableEq, Repr

/-- The checked bytes of a request frame: tag, site, kind, address high, address low, length, payload (R177). -/
def RequestFrame.body (f : RequestFrame) : List Byte :=
  [f.tag, f.site, f.kind] ++ be16 f.address ++ [byteOf f.payload.length] ++ f.payload

/-- A request frame as the tester sends it (R177): the sync pair, the checked bytes, then the check, B before A. -/
def RequestFrame.bytes (f : RequestFrame) : List Byte :=
  [Config.sync0, Config.sync1] ++ f.body ++ be16 (fletcher16 f.body)

/-- The frame of its collected bytes, from the tag on (R163): six header bytes, then the payload. -/
def RequestFrame.ofBody : List Byte → Option RequestFrame
  | tag :: site :: kind :: hi :: lo :: _len :: payload =>
    some { tag := tag, site := site, kind := kind, address := word16 hi lo, payload := payload }
  | _ => none

/-- The parameter length of each command code; none for a code that is not in the command table (R166). -/
def paramLength (code : Word) : Option Nat :=
  match code.toNat with
  | 0x0001 => some 0 | 0x0002 => some 1 | 0x0003 => some 3 | 0x0004 => some 1
  | 0x0010 => some 16 | 0x0011 => some 1 | 0x0012 => some 3 | 0x0013 => some 1 | 0x0014 => some 3 | 0x0015 => some 1
  | 0x0016 => some 3 | 0x0017 => some 1
  | 0x0020 => some 8 | 0x0021 => some 46 | 0x0022 => some 0
  | 0x0030 => some 5 | 0x0031 => some 0 | 0x0032 => some 2 | 0x0033 => some 0 | 0x0034 => some 1 | 0x0035 => some 4
  | 0x0040 => some 0 | 0x0041 => some 2
  | 0x0050 => some 0 | 0x0051 => some 2
  | _ => none

/-- The parameter block of RULE WRITE from its sixteen bytes (R178). -/
def ruleBlockOfBytes : List Byte → Option RuleBlock
  | [n, en, k, avh, avl, amh, aml, dvh, dvl, dmh, dml, ch, act, arg, gmh, gml] =>
    some { number := n, enabled := en, kind := k, addrValue := word16 avh avl, addrMask := word16 amh aml,
           dataValue := word16 dvh dvl, dataMask := word16 dmh dml, chain := ch, action := act, argument := arg,
           argMask := word16 gmh gml }
  | _ => none

/-- The key record of KEY LOAD from its 46 bytes (R178): index, key id, 32 ciphertext bytes, 8 tag bytes. -/
def keyRecordOfBytes (bytes : List Byte) : KeyRecord :=
  { index := BitVec.ofNat 32 (beNat (bytes.take 4))
    keyId := BitVec.ofNat 16 (beNat ((bytes.drop 4).take 2))
    ciphertext := BitVec.ofNat 256 (beNat ((bytes.drop 6).take 32))
    integrity := BitVec.ofNat 64 (beNat ((bytes.drop 38).take 8)) }

/-- The command of a code and of a payload of that command's parameter length (R166). -/
def commandOfPayload (code : Word) (payload : List Byte) : Option Command :=
  match code.toNat, payload with
  | 0x0001, [] => some .identify
  | 0x0002, [page] => some (.status page)
  | 0x0003, [id, hi, lo] => some (.paramSet id (word16 hi lo))
  | 0x0004, [id] => some (.paramGet id)
  | 0x0010, bytes => (ruleBlockOfBytes bytes).map .ruleWrite
  | 0x0011, [n] => some (.ruleRead n)
  | 0x0012, [site, port, en] => some (.siteMapWrite site port en)
  | 0x0013, [site] => some (.siteMapRead site)
  | 0x0014, [g, hi, lo] => some (.groupWrite g (word16 hi lo))
  | 0x0015, [g] => some (.groupRead g)
  | 0x0016, [port, dir, lvl] => some (.strapSet port dir lvl)
  | 0x0017, [port] => some (.strapRead port)
  | 0x0020, [a, b, c, d, e, f, g, h] => some (.batchOpen (long32 a b c d) (long32 e f g h))
  | 0x0021, bytes => if bytes.length = 46 then some (.keyLoad (keyRecordOfBytes bytes)) else none
  | 0x0022, [] => some .keyPurge
  | 0x0030, [a, b, c, d, n] => some (.waferOpen (long32 a b c d) n)
  | 0x0031, [] => some .waferClose
  | 0x0032, [hi, lo] => some (.touchdownBegin (word16 hi lo))
  | 0x0033, [] => some .touchdownEnd
  | 0x0034, [site] => some (.siteAbort site)
  | 0x0035, [xh, xl, yh, yl] => some (.mapQuery (word16 xh xl) (word16 yh yl))
  | 0x0040, [] => some .logRead
  | 0x0041, [hi, lo] => some (.logDrop (word16 hi lo))
  | 0x0050, [] => some .eventRead
  | 0x0051, [hi, lo] => some (.eventClear (word16 hi lo))
  | _, _ => none

/-! ## Command frames -/

/-- A number as `n` bytes, the first the most significant (R166, R178). -/
def bytesOf (n value : Nat) : List Byte := (List.range n).reverse.map fun i => byteOf (value / 256 ^ i)

/-- The parameter block of RULE WRITE as its sixteen bytes (R178). -/
def ruleBlockBytes (r : RuleBlock) : List Byte :=
  [r.number, r.enabled, r.kind] ++ be16 r.addrValue ++ be16 r.addrMask ++ be16 r.dataValue ++ be16 r.dataMask ++
    [r.chain, r.action, r.argument] ++ be16 r.argMask

/-- The key record of KEY LOAD as its 46 bytes (R178). -/
def keyRecordBytes (r : KeyRecord) : List Byte :=
  bytesOf 4 r.index.toNat ++ bytesOf 2 r.keyId.toNat ++ bytesOf 32 r.ciphertext.toNat ++ bytesOf 8 r.integrity.toNat

/-- The code of a command in the command table (R166). -/
def commandCode : Command → Word
  | .identify => 0x0001 | .status _ => 0x0002 | .paramSet _ _ => 0x0003 | .paramGet _ => 0x0004
  | .ruleWrite _ => 0x0010 | .ruleRead _ => 0x0011 | .siteMapWrite _ _ _ => 0x0012 | .siteMapRead _ => 0x0013
  | .groupWrite _ _ => 0x0014 | .groupRead _ => 0x0015 | .strapSet _ _ _ => 0x0016 | .strapRead _ => 0x0017
  | .batchOpen _ _ => 0x0020 | .keyLoad _ => 0x0021 | .keyPurge => 0x0022
  | .waferOpen _ _ => 0x0030 | .waferClose => 0x0031 | .touchdownBegin _ => 0x0032 | .touchdownEnd => 0x0033
  | .siteAbort _ => 0x0034 | .mapQuery _ _ => 0x0035
  | .logRead => 0x0040 | .logDrop _ => 0x0041
  | .eventRead => 0x0050 | .eventClear _ => 0x0051

/-- The parameters of a command, field by field in the order of the command table (R166). -/
def commandPayload : Command → List Byte
  | .identify | .keyPurge | .waferClose | .touchdownEnd | .logRead | .eventRead => []
  | .status page => [page]
  | .paramSet id value => id :: be16 value
  | .paramGet id => [id]
  | .ruleWrite block => ruleBlockBytes block
  | .ruleRead number => [number]
  | .siteMapWrite site port enabled => [site, port, enabled]
  | .siteMapRead site => [site]
  | .groupWrite group members => group :: be16 members
  | .groupRead group => [group]
  | .strapSet port directions levels => [port, directions, levels]
  | .strapRead port => [port]
  | .batchOpen label floor => be32 label ++ be32 floor
  | .keyLoad record => keyRecordBytes record
  | .waferOpen lot number => be32 lot ++ [number]
  | .touchdownBegin enable => be16 enable
  | .siteAbort site => [site]
  | .mapQuery x y => be16 x ++ be16 y
  | .logDrop count => be16 count
  | .eventClear keep => be16 keep

/-- The CONTROL frame in which the tester sends a command to the control site (R165, R166). -/
def commandFrame (c : Command) (tag : Byte) : RequestFrame :=
  { tag := tag, site := Config.controlSite, kind := 3, address := commandCode c, payload := commandPayload c }

/-! ## Parameters (R171) -/

/-- The parameters PARAM SET and PARAM GET name. -/
inductive Param where
  | respTmo | burnTmo | settleCode | settleScale | burnLimit | poolLow | logHigh | eventEnable
  | gear (port : PortId)
  deriving DecidableEq, Repr

/-- The parameter of an identifier (R171); GEAR_0..GEAR_15 are 0x10..0x1F. -/
def Param.ofId (id : Byte) : Option Param :=
  match id.toNat with
  | 0x00 => some .respTmo | 0x01 => some .burnTmo | 0x02 => some .settleCode | 0x03 => some .settleScale
  | 0x04 => some .burnLimit | 0x05 => some .poolLow | 0x06 => some .logHigh | 0x07 => some .eventEnable
  | n => if h : 0x10 ≤ n ∧ n < 0x20 then some (.gear ⟨n - 0x10, by omega⟩) else none

/-- A written value clamped to a range (R171). -/
def clamp (lo hi n : Nat) : Nat := max lo (min hi n)

end Sys2Proof.Machine
end

