-- ==== Sys2Proof/Machine/Flags.lean ====
section
/-! DEFINITION. Flags.lean: the event latches, attention and the diagnostic counters (R180..R184), and the outputs that follow
the state (ATTN, supply switches, strap drive). -/

namespace Sys2Proof.Machine

/-- The twelve events (R178, R180). -/
inductive Event where
  | linkErr | unwrapFail | poolLow | keyWait | logHigh | keyVoid | supplyFault | contactLost | dieTimeout | lateResp
  | tdComplete | mapFull
  deriving DecidableEq, Repr

/-- The bit of an event in the event masks (R178). -/
def Event.bit : Event → Nat
  | .linkErr => 0 | .unwrapFail => 1 | .poolLow => 2 | .keyWait => 3 | .logHigh => 4 | .keyVoid => 5 | .supplyFault => 6
  | .contactLost => 7 | .dieTimeout => 8 | .lateResp => 9 | .tdComplete => 10 | .mapFull => 11

/-- The mask with an event's bit alone. -/
def Event.mask (e : Event) : BitVec 12 := 1#12 <<< e.bit

/-- Raising an event sets its latch, whether or not it is enabled or set already (R180). -/
def State.raise (s : State) (e : Event) : State :=
  { s with events := { s.events with latches := s.events.latches ||| e.mask } }

/-- A 16-bit diagnostic counter raised by `n`, saturating at 65535 (R184). -/
def saturatingAdd (c : Word) (n : Nat) : Word := wordOf (min 65535 (c.toNat + n))

/-- `n` frames or responses discarded: LINK_ERRORS rises by `n`, and LINK_ERR is latched at each discard, so not at none
(R176, R184). -/
def State.countLinkErrors (s : State) (n : Nat) : State :=
  if n = 0 then s
  else ({ s with events := { s.events with linkErrors := saturatingAdd s.events.linkErrors n } } : State).raise .linkErr

/-- One unwrap whose tag does not match: UNWRAP_FAILS and UNWRAP_FAIL (R36, R184). -/
def State.countUnwrapFail (s : State) : State :=
  ({ s with events := { s.events with unwrapFails := saturatingAdd s.events.unwrapFails 1 } } : State).raise .unwrapFail

/-- One late response: LATE_RESPONSES and LATE_RESP (R94, R184). -/
def State.countLateResponse (s : State) : State :=
  ({ s with events := { s.events with lateResponses := saturatingAdd s.events.lateResponses 1 } } : State).raise .lateResp

/-- Attention: at least one latch is set whose enable bit is also set (R181). -/
def State.attention (s : State) : Bool := (s.events.latches &&& s.params.eventEnable) != 0

/-- The ATTN output: active while attention holds, inactive in reset (R181, R187). -/
def State.attn (s : State) : Bool := s.phase != .held && s.attention

/-- The flags byte of a response frame: bit 0 is the attention flag, the others are 0 (R175, R177). -/
def State.flagsByte (s : State) : Byte := flagByte s.attention

/-- The supply switch output: on in SETTLING and ON_GOOD (R119). -/
def SupplyState.switchOn : SupplyState → Bool
  | .off => false
  | .settling _ => true
  | .onGood => true

/-- What a port does with its transaction lines (R83). -/
inductive LineDrive where
  | highImpedance | drivenIdle | transaction | breakSignal
  deriving DecidableEq, Repr

/-- The transaction lines of a port, by its state (R83). -/
def PortState.lines : PortState → LineDrive
  | .parked _ => .highImpedance
  | .idle => .drivenIdle
  | .busy _ _ => .transaction
  | .breaking _ => .breakSignal

/-- The upstream data line is at its idle level while no frame is in transmission (R161, R187, R188). -/
def State.linkTxIdle (s : State) : Bool := s.link.transmitting.isNone

/-- What a port drives on strap line `i`: its configured level where the line is an output and the port is not PARKED;
otherwise the line is at high impedance, `none` (R97). -/
def Port.strapDrive (pt : Port) (i : Fin 4) : Option Bool :=
  match pt.state with
  | .parked _ => none
  | _ => if pt.strapDirections.getLsbD i.val then some (pt.strapLevels.getLsbD i.val) else none

end Sys2Proof.Machine
end

