-- ==== Sys2Proof/Machine/Image.lean ====
section
/-! DEFINITION. Image.lean: the arithmetic of the Image Unit: key words, binding digest, classification and verdict words
(R65..R74). -/

namespace Sys2Proof.Machine

/-- Key word `n`, 0..15: bytes k(2n) and k(2n+1) of the key, the first the high byte (R65). -/
def keyWord (k : KeyBits) (n : Nat) : Word := k.extractLsb' (240 - 16 * n) 16

/-- The binding tuple, 11 bytes: lot, wafer number, X, Y, key index (R68). -/
def bindingTuple (i : Identity) (keyIndex : Long) : List Byte :=
  be32 i.lot ++ [i.wafer, i.coord.x, i.coord.y] ++ be32 keyIndex

/-- The binding digest: Fletcher-16 of the binding tuple (R69). -/
def bindingDigest (i : Identity) (keyIndex : Long) : Word := fletcher16 (bindingTuple i keyIndex)

/-- Word `w` of the FULL pass image: a key word for 0..15, the binding digest for 16 (R66). -/
def fullWord (k : KeyBits) (digest : Word) (w : Fin 17) : Word := if w.val < 16 then keyWord k w.val else digest

/-- The FULL pass image (R66). -/
def fullImage (k : KeyBits) (digest : Word) : Vector Word 17 := Vector.ofFn (fullWord k digest)

/-- The word of the pass image that an injected write sends (R70). A context that accepts injection has an image; the
word of an absent image is never asked for and reads 0. -/
def Context.passWord (c : Context) (w : Fin 17) : Word := (c.image.map fun img => img[w]).getD 0

/-- The expected word of a verify, always of the FULL pass image, from the held key and the stored digest (R66, R72). -/
def Context.expectedWord (c : Context) (w : Fin 17) : Word :=
  fullWord ((c.heldKey.map (·.bits)).getD 0) (c.digest.getD 0) w

/-- The bits that are 1 in the expected word and 0 in the word read (R72). -/
def missingBits (expected read : Word) : Word := expected &&& ~~~read

/-- The bits that are 1 in the word read and 0 in the expected word (R72). -/
def extraBits (expected read : Word) : Word := read &&& ~~~expected

/-- The number of 1 bits of a word (R74). -/
def oneBits (w : Word) : Nat := (List.range 16).countP fun i => w.getLsbD i

/-- Classes of a verify read (R72). -/
inductive WordClass where
  | matched | reburn | fatal
  deriving DecidableEq, Repr

/-- The class of a word read against the word expected; FATAL takes precedence (R72). -/
def classify (expected read : Word) : WordClass :=
  if extraBits expected read ≠ 0 then .fatal
  else if missingBits expected read ≠ 0 then .reburn
  else .matched

/-- The verdict word of a classified read (R74): the code in the high byte, a count in the low byte. -/
def verdictWord (expected read : Word) : Word :=
  match classify expected read with
  | .matched => 0x0000
  | .reburn => word16 0x01 (byteOf (oneBits (missingBits expected read)))
  | .fatal => word16 0x02 (byteOf (oneBits (extraBits expected read)))

/-- The verdict word NOT_COMPARED, of any state other than CHECKING (R74). -/
def notCompared : Word := 0x0300

/-- The mask of one word number in a 17-bit image mask. -/
def wordBit (w : Fin 17) : BitVec 17 := 1#17 <<< w.val

/-- A 17-bit image mask with every bit set (R71, R75). -/
def fullMask : BitVec 17 := BitVec.allOnes 17

end Sys2Proof.Machine
end

