-- ==== Sys2Proof/Machine/Ops.lean ====
section
/-! DEFINITION. Ops.lean: the named operations that the commands share: accessors, responses, the key wait list and key
service, settlement, the ends of contexts and the image events of a context. -/

namespace Sys2Proof.Machine

/-- The sixteen ports in ascending order (R173). -/
def allPorts : List PortId := List.finRange 16

/-- The sixteen logical sites in ascending order. -/
def allSites : List SiteId := List.finRange 16

/-! ## Accessors -/

/-- The context of a port (R1: context n belongs to port n). -/
def State.ctx (s : State) (p : PortId) : Context := s.contexts[p]

/-- Replaces the context of a port. -/
def State.setCtx (s : State) (p : PortId) (c : Context) : State := { s with contexts := s.contexts.set p c }

/-- A port's record. -/
def State.port (s : State) (p : PortId) : Port := s.ports[p]

/-- Replaces a port's record. -/
def State.setPort (s : State) (p : PortId) (pt : Port) : State := { s with ports := s.ports.set p pt }

/-- A site's Burn Supply Controller. -/
def State.supply (s : State) (p : PortId) : Supply := s.supplies[p]

/-- Replaces a site's Burn Supply Controller. -/
def State.setSupply (s : State) (p : PortId) (u : Supply) : State := { s with supplies := s.supplies.set p u }

/-- Moves a context to a state. -/
def State.setCtxState (s : State) (p : PortId) (st : ContextState) : State :=
  s.setCtx p { s.ctx p with state := st }

/-- Moves a port to a state. -/
def State.setPortState (s : State) (p : PortId) (st : PortState) : State :=
  s.setPort p { s.port p with state := st }

/-- The control-flow part of the state: Control Executor and control queue. -/
def State.setExecutor (s : State) (e : Executor) : State := { s with control := { s.control with executor := e } }

/-- BUSY means a transaction is in flight, and every other port state means nothing is (R83). -/
def PortState.isBusy : PortState → Bool
  | .busy _ _ => true
  | _ => false

/-- PARKED, whatever the cause. -/
def PortState.isParked : PortState → Bool
  | .parked _ => true
  | _ => false

/-- A transaction is in flight on the port (R83). -/
def State.inFlight (s : State) (p : PortId) : Bool := (s.port p).state.isBusy

/-- A touchdown is open in TOUCHDOWN_OPEN and TOUCHDOWN_ENDING (R130). -/
def TdState.isOpen : TdState → Bool
  | .touchdownOpen => true
  | .touchdownEnding => true
  | _ => false

/-- A touchdown is open (R130). -/
def State.touchdownIsOpen (s : State) : Bool := s.td.state.isOpen

/-- Draining, whatever the cause. -/
def ContextState.isDraining : ContextState → Bool
  | .draining _ => true
  | _ => false

/-- The states whose context holds a key: HELD, LOADING through LOCKING, and DRAINING (R28, R30). -/
def ContextState.holdsKey : ContextState → Bool
  | .idle | .ident | .wait | .done => false
  | _ => true

/-- DONE or IDLE, as TOUCHDOWN END waits for (R23). -/
def ContextState.ended : ContextState → Bool
  | .idle | .done => true
  | _ => false

/-- Log reservations: the number of contexts whose mark is yes (R149). -/
def State.logReservations (s : State) : Nat := s.contexts.toList.countP (·.logReserved)

/-- Map slot reservations: the number of contexts whose mark is yes (R134). -/
def State.mapReservations (s : State) : Nat := s.contexts.toList.countP (·.mapReserved)

/-- The number of contexts holding keys (R42). -/
def State.heldKeys (s : State) : Nat := s.contexts.toList.countP (·.state.holdsKey)

/-- The pool custody count: pool entries plus contexts in HELD (R32). -/
def State.poolCustody (s : State) : Nat := s.pool.length + s.contexts.toList.countP (·.state == .held)

/-- The coordinate is in the claim set: some context holds it as its claim (R134). -/
def State.claimed (s : State) (c : Coord) : Bool := s.contexts.toList.any (·.claim == some c)

/-- The logical site is in the enabled set (R130). -/
def State.siteEnabled (s : State) (i : SiteId) : Bool := s.td.enabled.getLsbD i.val

/-- The port a logical site's map entry names (R104). -/
def State.sitePort (s : State) (i : SiteId) : PortId := (s.siteMap[i]).port

/-! ## Responses (R173, R174, R176) -/

/-- A block hands a response to the Link Interface: it joins the tail of the upstream stream, or is discarded and counted
where the lane is DOWN or 192 frames stand in the stream. -/
def State.emit (s : State) (r : Response) : State :=
  if s.pins.linkRdy ∧ s.link.stream.length < Config.streamCapacity then
    { s with link := { s.link with stream := s.link.stream ++ [r] } }
  else s.countLinkErrors 1

/-- A command's response, from the control site (R167, R173). -/
def State.respond (s : State) (tag : Byte) (status : Status) (payload : List Byte) : State :=
  s.emit { tag := tag, site := Config.controlSite, status := status, payload := payload }

/-- A command answered OK with its result. -/
def State.respondOk (s : State) (tag : Byte) (payload : List Byte) : State := s.respond tag .ok payload

/-- A command refused: the status and no payload (R166). -/
def State.refuse (s : State) (tag : Byte) (status : Status) : State := s.respond tag status []

/-! ## Merge records (R114..R116) -/

/-- The members of a bitmap, in ascending logical site order. -/
def membersOf (bitmap : BitVec 16) : List SiteId := allSites.filter fun i => bitmap.getLsbD i.val

/-- The last done flag is set: every member's slot is filled (R116). -/
def MergeRecord.complete (m : MergeRecord) : Bool := (membersOf m.members).all fun i => (m.slots[i]).isSome

/-- The results of the members of a bitmap, in ascending logical site order. -/
def memberResults (members : BitVec 16) (slots : Vector (Option MemberResult) 16) : List MemberResult :=
  (membersOf members).filterMap fun i => slots[i]

/-- The merged response: overall OK when every member is OK, PARTIAL otherwise, and one three-byte entry per member
(R116). -/
def mergedResponse (m : MergeRecord) : Response :=
  let results := memberResults m.members m.slots
  { tag := m.tag, site := m.group, status := if results.all (·.status == .ok) then .ok else .partialOk,
    payload := results.flatMap (·.bytes) }

/-- A port's result of a member request: it fills the member's slot, and the delivery that fills the last slot produces
the merged response and releases the record (R115, R116). -/
def State.deliverMember (s : State) (ref : MergeRef) (res : MemberResult) : State :=
  match s.merge[ref.record] with
  | none => s
  | some m =>
    let m' := { m with slots := m.slots.set ref.member (some res) }
    if m'.complete then ({ s with merge := s.merge.set ref.record none } : State).emit (mergedResponse m')
    else { s with merge := s.merge.set ref.record (some m') }

/-- A port produces the response of a request (R103): upstream as one frame for a single-site request, into its merge
record for a member request. The data word is there for an OK READ alone (R63). -/
def State.deliver (s : State) (r : Request) (status : Status) (word : Option Word) : State :=
  match r.merge with
  | none => s.emit { tag := r.tag, site := r.site, status := status, payload := (word.map be16).getD [] }
  | some ref => s.deliverMember ref { status := status, word := word }

/-- A port answers every request in its queue with one status, in queue order, and the queue becomes empty (R100, R101). -/
def State.answerQueue (s : State) (p : PortId) (status : Status) : State :=
  let queue := (s.port p).queue
  queue.foldl (fun s r => s.deliver r status none) (s.setPort p { s.port p with queue := [] })

/-! ## Burn supplies (R119..R128) -/

/-- The settle interval in ticks: SETTLE_CODE × 2^(5 + SETTLE_SCALE) (R121). -/
def settleTicks (code scale : Nat) : Nat := code * 2 ^ (5 + scale)

/-- A switch-on request: from OFF the controller records the interval, closes the switch and starts the settle timer; in
SETTLING or ON_GOOD it restarts nothing (R122). -/
def State.switchOn (s : State) (p : PortId) : State :=
  match (s.supply p).state with
  | .off =>
    let ticks := settleTicks s.params.settleCode s.params.settleScale
    s.setSupply p { state := .settling ticks, interval := some ticks }
  | _ => s

/-- Opens the switch and clears the settle timer, on the context's request, a fault or contact loss (R119, R126, R127). -/
def State.switchOff (s : State) (p : PortId) : State := s.setSupply p { s.supply p with state := .off }

/-! ## Key pool and key service (R31, R37, R43) -/

/-- Places a key in the pool at the position its index gives (R31). -/
def poolInsert (k : Key) : List Key → List Key
  | [] => [k]
  | h :: t => if h.index < k.index then h :: poolInsert k t else k :: h :: t

/-- After a removal from the pool, POOL_LOW is latched where the free count is below the parameter (R43). -/
def State.checkPoolLow (s : State) : State := if s.pool.length < s.params.poolLow then s.raise .poolLow else s

/-- The context that key service leaves in HELD (R8): key and log reservation taken, digest and FULL image formed, pass
FULL, masks and attempts cleared. -/
def Context.served (c : Context) (k : Key) : Context :=
  let digest := bindingDigest c.identity k.index
  { c with
    state := .held, heldKey := some k, exposed := false, digest := some digest,
    image := some (fullImage k.bits digest), pass := .full, injected := 0, verified := 0,
    missing := Vector.replicate 17 0, attempts := 0, logReserved := true }

/-- One service, where its three conditions hold: the head of the wait list receives the lowest-indexed key and a log
reservation (R37). -/
def State.serveHead (s : State) : Option State :=
  match s.waitList, s.pool with
  | p :: waiting, k :: free =>
    if s.log.records.length + s.logReservations < Config.logCapacity then
      some (({ s with waitList := waiting, pool := free } : State).setCtx p ((s.ctx p).served k)).checkPoolLow
    else none
  | _, _ => none

/-- Services follow one another until a condition fails, at most `fuel` of them (R37). -/
def State.serve : Nat → State → State
  | 0, s => s
  | fuel + 1, s =>
    match s.serveHead with
    | some t => State.serve fuel t
    | none => s

/-- The pool serves the key wait list (R37): at most one service for each context that waits. -/
def State.serviceKeys (s : State) : State := State.serve s.waitList.length s

/-- The service of a trigger of R38, where the trigger occurred. -/
def State.serviceIf (s : State) (triggered : Bool) : State := if triggered then s.serviceKeys else s

/-! ## Die map (R133, R144) -/

/-- The key order of the canonical list of map entries: the die map "keeps no order" (R133), and the model holds it
sorted by coordinate so that equal maps are equal data (assumption 9). -/
def Coord.key (c : Coord) : Nat := c.x.toNat * 256 + c.y.toNat

/-- The map entry of a coordinate (R133). -/
def mapLookup (m : List MapEntry) (c : Coord) : Option MapEntry := m.find? fun e => e.coord == c

/-- Writes an entry at its coordinate, keeping the list sorted. -/
def mapPut (e : MapEntry) : List MapEntry → List MapEntry
  | [] => [e]
  | h :: t =>
    if h.coord.key < e.coord.key then h :: mapPut e t
    else if h.coord = e.coord then e :: t
    else e :: h :: t

/-- The attempts count raised by 1, saturating at 7 (R133, R144). -/
def bumpAttempts (n : Nat) : Nat := min Config.maxDieAttempts (n + 1)

/-- The claim of a settling context is settled with the die map (R144): the reservation becomes an entry, or the TRIED
entry changes. A context without a claim leaves the map as it is. -/
def State.settleClaim (s : State) (p : PortId) (outcome : MapOutcome) : State :=
  match (s.ctx p).claim with
  | none => s
  | some c =>
    let attempts :=
      if (s.ctx p).mapReserved then 1 else bumpAttempts (((mapLookup s.dieMap c).map (·.attempts)).getD 0)
    { s with dieMap := mapPut { coord := c, outcome := outcome, attempts := attempts, lastTouchdown := s.td.number }
                         s.dieMap }

/-! ## Issuance Log (R150, R152, R158) -/

/-- The record a BOUND or VOIDED settlement hands to the log (R24, R150). The context holds a key and has a digest then;
fields of an absent key or digest would read 0. -/
def State.logRecordOf (s : State) (p : PortId) (kind : Verdict) (reason : Option VoidReason) : LogRecord :=
  let c := s.ctx p
  { sequence := s.log.nextSequence, kind := kind, reason := reason,
    keyIndex := (c.heldKey.map (·.index)).getD 0, label := (c.heldKey.map (·.label)).getD 0,
    lot := c.identity.lot, wafer := c.identity.wafer, coord := c.identity.coord, digest := c.digest.getD 0,
    attempts := c.attempts, site := c.site, touchdown := s.td.number }

/-- Appends a record at the tail, and latches LOG_HIGH where the count then stands at or above a non-zero LOG_HIGH (R152,
R158). -/
def State.appendRecord (s : State) (r : LogRecord) : State :=
  let t := { s with log := { records := s.log.records ++ [r], nextSequence := s.log.nextSequence + 1 } }
  if s.params.logHigh ≠ 0 ∧ s.params.logHigh ≤ t.log.records.length then t.raise .logHigh else t

/-! ## Settlement (R24, R25, R144, R152, R153) -/

/-- Every context whose logical site was enabled is in DONE (R25). -/
def State.touchdownComplete (s : State) : Bool :=
  allSites.all fun i => !s.siteEnabled i || (s.ctx (s.sitePort i)).state == .done

/-- The context that a settlement leaves: DONE with its verdict record; held key, digest, image, claim and reservations
absent (R24, R80). -/
def Context.closed (c : Context) (v : VerdictRecord) : Context :=
  { c with
    state := .done, heldKey := none, digest := none, image := none, claim := none, mapReserved := false,
    logReserved := false, verdict := some v }

/-- The end of every settlement: the context is in DONE with its verdict record, its key, image, claim and reservations
absent, its supply off (R24, R80, R126); TD_COMPLETE is latched where this leaves every enabled context in DONE (R25). -/
def State.closeContext (s : State) (p : PortId) (v : VerdictRecord) : State :=
  let t := (s.setCtx p ((s.ctx p).closed v)).switchOff p
  if t.touchdownComplete then t.raise .tdComplete else t

/-- Settlement with verdict BOUND (R24): log record, map entry, BOUND counter. -/
def State.settleBound (s : State) (p : PortId) : State :=
  let index := ((s.ctx p).heldKey.map (·.index)).getD 0
  let v : VerdictRecord := { verdict := .bound, reason := none, keyIndex := some index, attempts := (s.ctx p).attempts }
  let s := s.appendRecord (s.logRecordOf p .bound none)
  let s := s.settleClaim p (.bound index)
  let s := { s with counters := { s.counters with bound := s.counters.bound + 1 } }
  s.closeContext p v

/-- Settlement with verdict VOIDED (R24): log record with the void reason, map entry, VOIDED counter, event KEY_VOID. -/
def State.settleVoided (s : State) (p : PortId) (reason : VoidReason) : State :=
  let index := ((s.ctx p).heldKey.map (·.index)).getD 0
  let v : VerdictRecord :=
    { verdict := .voided, reason := some reason, keyIndex := some index, attempts := (s.ctx p).attempts }
  let s := s.appendRecord (s.logRecordOf p .voided (some reason))
  let s := s.settleClaim p (.voided index)
  let s := { s with counters := { s.counters with voided := s.counters.voided + 1 } }
  (s.raise .keyVoid).closeContext p v

/-- Settlement with verdict ABANDONED (R24, R39, R153): the context leaves the wait list, a held key goes back to the
pool, the claim leaves a TRIED entry. -/
def State.settleAbandoned (s : State) (p : PortId) : State :=
  let v : VerdictRecord := { verdict := .abandoned, reason := none, keyIndex := none, attempts := (s.ctx p).attempts }
  let pool := match (s.ctx p).heldKey with
    | some k => poolInsert k s.pool
    | none => s.pool
  let s := { s with waitList := s.waitList.filter (· ≠ p), pool := pool }
  let s := s.settleClaim p .tried
  s.closeContext p v

/-- A rejection of the identity check (R6): no void reason, no key index, burn attempts 0, nothing settled with map, log
or pool. -/
def State.settleRejected (s : State) (p : PortId) (verdict : Verdict) : State :=
  s.closeContext p { verdict := verdict, reason := none, keyIndex := none, attempts := 0 }

/-! ## Outcomes of a transaction and the ends of contexts -/

/-- Outcomes of a die transaction (R88, R92, R100). -/
inductive TxOutcome where
  | ok (word : Option Word)
  | nak
  | timeout
  | lost
  deriving DecidableEq, Repr

/-- The outcome is OK. -/
def TxOutcome.isOk : TxOutcome → Bool
  | .ok _ => true
  | _ => false

/-- The end of a drain by the end of its transaction (R21). -/
def State.endDrain (s : State) (p : PortId) (cause : DrainCause) (o : TxOutcome) : State :=
  match cause with
  | .aborted true => if o.isOk then s.settleBound p else s.settleVoided p .aborted
  | .aborted false => s.settleVoided p .aborted
  | .supplyFault => s.settleVoided p .supplyFault

/-- A context is ended by SITE ABORT or TOUCHDOWN END (R20, R23). -/
def State.abortContext (s : State) (p : PortId) : State :=
  match (s.ctx p).state with
  | .idle | .done | .draining _ => s
  | .ident | .wait | .held => s.settleAbandoned p
  | .loading | .settling | .ready | .checking | .reburn | .verified =>
    if s.inFlight p then (s.setCtxState p (.draining (.aborted false))).switchOff p
    else s.settleVoided p .aborted
  | .burning => (s.setCtxState p (.draining (.aborted false))).switchOff p
  | .locking => s.setCtxState p (.draining (.aborted true))

/-- A context acts on contact loss (R22). -/
def State.contactLostContext (s : State) (p : PortId) : State :=
  match (s.ctx p).state with
  | .idle | .done => s
  | .ident | .wait | .held => s.settleAbandoned p
  | .draining cause => s.endDrain p cause .lost
  | _ => s.settleVoided p .contactLost

/-- A context acts on a supply fault after settle (R18). -/
def State.supplyFaultContext (s : State) (p : PortId) : State :=
  match (s.ctx p).state with
  | .ready | .checking | .reburn | .verified =>
    if s.inFlight p then s.setCtxState p (.draining .supplyFault) else s.settleVoided p .supplyFault
  | .burning | .locking => s.setCtxState p (.draining .supplyFault)
  | .draining (.aborted true) => s.setCtxState p (.draining .supplyFault)
  | _ => s

/-- The order in which the settlements of one event are taken: ascending logical site order of the contexts (R154). -/
def State.settlementOrder (s : State) : List PortId :=
  allSites.flatMap fun i => allPorts.filter fun p => (s.ctx p).site == i

/-- Some context is in HELD, so that ending every context returns a key and frees a log slot (R38). -/
def State.anyHeld (s : State) : Bool := allPorts.any fun p => (s.ctx p).state == .held

/-! ## Touchdown end completion (R23, R140) and the control queue's release -/

/-- The verdict code a context reports: that of its record, NONE where the record is absent (R1). -/
def Context.verdictCode (c : Context) : Byte := (c.verdict.map (·.verdict.code)).getD Verdict.none.code

/-- The sixteen verdict bytes of TOUCHDOWN END, in logical site order (R23). -/
def State.verdictBytes (s : State) : List Byte :=
  allSites.map fun i => if s.siteEnabled i then (s.ctx (s.sitePort i)).verdictCode else Verdict.none.code

/-- The condition of completion: every context in DONE or IDLE and no port BUSY (R140). -/
def State.quiet (s : State) : Bool := allPorts.all fun p => (s.ctx p).state.ended && !s.inFlight p

/-- What completion makes of a context: DONE returns to IDLE and keeps its verdict record (R140). -/
def Context.returned (c : Context) : Context := if c.state = .done then { c with state := .idle } else c

/-- What completion makes of a port: PARKED with cause NO_TOUCHDOWN, any break ended (R102). -/
def Port.parkedAtEnd (pt : Port) : Port := { pt with state := .parked .noTouchdown }

/-- The completion of the TOUCHDOWN END in execution, in a single event (R140). The executor is left IDLE. -/
def State.completeTouchdown (s : State) (tag : Byte) : State :=
  let result := be16 s.td.number ++ s.verdictBytes
  ({ s with
    contexts := s.contexts.map Context.returned
    ports := s.ports.map Port.parkedAtEnd
    td := { s.td with state := .waferOpen }
    control := { s.control with executor := .idle } } : State).respondOk tag result

/-- The tag of the TOUCHDOWN END that completes now: one is in execution, the touchdown is ending, every context is in DONE
or IDLE and no port is BUSY (R140). -/
def State.completionDue (s : State) : Option Byte :=
  match s.control.executor with
  | .endingTouchdown tag => if s.td.state = .touchdownEnding ∧ s.quiet then some tag else none
  | _ => none

/-- Completes the TOUCHDOWN END in execution where its condition holds (R140). -/
def State.completeIfQuiet (s : State) : State :=
  match s.completionDue with
  | some tag => s.completeTouchdown tag
  | none => s

/-! ## How a command's meaning is applied -/

/-- While reset lasts no input changes any state (R187): a command then has no effect but `atPins`, the level of an input
pin; otherwise it has its effect. -/
def whileRunning (s : State) (effect : State → State) (atPins : State → State := id) :
    Host.Outcome State Fault Refusal :=
  .next (if s.phase = .held then atPins s else effect s)

end Sys2Proof.Machine
end

