-- ==== Sys2Proof/Machine/Contexts.lean ====
section
/-! DEFINITION. Contexts.lean: what a provisioning context does at the start and at the end of a transaction of its port
(R3, R5..R19, R21), with the identity check and the Image Unit's events. -/

namespace Sys2Proof.Machine

/-! ## At the start (R3, R9, R12, R19) -/

/-- What the context answers (R3). -/
inductive StartAnswer where
  | send
  | substitute (word : Word)
  | refused
  deriving DecidableEq, Repr

/-- The context's answer to an action, by its state (R3). BLOCK never reaches the context. -/
def Context.startAnswer (c : Context) (a : Action) : StartAnswer :=
  match a with
  | .inject w =>
    match c.state with
    | .held | .loading | .reburn => .substitute (c.passWord w)
    | _ => .refused
  | .gateBurn => if c.state = .ready then .send else .refused
  | .gateLock => if c.state = .verified then .send else .refused
  | _ => .send

/-- The context after the start of a transaction it admitted: the first injected write exposes the key (R9), a GATE-BURN
in READY counts an attempt (R12), a GATE-LOCK in VERIFIED enters LOCKING (R19). -/
def Context.atStart (c : Context) (a : Action) : Context :=
  match a, c.state with
  | .inject _, .held => { c with state := .loading, exposed := true }
  | .gateBurn, .ready => { c with state := .burning, attempts := c.attempts + 1 }
  | .gateLock, .verified => { c with state := .locking }
  | _, _ => c

/-! ## Capture and the identity check (R5, R56, R142, R143) -/

/-- The mask with one capture field's bit (R56). -/
def CaptureField.mask (f : CaptureField) : BitVec 6 := 1#6 <<< f.code.toNat

/-- Records one captured word (R56). -/
def Identity.record (i : Identity) (f : CaptureField) (w : Word) : Identity :=
  let i := { i with captured := i.captured ||| f.mask }
  match f with
  | .lotHi => { i with lot := w ++ i.lot.extractLsb' 0 16 }
  | .lotLo => { i with lot := i.lot.extractLsb' 16 16 ++ w }
  | .wafer => { i with wafer := w.extractLsb' 0 8 }
  | .xPos => { i with coord := { i.coord with x := w.extractLsb' 0 8 } }
  | .yPos => { i with coord := { i.coord with y := w.extractLsb' 0 8 } }
  | .lock mask => { i with lock := (w &&& mask) != 0 }

/-- The capture mask holds all six bits (R5). -/
def Identity.complete (i : Identity) : Bool := i.captured == BitVec.allOnes 6

/-- A wafer number within 1..25 (R132, R142). -/
def validWafer (n : Byte) : Bool := 1 ≤ n.toNat && n.toNat ≤ 25

/-- The identity check, conditions 1..8 in order: a rejection verdict, or none for a pass (R142). -/
def State.identityCheck (s : State) (i : Identity) : Option Verdict :=
  let outcome : Option MapOutcome := (mapLookup s.dieMap i.coord).map (·.outcome)
  if !validWafer i.wafer then some .badId
  else if s.td.wafer ≠ some { lot := i.lot, number := i.wafer } then some .wrongWafer
  else if s.claimed i.coord then some .duplicateDie
  else
    match outcome with
    | some (.bound _) => if i.lock then some .alreadyBound else some .lockMissing
    | some (.voided _) => some .scrap
    | other =>
      if i.lock then some .foreignLock
      else if other.isNone ∧ Config.mapCapacity ≤ s.dieMap.length + s.mapReservations then some .mapFull
      else none

/-- A check pass: the claim is recorded, a map slot reserved where the coordinate has no entry, and the context enters
WAIT at the tail of the key wait list (R143, R6, R7). -/
def State.passCheck (s : State) (p : PortId) : State :=
  let c := s.ctx p
  ({ s with waitList := s.waitList ++ [p] } : State).setCtx p
    { c with
      state := .wait, claim := some c.identity.coord,
      mapReserved := (mapLookup s.dieMap c.identity.coord).isNone }

/-- A joining context asks the pool to serve the list; KEY_WAIT is latched where it is left on the list (R7). -/
def State.serveJoined (s : State) (p : PortId) : State :=
  let t := s.serviceKeys
  if p ∈ t.waitList then t.raise .keyWait else t

/-- The identity check of a context whose capture is complete, and what follows from it at the same event (R6, R142). -/
def State.checkIdentity (s : State) (p : PortId) : State :=
  match s.identityCheck (s.ctx p).identity with
  | some .mapFull => (s.raise .mapFull).settleRejected p .mapFull
  | some v => s.settleRejected p v
  | none => (s.passCheck p).serveJoined p

/-- An OK CAPTURE in IDENT: the field is recorded, and a complete capture runs the check at this event (R5, R55). -/
def State.captureField (s : State) (p : PortId) (f : CaptureField) (w : Word) : State :=
  let c := s.ctx p
  let t := s.setCtx p { c with identity := c.identity.record f w }
  if (t.ctx p).identity.complete then t.checkIdentity p else t

/-! ## Injection (R10, R71) -/

/-- An injected write that ends OK outside a drain sets its mask bit; the outcome that makes the mask full moves LOADING to
SETTLING, with the switch-on request, and REBURN to READY (R10, R71). -/
def State.injectedEnd (s : State) (p : PortId) (w : Fin 17) : State :=
  let c := s.ctx p
  let t := s.setCtx p { c with injected := c.injected ||| wordBit w }
  if (t.ctx p).injected = fullMask then
    match c.state with
    | .loading => (t.setCtxState p .settling).switchOn p
    | .reburn => t.setCtxState p .ready
    | _ => t
  else t

/-! ## Burn, verify and lock (R13..R16, R19, R72..R77) -/

/-- The end of the GATE-BURN of a context in BURNING (R13, R77). -/
def State.burnEnd (s : State) (p : PortId) (o : TxOutcome) : State :=
  match o with
  | .ok _ => s.setCtx p { s.ctx p with state := .checking, verified := 0 }
  | .nak => s.settleVoided p .dieNak
  | .timeout => s.settleVoided p .dieTimeout
  | .lost => s

/-- The end of the GATE-LOCK of a context in LOCKING (R19). -/
def State.lockEnd (s : State) (p : PortId) (o : TxOutcome) : State :=
  match o with
  | .ok _ => s.settleBound p
  | .nak => s.settleVoided p .dieNak
  | .timeout => s.settleVoided p .dieTimeout
  | .lost => s

/-- The start of a REBURN pass: its image is the missing masks (R16, R76). -/
def Context.startReburn (c : Context) : Context :=
  { c with state := .reburn, pass := .reburn, image := some c.missing, injected := 0 }

/-- The pass ends: VERIFIED, RETRY_LIMIT or a REBURN pass (R16, R75). -/
def State.passEnd (s : State) (p : PortId) : State :=
  let c := s.ctx p
  if c.missing = Vector.replicate 17 0 then s.setCtxState p .verified
  else if s.params.burnLimit ≤ c.attempts then s.settleVoided p .retryLimit
  else s.setCtx p c.startReburn

/-- The context that a classification of MATCH or REBURN leaves (R73). -/
def Context.afterVerify (c : Context) (w : Fin 17) (read : Word) : Context :=
  { c with missing := c.missing.set w (missingBits (c.expectedWord w) read), verified := c.verified ||| wordBit w }

/-- An OK VERIFY in CHECKING (R15, R73, R75). -/
def State.verifyEnd (s : State) (p : PortId) (w : Fin 17) (read : Word) : State :=
  let c := s.ctx p
  if classify (c.expectedWord w) read = .fatal then s.settleVoided p .fatalBits
  else
    let t := s.setCtx p (c.afterVerify w read)
    if (t.ctx p).verified = fullMask then t.passEnd p else t

/-! ## The end of a transaction -/

/-- The context acts on the end of a transaction of its port, by its state, the action and the outcome. LOST reaches the
contexts by contact loss (R22), so nothing follows from it here. -/
def State.contextAtEnd (s : State) (p : PortId) (a : Action) (o : TxOutcome) : State :=
  match (s.ctx p).state, a, o with
  | .draining cause, _, o => s.endDrain p cause o
  | .ident, .capture f, .ok (some w) => s.captureField p f w
  | _, .inject w, .ok _ => s.injectedEnd p w
  | .burning, .gateBurn, o => s.burnEnd p o
  | .locking, .gateLock, o => s.lockEnd p o
  | .checking, .verify w, .ok (some read) => s.verifyEnd p w read
  | _, _, _ => s

/-- The status and the data word of the response to a sent transaction (R63). The word of a VERIFY is replaced by the
verdict word, in CHECKING that of the classification and NOT_COMPARED in every other state (R59, R74). -/
def Context.responseOf (c : Context) (a : Action) (o : TxOutcome) : Status × Option Word :=
  match o with
  | .ok none => (.ok, none)
  | .ok (some w) =>
    match a with
    | .verify n => (.ok, some (if c.state = .checking then verdictWord (c.expectedWord n) w else notCompared))
    | _ => (.ok, some w)
  | .nak => (.dieNak, none)
  | .timeout => (.dieTimeout, none)
  | .lost => (.lost, none)

end Sys2Proof.Machine
end

