-- ==== Sys2Proof/Machine/Ports.lean ====
section
/-! DEFINITION. Ports.lean: rule matching and the site port engines: admission, transaction start and end, the break (R49..R53,
R82..R103). -/

namespace Sys2Proof.Machine

/-! ## Rule Matcher (R49, R50) -/

/-- The data word of a request, where it is a WRITE. -/
def DieOp.data : DieOp → Option Word
  | .write d => some d
  | .read => none

/-- Every bit that a mask selects is equal in two words (R49). -/
def maskedEq (mask value word : Word) : Bool := (word &&& mask) == (value &&& mask)

/-- Rule number `n` holds for a request, with the port's previous winning rule `prev` (R49). -/
def Rule.holds (r : Rule) (n : Fin 64) (prev : Option (Fin 64)) (q : Request) : Bool :=
  r.enabled &&
  (r.kind == .any || r.kind == q.op.kind) &&
  maskedEq r.addrMask r.addrValue q.address &&
  (match q.op with
    | .write d => maskedEq r.dataMask r.dataValue d
    | .read => true) &&
  (!r.chain || (prev.map fun k => k.val + 1) == some n.val)

/-- The winning rule: the lowest-numbered enabled rule that holds (R50). -/
def winningRule (rules : Vector Rule 64) (prev : Option (Fin 64)) (q : Request) : Option (Fin 64) :=
  (List.finRange 64).find? fun n => rules[n].holds n prev q

/-- The match record: the winner's action, PASS where no rule holds (R50, R53). -/
def matchRecord (rules : Vector Rule 64) (prev : Option (Fin 64)) (q : Request) : MatchRecord :=
  match winningRule rules prev q with
  | some n => { rule := some n, action := rules[n].action }
  | none => { rule := none, action := .pass }

/-! ## Admission (R85) -/

/-- What a port answers to an offered request (R85, R111). -/
inductive Admission where
  | accept
  | full
  | declined (status : Status)
  deriving DecidableEq, Repr

/-- A port's answer to an offered request, by its state and record (R85). -/
def Port.admission (pt : Port) : Admission :=
  match pt.state with
  | .parked .contact => .declined .lost
  | .parked _ => .declined .noSite
  | _ =>
    if pt.admissionClosed then .declined .aborted
    else if Config.siteQueueCapacity ≤ pt.queue.length then .full
    else .accept

/-- A request joins the tail of a port's queue (R84). -/
def State.enqueue (s : State) (p : PortId) (r : Request) : State :=
  s.setPort p { s.port p with queue := (s.port p).queue ++ [r] }

/-! ## Transaction start (R53, R86, R87, R89) -/

/-- The window of an action in ticks: BURN_TMO for the gates, RESP_TMO for every other action (R89). -/
def State.windowOf (s : State) (a : Action) : Nat :=
  match a with
  | .gateBurn | .gateLock => s.params.burnTmo * Config.burnUnitTicks
  | _ => s.params.respTmo * Config.respUnitTicks

/-- The request with its data word replaced (R87). -/
def Request.withData (r : Request) (w : Word) : Request := { r with op := .write w }

/-- A request is sent: the port enters BUSY with it in flight and its window running, and the context makes the change that
belongs to the start (R86). -/
def State.sendRequest (s : State) (p : PortId) (r : Request) (m : MatchRecord) : State :=
  let ticks := s.windowOf m.action
  let tx : Transaction := { request := r, record := m, window := ticks, gear := (s.port p).gear }
  (s.setPortState p (.busy tx ticks)).setCtx p ((s.ctx p).atStart m.action)

/-- A request taken from the queue is started with its match record: previous winning rule, BLOCK, then the context's
answer (R53). -/
def State.startRequest (s : State) (p : PortId) (r : Request) (m : MatchRecord) : State :=
  let s := s.setPort p { s.port p with prevRule := m.rule }
  if m.action = .block then s.deliver r .blocked none
  else
    match (s.ctx p).startAnswer m.action with
    | .refused => s.deliver r .refused none
    | .send => s.sendRequest p r m
    | .substitute w => s.sendRequest p (r.withData w) m

/-- One transaction start: an IDLE port takes the head of its queue (R86). -/
def State.startHead (s : State) (p : PortId) : State :=
  match (s.port p).state, (s.port p).queue with
  | .idle, r :: rest =>
    let m := matchRecord s.rules (s.port p).prevRule r
    (s.setPort p { s.port p with queue := rest }).startRequest p r m
  | _, _ => s

/-- A port goes on starting while it is IDLE and its queue is not empty, at most `fuel` times (R83, R86). -/
def State.startUpTo : Nat → State → PortId → State
  | 0, s, _ => s
  | fuel + 1, s, p =>
    if (s.port p).state = .idle ∧ (s.port p).queue ≠ [] then State.startUpTo fuel (s.startHead p) p else s

/-- A port that is IDLE starts its queued requests until one is sent or none is left: IDLE with a non-empty queue "is
never a state the port rests in" (R83). -/
def State.startPort (s : State) (p : PortId) : State := State.startUpTo (s.port p).queue.length s p

/-- TRANSACTION_START (R86). -/
def execTransactionStart (p : PortId) (s : State) : Host.Outcome State Fault Refusal :=
  whileRunning s fun s => s.startPort p

/-! ## Transaction end (R88, R91, R92, R94) -/

/-- How the port reads a die response (R88). -/
def DieOp.outcome (op : DieOp) (a : DieAnswer) : TxOutcome :=
  if !a.parityGood || !a.positive then .nak
  else
    match op, a.word with
    | .read, some w => .ok (some w)
    | .write _, none => .ok none
    | _, _ => .nak

/-- The transaction in flight ends: the port enters `after`, the context acts on the outcome, then the response is
produced (R91, R92). -/
def State.endTransaction (s : State) (p : PortId) (tx : Transaction) (o : TxOutcome) (after : PortState) : State :=
  let reply := (s.ctx p).responseOf tx.record.action o
  (((s.setPortState p after).contextAtEnd p tx.record.action o).deliver tx.request reply.1 reply.2)

/-- A die response reaches a port: in BUSY it ends the transaction, in IDLE and BREAK it is a late response, and a PARKED
port does not take it from the lines (R88, R91, R94). -/
def State.dieResponds (s : State) (p : PortId) (a : DieAnswer) : State :=
  match (s.port p).state with
  | .parked _ => s
  | .idle => s.countLateResponse
  | .breaking _ => s.countLateResponse
  | .busy tx _ => (s.endTransaction p tx (tx.request.op.outcome a) .idle).startPort p

/-- The response timer of a BUSY port runs out (R92); no other port has one. -/
def State.responseTimesOut (s : State) (p : PortId) : State :=
  match (s.port p).state with
  | .busy tx _ => (s.raise .dieTimeout).endTransaction p tx .timeout (.breaking Config.breakTicks)
  | _ => s

/-- The break timer of a port in BREAK runs out: the port enters IDLE and starts the head of its queue (R93). -/
def State.breakEnds (s : State) (p : PortId) : State :=
  match (s.port p).state with
  | .breaking _ => (s.setPortState p .idle).startPort p
  | _ => s

/-- BREAK_END (R93). -/
def execBreakEnd (p : PortId) (s : State) : Host.Outcome State Fault Refusal :=
  whileRunning s fun s => s.breakEnds p

/-! ## Parking and unparking (R99..R102) -/

/-- A port acts on contact loss (R100): the transaction in flight and then every queued request is answered LOST, and the
port parks with cause CONTACT. A PARKED port keeps its cause. -/
def State.parkOnContactLoss (s : State) (p : PortId) : State :=
  match (s.port p).state with
  | .parked _ => s
  | .busy tx _ => ((s.deliver tx.request .lost none).answerQueue p .lost).setPortState p (.parked .contact)
  | _ => (s.answerQueue p .lost).setPortState p (.parked .contact)

/-- A port acts on TOUCHDOWN END (R102). -/
def State.closePort (s : State) (p : PortId) : State :=
  let s := s.answerQueue p .aborted
  s.setPort p { s.port p with admissionClosed := true }

/-- A port at TOUCHDOWN BEGIN: previous winning rule NONE and admission open; in IDLE where an enabled logical site names
it, PARKED with cause NOT_ENABLED otherwise (R52, R82, R99). -/
def Port.begun (pt : Port) (named : Bool) : Port :=
  { pt with
    state := if named then .idle else .parked .notEnabled
    admissionClosed := false
    prevRule := none }

end Sys2Proof.Machine
end

