-- ==== Sys2Proof/Machine/Issuance.lean ====
section
/-! DEFINITION. Issuance.lean: reading and dropping the issuance log (R156, R157). -/

namespace Sys2Proof.Machine

/-- LOG READ (R156): the oldest record, not removed, or an empty payload. -/
def cmdLogRead (tag : Byte) (s : State) : State :=
  s.respondOk tag ((s.log.records.head?.map (·.bytes)).getD [])

/-- LOG DROP (R157): min(n, record count) oldest records are removed; where that frees a slot the pool serves the wait
list. -/
def cmdLogDrop (tag : Byte) (count : Word) (s : State) : State :=
  let removed := min count.toNat s.log.records.length
  let left := s.log.records.drop removed
  (({ s with log := { s.log with records := left } } : State).serviceIf (0 < removed)).respondOk tag
    (be16 (wordOf removed) ++ be16 (wordOf left.length))

end Sys2Proof.Machine
end

