-- ==== Sys2Proof/Machine/Keys.lean ====
section
/-! DEFINITION. Keys.lean: batches, key loading and the unwrap, KEY PURGE and key service (R28..R43). -/

namespace Sys2Proof.Machine

/-- BATCH OPEN (R30): BUSY while the pool holds a key or a context holds one; the floor does not fall. -/
def cmdBatchOpen (tag : Byte) (label floor : Long) (s : State) : State :=
  if s.pool ≠ [] ∨ s.heldKeys ≠ 0 then s.refuse tag .busy
  else
    let inForce := if s.batch.floor < floor then floor else s.batch.floor
    ({ s with
      batch := { isOpen := true, label := label, floor := inForce }
      counters := { accepted := 0, bound := 0, voided := 0, purged := 0 }
      log := { s.log with nextSequence := 0 } } : State).respondOk tag (be32 label ++ be32 inForce)

/-- The admission checks of KEY LOAD, in order: the refusal status, or none where the unwrap starts (R33). -/
def State.keyLoadRefusal (s : State) (r : KeyRecord) : Option Status :=
  if !s.batch.isOpen then some .noBatch
  else if r.index = 0 then some .badArg
  else if r.keyId ≠ s.transportKeyId then some .keyId
  else if ¬ s.batch.floor < r.index then some .staleIndex
  else if Config.poolCapacity ≤ s.poolCustody then some .poolFull
  else none

/-- KEY LOAD (R33, R34): a refusal, or the start of the unwrap, which holds the control queue. -/
def cmdKeyLoad (tag : Byte) (r : KeyRecord) (s : State) : State :=
  match s.keyLoadRefusal r with
  | some status => s.refuse tag status
  | none =>
    s.setExecutor (.unwrapping
      { tag := tag, index := r.index, ciphertext := r.ciphertext, integrity := r.integrity, label := s.batch.label })

/-- The result of KEY LOAD, also with status UNWRAP_FAIL (R35, R36, R166): key index and free count. -/
def State.keyLoadResult (s : State) (index : Long) : List Byte := be32 index ++ [byteOf s.pool.length]

/-- A recovered key enters the pool at its tail, raises the floor and is counted; the wait list is served (R35). -/
def State.acceptKey (s : State) (job : UnwrapJob) (key : KeyBits) : State :=
  ({ s with
    pool := s.pool ++ [{ index := job.index, bits := key, label := job.label }]
    batch := { s.batch with floor := job.index }
    counters := { s.counters with accepted := s.counters.accepted + 1 } } : State).serviceKeys

/-- The unwrap in flight completes (R35, R36): with the tag matching the key is accepted, otherwise the failure is counted;
the KEY LOAD is answered and the executor is left IDLE. -/
def State.unwrapEnds (s : State) (job : UnwrapJob) (recovered : Option KeyBits) : State :=
  let t := s.setExecutor .idle
  match recovered with
  | some key =>
    let t := t.acceptKey job key
    t.respondOk job.tag (t.keyLoadResult job.index)
  | none =>
    let t := t.countUnwrapFail
    t.respond job.tag .unwrapFail (t.keyLoadResult job.index)

/-- KEY PURGE (R40): every pool entry is removed and counted; a purge of at least one key is a removal for POOL_LOW
(R43). -/
def cmdKeyPurge (tag : Byte) (s : State) : State :=
  let removed := s.pool.length
  let t : State :=
    { s with pool := [], counters := { s.counters with purged := s.counters.purged + BitVec.ofNat 32 removed } }
  (if removed = 0 then t else t.checkPoolLow).respondOk tag [byteOf removed]

/-- KEY_SERVICE: the pool tests the conditions of R37 and serves the wait list. Every trigger of R38 does so within its own
event, so between events no service is left to make (assumption 10). -/
def execKeyService (s : State) : Host.Outcome State Fault Refusal :=
  whileRunning s fun s => s.serviceKeys

end Sys2Proof.Machine
end

