-- ==== Sys2Proof/Machine/Setup.lean ====
section
/-! DEFINITION. Setup.lean: the effects of the setup and reading commands at their execution: IDENTIFY, STATUS, PARAM SET/GET,
RULE WRITE/READ, SITEMAP WRITE/READ, GROUP WRITE/READ, STRAP SET/READ, EVENT READ/CLEAR. -/

namespace Sys2Proof.Machine

/-! ## IDENTIFY and STATUS (R172, R185, R186) -/

/-- IDENTIFY: part code, revision, transport key id (R185). -/
def cmdIdentify (tag : Byte) (s : State) : State :=
  s.respondOk tag (be16 Config.partCode ++ [Config.revision] ++ be16 s.transportKeyId)

/-- The flags byte of STATUS page 0: bit 0 batch open, bit 1 CONTACT high, bit 2 contact lost (R172). -/
def State.statusFlags (s : State) : Byte :=
  (if s.batch.isOpen then 1 else 0) ||| (if s.pins.contact then 2 else 0) ||| (if s.td.contactLost then 4 else 0)

/-- STATUS page 0, 34 bytes (R172). -/
def State.statusPage0 (s : State) : List Byte :=
  [byteOf s.pool.length] ++ be16 (wordOf s.log.records.length) ++
    [byteOf s.logReservations, byteOf s.mapReservations, s.td.state.code] ++ be16 s.td.number ++ [s.statusFlags] ++
    be32 s.batch.label ++ be32 s.batch.floor ++
    be32 s.counters.accepted ++ be32 s.counters.bound ++ be32 s.counters.voided ++ be32 s.counters.purged ++
    [byteOf s.waitList.length]

/-- STATUS page 1, 32 bytes: state codes, then verdict codes, in port order (R172). -/
def State.statusPage1 (s : State) : List Byte :=
  allPorts.map (fun p => (s.ctx p).state.code) ++ allPorts.map (fun p => (s.ctx p).verdictCode)

/-- STATUS (R172, R186): a page above 1 is refused BADARG. -/
def cmdStatus (tag page : Byte) (s : State) : State :=
  if page = 0 then s.respondOk tag s.statusPage0
  else if page = 1 then s.respondOk tag s.statusPage1
  else s.refuse tag .badArg

/-! ## Parameters (R171) -/

/-- The stored value of a parameter (R171). -/
def State.paramValue (s : State) : Param → Word
  | .respTmo => wordOf s.params.respTmo
  | .burnTmo => wordOf s.params.burnTmo
  | .settleCode => wordOf s.params.settleCode
  | .settleScale => wordOf s.params.settleScale
  | .burnLimit => wordOf s.params.burnLimit
  | .poolLow => wordOf s.params.poolLow
  | .logHigh => wordOf s.params.logHigh
  | .eventEnable => s.params.eventEnable.setWidth 16
  | .gear p => wordOf (s.port p).gear

/-- Stores a written value, clamped to the parameter's range; of EVENT_ENABLE bits 12..15 are cleared (R171). -/
def State.setParam (s : State) (q : Param) (v : Word) : State :=
  let n := v.toNat
  match q with
  | .respTmo => { s with params := { s.params with respTmo := clamp 1 255 n } }
  | .burnTmo => { s with params := { s.params with burnTmo := clamp 1 255 n } }
  | .settleCode => { s with params := { s.params with settleCode := clamp 1 255 n } }
  | .settleScale => { s with params := { s.params with settleScale := clamp 0 3 n } }
  | .burnLimit => { s with params := { s.params with burnLimit := clamp 1 4 n } }
  | .poolLow => { s with params := { s.params with poolLow := clamp 0 64 n } }
  | .logHigh => { s with params := { s.params with logHigh := clamp 0 255 n } }
  | .eventEnable => { s with params := { s.params with eventEnable := v.setWidth 12 } }
  | .gear p => s.setPort p { s.port p with gear := clamp 0 3 n }

/-- PARAM SET (R171): BADARG for an unknown identifier, STATE for BURN_LIMIT while a touchdown is open. -/
def cmdParamSet (tag id : Byte) (value : Word) (s : State) : State :=
  match Param.ofId id with
  | none => s.refuse tag .badArg
  | some q =>
    if q = .burnLimit ∧ s.touchdownIsOpen then s.refuse tag .state
    else
      let t := s.setParam q value
      t.respondOk tag (id :: be16 (t.paramValue q))

/-- PARAM GET (R171). -/
def cmdParamGet (tag id : Byte) (s : State) : State :=
  match Param.ofId id with
  | none => s.refuse tag .badArg
  | some q => s.respondOk tag (id :: be16 (s.paramValue q))

/-! ## Frame rules (R46..R48) -/

/-- RULE WRITE (R46, R47). -/
def cmdRuleWrite (tag : Byte) (block : RuleBlock) (s : State) : State :=
  if s.touchdownIsOpen then s.refuse tag .state
  else
    match ruleOfBlock block with
    | none => s.refuse tag .badArg
    | some (n, r) => ({ s with rules := s.rules.set n r } : State).respondOk tag (r.bytes n)

/-- RULE READ (R48). -/
def cmdRuleRead (tag number : Byte) (s : State) : State :=
  if h : number.toNat < 64 then s.respondOk tag ((s.rules[number.toNat]).bytes ⟨number.toNat, h⟩)
  else s.refuse tag .badArg

/-! ## Logical site map and groups (R105..R108) -/

/-- Another logical site's entry is enabled and names the same port (R105, order 3). -/
def State.siteConflict (s : State) (i : SiteId) (p : PortId) : Bool :=
  allSites.any fun j => j != i && (s.siteMap[j]).enabled && (s.siteMap[j]).port == p

/-- The result of SITEMAP WRITE and SITEMAP READ (R166). -/
def mapSlotBytes (i : SiteId) (e : MapSlot) : List Byte := [byteOf i.val, byteOf e.port.val, flagByte e.enabled]

/-- SITEMAP WRITE (R105). -/
def cmdSiteMapWrite (tag site port enabled : Byte) (s : State) : State :=
  if s.touchdownIsOpen then s.refuse tag .state
  else if h : site.toNat < 16 ∧ port.toNat < 16 then
    let i : SiteId := ⟨site.toNat, h.1⟩
    let e : MapSlot := { port := ⟨port.toNat, h.2⟩, enabled := readFlag enabled }
    if e.enabled ∧ s.siteConflict i e.port then s.refuse tag .conflict
    else ({ s with siteMap := s.siteMap.set i e } : State).respondOk tag (mapSlotBytes i e)
  else s.refuse tag .badArg

/-- SITEMAP READ (R106). -/
def cmdSiteMapRead (tag site : Byte) (s : State) : State :=
  if h : site.toNat < 16 then s.respondOk tag (mapSlotBytes ⟨site.toNat, h⟩ s.siteMap[site.toNat])
  else s.refuse tag .badArg

/-- The index of a group number 16..30 in the group table (R107). -/
def groupIndex (g : Byte) : Option (Fin 15) := if h : 16 ≤ g.toNat ∧ g.toNat ≤ 30 then some ⟨g.toNat - 16, by omega⟩ else none

/-- GROUP WRITE (R107). -/
def cmdGroupWrite (tag group : Byte) (members : Word) (s : State) : State :=
  if s.touchdownIsOpen then s.refuse tag .state
  else
    match groupIndex group with
    | none => s.refuse tag .badArg
    | some g => ({ s with groups := s.groups.set g members } : State).respondOk tag (group :: be16 members)

/-- GROUP READ (R108). -/
def cmdGroupRead (tag group : Byte) (s : State) : State :=
  match groupIndex group with
  | none => s.refuse tag .badArg
  | some g => s.respondOk tag (group :: be16 s.groups[g])

/-! ## Strap lines (R96, R98) -/

/-- STRAP SET (R96): mask bits above bit 3 are ignored and reported as 0. -/
def cmdStrapSet (tag port directions levels : Byte) (s : State) : State :=
  if h : port.toNat < 16 then
    let p : PortId := ⟨port.toNat, h⟩
    let pt := { s.port p with strapDirections := directions.setWidth 4, strapLevels := levels.setWidth 4 }
    (s.setPort p pt).respondOk tag [port, pt.strapDirections.setWidth 8, pt.strapLevels.setWidth 8]
  else s.refuse tag .badArg

/-- STRAP READ (R98): the stored configuration, and the levels sampled at the pins, which are free (assumption 2). -/
def cmdStrapRead (tag port : Byte) (s : State) : State :=
  if h : port.toNat < 16 then
    let pt := s.port ⟨port.toNat, h⟩
    let sensed := Config.strapSense s.strapSamples
    ({ s with strapSamples := s.strapSamples + 1 } : State).respondOk tag
      [port, pt.strapDirections.setWidth 8, pt.strapLevels.setWidth 8, sensed.setWidth 8]
  else s.refuse tag .badArg

/-! ## Events (R182, R183) -/

/-- EVENT READ (R182). -/
def cmdEventRead (tag : Byte) (s : State) : State :=
  s.respondOk tag
    (be16 (s.events.latches.setWidth 16) ++ be16 (s.params.eventEnable.setWidth 16) ++ be16 s.events.linkErrors ++
      be16 s.events.unwrapFails ++ be16 s.events.lateResponses)

/-- EVENT CLEAR (R183): a latch whose keep-mask bit is 0 is cleared. -/
def cmdEventClear (tag : Byte) (keep : Word) (s : State) : State :=
  let t : State := { s with events := { s.events with latches := s.events.latches &&& keep.setWidth 12 } }
  t.respondOk tag (be16 (t.events.latches.setWidth 16))

end Sys2Proof.Machine
end

