-- ==== Sys2Proof/Machine/Wafer.lean ====
section
/-! DEFINITION. Wafer.lean: wafers, touchdowns, site abort, the map query, and the CONTACT input (R130..R148). -/

namespace Sys2Proof.Machine

/-- WAFER OPEN (R132): the map is emptied, even where the same wafer is opened again. -/
def cmdWaferOpen (tag : Byte) (lot : Long) (number : Byte) (s : State) : State :=
  if s.touchdownIsOpen then s.refuse tag .state
  else if !validWafer number then s.refuse tag .badArg
  else
    ({ s with
      td := { s.td with state := .waferOpen, wafer := some { lot := lot, number := number } }
      dieMap := [] } : State).respondOk tag (be32 lot ++ [number])

/-- WAFER CLOSE (R132): the number of entries the map held is returned. -/
def cmdWaferClose (tag : Byte) (s : State) : State :=
  if s.touchdownIsOpen then s.refuse tag .state
  else if s.td.state = .noWafer then s.refuse tag .noWafer
  else
    ({ s with td := { s.td with state := .noWafer, wafer := none }, dieMap := [] } : State).respondOk tag
      (be16 (wordOf s.dieMap.length))

/-! ## Touchdown begin (R4, R99, R135, R136) -/

/-- The 16-bit bitmap of the logical sites that satisfy a condition. -/
def siteMask (f : SiteId → Bool) : BitVec 16 :=
  allSites.foldl (fun m i => if f i then m ||| (1#16 <<< i.val) else m) 0

/-- The enabled set: bits set in the command's bitmap whose map entry is enabled (R135). -/
def State.enabledSetFor (s : State) (enable : Word) : BitVec 16 :=
  siteMask fun i => enable.getLsbD i.val && (s.siteMap[i]).enabled

/-- The logical site of a set that names a port, if one does (R4). -/
def State.namingSite (s : State) (enabled : BitVec 16) (p : PortId) : Option SiteId :=
  allSites.find? fun i => enabled.getLsbD i.val && (s.siteMap[i]).port == p

/-- The touchdown number after one more TOUCHDOWN BEGIN: from 65535 it advances to 1 (R136). -/
def nextTouchdown (n : Word) : Word := if n = 0xFFFF then 1 else n + 1

/-- A context's new start (R4, R80): image state and identity cleared in every context; one that an enabled logical site
names enters IDENT, and the others keep state and logical site with verdict NONE. -/
def Context.begun (c : Context) (site : Option SiteId) : Context :=
  let c := { c with
    identity := .reset, exposed := false, digest := none, image := none, pass := .full, injected := 0, verified := 0,
    missing := Vector.replicate 17 0, attempts := 0 }
  match site with
  | some i => { c with state := .ident, site := i, verdict := none }
  | none => { c with verdict := some { verdict := .none, reason := none, keyIndex := none, attempts := 0 } }

/-- The effects of an accepted TOUCHDOWN BEGIN but for its response (R135, R4, R52, R99, R25). -/
def State.beginTouchdown (s : State) (enabled : BitVec 16) : State :=
  let t : State := { s with
    td := { s.td with state := .touchdownOpen, number := nextTouchdown s.td.number, enabled := enabled,
                      contactLost := false }
    contexts := Vector.ofFn fun p => (s.ctx p).begun (s.namingSite enabled p)
    ports := Vector.ofFn fun p => (s.port p).begun (s.namingSite enabled p).isSome }
  if enabled = 0 then t.raise .tdComplete else t

/-- TOUCHDOWN BEGIN (R135). -/
def cmdTouchdownBegin (tag : Byte) (enable : Word) (s : State) : State :=
  if s.touchdownIsOpen then s.refuse tag .state
  else if s.td.state = .noWafer then s.refuse tag .noWafer
  else if !s.pins.contact then s.refuse tag .noContact
  else
    let enabled := s.enabledSetFor enable
    let t := s.beginTouchdown enabled
    t.respondOk tag (be16 t.td.number ++ be16 enabled)

/-! ## Touchdown end and site abort (R138, R139) -/

/-- The effects of an executed TOUCHDOWN END up to its completion (R139): queues answered ABORTED and admission closed,
contexts ended as by SITE ABORT in logical site order, key service, TOUCHDOWN_ENDING; the command is in execution. -/
def State.endTouchdown (s : State) (tag : Byte) : State :=
  let held := s.anyHeld
  let order := s.settlementOrder
  let s := allPorts.foldl (fun s p => s.closePort p) s
  let s := order.foldl (fun s p => s.abortContext p) s
  let s := s.serviceIf held
  ({ s with td := { s.td with state := .touchdownEnding } } : State).setExecutor (.endingTouchdown tag)

/-- TOUCHDOWN END (R139): refused STATE with no touchdown open; it completes at its own event where nothing is left to wait
for (R140). -/
def cmdTouchdownEnd (tag : Byte) (s : State) : State :=
  if s.td.state = .touchdownOpen then (s.endTouchdown tag).completeIfQuiet else s.refuse tag .state

/-- SITE ABORT (R138): the port's queue is answered ABORTED, the context is ended as R20 lays down, a returned key may be
served, and the response tells the context's state and verdict after the abort. The queue is answered whatever the context's
state (R20, R101): that it is answered also in DONE and DRAINING, where R138 says that the abort "changes nothing", is a
DESIGN CHOICE (assumption 18). -/
def cmdSiteAbort (tag site : Byte) (s : State) : State :=
  if h : site.toNat < 16 then
    let i : SiteId := ⟨site.toNat, h⟩
    if !s.touchdownIsOpen then s.refuse tag .state
    else if !s.siteEnabled i then s.refuse tag .badArg
    else
      let p := s.sitePort i
      let held := (s.ctx p).state == .held
      let t := ((s.answerQueue p .aborted).abortContext p).serviceIf held
      t.respondOk tag [site, (t.ctx p).state.code, (t.ctx p).verdictCode]
  else s.refuse tag .badArg

/-- MAP QUERY (R146): NOWAFER, then BADARG for a coordinate above 255. -/
def cmdMapQuery (tag : Byte) (x y : Word) (s : State) : State :=
  if s.td.state = .noWafer then s.refuse tag .noWafer
  else if 255 < x.toNat ∨ 255 < y.toNat then s.refuse tag .badArg
  else
    let c : Coord := { x := x.setWidth 8, y := y.setWidth 8 }
    s.respondOk tag (mapQueryBytes c (s.claimed c) (mapLookup s.dieMap c))

/-! ## CONTACT (R22, R100, R127, R137, R154) -/

/-- What a fall of CONTACT does in an open touchdown whose contacts were not lost before (R137): every port, every context
in logical site order, every supply, and key service once all of them are taken (R38). -/
def State.loseContact (s : State) : State :=
  let held := s.anyHeld
  let order := s.settlementOrder
  let s : State := { s with td := { s.td with contactLost := true } }
  let s := allPorts.foldl (fun s p => s.parkOnContactLoss p) s
  let s := order.foldl (fun s p => s.contactLostContext p) s
  let s := allPorts.foldl (fun s p => s.switchOff p) s
  s.serviceIf held

/-- The input pin CONTACT takes a level. -/
def State.setContact (s : State) (high : Bool) : State := { s with pins := { s.pins with contact := high } }

/-- CONTACT_RISE (R137): it latches nothing and changes nothing but the level of the pin. -/
def execContactRise (s : State) : Host.Outcome State Fault Refusal :=
  whileRunning s (fun s => s.setContact true) (fun s => s.setContact true)

end Sys2Proof.Machine
end

