-- ==== Sys2Proof/Machine/Control.lean ====
section
/-! DEFINITION. Control.lean: the Control Executor and its queue (R167, R168), the meanings of the control-command rows, and
the events that complete a command that takes time (R35, R36, R140). -/

namespace Sys2Proof.Machine

/-- Execution of one command: its change and its response, or, for the two commands that take time, its start (R168). -/
def runCommand (tag : Byte) (c : Command) (s : State) : State :=
  match c with
  | .identify => cmdIdentify tag s
  | .status page => cmdStatus tag page s
  | .paramSet id value => cmdParamSet tag id value s
  | .paramGet id => cmdParamGet tag id s
  | .ruleWrite block => cmdRuleWrite tag block s
  | .ruleRead number => cmdRuleRead tag number s
  | .siteMapWrite site port enabled => cmdSiteMapWrite tag site port enabled s
  | .siteMapRead site => cmdSiteMapRead tag site s
  | .groupWrite group members => cmdGroupWrite tag group members s
  | .groupRead group => cmdGroupRead tag group s
  | .strapSet port directions levels => cmdStrapSet tag port directions levels s
  | .strapRead port => cmdStrapRead tag port s
  | .batchOpen label floor => cmdBatchOpen tag label floor s
  | .keyLoad record => cmdKeyLoad tag record s
  | .keyPurge => cmdKeyPurge tag s
  | .waferOpen lot number => cmdWaferOpen tag lot number s
  | .waferClose => cmdWaferClose tag s
  | .touchdownBegin enable => cmdTouchdownBegin tag enable s
  | .touchdownEnd => cmdTouchdownEnd tag s
  | .siteAbort site => cmdSiteAbort tag site s
  | .mapQuery x y => cmdMapQuery tag x y s
  | .logRead => cmdLogRead tag s
  | .logDrop count => cmdLogDrop tag count s
  | .eventRead => cmdEventRead tag s
  | .eventClear keep => cmdEventClear tag keep s

/-- While the executor is IDLE and the queue is not empty, the head of the queue is executed, at most `fuel` times
(R168). -/
def State.runUpTo : Nat → State → State
  | 0, s => s
  | fuel + 1, s =>
    match s.control.executor, s.control.queue with
    | .idle, (tag, c) :: rest =>
      State.runUpTo fuel (runCommand tag c { s with control := { s.control with queue := rest } })
    | _, _ => s

/-- The control queue is released: its commands are executed in the order of their arrival until one takes time or none is
left (R168). -/
def State.runQueue (s : State) : State := State.runUpTo s.control.queue.length s

/-- A command whose code and length are good arrives (R167, R168): QFULL where four wait, otherwise it joins the tail of the
control queue and starts at once where the executor is IDLE. -/
def State.submit (s : State) (tag : Byte) (c : Command) : State :=
  if Config.controlQueueCapacity ≤ s.control.queue.length then s.refuse tag .qFull
  else ({ s with control := { s.control with queue := s.control.queue ++ [(tag, c)] } } : State).runQueue

/-- An event that executes commands, with its responses in the order of R173: first the site responses, in ascending physical
port order, then those of the commands, which follow in the order of their execution. The ports whose queues the event answers,
which SITE ABORT and TOUCHDOWN END do (R101, R102), are those that it leaves empty. They answer ahead, and the commands then
find nothing queued there: no command reads a site queue (assumption 19). -/
def State.siteAnswersFirst (s : State) (event : State → State) : State :=
  let answering := allPorts.filter fun p => ((event s).port p).queue = []
  event (answering.foldl (fun s p => s.answerQueue p .aborted) s)

/-- TOUCHDOWN END completes where its condition holds, and the control queue is released at the same event (R140, R168). No
port has a queued request then (R102), so the released commands have no site responses to come before its own (R173). -/
def State.completeAndRelease (s : State) : State :=
  match s.completionDue with
  | some tag => (s.completeTouchdown tag).runQueue
  | none => s

/-! ## The control-command rows -/

/-- IDENTIFY (R185). -/
def execIdentify (tag : Byte) (s : State) : Host.Outcome State Fault Refusal :=
  whileRunning s fun s => s.submit tag .identify

/-- STATUS (R172, R186). -/
def execStatus (tag page : Byte) (s : State) : Host.Outcome State Fault Refusal :=
  whileRunning s fun s => s.submit tag (.status page)

/-- PARAM SET (R171). -/
def execParamSet (tag id : Byte) (value : Word) (s : State) : Host.Outcome State Fault Refusal :=
  whileRunning s fun s => s.submit tag (.paramSet id value)

/-- PARAM GET (R171). -/
def execParamGet (tag id : Byte) (s : State) : Host.Outcome State Fault Refusal :=
  whileRunning s fun s => s.submit tag (.paramGet id)

/-- RULE WRITE (R46). -/
def execRuleWrite (tag : Byte) (block : RuleBlock) (s : State) : Host.Outcome State Fault Refusal :=
  whileRunning s fun s => s.submit tag (.ruleWrite block)

/-- RULE READ (R48). -/
def execRuleRead (tag number : Byte) (s : State) : Host.Outcome State Fault Refusal :=
  whileRunning s fun s => s.submit tag (.ruleRead number)

/-- SITEMAP WRITE (R105). -/
def execSiteMapWrite (tag site port enabled : Byte) (s : State) : Host.Outcome State Fault Refusal :=
  whileRunning s fun s => s.submit tag (.siteMapWrite site port enabled)

/-- SITEMAP READ (R106). -/
def execSiteMapRead (tag site : Byte) (s : State) : Host.Outcome State Fault Refusal :=
  whileRunning s fun s => s.submit tag (.siteMapRead site)

/-- GROUP WRITE (R107). -/
def execGroupWrite (tag group : Byte) (members : Word) (s : State) : Host.Outcome State Fault Refusal :=
  whileRunning s fun s => s.submit tag (.groupWrite group members)

/-- GROUP READ (R108). -/
def execGroupRead (tag group : Byte) (s : State) : Host.Outcome State Fault Refusal :=
  whileRunning s fun s => s.submit tag (.groupRead group)

/-- STRAP SET (R96). -/
def execStrapSet (tag port directions levels : Byte) (s : State) : Host.Outcome State Fault Refusal :=
  whileRunning s fun s => s.submit tag (.strapSet port directions levels)

/-- STRAP READ (R98). -/
def execStrapRead (tag port : Byte) (s : State) : Host.Outcome State Fault Refusal :=
  whileRunning s fun s => s.submit tag (.strapRead port)

/-- BATCH OPEN (R30). -/
def execBatchOpen (tag : Byte) (label floor : Long) (s : State) : Host.Outcome State Fault Refusal :=
  whileRunning s fun s => s.submit tag (.batchOpen label floor)

/-- KEY LOAD (R33). -/
def execKeyLoad (tag : Byte) (record : KeyRecord) (s : State) : Host.Outcome State Fault Refusal :=
  whileRunning s fun s => s.submit tag (.keyLoad record)

/-- KEY PURGE (R40). -/
def execKeyPurge (tag : Byte) (s : State) : Host.Outcome State Fault Refusal :=
  whileRunning s fun s => s.submit tag .keyPurge

/-- WAFER OPEN (R132). -/
def execWaferOpen (tag : Byte) (lot : Long) (number : Byte) (s : State) : Host.Outcome State Fault Refusal :=
  whileRunning s fun s => s.submit tag (.waferOpen lot number)

/-- WAFER CLOSE (R132). -/
def execWaferClose (tag : Byte) (s : State) : Host.Outcome State Fault Refusal :=
  whileRunning s fun s => s.submit tag .waferClose

/-- TOUCHDOWN BEGIN (R135). -/
def execTouchdownBegin (tag : Byte) (enable : Word) (s : State) : Host.Outcome State Fault Refusal :=
  whileRunning s fun s => s.submit tag (.touchdownBegin enable)

/-- TOUCHDOWN END (R139). -/
def execTouchdownEnd (tag : Byte) (s : State) : Host.Outcome State Fault Refusal :=
  whileRunning s fun s => s.submit tag .touchdownEnd

/-- SITE ABORT (R138). -/
def execSiteAbort (tag site : Byte) (s : State) : Host.Outcome State Fault Refusal :=
  whileRunning s fun s => s.submit tag (.siteAbort site)

/-- MAP QUERY (R146). -/
def execMapQuery (tag : Byte) (x y : Word) (s : State) : Host.Outcome State Fault Refusal :=
  whileRunning s fun s => s.submit tag (.mapQuery x y)

/-- LOG READ (R156). -/
def execLogRead (tag : Byte) (s : State) : Host.Outcome State Fault Refusal :=
  whileRunning s fun s => s.submit tag .logRead

/-- LOG DROP (R157). -/
def execLogDrop (tag : Byte) (count : Word) (s : State) : Host.Outcome State Fault Refusal :=
  whileRunning s fun s => s.submit tag (.logDrop count)

/-- EVENT READ (R182). -/
def execEventRead (tag : Byte) (s : State) : Host.Outcome State Fault Refusal :=
  whileRunning s fun s => s.submit tag .eventRead

/-- EVENT CLEAR (R183). -/
def execEventClear (tag : Byte) (keep : Word) (s : State) : Host.Outcome State Fault Refusal :=
  whileRunning s fun s => s.submit tag (.eventClear keep)

/-! ## The events that can complete a command -/

/-- UNWRAP_COMPLETION (R35, R36): the KEY LOAD in execution completes, and the control queue is released (R168). Its response
follows the site responses of a released SITE ABORT or TOUCHDOWN END, and precedes those of the released commands (R173).
Without an unwrap in flight none completes. -/
def execUnwrapCompletion (recovered : Option KeyBits) (s : State) : Host.Outcome State Fault Refusal :=
  whileRunning s fun s =>
    match s.control.executor with
    | .unwrapping job => s.siteAnswersFirst fun s => (s.unwrapEnds job recovered).runQueue
    | _ => s

/-- TOUCHDOWN_END_COMPLETION (R140). Every event that can meet its condition completes the command itself, so between events
no completion is due (assumption 10). -/
def execTouchdownEndCompletion (s : State) : Host.Outcome State Fault Refusal :=
  whileRunning s fun s => s.completeAndRelease

end Sys2Proof.Machine
end

