-- ==== Sys2Proof/Machine/Supplies.lean ====
section
/-! DEFINITION. Supplies.lean: settle expiry and the supply-good input (R123..R125). -/

namespace Sys2Proof.Machine

/-- The settle fault's end of a context in SETTLING (R11). -/
def State.settleFaultContext (s : State) (p : PortId) : State :=
  if (s.ctx p).state = .settling then
    if s.inFlight p then s.setCtxState p (.draining .supplyFault) else s.settleVoided p .supplyFault
  else s

/-- The settle timer of a controller in SETTLING expires (R123): the supply-good input is judged. No other controller has a
settle timer running. -/
def State.settleExpires (s : State) (p : PortId) : State :=
  match (s.supply p).state with
  | .settling _ =>
    if s.pins.supplyGood[p] then
      let t := s.setSupply p { s.supply p with state := .onGood }
      if (t.ctx p).state = .settling then t.setCtxState p .ready else t
    else ((s.switchOff p).raise .supplyFault).settleFaultContext p
  | _ => s

/-- SETTLING: the settle timer runs (R119). -/
def SupplyState.isSettling : SupplyState → Bool
  | .settling _ => true
  | _ => false

/-- The supply-good input of a site takes a level. -/
def State.setSupplyGood (s : State) (p : PortId) (good : Bool) : State :=
  { s with pins := { s.pins with supplyGood := s.pins.supplyGood.set p good } }

/-- A supply fault after settle (R125): the switch opens, SUPPLY_FAULT is latched, and the context acts on the notice. -/
def State.supplyFaults (s : State) (p : PortId) : State := ((s.switchOff p).raise .supplyFault).supplyFaultContext p

end Sys2Proof.Machine
end

