-- ==== Sys2Proof/Machine/Events.lean ====
section
/-! DEFINITION. Events.lean: the events at ports, supplies and CONTACT that can end a context or a transaction, and so can be
the event that completes a TOUCHDOWN END (R139, R140, R141). -/

namespace Sys2Proof.Machine

/-- DIE_RESPONSE (R88, R91, R94). The end of a transaction can be the event that completes a TOUCHDOWN END. -/
def execDieResponse (p : PortId) (a : DieAnswer) (s : State) : Host.Outcome State Fault Refusal :=
  whileRunning s fun s => if s.inFlight p then (s.dieResponds p a).completeAndRelease else s.dieResponds p a

/-- RESPONSE_TIMEOUT (R92). A port that is not BUSY has no response timer running. -/
def execResponseTimeout (p : PortId) (s : State) : Host.Outcome State Fault Refusal :=
  whileRunning s fun s => if s.inFlight p then (s.responseTimesOut p).completeAndRelease else s

/-- SETTLE_EXPIRY (R123). A controller that is not in SETTLING has no settle timer running. -/
def execSettleExpiry (p : PortId) (s : State) : Host.Outcome State Fault Refusal :=
  whileRunning s fun s => if (s.supply p).state.isSettling then (s.settleExpires p).completeAndRelease else s

/-- SUPPLY_GOOD_CHANGE (R124, R125): a change to not good in ON_GOOD is a supply fault; every other change is not acted on.
In reset the level of the pin alone follows. -/
def execSupplyGoodChange (p : PortId) (good : Bool) (s : State) : Host.Outcome State Fault Refusal :=
  whileRunning s
    (fun s =>
      let t := s.setSupplyGood p good
      if (t.supply p).state = .onGood ∧ good = false then (t.supplyFaults p).completeAndRelease else t)
    (fun s => s.setSupplyGood p good)

/-- CONTACT_FALL (R137, R141): CONTACT_LOST is latched in any touchdown state; what a fall does beyond that it does in an open
touchdown whose contacts were not lost before. In reset the level of the pin alone follows. -/
def execContactFall (s : State) : Host.Outcome State Fault Refusal :=
  whileRunning s
    (fun s =>
      let t := (s.setContact false).raise .contactLost
      if t.touchdownIsOpen ∧ t.td.contactLost = false then t.loseContact.completeAndRelease else t)
    (fun s => s.setContact false)

end Sys2Proof.Machine
end

