-- ==== Sys2Proof/Machine/Sites.lean ====
section
/-! DEFINITION. Sites.lean: the Site Dispatcher: resolution, single-site requests and group frames (R109..R118). -/

namespace Sys2Proof.Machine

/-- A site frame that has passed the link checks: tag, site field 0..30, die address and operation (R109, R165). -/
structure SiteFrame where
  tag : Byte
  site : Byte
  address : Word
  op : DieOp
  deriving DecidableEq, Repr

/-- The request formed from a frame (R109). -/
def SiteFrame.request (f : SiteFrame) (merge : Option MergeRef) : Request :=
  { tag := f.tag, site := f.site, address := f.address, op := f.op, merge := merge }

/-- The dispatcher answers a frame at its arrival, with no data word and no member entries (R110, R116). -/
def State.answerFrame (s : State) (f : SiteFrame) (status : Status) : State :=
  s.emit { tag := f.tag, site := f.site, status := status, payload := [] }

/-- A single-site request is offered to its port (R110); admitted, it starts at once where the port is IDLE (R83, R85). -/
def State.offer (s : State) (f : SiteFrame) (p : PortId) : State :=
  match (s.port p).admission with
  | .accept => (s.enqueue p (f.request none)).startPort p
  | .full => s.answerFrame f .qFull
  | .declined status => s.answerFrame f status

/-- A frame for one logical site (R109, R110). -/
def State.singleFrame (s : State) (f : SiteFrame) (i : SiteId) : State :=
  if (s.siteMap[i]).enabled then s.offer f (s.sitePort i) else s.answerFrame f .noSite

/-- The class of a member at the arrival of a group frame (R111): `accept` is admissible, `declined` immediate. -/
def State.memberClass (s : State) (i : SiteId) : Admission :=
  if (s.siteMap[i]).enabled then (s.port (s.sitePort i)).admission else .declined .noSite

/-- The slots of a frame at its arrival: immediate members are done (R111, R114). -/
def State.immediateSlots (s : State) (members : BitVec 16) : Vector (Option MemberResult) 16 :=
  Vector.ofFn fun i =>
    if members.getLsbD i.val then
      match s.memberClass i with
      | .declined status => some { status := status, word := none }
      | _ => none
    else none

/-- The first merge record not in use, if there is one (R114; which one is taken is not observable, assumption 9). -/
def State.freeMerge (s : State) : Option (Fin 8) := (List.finRange 8).find? fun k => (s.merge[k]).isNone

/-- An admitted group frame places one request in the queue of each admissible member's port, with its merge reference
(R113). -/
def State.replicate (s : State) (f : SiteFrame) (k : Fin 8) (members : List SiteId) : State :=
  members.foldl (fun s i => s.enqueue (s.sitePort i) (f.request (some { record := k, member := i }))) s

/-- The ports of a list start what they can, in ascending physical port order (R173). -/
def State.startPorts (s : State) (ports : List PortId) : State :=
  (allPorts.filter fun p => ports.contains p).foldl (fun s p => s.startPort p) s

/-- A group frame (R109, R111..R116): NOSITE for an empty group, QFULL as a whole, the merged response at once where every
member is immediate, or replication with a merge record. -/
def State.groupFrame (s : State) (f : SiteFrame) (members : BitVec 16) : State :=
  if members = 0 then s.answerFrame f .noSite
  else
    let admissible := (membersOf members).filter fun i => s.memberClass i == .accept
    if (membersOf members).any fun i => s.memberClass i == .full then s.answerFrame f .qFull
    else
      let record : MergeRecord :=
        { tag := f.tag, group := f.site, members := members, slots := s.immediateSlots members }
      if admissible = [] then s.emit (mergedResponse record)
      else
        match s.freeMerge with
        | none => s.answerFrame f .qFull
        | some k =>
          (({ s with merge := s.merge.set k (some record) } : State).replicate f k admissible).startPorts
            (admissible.map s.sitePort)

/-- A site frame reaches the dispatcher (R109). -/
def State.siteFrame (s : State) (f : SiteFrame) : State :=
  if h : f.site.toNat < 16 then s.singleFrame f ⟨f.site.toNat, h⟩
  else if h : f.site.toNat - 16 < 15 then s.groupFrame f s.groups[f.site.toNat - 16]
  else s

end Sys2Proof.Machine
end

