-- ==== Sys2Proof/Machine/Link.lean ====
section
/-! DEFINITION. Link.lean: the Link Interface: hunting and receiving, frame checks and routing, emission and the upstream lane
(R161..R167, R173..R177). -/

namespace Sys2Proof.Machine

/-! ## Frame checks and routing (R165, R167) -/

/-- The checks of a complete frame, in order: the status of the first that applies (R165). -/
def frameRefusal (f : RequestFrame) : Option Status :=
  if 31 < f.site.toNat then some .badSite
  else if f.kind ≠ 1 ∧ f.kind ≠ 2 ∧ f.kind ≠ 3 then some .badKind
  else if (f.kind = 3 ∧ f.site ≠ Config.controlSite) ∨ (f.kind ≠ 3 ∧ f.site = Config.controlSite) then some .badKind
  else if (f.kind = 1 ∧ f.payload.length ≠ 2) ∨ (f.kind = 2 ∧ f.payload.length ≠ 0) then some .badLen
  else none

/-- A CONTROL frame's arrival checks 1 and 2, and its submission (R167). -/
def State.controlFrame (s : State) (f : RequestFrame) : State :=
  match paramLength f.address with
  | none => s.refuse f.tag .badCmd
  | some n =>
    if f.payload.length ≠ n then s.refuse f.tag .badLen
    else
      match commandOfPayload f.address f.payload with
      | none => s.refuse f.tag .badLen
      | some c => s.submit f.tag c

/-- The operation of a WRITE or READ frame: the two payload bytes are the data word, high byte first (R165). -/
def RequestFrame.op (f : RequestFrame) : DieOp :=
  match f.payload with
  | [hi, lo] => .write (word16 hi lo)
  | _ => .read

/-- A complete frame is checked and routed (R165): answered here, to the Control Executor, or to the Site Dispatcher. -/
def State.routeFrame (s : State) (f : RequestFrame) : State :=
  match frameRefusal f with
  | some status => s.emit { tag := f.tag, site := f.site, status := status, payload := [] }
  | none =>
    if f.kind = 3 then s.controlFrame f
    else s.siteFrame { tag := f.tag, site := f.site, address := f.address, op := f.op }

/-! ## The receiver (R162..R164) -/

/-- The receiver in a state, with the bytes collected and the count still expected. -/
def State.setRx (s : State) (rx : RxState) (bytes : List Byte) (expected : Nat) : State :=
  { s with link := { s.link with rx := rx, partialFrame := bytes, expected := expected } }

/-- The receiver returns to HUNT. -/
def State.toHunt (s : State) : State := s.setRx .hunt [] 0

/-- After the last header or payload byte: CHECK, for two bytes (R163). -/
def State.toCheck (s : State) (bytes : List Byte) : State := s.setRx .check bytes 2

/-- The sixth header byte, the length (R163): above 48 the frame is discarded and counted, at 0 CHECK follows at once. -/
def State.headerEnds (s : State) (bytes : List Byte) (len : Byte) : State :=
  if Config.maxPayload < len.toNat then s.toHunt.countLinkErrors 1
  else if len = 0 then s.toCheck bytes
  else s.setRx .payload bytes len.toNat

/-- The second check byte (R164): `collected` holds the checked bytes and the first check byte. A bad check discards and
counts the frame; a good one hands it to the frame checks. -/
def State.frameEnds (s : State) (collected : List Byte) (lastByte : Byte) : State :=
  let body := collected.dropLast
  let first := (collected.getLast?).getD 0
  if fletcher16 body = word16 first lastByte then
    match RequestFrame.ofBody body with
    | some f => s.toHunt.routeFrame f
    | none => s.toHunt
  else s.toHunt.countLinkErrors 1

/-- A byte arrives on the tester link (R162, R163, R164). The receiver hears nothing until it has started (R187). -/
def State.receiveByte (s : State) (b : Byte) : State :=
  match s.phase with
  | .held => s
  | .released => s
  | .running =>
    match s.link.rx with
    | .hunt => if b = Config.sync0 then s.setRx .syncSeen [] 0 else s
    | .syncSeen =>
      if b = Config.sync1 then s.setRx .header [] 6 else if b = Config.sync0 then s else s.toHunt
    | .header =>
      let bytes := s.link.partialFrame ++ [b]
      if 1 < s.link.expected then s.setRx .header bytes (s.link.expected - 1) else s.headerEnds bytes b
    | .payload =>
      let bytes := s.link.partialFrame ++ [b]
      if 1 < s.link.expected then s.setRx .payload bytes (s.link.expected - 1) else s.toCheck bytes
    | .check =>
      if 1 < s.link.expected then s.setRx .check (s.link.partialFrame ++ [b]) (s.link.expected - 1)
      else s.frameEnds s.link.partialFrame b

/-- DOWNSTREAM_BYTE (R162, R163): a byte arrives that neither discards nor completes a frame. The byte's effect is the
receiver's alone to decide (assumption 5). -/
def execDownstreamByte (b : Byte) (s : State) : Host.Outcome State Fault Refusal :=
  whileRunning s fun s => s.receiveByte b

/-- FRAME_LENGTH_ERROR (R163): the header length byte above 48 arrives. -/
def execFrameLengthError (b : Byte) (s : State) : Host.Outcome State Fault Refusal :=
  whileRunning s fun s => s.receiveByte b

/-- REQUEST_FRAME (R164): the second check byte of a frame arrives. -/
def execRequestFrame (b : Byte) (s : State) : Host.Outcome State Fault Refusal :=
  whileRunning s fun s => s.receiveByte b

/-! ## The upstream stream (R175, R176) -/

/-- The frame of a response, its flags byte and its check formed now (R175, R177). -/
def State.frameNow (s : State) (r : Response) : SentFrame :=
  { response := r, flags := s.flagsByte, check := fletcher16 (r.body s.flagsByte) }

/-- A frame is emitted: the lane is UP, no frame is being sent, and the stream has a head (R175). -/
def State.emission (s : State) : State :=
  match s.pins.linkRdy, s.link.transmitting, s.link.stream with
  | true, none, r :: _ => { s with link := { s.link with transmitting := some (s.frameNow r) } }
  | _, _, _ => s

/-- RESPONSE_EMISSION (R175). -/
def execResponseEmission (s : State) : Host.Outcome State Fault Refusal :=
  whileRunning s fun s => s.emission

/-- The last check byte of the frame in transmission has been sent: it leaves the stream (R175). -/
def State.frameLeaves (s : State) : State :=
  match s.link.transmitting with
  | some _ => { s with link := { s.link with transmitting := none, stream := s.link.stream.tail } }
  | none => s

/-- FRAME_LEAVES_STREAM (R175). -/
def execFrameLeavesStream (s : State) : Host.Outcome State Fault Refusal :=
  whileRunning s fun s => s.frameLeaves

/-- The upstream ready input takes a level. -/
def State.setLinkRdy (s : State) (up : Bool) : State := { s with pins := { s.pins with linkRdy := up } }

/-- The upstream stream is emptied, the frame in transmission with it. -/
def State.clearStream (s : State) : State := { s with link := { s.link with stream := [], transmitting := none } }

/-- LINK_RDY_FALL (R176): every frame in the stream is discarded and counted. In reset the level of the pin alone
follows. -/
def execLinkRdyFall (s : State) : Host.Outcome State Fault Refusal :=
  whileRunning s
    (fun s => ((s.setLinkRdy false).clearStream).countLinkErrors s.link.stream.length)
    (fun s => s.setLinkRdy false)

/-- LINK_RDY_RISE (R176): the lane becomes UP with an empty stream. A lane that is UP already stays as it is. In reset the
level of the pin alone follows. -/
def execLinkRdyRise (s : State) : Host.Outcome State Fault Refusal :=
  whileRunning s
    (fun s => if s.pins.linkRdy then s else (s.setLinkRdy true).clearStream)
    (fun s => s.setLinkRdy true)

end Sys2Proof.Machine
end

