-- ==== Sys2Proof/Machine/Reset.lean ====
section
/-! DEFINITION. Reset.lean: reset, its release and the start of the receiver (R187, R148, R169). -/

namespace Sys2Proof.Machine

/-- Reset is taken: every block's state takes its value after reset. The input pins stand as they are (R148), the transport
key id is fixed in the part (R33), and the commands on their way to the block and the count of pin samples, the model's
own fields, are kept. -/
def State.taken (s : State) : State :=
  { State.reset with
    phase := .held, pins := s.pins, transportKeyId := s.transportKeyId, strapSamples := s.strapSamples,
    pending := s.pending }

/-- RESET (R187): from any state. -/
def execReset (s : State) : Host.Outcome State Fault Refusal := .next s.taken

/-- RESET_RELEASE (R187): the part leaves reset; outside reset there is none to leave. -/
def execResetRelease (s : State) : Host.Outcome State Fault Refusal :=
  .next (if s.phase = .held then { s with phase := .released } else s)

/-- RECEIVER_START (R187): 800 ticks after the release the receiver starts hunting; it starts once. -/
def execReceiverStart (s : State) : Host.Outcome State Fault Refusal :=
  .next (if s.phase = .released then { s with phase := .running } else s)

end Sys2Proof.Machine
end

