-- ==== Sys2Proof/Machine/Dispatch.lean ====
section
/-! DEFINITION. Dispatch.lean: one arm per row of spec/opcode_table.json, each one direct call of the row's meaning. -/

namespace Sys2Proof.Machine

def exec (i : Instr) (s : State) : Host.Outcome State Fault Refusal :=
  match i with
  | .reset => Sys2Proof.Machine.execReset s
  | .resetRelease => Sys2Proof.Machine.execResetRelease s
  | .receiverStart => Sys2Proof.Machine.execReceiverStart s
  | .frameLengthError b => Sys2Proof.Machine.execFrameLengthError b s
  | .requestFrame b => Sys2Proof.Machine.execRequestFrame b s
  | .responseEmission => Sys2Proof.Machine.execResponseEmission s
  | .frameLeavesStream => Sys2Proof.Machine.execFrameLeavesStream s
  | .linkRdyFall => Sys2Proof.Machine.execLinkRdyFall s
  | .linkRdyRise => Sys2Proof.Machine.execLinkRdyRise s
  | .identify tag => Sys2Proof.Machine.execIdentify tag s
  | .status tag page => Sys2Proof.Machine.execStatus tag page s
  | .paramSet tag id value => Sys2Proof.Machine.execParamSet tag id value s
  | .paramGet tag id => Sys2Proof.Machine.execParamGet tag id s
  | .ruleWrite tag block => Sys2Proof.Machine.execRuleWrite tag block s
  | .ruleRead tag number => Sys2Proof.Machine.execRuleRead tag number s
  | .siteMapWrite tag site port enabled => Sys2Proof.Machine.execSiteMapWrite tag site port enabled s
  | .siteMapRead tag site => Sys2Proof.Machine.execSiteMapRead tag site s
  | .groupWrite tag group members => Sys2Proof.Machine.execGroupWrite tag group members s
  | .groupRead tag group => Sys2Proof.Machine.execGroupRead tag group s
  | .strapSet tag port directions levels => Sys2Proof.Machine.execStrapSet tag port directions levels s
  | .strapRead tag port => Sys2Proof.Machine.execStrapRead tag port s
  | .batchOpen tag label floor => Sys2Proof.Machine.execBatchOpen tag label floor s
  | .keyLoad tag record => Sys2Proof.Machine.execKeyLoad tag record s
  | .unwrapCompletion recovered => Sys2Proof.Machine.execUnwrapCompletion recovered s
  | .keyPurge tag => Sys2Proof.Machine.execKeyPurge tag s
  | .waferOpen tag lot number => Sys2Proof.Machine.execWaferOpen tag lot number s
  | .waferClose tag => Sys2Proof.Machine.execWaferClose tag s
  | .touchdownBegin tag enable => Sys2Proof.Machine.execTouchdownBegin tag enable s
  | .touchdownEnd tag => Sys2Proof.Machine.execTouchdownEnd tag s
  | .touchdownEndCompletion => Sys2Proof.Machine.execTouchdownEndCompletion s
  | .siteAbort tag site => Sys2Proof.Machine.execSiteAbort tag site s
  | .mapQuery tag x y => Sys2Proof.Machine.execMapQuery tag x y s
  | .logRead tag => Sys2Proof.Machine.execLogRead tag s
  | .logDrop tag count => Sys2Proof.Machine.execLogDrop tag count s
  | .eventRead tag => Sys2Proof.Machine.execEventRead tag s
  | .eventClear tag keep => Sys2Proof.Machine.execEventClear tag keep s
  | .transactionStart port => Sys2Proof.Machine.execTransactionStart port s
  | .dieResponse port answer => Sys2Proof.Machine.execDieResponse port answer s
  | .keyService => Sys2Proof.Machine.execKeyService s
  | .responseTimeout port => Sys2Proof.Machine.execResponseTimeout port s
  | .breakEnd port => Sys2Proof.Machine.execBreakEnd port s
  | .settleExpiry port => Sys2Proof.Machine.execSettleExpiry port s
  | .supplyGoodChange port good => Sys2Proof.Machine.execSupplyGoodChange port good s
  | .contactFall => Sys2Proof.Machine.execContactFall s
  | .contactRise => Sys2Proof.Machine.execContactRise s
  | .downstreamByte b => Sys2Proof.Machine.execDownstreamByte b s

end Sys2Proof.Machine
end

