-- ==== Sys2Proof/Safety.lean ====
section
/-! DEFINITION. Safety.lean: the terms in which claims are stated: when a command runs at once, which command a row stands for,
and the invariants of the part. -/

namespace Sys2Proof.Machine

/-- The Control Executor takes a command at once: the part is not held in reset, no command is in execution and none waits
(R168, R187). The phase released is included, which is the model's choice (assumption 6). -/
def State.ready (s : State) : Prop := s.phase ≠ .held ∧ s.control.executor = .idle ∧ s.control.queue = []

/-- The tag and the command of a control-command row. -/
def controlCommand : Instr → Option (Byte × Command)
  | .identify tag => some (tag, .identify)
  | .status tag page => some (tag, .status page)
  | .paramSet tag id value => some (tag, .paramSet id value)
  | .paramGet tag id => some (tag, .paramGet id)
  | .ruleWrite tag block => some (tag, .ruleWrite block)
  | .ruleRead tag number => some (tag, .ruleRead number)
  | .siteMapWrite tag site port enabled => some (tag, .siteMapWrite site port enabled)
  | .siteMapRead tag site => some (tag, .siteMapRead site)
  | .groupWrite tag group members => some (tag, .groupWrite group members)
  | .groupRead tag group => some (tag, .groupRead group)
  | .strapSet tag port directions levels => some (tag, .strapSet port directions levels)
  | .strapRead tag port => some (tag, .strapRead port)
  | .batchOpen tag label floor => some (tag, .batchOpen label floor)
  | .keyLoad tag record => some (tag, .keyLoad record)
  | .keyPurge tag => some (tag, .keyPurge)
  | .waferOpen tag lot number => some (tag, .waferOpen lot number)
  | .waferClose tag => some (tag, .waferClose)
  | .touchdownBegin tag enable => some (tag, .touchdownBegin enable)
  | .touchdownEnd tag => some (tag, .touchdownEnd)
  | .siteAbort tag site => some (tag, .siteAbort site)
  | .mapQuery tag x y => some (tag, .mapQuery x y)
  | .logRead tag => some (tag, .logRead)
  | .logDrop tag count => some (tag, .logDrop count)
  | .eventRead tag => some (tag, .eventRead)
  | .eventClear tag keep => some (tag, .eventClear keep)
  | _ => none

/-! ## Settings stay legal -/

/-- Every stored parameter lies in its range (R171, R95). -/
structure State.ParamsInRange (s : State) : Prop where
  respTmo : 1 ≤ s.params.respTmo ∧ s.params.respTmo ≤ 255
  burnTmo : 1 ≤ s.params.burnTmo ∧ s.params.burnTmo ≤ 255
  settleCode : 1 ≤ s.params.settleCode ∧ s.params.settleCode ≤ 255
  settleScale : s.params.settleScale ≤ 3
  burnLimit : 1 ≤ s.params.burnLimit ∧ s.params.burnLimit ≤ 4
  poolLow : s.params.poolLow ≤ 64
  logHigh : s.params.logHigh ≤ 255
  gear : ∀ p, (s.port p).gear ≤ 3

/-- A stored rule is one RULE WRITE accepts, in normal form (R45, R46). -/
structure Rule.Legal (r : Rule) (n : Fin 64) : Prop where
  action : r.action.allows r.kind = true
  chain : n = 0 → r.chain = false
  addr : r.addrValue &&& r.addrMask = r.addrValue
  data : r.dataValue &&& r.dataMask = r.dataValue
  read : r.kind = .read → r.dataValue = 0 ∧ r.dataMask = 0

/-- Every stored rule is legal. -/
def State.RulesLegal (s : State) : Prop := ∀ n : Fin 64, (s.rules[n]).Legal n

/-- "Two enabled entries never name the same port" (R104). -/
def State.SitesDistinct (s : State) : Prop :=
  ∀ i j : SiteId, (s.siteMap[i]).enabled = true → (s.siteMap[j]).enabled = true → s.sitePort i = s.sitePort j → i = j

/-! ## Queues and streams -/

/-- The upstream stream holds at most 192 frames and is empty while the lane is DOWN; the frame in transmission is its head
(R161, R174, R176). -/
structure State.StreamSound (s : State) : Prop where
  bound : s.link.stream.length ≤ Config.streamCapacity
  down : s.pins.linkRdy = false → s.link.stream = []
  head : ∀ f, s.link.transmitting = some f → s.link.stream.head? = some f.response

/-- At most four commands wait, and none while the executor is IDLE (R168); TOUCHDOWN END is in execution exactly in
TOUCHDOWN_ENDING (R131, R139). -/
structure State.ControlSound (s : State) : Prop where
  bound : s.control.queue.length ≤ Config.controlQueueCapacity
  idle : s.control.executor = .idle → s.control.queue = []
  ending : (∃ tag, s.control.executor = .endingTouchdown tag) ↔ s.td.state = .touchdownEnding

/-- Ports and their queues (R83, R84, R97, R99, R100, R102). -/
structure State.PortsSound (s : State) : Prop where
  bound : ∀ p, (s.port p).queue.length ≤ Config.siteQueueCapacity
  idle : ∀ p, (s.port p).state = .idle → (s.port p).queue = []
  parked : ∀ p, (s.port p).state.isParked = true → (s.port p).queue = []
  outside : s.touchdownIsOpen = false → ∀ p, (s.port p).state = .parked .noTouchdown
  ending : s.td.state = .touchdownEnding → ∀ p, (s.port p).queue = [] ∧ (s.port p).admissionClosed = true
  unparked : ∀ p, (s.port p).state.isParked = false →
    s.phase ≠ .held ∧ s.pins.contact = true ∧ s.td.contactLost = false

/-- A merge record in use still waits for a member: its response is produced at the delivery that completes it (R116). -/
def State.MergesOpen (s : State) : Prop := ∀ (k : Fin 8) (m : MergeRecord), s.merge[k] = some m → m.complete = false

/-! ## Contexts, keys and the log -/

/-- Outside a touchdown every context is IDLE (R135), and the key wait list lists exactly the contexts in WAIT, each once
(R7). -/
structure State.WaitSound (s : State) : Prop where
  outside : s.touchdownIsOpen = false → ∀ p, (s.ctx p).state = .idle
  listed : ∀ p, p ∈ s.waitList ↔ (s.ctx p).state = .wait
  once : s.waitList.Nodup

/-- Custody of keys, log capacity and key accounting: a context holds a key and a log reservation exactly in HELD, LOADING
through LOCKING and DRAINING, and the key is exposed exactly after HELD (R28); records plus reservations never exceed 256
(R151); ACCEPTED = FREE + held + BOUND + VOIDED + PURGED (R42); the next sequence is BOUND + VOIDED (R155). -/
structure State.CustodySound (s : State) : Prop where
  key : ∀ p, (s.ctx p).heldKey.isSome = (s.ctx p).state.holdsKey
  reservation : ∀ p, (s.ctx p).logReserved = (s.ctx p).state.holdsKey
  exposure : ∀ p, (s.ctx p).state.holdsKey = true → ((s.ctx p).exposed = true ↔ (s.ctx p).state ≠ .held)
  capacity : s.log.records.length + s.logReservations ≤ Config.logCapacity
  accounting : s.counters.accepted =
    BitVec.ofNat 32 (s.pool.length + s.heldKeys) + s.counters.bound + s.counters.voided + s.counters.purged
  sequence : s.log.nextSequence = s.counters.bound + s.counters.voided

/-- The key index of a key held by a context. -/
def State.heldIndex (s : State) (p : PortId) : Option Long := (s.ctx p).heldKey.map (·.index)

/-- The pool is in strictly ascending index order, each index above 0 and not above the floor, and no index is both in the
pool and held, nor held twice; every key carries the batch's label; the pool custody count never exceeds 64 (R31, R32,
R34). -/
structure State.PoolSound (s : State) : Prop where
  sorted : s.pool.Pairwise fun a b => a.index < b.index
  range : ∀ k ∈ s.pool, 0 < k.index ∧ k.index ≤ s.batch.floor
  label : ∀ k ∈ s.pool, k.label = s.batch.label
  heldRange : ∀ p k, (s.ctx p).heldKey = some k → 0 < k.index ∧ k.index ≤ s.batch.floor ∧ k.label = s.batch.label
  heldApart : ∀ p k, (s.ctx p).heldKey = some k → ∀ j ∈ s.pool, j.index ≠ k.index
  heldOnce : ∀ p q k j, (s.ctx p).heldKey = some k → (s.ctx q).heldKey = some j → k.index = j.index → p = q
  capacity : s.poolCustody ≤ Config.poolCapacity
  unwrap : ∀ job, s.control.executor = .unwrapping job →
    s.batch.floor < job.index ∧ job.label = s.batch.label ∧ s.poolCustody < Config.poolCapacity

/-- No key index occurs in two log records, and none that a record names is in the pool or held by a context (R28, R153,
R155). -/
structure State.LogSound (s : State) : Prop where
  distinct : s.log.records.Pairwise fun a b => a.keyIndex ≠ b.keyIndex
  range : ∀ r ∈ s.log.records, r.keyIndex ≤ s.batch.floor
  pool : ∀ r ∈ s.log.records, ∀ k ∈ s.pool, k.index ≠ r.keyIndex
  held : ∀ r ∈ s.log.records, ∀ p k, (s.ctx p).heldKey = some k → k.index ≠ r.keyIndex

/-- The image state of a context that holds a key (R64, R66, R69, R76), and its burn attempts (R78): the digest is that of its
identity and key index; the image of a FULL pass is the FULL image; that of a REBURN pass, and every missing mask, has no
bit outside the FULL image; the attempts never exceed BURN_LIMIT while the touchdown lasts. -/
structure State.ImageSound (s : State) : Prop where
  digest : ∀ p k, (s.ctx p).heldKey = some k → (s.ctx p).digest = some (bindingDigest (s.ctx p).identity k.index)
  full : ∀ p k, (s.ctx p).heldKey = some k → (s.ctx p).pass = .full →
    (s.ctx p).image = some (fullImage k.bits (bindingDigest (s.ctx p).identity k.index))
  reburn : ∀ p k, (s.ctx p).heldKey = some k → (s.ctx p).pass = .reburn →
    ∃ img, (s.ctx p).image = some img ∧ ∀ w : Fin 17, img[w] &&& ~~~(s.ctx p).expectedWord w = 0
  missing : ∀ p k, (s.ctx p).heldKey = some k →
    ∀ w : Fin 17, (s.ctx p).missing[w] &&& ~~~(s.ctx p).expectedWord w = 0
  fullPass : ∀ p, (s.ctx p).state ∈ [.held, .loading, .settling] → (s.ctx p).pass = .full
  reburnPass : ∀ p, (s.ctx p).state = .reburn → (s.ctx p).pass = .reburn
  unburned : ∀ p, (s.ctx p).state ∈ [.ident, .wait, .held, .loading, .settling] → (s.ctx p).attempts = 0
  admitted : ∀ p, (s.ctx p).state ∈ [.ready, .reburn] → (s.ctx p).attempts < s.params.burnLimit
  bounded : s.touchdownIsOpen = true → ∀ p, (s.ctx p).attempts ≤ s.params.burnLimit

/-- No service is possible between events: the pool has served the wait list at every trigger (R37, R38). -/
def State.Served (s : State) : Prop := s.serveHead = none

/-! ## Die map and burn supplies -/

/-- The states whose context holds a claim: WAIT and every later state up to DONE (R144). -/
def ContextState.holdsClaim (st : ContextState) : Bool := st == .wait || st.holdsKey

/-- The die map is in its canonical form, with at most one entry per coordinate; entries plus reservations never exceed
4096; no coordinate is claimed twice; a reservation stands for a claimed coordinate without an entry, and any other claim
for one with a TRIED entry (R133, R134, R143..R145). -/
structure State.MapSound (s : State) : Prop where
  sorted : s.dieMap.Pairwise fun a b => a.coord.key < b.coord.key
  attempts : ∀ e ∈ s.dieMap, 1 ≤ e.attempts ∧ e.attempts ≤ Config.maxDieAttempts
  capacity : s.dieMap.length + s.mapReservations ≤ Config.mapCapacity
  claim : ∀ p, (s.ctx p).claim = if (s.ctx p).state.holdsClaim then some (s.ctx p).identity.coord else none
  once : ∀ p q c, (s.ctx p).claim = some c → (s.ctx q).claim = some c → p = q
  reserved : ∀ p, (s.ctx p).mapReserved = true → ∃ c, (s.ctx p).claim = some c ∧ mapLookup s.dieMap c = none
  tried : ∀ p c, (s.ctx p).claim = some c → (s.ctx p).mapReserved = false →
    ∃ e, mapLookup s.dieMap c = some e ∧ e.outcome = .tried

/-- The supply a context state asks for (R2): SETTLING in SETTLING, ON_GOOD in READY through LOCKING and in a drain entered
by abort from LOCKING, otherwise OFF. -/
def ContextState.agreesWith (st : ContextState) (u : SupplyState) : Bool :=
  match st with
  | .settling => match u with | .settling _ => true | _ => false
  | .ready | .burning | .checking | .reburn | .verified | .locking | .draining (.aborted true) => u == .onGood
  | _ => u == .off

/-- A site's supply is what its context's state asks for, and a context is active only with the probes down: "A site's burn
supply is on only while CONTACT is high and that site's context is in SETTLING, …" (R2, R128). -/
structure State.SupplySound (s : State) : Prop where
  agree : ∀ p, (s.ctx p).state.agreesWith (s.supply p).state = true
  active : ∀ p, (s.ctx p).state.ended = false → s.phase ≠ .held ∧ s.pins.contact = true ∧ s.td.contactLost = false

/-! ## All of them -/

/-- The invariants of the part together: what every event between events can rely on. -/
structure State.Sound (s : State) : Prop where
  params : s.ParamsInRange
  sites : s.SitesDistinct
  control : s.ControlSound
  ports : s.PortsSound
  wait : s.WaitSound
  custody : s.CustodySound
  pool : s.PoolSound
  log : s.LogSound
  image : s.ImageSound
  served : s.Served
  map : s.MapSound
  supply : s.SupplySound

end Sys2Proof.Machine
end

