-- ==== Sys2Proof/Certificates/Slice0/Obligations.lean ====
section
/-! DEFINITION. Certificates/Slice0/Obligations.lean: the statements about the model, in the order of OBLIGATIONS.json. Each says
which rule of spec/ it formalises, or that it states a choice of the model, with the log entry. -/

section

open Sys2Proof Sys2Proof.Machine

/-! ## Steps, reset and pins -/

/-- A step takes the command at the front of the queue and executes it on the state with the queue's rest; an empty queue
leaves the state as it is, which is the model's choice (assumption 8). -/
def Obligations.StepRunsTheFrontCommand : Prop :=
  (∀ (c : Instr) (s : State) (rest : List Instr),
    step { s with pending := c :: rest } = exec c { s with pending := rest }) ∧
  ∀ s : State, s.pending = [] → step s = .next s

/-- Every command answers a next state, from every state, and changes neither the commands still on their way nor the
transport key id: no command stops the block (the model's choice of free values for what is open: assumptions 1 to 3). -/
def Obligations.EveryCommandCompletes : Prop :=
  ∀ (c : Instr) (s : State), ∃ t, exec c s = .next t ∧ t.pending = s.pending ∧ t.transportKeyId = s.transportKeyId

/-- The phases of reset change by their own events and by no other (R187): RESET alone takes the part into reset,
RESET_RELEASE alone out of it, and RECEIVER_START alone starts the receiver, once after each release. -/
def Obligations.PhaseMovesByItsEvents : Prop :=
  ∀ (c : Instr) (s t : State), exec c s = .next t →
    (s.phase ≠ .held → t.phase = .held → c = .reset) ∧
    (s.phase ≠ .released → t.phase = .released → c = .resetRelease ∧ s.phase = .held) ∧
    (s.phase ≠ .running → t.phase = .running → c = .receiverStart ∧ s.phase = .released)

/-- An input pin takes the level its own event gives it, and no other command, RESET included, changes a pin's level
(R148, R188; the event rows as changes of level: assumption 7). -/
def Obligations.PinsFollowTheirEvents : Prop :=
  ∀ (c : Instr) (s t : State), exec c s = .next t →
    t.pins =
      match c with
      | .linkRdyFall => { s.pins with linkRdy := false }
      | .linkRdyRise => { s.pins with linkRdy := true }
      | .supplyGoodChange p good => { s.pins with supplyGood := s.pins.supplyGood.set p good }
      | .contactFall => { s.pins with contact := false }
      | .contactRise => { s.pins with contact := true }
      | _ => s.pins

/-- RESET gives every block the value its chapter states for reset, and drives the outputs as R187 says: ATTN inactive, every
supply switch open, transaction and strap lines at high impedance, the link idle. Pins, transport key id, the sample
count and the commands on their way stay, as assumptions 1, 2 and 7 name them. -/
def Obligations.ResetTakesEveryBlock : Prop :=
  ∀ s : State, ∃ t, exec .reset s = .next t ∧
    t.phase = .held ∧ t.pins = s.pins ∧ t.transportKeyId = s.transportKeyId ∧ t.strapSamples = s.strapSamples ∧
    t.pending = s.pending ∧
    t.link = { rx := .hunt, partialFrame := [], expected := 0, stream := [], transmitting := none } ∧
    t.control = { executor := .idle, queue := [] } ∧
    (∀ i : SiteId, t.siteMap[i] = { port := i, enabled := false }) ∧
    (∀ g : Fin 15, t.groups[g] = 0) ∧
    (∀ k : Fin 8, t.merge[k] = none) ∧
    (∀ p : PortId, t.port p =
      { state := .parked .noTouchdown, admissionClosed := false, queue := [], prevRule := none, gear := 2,
        strapDirections := 0, strapLevels := 0 }) ∧
    (∀ (n : Fin 64) (k : Fin 64), (t.rules[n]).bytes k = [byteOf k.val, 0, 0, 0, 0, 0, 0, 0, 0, 0, 0, 0, 0, 0, 0, 0]) ∧
    (∀ p : PortId, t.ctx p =
      { state := .idle, site := p,
        identity := { lot := 0, wafer := 0, coord := { x := 0, y := 0 }, lock := false, captured := 0 }, heldKey := none, exposed := false, digest := none, image := none, pass := .full, injected := 0,
        verified := 0, missing := Vector.replicate 17 0, attempts := 0, claim := none, mapReserved := false,
        logReserved := false, verdict := none }) ∧
    t.waitList = [] ∧ t.batch = { isOpen := false, label := 0, floor := 0 } ∧ t.pool = [] ∧
    t.counters = { accepted := 0, bound := 0, voided := 0, purged := 0 } ∧
    (∀ p : PortId, t.supply p = { state := .off, interval := none }) ∧
    t.td = { state := .noWafer, wafer := none, number := 0, enabled := 0, contactLost := false } ∧
    t.dieMap = [] ∧ t.log = { records := [], nextSequence := 0 } ∧
    t.events = { latches := 0, linkErrors := 0, unwrapFails := 0, lateResponses := 0 } ∧
    t.params = { respTmo := 50, burnTmo := 20, settleCode := 100, settleScale := 2, burnLimit := 3, poolLow := 8,
                 logHigh := 192, eventEnable := 0 } ∧
    t.attn = false ∧ t.linkTxIdle = true ∧
    ∀ p : PortId, (t.supply p).state.switchOn = false ∧ (t.port p).state.lines = .highImpedance ∧
      ∀ i : Fin 4, (t.port p).strapDrive i = none

/-- RESET_RELEASE takes a part held in reset out of it, and RECEIVER_START starts the receiver of a released one; each changes
the phase alone (R187). That neither does anything in another phase is the model's choice (assumptions 7, 11). -/
def Obligations.ReleaseThenReceiverStart : Prop :=
  ∀ s : State,
    exec .resetRelease s = .next (if s.phase = .held then { s with phase := .released } else s) ∧
    exec .receiverStart s = .next (if s.phase = .released then { s with phase := .running } else s)

/-- "no input changes any state" while the part is held in reset (R187): every command but RESET and RESET_RELEASE leaves the
state as it is, but for the level of the pin that a pin event names (assumption 7). -/
def Obligations.HeldPartIgnoresInputs : Prop :=
  ∀ (c : Instr) (s : State), s.phase = .held → c ≠ .reset → c ≠ .resetRelease →
    exec c s = .next
      (match c with
      | .linkRdyFall => { s with pins := { s.pins with linkRdy := false } }
      | .linkRdyRise => { s with pins := { s.pins with linkRdy := true } }
      | .supplyGoodChange p good => { s with pins := { s.pins with supplyGood := s.pins.supplyGood.set p good } }
      | .contactFall => { s with pins := { s.pins with contact := false } }
      | .contactRise => { s with pins := { s.pins with contact := true } }
      | _ => s)

/-! ## The tester link: reception -/

/-- A byte that completes nothing (R162, R163): the receiver hunts for the sync pair 0x7E, 0xB1, collects six header bytes,
the payload bytes the length names, and the first check byte. Before the receiver has started a byte is discarded
(R187). -/
def Obligations.ReceiverHuntsAndCollects : Prop :=
  ∀ (b : Byte) (s : State),
    (s.phase = .released → exec (.downstreamByte b) s = .next s) ∧
    (s.phase = .running →
      (s.link.rx = .hunt → b = 0x7E → exec (.downstreamByte b) s =
        .next { s with link := { s.link with rx := .syncSeen, partialFrame := [], expected := 0 } }) ∧
      (s.link.rx = .hunt → b ≠ 0x7E → exec (.downstreamByte b) s = .next s) ∧
      (s.link.rx = .syncSeen → b = 0xB1 → exec (.downstreamByte b) s =
        .next { s with link := { s.link with rx := .header, partialFrame := [], expected := 6 } }) ∧
      (s.link.rx = .syncSeen → b = 0x7E → exec (.downstreamByte b) s = .next s) ∧
      (s.link.rx = .syncSeen → b ≠ 0xB1 → b ≠ 0x7E → exec (.downstreamByte b) s =
        .next { s with link := { s.link with rx := .hunt, partialFrame := [], expected := 0 } }) ∧
      (s.link.rx = .header → 1 < s.link.expected → exec (.downstreamByte b) s =
        .next { s with link := { s.link with
          partialFrame := s.link.partialFrame ++ [b], expected := s.link.expected - 1 } }) ∧
      (s.link.rx = .header → s.link.expected = 1 → b = 0 → exec (.downstreamByte b) s =
        .next { s with link := { s.link with
          rx := .check, partialFrame := s.link.partialFrame ++ [b], expected := 2 } }) ∧
      (s.link.rx = .header → s.link.expected = 1 → 1 ≤ b.toNat → b.toNat ≤ 48 → exec (.downstreamByte b) s =
        .next { s with link := { s.link with
          rx := .payload, partialFrame := s.link.partialFrame ++ [b], expected := b.toNat } }) ∧
      (s.link.rx = .payload → 1 < s.link.expected → exec (.downstreamByte b) s =
        .next { s with link := { s.link with
          partialFrame := s.link.partialFrame ++ [b], expected := s.link.expected - 1 } }) ∧
      (s.link.rx = .payload → s.link.expected = 1 → exec (.downstreamByte b) s =
        .next { s with link := { s.link with
          rx := .check, partialFrame := s.link.partialFrame ++ [b], expected := 2 } }) ∧
      (s.link.rx = .check → s.link.expected = 2 → exec (.downstreamByte b) s =
        .next { s with link := { s.link with
          partialFrame := s.link.partialFrame ++ [b], expected := 1 } }))

/-- A length byte above 48 discards the frame: LINK_ERRORS rises by 1, saturating, LINK_ERR is latched, and the receiver hunts
again (R163, R184). -/
def Obligations.LengthAbove48IsDiscarded : Prop :=
  ∀ (b : Byte) (s : State), s.phase = .running → s.link.rx = .header → s.link.expected = 1 → 48 < b.toNat →
    exec (.frameLengthError b) s = .next
      { s with
        link := { s.link with rx := .hunt, partialFrame := [], expected := 0 }
        events := { s.events with
          latches := s.events.latches ||| 1#12
          linkErrors := BitVec.ofNat 16 (min 65535 (s.events.linkErrors.toNat + 1)) } }

/-- The second check byte (R164, R67): where it and the byte before it are the Fletcher-16 of the bytes from the tag on, the
frame is complete and is routed; otherwise it is discarded and counted. Either way the receiver hunts. -/
def Obligations.CheckDecidesTheFrame : Prop :=
  ∀ (f : RequestFrame) (hi lo : Byte) (s : State), s.phase = .running → s.link.rx = .check → s.link.expected = 1 →
    s.link.partialFrame = f.body ++ [hi] →
    let t : State := { s with link := { s.link with rx := .hunt, partialFrame := [], expected := 0 } }
    exec (.requestFrame lo) s = .next
      (if fletcher16 f.body = word16 hi lo then t.routeFrame f
      else { t with events := { s.events with
               latches := s.events.latches ||| 1#12
               linkErrors := BitVec.ofNat 16 (min 65535 (s.events.linkErrors.toNat + 1)) } })

/-- A whole request frame, sent byte by byte from HUNT, is received and routed with every field as sent (R162..R164, R177):
the bytes before the last as DOWNSTREAM_BYTE rows, the second check byte as REQUEST_FRAME. -/
def Obligations.SentFrameIsRouted : Prop :=
  ∀ (f : RequestFrame) (rest : List Instr) (s : State), s.phase = .running → s.link.rx = .hunt →
    f.payload.length ≤ 48 →
    s.pending = f.bytes.dropLast.map Instr.downstreamByte ++ .requestFrame ((fletcher16 f.body).extractLsb' 0 8) :: rest →
    Sys2Proof.core.run f.bytes.length s = .next
      (State.routeFrame
        { s with pending := rest, link := { s.link with rx := .hunt, partialFrame := [], expected := 0 } } f)

/-- The checks of a complete frame, in the order of R165: site above 31, kind, kind against site, length; a frame that passes
goes to the Control Executor's arrival checks 1 and 2 (R167), or to the dispatcher with its data word. -/
def Obligations.FrameChecksInOrder : Prop :=
  ∀ (f : RequestFrame) (s : State),
    let answer := fun st : Status => s.emit { tag := f.tag, site := f.site, status := st, payload := [] }
    let control := f.kind = 3
    s.routeFrame f =
      if 31 < f.site.toNat then answer .badSite
      else if f.kind ≠ 1 ∧ f.kind ≠ 2 ∧ ¬ control then answer .badKind
      else if ¬ (control ↔ f.site = 31) then answer .badKind
      else if (f.kind = 1 ∧ f.payload.length ≠ 2) ∨ (f.kind = 2 ∧ f.payload ≠ []) then answer .badLen
      else if control then
        match paramLength f.address with
        | none => s.refuse f.tag .badCmd
        | some n =>
          if f.payload.length ≠ n then s.refuse f.tag .badLen
          else ((commandOfPayload f.address f.payload).map (s.submit f.tag)).getD (s.refuse f.tag .badLen)
      else s.siteFrame { tag := f.tag, site := f.site, address := f.address, op := f.op }

/-- A control-command row does what the CONTROL frame of its command does (R165..R167, R178): every parameter of every
command survives the frame's bytes. What a row stands for, and that it is also taken in the phase released, is the model's
choice (assumption 6). -/
def Obligations.ControlFrameRunsItsRow : Prop :=
  ∀ (i : Instr) (tag : Byte) (c : Command) (s : State), controlCommand i = some (tag, c) → s.phase ≠ .held →
    exec i s = .next (s.routeFrame (commandFrame c tag))

/-! ## The tester link: the upstream stream -/

/-- A response joins the tail of the upstream stream while the lane is UP and fewer than 192 frames stand in it; otherwise it
is discarded and counted, and LINK_ERR latched (R173, R174, R176). -/
def Obligations.ResponseJoinsOrIsCounted : Prop :=
  ∀ (r : Response) (s : State),
    s.emit r =
      if s.pins.linkRdy = true ∧ s.link.stream.length < 192 then
        { s with link := { s.link with stream := s.link.stream ++ [r] } }
      else
        { s with events := { s.events with
          latches := s.events.latches ||| 1#12
          linkErrors := BitVec.ofNat 16 (min 65535 (s.events.linkErrors.toNat + 1)) } }

/-- A frame is emitted when the lane is UP, none is being sent and the stream has a head; its flags byte carries attention in
bit 0 and its check is formed then. It leaves the stream when its last byte has been sent (R175, R177, R181). Where there is
nothing to emit, or no frame is being sent, the rows do nothing, which is the model's choice (assumptions 10, 11). -/
def Obligations.FrameIsEmittedThenLeaves : Prop :=
  ∀ s : State, s.phase ≠ .held →
    (∀ r rest, s.pins.linkRdy = true → s.link.transmitting = none → s.link.stream = r :: rest →
      let flags : Byte := if s.events.latches &&& s.params.eventEnable = 0 then 0 else 1
      let f : SentFrame := { response := r, flags := flags, check := fletcher16 (
        [r.tag, r.site, r.status.code, flags, byteOf r.payload.length] ++ r.payload) }
      exec .responseEmission s = .next { s with link := { s.link with transmitting := some f } }) ∧
    ((s.pins.linkRdy = false ∨ s.link.transmitting ≠ none ∨ s.link.stream = []) →
      exec .responseEmission s = .next s) ∧
    (∀ f, s.link.transmitting = some f →
      exec .frameLeavesStream s =
        .next { s with link := { s.link with transmitting := none, stream := s.link.stream.tail } }) ∧
    (s.link.transmitting = none → exec .frameLeavesStream s = .next s)

/-- LINK_RDY falling takes the lane DOWN: every frame in the stream is discarded and counted, saturating, and LINK_ERR is
latched where one was. Rising, the lane becomes UP with an empty stream (R176); a rise while the lane is UP already
changes nothing, which is the model's choice (assumption 7). -/
def Obligations.LaneFollowsReady : Prop :=
  ∀ s : State, s.phase ≠ .held →
    exec .linkRdyFall s = .next
      { s with
        pins := { s.pins with linkRdy := false }
        link := { s.link with stream := [], transmitting := none }
        events :=
          if s.link.stream = [] then s.events
          else { s.events with
                 latches := s.events.latches ||| 1#12
                 linkErrors := BitVec.ofNat 16 (min 65535 (s.events.linkErrors.toNat + s.link.stream.length)) } } ∧
    exec .linkRdyRise s = .next
      (if s.pins.linkRdy = true then s
      else { s with
             pins := { s.pins with linkRdy := true }
             link := { s.link with stream := [], transmitting := none } })

/-! ## The control queue -/

/-- Where a command arrives (R167, R168): QFULL with four waiting; it waits while a command is in execution; it is executed
at once where the executor is IDLE and nothing waits. Also taken in the phase released, the model's choice (assumption 6). -/
def Obligations.ControlRowsQueueOrRun : Prop :=
  ∀ (i : Instr) (tag : Byte) (c : Command) (s : State), controlCommand i = some (tag, c) → s.phase ≠ .held →
    (s.control.queue.length ≥ 4 → exec i s = .next (s.refuse tag .qFull)) ∧
    (s.control.queue.length < 4 → s.control.executor ≠ .idle →
      exec i s = .next { s with control := { s.control with queue := s.control.queue ++ [(tag, c)] } }) ∧
    (s.ready → exec i s = .next (runCommand tag c s))

/-- When the executor becomes IDLE the queue is executed in the order of arrival, until a command takes time or none is left
(R168). -/
def Obligations.ReleasedQueueRunsInOrder : Prop :=
  ∀ s : State,
    (∀ tag c rest, s.control.executor = .idle → s.control.queue = (tag, c) :: rest →
      s.runQueue = (runCommand tag c { s with control := { s.control with queue := rest } }).runQueue) ∧
    (s.control.executor ≠ .idle ∨ s.control.queue = [] → s.runQueue = s)

/-! ## Reading and setup commands -/

/-- IDENTIFY answers OK with part code 0x1640, revision 0x01 and the transport key id, and changes nothing (R185).
Also taken in the phase released, the model's choice (assumption 6). -/
def Obligations.IdentifyAnswersTheFixedValues : Prop :=
  (∀ (tag : Byte) (s : State), s.ready →
    exec (.identify tag) s = .next (s.respondOk tag ([0x16, 0x40, 0x01] ++ be16 s.transportKeyId))) ∧
  ∀ (c : Instr) (s t : State), exec c s = .next t → t.transportKeyId = s.transportKeyId

/-- STATUS answers page 0 with the 34 bytes of the shared state and page 1 with the sixteen state codes and the sixteen
verdict codes in port order; a page above 1 is refused BADARG; nothing else changes (R172, R186).
Also taken in the phase released, the model's choice (assumption 6). -/
def Obligations.StatusReportsItsPages : Prop :=
  ∀ (tag page : Byte) (s : State), s.ready →
    let flags : Byte :=
      (if s.batch.isOpen then 1 else 0) + (if s.pins.contact then 2 else 0) + (if s.td.contactLost then 4 else 0)
    let page0 : List Byte :=
      [byteOf s.pool.length] ++ be16 (wordOf s.log.records.length) ++
        [byteOf s.logReservations, byteOf s.mapReservations, s.td.state.code] ++ be16 s.td.number ++ [flags] ++
        be32 s.batch.label ++ be32 s.batch.floor ++ be32 s.counters.accepted ++ be32 s.counters.bound ++
        be32 s.counters.voided ++ be32 s.counters.purged ++ [byteOf s.waitList.length]
    let page1 : List Byte :=
      (List.finRange 16).map (fun p => (s.ctx p).state.code) ++ (List.finRange 16).map (fun p => (s.ctx p).verdictCode)
    page0.length = 34 ∧ page1.length = 32 ∧
    exec (.status tag page) s = .next
      (if page = 0 then s.respondOk tag page0 else if page = 1 then s.respondOk tag page1 else s.refuse tag .badArg)

/-- PARAM SET stores the value clamped to the parameter's range (EVENT_ENABLE: bits 12 to 15 cleared), answers with the
identifier and the value as stored, and changes no other parameter and nothing else; an unknown identifier is refused
BADARG, and BURN_LIMIT with a touchdown open is refused STATE (R171, R79, R95).
Also taken in the phase released, the model's choice (assumption 6). -/
def Obligations.ParamSetStoresTheClampedValue : Prop :=
  ∀ (tag id : Byte) (value : Word) (s : State), s.ready →
    match Param.ofId id with
    | none => exec (.paramSet tag id value) s = .next (s.refuse tag .badArg)
    | some q =>
      let inRange : Word :=
        match q with
        | .respTmo | .burnTmo | .settleCode => wordOf (max 1 (min 255 value.toNat))
        | .settleScale | .gear _ => wordOf (min 3 value.toNat)
        | .burnLimit => wordOf (max 1 (min 4 value.toNat))
        | .poolLow => wordOf (min 64 value.toNat)
        | .logHigh => wordOf (min 255 value.toNat)
        | .eventEnable => value &&& 0x0FFF
      (q = .burnLimit → s.touchdownIsOpen = true → exec (.paramSet tag id value) s = .next (s.refuse tag .state)) ∧
      (¬ (q = .burnLimit ∧ s.touchdownIsOpen = true) → ∃ t : State,
        exec (.paramSet tag id value) s = .next (t.respondOk tag (id :: be16 inRange)) ∧
        t.paramValue q = inRange ∧ (∀ q', q' ≠ q → t.paramValue q' = s.paramValue q') ∧
        ({ t with params := s.params, ports := s.ports } : State) = s ∧
        ∀ p, { t.port p with gear := (s.port p).gear } = s.port p)

/-- PARAM GET answers with the identifier and the stored value, refuses an unknown identifier BADARG, and changes nothing
else (R171). Also taken in the phase released, the model's choice (assumption 6). -/
def Obligations.ParamGetReadsTheStoredValue : Prop :=
  ∀ (tag id : Byte) (s : State), s.ready →
    exec (.paramGet tag id) s = .next
      (match Param.ofId id with
      | none => s.refuse tag .badArg
      | some q => s.respondOk tag (id :: be16 (s.paramValue q)))

/-- RULE WRITE (R45..R47): STATE in an open touchdown; BADARG for a number above 63, a kind above 2 or an action above 6, a
chain flag in rule 0, an INJECT that is not WRITE, a VERIFY or CAPTURE that is not READ, a word number above 16 or a
capture field above 5; otherwise the one rule is replaced by the written one in its normal form, which the response
carries. Also taken in the phase released, the model's choice (assumption 6). -/
def Obligations.RuleWriteStoresTheNormalForm : Prop :=
  ∀ (tag : Byte) (b : RuleBlock) (s : State), s.ready →
    let bad : Prop :=
      63 < b.number.toNat ∨ 2 < b.kind.toNat ∨ 6 < b.action.toNat ∨ (b.number = 0 ∧ b.chain ≠ 0) ∨
        (b.action = 2 ∧ b.kind ≠ 1) ∨ (b.action = 3 ∧ b.kind ≠ 2) ∨ (b.action = 1 ∧ b.kind ≠ 2) ∨
        ((b.action = 2 ∨ b.action = 3) ∧ 16 < b.argument.toNat) ∨ (b.action = 1 ∧ 5 < b.argument.toNat)
    (s.touchdownIsOpen = true → exec (.ruleWrite tag b) s = .next (s.refuse tag .state)) ∧
    (s.touchdownIsOpen = false → bad → exec (.ruleWrite tag b) s = .next (s.refuse tag .badArg)) ∧
    (s.touchdownIsOpen = false → ¬ bad → ∃ (n : Fin 64) (r : Rule),
      n.val = b.number.toNat ∧
      exec (.ruleWrite tag b) s = .next (({ s with rules := s.rules.set n r } : State).respondOk tag (r.bytes n)) ∧
      r.bytes n =
        [b.number, if b.enabled = 0 then 0 else 1, b.kind] ++ be16 (b.addrValue &&& b.addrMask) ++ be16 b.addrMask ++
          be16 (if b.kind = 2 then 0 else b.dataValue &&& b.dataMask) ++ be16 (if b.kind = 2 then 0 else b.dataMask) ++
          [if b.chain = 0 then 0 else 1, b.action,
            if b.action = 1 ∨ b.action = 2 ∨ b.action = 3 then b.argument else 0] ++
          be16 (if b.action = 1 ∧ b.argument = 5 then b.argMask else 0))

/-- RULE READ (R48): OK with the number and the stored rule for 0..63, BADARG above; nothing else changes.
Also taken in the phase released, the model's choice (assumption 6). -/
def Obligations.RuleReadReturnsTheStoredRule : Prop :=
  ∀ (tag number : Byte) (s : State), s.ready →
    (∀ n : Fin 64, n.val = number.toNat →
      exec (.ruleRead tag number) s = .next (s.respondOk tag ((s.rules[n]).bytes n))) ∧
    (63 < number.toNat → exec (.ruleRead tag number) s = .next (s.refuse tag .badArg))

/-- SITEMAP WRITE (R105): STATE in an open touchdown, BADARG for a site or port above 15, CONFLICT for an enabled entry whose
port another enabled entry names; otherwise the one entry is replaced and answered.
Also taken in the phase released, the model's choice (assumption 6). -/
def Obligations.SiteMapWriteKeepsPortsApart : Prop :=
  ∀ (tag site port enabled : Byte) (s : State), s.ready →
    (s.touchdownIsOpen = true → exec (.siteMapWrite tag site port enabled) s = .next (s.refuse tag .state)) ∧
    (s.touchdownIsOpen = false → (15 < site.toNat ∨ 15 < port.toNat) →
      exec (.siteMapWrite tag site port enabled) s = .next (s.refuse tag .badArg)) ∧
    (∀ (i : SiteId) (p : PortId), s.touchdownIsOpen = false → i.val = site.toNat → p.val = port.toNat →
      let taken : Prop := ∃ j : SiteId, j ≠ i ∧ (s.siteMap[j]).enabled = true ∧ (s.siteMap[j]).port = p
      let flag : Bool := decide (enabled ≠ 0)
      (flag = true → taken → exec (.siteMapWrite tag site port enabled) s = .next (s.refuse tag .conflict)) ∧
      (¬ (flag = true ∧ taken) → exec (.siteMapWrite tag site port enabled) s = .next
        (({ s with siteMap := s.siteMap.set i { port := p, enabled := flag } } : State).respondOk tag
          [site, port, if enabled = 0 then 0 else 1])))

/-- SITEMAP READ (R106): OK with the site, its port and its enabled flag for 0..15, BADARG above; nothing else changes.
Also taken in the phase released, the model's choice (assumption 6). -/
def Obligations.SiteMapReadReturnsTheEntry : Prop :=
  ∀ (tag site : Byte) (s : State), s.ready →
    (∀ i : SiteId, i.val = site.toNat → exec (.siteMapRead tag site) s = .next
      (s.respondOk tag [site, byteOf (s.siteMap[i]).port.val, if (s.siteMap[i]).enabled then 1 else 0])) ∧
    (15 < site.toNat → exec (.siteMapRead tag site) s = .next (s.refuse tag .badArg))

/-- GROUP WRITE (R107): STATE in an open touchdown, then BADARG outside 16..30; otherwise the one entry is replaced by the
bitmap, whatever it is, and answered. Also taken in the phase released, the model's choice (assumption 6). -/
def Obligations.GroupWriteReplacesTheBitmap : Prop :=
  ∀ (tag group : Byte) (members : Word) (s : State), s.ready →
    (s.touchdownIsOpen = true → exec (.groupWrite tag group members) s = .next (s.refuse tag .state)) ∧
    (s.touchdownIsOpen = false → (group.toNat < 16 ∨ 30 < group.toNat) →
      exec (.groupWrite tag group members) s = .next (s.refuse tag .badArg)) ∧
    (∀ g : Fin 15, s.touchdownIsOpen = false → g.val + 16 = group.toNat →
      exec (.groupWrite tag group members) s = .next
        (({ s with groups := s.groups.set g members } : State).respondOk tag (group :: be16 members)))

/-- GROUP READ (R108): OK with the group number and the stored bitmap for 16..30, BADARG otherwise; accepted at any time, and
nothing changes but the upstream stream that carries the response. Also taken in the phase released, the model's choice (assumption 6). -/
def Obligations.GroupReadReturnsTheBitmap : Prop :=
  ∀ (tag group : Byte) (s : State), s.ready →
    (∀ g : Fin 15, g.val + 16 = group.toNat →
      exec (.groupRead tag group) s = .next (s.respondOk tag (group :: be16 s.groups[g]))) ∧
    ((group.toNat < 16 ∨ 30 < group.toNat) → exec (.groupRead tag group) s = .next (s.refuse tag .badArg))

/-- STRAP SET stores directions and levels of the four lines of a port and reports them, bits 4 to 7 as 0 (R96). STRAP READ
reports them with the levels sensed at the pins, which are free: the n-th sample is `Config.strapSense n`, whatever that
is (R98, assumption 2). A port above 15 is refused BADARG. A port drives a line that is an output unless it is PARKED
(R97). Also taken in the phase released, the model's choice (assumption 6). -/
def Obligations.StrapLinesAreSetAndRead : Prop :=
  (∀ (tag port dirs levels : Byte) (s : State), s.ready →
    (∀ p : PortId, p.val = port.toNat →
      exec (.strapSet tag port dirs levels) s = .next
        ((s.setPort p { s.port p with
          strapDirections := dirs.setWidth 4, strapLevels := levels.setWidth 4 }).respondOk tag
          [port, dirs &&& 0x0F, levels &&& 0x0F]) ∧
      exec (.strapRead tag port) s = .next
        (({ s with strapSamples := s.strapSamples + 1 } : State).respondOk tag
          [port, (s.port p).strapDirections.setWidth 8, (s.port p).strapLevels.setWidth 8,
            (Config.strapSense s.strapSamples).setWidth 8])) ∧
    (15 < port.toNat →
      exec (.strapSet tag port dirs levels) s = .next (s.refuse tag .badArg) ∧
      exec (.strapRead tag port) s = .next (s.refuse tag .badArg))) ∧
  ∀ (pt : Port) (i : Fin 4),
    pt.strapDrive i =
      if pt.state.isParked = false ∧ pt.strapDirections.getLsbD i.val = true then some (pt.strapLevels.getLsbD i.val)
      else none

/-- EVENT READ answers latches, enable mask and the three counters, ten bytes, and changes nothing (R182).
Also taken in the phase released, the model's choice (assumption 6). -/
def Obligations.EventReadReportsAndKeeps : Prop :=
  ∀ (tag : Byte) (s : State), s.ready →
    exec (.eventRead tag) s = .next
      (s.respondOk tag (be16 (s.events.latches.setWidth 16) ++ be16 (s.params.eventEnable.setWidth 16) ++
        be16 s.events.linkErrors ++ be16 s.events.unwrapFails ++ be16 s.events.lateResponses))

/-- EVENT CLEAR clears each latch whose keep-mask bit is 0, leaves the others, ignores bits 12 to 15, and answers with the
latches as they then stand; enable mask and counters stay (R183). Also taken in the phase released, the model's choice (assumption 6). -/
def Obligations.EventClearKeepsTheMaskedLatches : Prop :=
  ∀ (tag : Byte) (keep : Word) (s : State), s.ready →
    let left : BitVec 12 := s.events.latches &&& keep.extractLsb' 0 12
    exec (.eventClear tag keep) s = .next
      (({ s with events := { s.events with latches := left } } : State).respondOk tag (be16 (left.setWidth 16))) ∧
    ∀ n : Nat, n < 12 → left.getLsbD n = (s.events.latches.getLsbD n && keep.getLsbD n)

/-! ## Batches and keys -/

/-- BATCH OPEN (R30, R41, R155): BUSY while the pool or a context holds a key; otherwise the batch is open under its label, the
floor rises to the requested one and never falls, the four counters and the next sequence are 0, and nothing else
changes. Also taken in the phase released, the model's choice (assumption 6). -/
def Obligations.BatchOpenStartsTheAccounts : Prop :=
  ∀ (tag : Byte) (label floor : Long) (s : State), s.ready →
    let held : Prop := s.pool ≠ [] ∨ ∃ p, (s.ctx p).state.holdsKey = true
    let inForce : Long := if s.batch.floor.toNat ≤ floor.toNat then floor else s.batch.floor
    (held → exec (.batchOpen tag label floor) s = .next (s.refuse tag .busy)) ∧
    (¬ held → exec (.batchOpen tag label floor) s = .next
      (({ s with
          batch := { isOpen := true, label := label, floor := inForce }
          counters := { accepted := 0, bound := 0, voided := 0, purged := 0 }
          log := { s.log with nextSequence := 0 } } : State).respondOk tag (be32 label ++ be32 inForce)))

/-- KEY LOAD is admitted or refused by the first check that applies (R33): no batch, index 0, another transport key id, an
index not above the floor, 64 keys in pool custody. Admitted, its unwrap starts and holds the executor, with the batch
label of that moment (R34). Also taken in the phase released, the model's choice (assumption 6). -/
def Obligations.KeyLoadChecksInOrder : Prop :=
  ∀ (tag : Byte) (r : KeyRecord) (s : State), s.ready →
    let job : UnwrapJob :=
      { tag := tag, index := r.index, ciphertext := r.ciphertext, integrity := r.integrity, label := s.batch.label }
    exec (.keyLoad tag r) s = .next
      (if s.batch.isOpen = false then s.refuse tag .noBatch
      else if r.index = 0 then s.refuse tag .badArg
      else if r.keyId ≠ s.transportKeyId then s.refuse tag .keyId
      else if r.index.toNat ≤ s.batch.floor.toNat then s.refuse tag .staleIndex
      else if 64 ≤ s.poolCustody then s.refuse tag .poolFull
      else { s with control := { s.control with executor := .unwrapping job } })

/-- The end of an unwrap (R35, R36). With a matching tag the recovered key joins the pool's tail, the floor becomes its index,
ACCEPTED rises and the wait list is served; without, UNWRAP_FAILS rises, saturating, and UNWRAP_FAIL is latched. Both
answer the KEY LOAD with the index and the free count and release the control queue (R168). The site responses of the event
come first (R173): the ports whose queues the released commands empty answer their queued requests ABORTED, in ascending
physical port order, and the event then runs on the state that leaves. Its other responses follow in the order of execution.
That a command released at the event finds the discards of those site responses counted already is the model's choice
(assumption 19). Which way the unwrap ends, and the key, arrive with the row (assumption 3); without an unwrap in flight
nothing happens (assumption 11). The row is also taken in the phase released, the model's choice (assumption 6). -/
def Obligations.UnwrapCompletionAcceptsOrCounts : Prop :=
  (∀ (job : UnwrapJob) (key : KeyBits) (s : State), s.phase ≠ .held → s.control.executor = .unwrapping job →
    let event := fun u : State =>
      let t : State := State.serviceKeys
        { u with
          control := { u.control with executor := .idle }
          pool := u.pool ++ [{ index := job.index, bits := key, label := job.label }]
          batch := { u.batch with floor := job.index }
          counters := { u.counters with accepted := u.counters.accepted + 1 } }
      (t.respond job.tag .ok (be32 job.index ++ [byteOf t.pool.length])).runQueue
    let answering := (List.finRange 16).filter fun p : PortId => ((event s).port p).queue = []
    exec (.unwrapCompletion (some key)) s = .next (event (answering.foldl (fun u p => u.answerQueue p .aborted) s))) ∧
  (∀ (job : UnwrapJob) (s : State), s.phase ≠ .held → s.control.executor = .unwrapping job →
    let event := fun u : State =>
      let t : State :=
        { u with
          control := { u.control with executor := .idle }
          events := { u.events with
            latches := u.events.latches ||| 2#12
            unwrapFails := BitVec.ofNat 16 (min 65535 (u.events.unwrapFails.toNat + 1)) } }
      (t.respond job.tag .unwrapFail (be32 job.index ++ [byteOf u.pool.length])).runQueue
    let answering := (List.finRange 16).filter fun p : PortId => ((event s).port p).queue = []
    exec (.unwrapCompletion none) s = .next (event (answering.foldl (fun u p => u.answerQueue p .aborted) s))) ∧
  ∀ (r : Option KeyBits) (s : State), (∀ job, s.control.executor ≠ .unwrapping job) →
    exec (.unwrapCompletion r) s = .next s

/-- KEY PURGE (R40, R43): every key of the pool is removed and counted PURGED, held keys are not touched, the number removed is
answered, and POOL_LOW is latched where at least one was removed and the parameter is above 0.
Also taken in the phase released, the model's choice (assumption 6). -/
def Obligations.KeyPurgeEmptiesThePool : Prop :=
  ∀ (tag : Byte) (s : State), s.ready →
    exec (.keyPurge tag) s = .next
      (({ s with
          pool := []
          counters := { s.counters with purged := s.counters.purged + BitVec.ofNat 32 s.pool.length }
          events :=
            if s.pool ≠ [] ∧ 0 < s.params.poolLow then { s.events with latches := s.events.latches ||| 4#12 }
            else s.events } : State).respondOk tag [byteOf s.pool.length])

/-- KEY_SERVICE (R37, R38, R8, R43, R64, R78): while a context waits, a key is FREE and the log has a free slot, the head of the
wait list receives the lowest key, the pool's head, with a log reservation and the FULL image of key and digest, in
HELD; POOL_LOW is latched where the keys left are fewer than the parameter. Services follow one another until a
condition fails. The row is also taken in the phase released, the model's choice (assumption 6). -/
def Obligations.KeyServiceServesTheHead : Prop :=
  (∀ s : State, s.phase ≠ .held → exec .keyService s = .next s.serviceKeys) ∧
  (∀ s : State, (s.waitList = [] ∨ s.pool = [] ∨ 256 ≤ s.log.records.length + s.logReservations) → s.serviceKeys = s) ∧
  (∀ (p : PortId) (ws : List PortId) (k : Key) (ks : List Key) (s : State),
    s.waitList = p :: ws → s.pool = k :: ks → s.log.records.length + s.logReservations < 256 →
    let d := bindingDigest (s.ctx p).identity k.index
    s.serviceKeys = State.serviceKeys
      { s with
        waitList := ws, pool := ks
        events := if ks.length < s.params.poolLow then { s.events with latches := s.events.latches ||| 4#12 } else s.events
        contexts := s.contexts.set p
          { s.ctx p with
            state := .held, heldKey := some k, exposed := false, digest := some d, image := some (fullImage k.bits d),
            pass := .full, injected := 0, verified := 0, missing := Vector.replicate 17 0, attempts := 0,
            logReserved := true } }) ∧
  ∀ s : State, s.serviceKeys.waitList = [] ∨ s.serviceKeys.pool = [] ∨
    256 ≤ s.serviceKeys.log.records.length + s.serviceKeys.logReservations

/-! ## Wafers, touchdowns, the die map and the log -/

/-- WAFER OPEN and WAFER CLOSE (R132): both STATE in an open touchdown; WAFER OPEN then BADARG for a wafer number outside
1..25, and otherwise it opens the wafer with an empty die map; WAFER CLOSE then NOWAFER with none open, and otherwise it
closes it, discards the map and answers the number of its entries. The touchdown number stays.
Also taken in the phase released, the model's choice (assumption 6). -/
def Obligations.WafersOpenAndClose : Prop :=
  ∀ (tag : Byte) (lot : Long) (number : Byte) (s : State), s.ready →
    (s.touchdownIsOpen = true →
      exec (.waferOpen tag lot number) s = .next (s.refuse tag .state) ∧
      exec (.waferClose tag) s = .next (s.refuse tag .state)) ∧
    (s.touchdownIsOpen = false → (number = 0 ∨ 25 < number.toNat) →
      exec (.waferOpen tag lot number) s = .next (s.refuse tag .badArg)) ∧
    (s.touchdownIsOpen = false → number ≠ 0 → number.toNat ≤ 25 →
      exec (.waferOpen tag lot number) s = .next
        (({ s with
            td := { s.td with state := .waferOpen, wafer := some { lot := lot, number := number } }
            dieMap := [] } : State).respondOk tag (be32 lot ++ [number]))) ∧
    (s.td.state = .noWafer → exec (.waferClose tag) s = .next (s.refuse tag .noWafer)) ∧
    (s.td.state = .waferOpen → exec (.waferClose tag) s = .next
      (({ s with td := { s.td with state := .noWafer, wafer := none }, dieMap := [] } : State).respondOk tag
        (be16 (wordOf s.dieMap.length))))

/-- The refusals of TOUCHDOWN BEGIN, in order (R135), and what an accepted one does (R4, R25, R52, R80, R99, R135, R136): the
number advances, past 65535 to 1; the enabled set drops the sites whose entry is disabled; the context of every enabled
site enters IDENT under that site with its verdict absent and its port enters IDLE; every other context keeps its state
with verdict NONE and its port parks NOT_ENABLED; every previous winning rule is NONE and every admission open;
TD_COMPLETE is latched for an empty set; nothing else changes. In every context, enabled or not, identity, exposure mark and
image state return to their values after reset; for a context that is not enabled, that clearing of identity and exposure
mark and the shape of its NONE record (no reason, no key index, attempts 0) are the model's choice (assumption 13).
Also taken in the phase released, the model's choice (assumption 6). -/
def Obligations.TouchdownBeginStartsItsSites : Prop :=
  ∀ (tag : Byte) (enable : Word) (s : State), s.ready →
    (s.touchdownIsOpen = true → exec (.touchdownBegin tag enable) s = .next (s.refuse tag .state)) ∧
    (s.td.state = .noWafer → exec (.touchdownBegin tag enable) s = .next (s.refuse tag .noWafer)) ∧
    (s.td.state = .waferOpen → s.pins.contact = false →
      exec (.touchdownBegin tag enable) s = .next (s.refuse tag .noContact)) ∧
    (s.td.state = .waferOpen → s.pins.contact = true → s.SitesDistinct → ∃ u : State,
      exec (.touchdownBegin tag enable) s = .next (u.respondOk tag (be16 u.td.number ++ be16 u.td.enabled)) ∧
      u.td.state = .touchdownOpen ∧ u.td.wafer = s.td.wafer ∧ u.td.contactLost = false ∧
      u.td.number = (if s.td.number = 65535#16 then 1 else s.td.number + 1) ∧
      (∀ i : SiteId, u.td.enabled.getLsbD i.val = (enable.getLsbD i.val && (s.siteMap[i]).enabled)) ∧
      (∀ i : SiteId, u.td.enabled.getLsbD i.val = true →
        u.ctx (s.sitePort i) =
          { s.ctx (s.sitePort i) with
            state := .ident, site := i, verdict := none, identity := .reset, exposed := false, digest := none,
            image := none, pass := .full, injected := 0, verified := 0, missing := Vector.replicate 17 0,
            attempts := 0 } ∧
        u.port (s.sitePort i) =
          { s.port (s.sitePort i) with state := .idle, admissionClosed := false, prevRule := none }) ∧
      (∀ p : PortId, (∀ i : SiteId, u.td.enabled.getLsbD i.val = true → s.sitePort i ≠ p) →
        u.ctx p =
          { s.ctx p with
            verdict := some { verdict := .none, reason := none, keyIndex := none, attempts := 0 },
            identity := .reset, exposed := false, digest := none, image := none, pass := .full, injected := 0,
            verified := 0, missing := Vector.replicate 17 0, attempts := 0 } ∧
        u.port p = { s.port p with state := .parked .notEnabled, admissionClosed := false, prevRule := none }) ∧
      u.events =
        (if u.td.enabled = 0 then { s.events with latches := s.events.latches ||| 0x400#12 } else s.events) ∧
      ({ u with td := s.td, contexts := s.contexts, ports := s.ports, events := s.events } : State) = s)

/-- TOUCHDOWN END (R20, R23, R38, R102, R139, R154, R173): STATE unless the touchdown is open and not ending. Otherwise every port,
in ascending order, answers each queued request ABORTED, its queue is empty and its admission closed. Then every context is
ended as R20 lays down, in ascending logical site order: IDENT, WAIT and HELD end ABANDONED; a context with its key exposed
ends VOIDED ABORTED, or drains while its port is BUSY, its supply off but in the drain from LOCKING. Key service follows
where a HELD key was returned; then the touchdown is ending and the command is in execution; it completes at once where
nothing is left to wait for. In a sound state no context waits after it, so every returned key stays in the pool; the VOIDED
records join the log in site order with consecutive sequence numbers and are counted; every ended claim has its map entry.
The order queues, contexts, service, and that of contexts with one logical site, is the model's choice (assumption 17).
Also taken in the phase released, the model's choice (assumption 6). -/
def Obligations.TouchdownEndEndsEverySite : Prop :=
  ∀ (tag : Byte) (s : State), s.ready →
    (s.td.state ≠ .touchdownOpen → exec (.touchdownEnd tag) s = .next (s.refuse tag .state)) ∧
    (s.td.state = .touchdownOpen → ∃ order : List PortId,
      order.Perm (List.finRange 16) ∧
      (order.Pairwise fun p q => (s.ctx p).site < (s.ctx q).site ∨ ((s.ctx p).site = (s.ctx q).site ∧ p < q)) ∧
      let answered : State := (List.finRange 16).foldl
        (fun t p => (s.port p).queue.foldl (fun t r => t.deliver r .aborted none) t) s
      let closed : State :=
        { answered with ports := Vector.ofFn fun p : PortId => { s.port p with queue := [], admissionClosed := true } }
      let drain := fun (t : State) (p : PortId) (mark : Bool) =>
        ({ t with contexts := t.contexts.set p { s.ctx p with state := .draining (.aborted mark) } } : State)
      let off := fun (t : State) (p : PortId) =>
        ({ t with supplies := t.supplies.set p { s.supply p with state := .off } } : State)
      let ends := fun (t : State) (p : PortId) =>
        match (s.ctx p).state with
        | .idle | .done | .draining _ => t
        | .ident | .wait | .held => t.settleAbandoned p
        | .locking => drain t p true
        | .burning => off (drain t p false) p
        | .loading | .settling | .ready | .checking | .reburn | .verified =>
          if (s.port p).state.isBusy = true then off (drain t p false) p else t.settleVoided p .aborted
      let v : State := order.foldl ends closed
      let u : State :=
        { (if ∃ p, (s.ctx p).state = .held then v.serviceKeys else v) with
          td := { s.td with state := .touchdownEnding }
          control := { executor := .endingTouchdown tag, queue := [] } }
      exec (.touchdownEnd tag) s = .next u.completeAndRelease ∧
      u.link = answered.link ∧ u.merge = answered.merge ∧
      (∀ p, u.port p = { s.port p with queue := [], admissionClosed := true }) ∧
      (s.Sound →
        let voids := order.filter fun p => (s.ctx p).state.holdsKey && decide ((u.ctx p).state = .done) &&
          decide ((s.ctx p).state ≠ .held)
        u.log =
          { records := s.log.records ++ voids.zipIdx.map fun x =>
              { s.logRecordOf x.1 .voided (some .aborted) with
                sequence := s.log.nextSequence + BitVec.ofNat 32 x.2 }
            nextSequence := s.log.nextSequence + BitVec.ofNat 32 voids.length } ∧
        u.counters = { s.counters with voided := s.counters.voided + BitVec.ofNat 32 voids.length } ∧
        u.waitList = [] ∧
        (u.pool.Pairwise fun a b => a.index < b.index) ∧
        u.pool.Perm (s.pool ++ (List.finRange 16).filterMap fun p : PortId =>
          if (s.ctx p).state = .held then (s.ctx p).heldKey else none) ∧
        (∀ p c, (s.ctx p).claim = some c → (u.ctx p).state = .done → mapLookup u.dieMap c = some
          { coord := c, lastTouchdown := s.td.number,
            outcome :=
              if (s.ctx p).state = .wait ∨ (s.ctx p).state = .held then .tried
              else .voided ((s.heldIndex p).getD 0),
            attempts :=
              if (s.ctx p).mapReserved = true then 1
              else min 7 (((mapLookup s.dieMap c).map (·.attempts)).getD 0 + 1) }) ∧
        (∀ c, (∀ p, (s.ctx p).claim = some c → (u.ctx p).state ≠ .done) → mapLookup u.dieMap c = mapLookup s.dieMap c) ∧
        ∀ p,
          let voided : VerdictRecord :=
            { verdict := .voided, reason := some .aborted, keyIndex := s.heldIndex p, attempts := (s.ctx p).attempts }
          let ended := fun v : VerdictRecord => ({ s.ctx p with
            state := .done, heldKey := none, digest := none, image := none, claim := none, mapReserved := false,
            logReserved := false, verdict := some v } : Context)
          match (s.ctx p).state with
          | .idle | .done | .draining _ => u.ctx p = s.ctx p ∧ u.supply p = s.supply p
          | .ident | .wait | .held =>
            u.ctx p = ended { verdict := .abandoned, reason := none, keyIndex := none, attempts := (s.ctx p).attempts } ∧
            (u.supply p).state = .off
          | .locking => u.ctx p = { s.ctx p with state := .draining (.aborted true) } ∧ u.supply p = s.supply p
          | .burning => u.ctx p = { s.ctx p with state := .draining (.aborted false) } ∧ (u.supply p).state = .off
          | .loading | .settling | .ready | .checking | .reburn | .verified =>
            u.ctx p =
              (if (s.port p).state.isBusy = true then { s.ctx p with state := .draining (.aborted false) }
              else ended voided) ∧
            (u.supply p).state = .off))

/-- The completion of TOUCHDOWN END (R23, R102, R140): with the command in execution, every context DONE or IDLE and no port
BUSY, the contexts return to IDLE and keep their verdict records, the ports park NO_TOUCHDOWN, the wafer stays open, the
response carries the touchdown number and a verdict byte for each logical site, and the control queue is released.
Otherwise the row does nothing, which is the model's choice (assumptions 10, 11).
The row is also taken in the phase released, the model's choice (assumption 6). -/
def Obligations.QuietTouchdownCompletes : Prop :=
  ∀ s : State, s.phase ≠ .held →
    let due : Byte → Prop := fun tag =>
      s.control.executor = .endingTouchdown tag ∧ s.td.state = .touchdownEnding ∧
      ∀ p : PortId, ((s.ctx p).state = .idle ∨ (s.ctx p).state = .done) ∧ (s.port p).state.isBusy = false
    (∀ tag, due tag →
      let verdicts : List Byte := (List.finRange 16).map fun i : SiteId =>
        if s.td.enabled.getLsbD i.val then (s.ctx (s.siteMap[i]).port).verdictCode else 0x00
      exec .touchdownEndCompletion s = .next
        (({ s with
            contexts := Vector.ofFn fun p : PortId => { s.ctx p with state := .idle }
            ports := Vector.ofFn fun p : PortId => { s.port p with state := .parked .noTouchdown }
            td := { s.td with state := .waferOpen }
            control := { s.control with executor := .idle } } : State).respondOk tag
          (be16 s.td.number ++ verdicts)).runQueue) ∧
    ((∀ tag, ¬ due tag) → exec .touchdownEndCompletion s = .next s) ∧
    exec .touchdownEndCompletion s = .next s.completeAndRelease

/-- A port answers its queue (R100, R101, R103): the status is delivered to every queued request, in queue order, and the queue
becomes empty; no other port changes. SITE ABORT (R20, R101, R138): BADARG above 15, STATE with no touchdown open, BADARG
for a site that is not enabled. Otherwise the queue of the site's port is answered ABORTED, its context is ended by its
state, a returned key may be served, and the response carries the site and the context's state and verdict codes as they
stand then. That the queue is answered also where the context is DONE or DRAINING is the model's choice (assumption 18).
Also taken in the phase released, the model's choice (assumption 6). -/
def Obligations.SiteAbortEndsOneSite : Prop :=
  (∀ (p : PortId) (status : Status) (s : State),
    s.answerQueue p status =
      (s.port p).queue.foldl (fun t r => t.deliver r status none)
        { s with ports := s.ports.set p { s.port p with queue := [] } } ∧
    ∀ q, (s.answerQueue p status).port q = if q = p then { s.port p with queue := [] } else s.port q) ∧
  ∀ (tag site : Byte) (s : State), s.ready →
    (15 < site.toNat → exec (.siteAbort tag site) s = .next (s.refuse tag .badArg)) ∧
    ∀ i : SiteId, i.val = site.toNat →
      (s.touchdownIsOpen = false → exec (.siteAbort tag site) s = .next (s.refuse tag .state)) ∧
      (s.touchdownIsOpen = true → s.td.enabled.getLsbD i.val = false →
        exec (.siteAbort tag site) s = .next (s.refuse tag .badArg)) ∧
      (s.touchdownIsOpen = true → s.td.enabled.getLsbD i.val = true →
        let p : PortId := s.sitePort i
        let a : State := s.answerQueue p .aborted
        let drain := fun mark : Bool =>
          ({ a with contexts := a.contexts.set p { s.ctx p with state := .draining (.aborted mark) } } : State)
        let off := fun u : State =>
          ({ u with supplies := u.supplies.set p { s.supply p with state := .off } } : State)
        let t : State :=
          match (s.ctx p).state with
          | .idle | .done | .draining _ => a
          | .ident | .wait => a.settleAbandoned p
          | .held => (a.settleAbandoned p).serviceKeys
          | .locking => drain true
          | .burning => off (drain false)
          | .loading | .settling | .ready | .checking | .reburn | .verified =>
            if (s.port p).state.isBusy = true then off (drain false) else a.settleVoided p .aborted
        exec (.siteAbort tag site) s = .next
          (t.respondOk tag [site, (t.ctx p).state.code, (t.ctx p).verdictCode]))

/-- MAP QUERY (R146, R172): NOWAFER, then BADARG for a coordinate above 255; otherwise the coordinate, the flags present (bit 0)
and claimed (bit 1), and the entry's outcome, key index, attempts and last touchdown, 0 where there is no entry; nothing
else changes. Also taken in the phase released, the model's choice (assumption 6). -/
def Obligations.MapQueryReportsTheCoordinate : Prop :=
  ∀ (tag : Byte) (x y : Word) (s : State), s.ready →
    (s.td.state = .noWafer → exec (.mapQuery tag x y) s = .next (s.refuse tag .noWafer)) ∧
    (s.td.state ≠ .noWafer → (255 < x.toNat ∨ 255 < y.toNat) →
      exec (.mapQuery tag x y) s = .next (s.refuse tag .badArg)) ∧
    ∀ (c : Coord) (claimed : Bool), s.td.state ≠ .noWafer → c.x.toNat = x.toNat → c.y.toNat = y.toNat →
      (claimed = true ↔ ∃ p, (s.ctx p).claim = some c) →
      ((∀ e ∈ s.dieMap, e.coord ≠ c) →
        exec (.mapQuery tag x y) s = .next
          (s.respondOk tag [c.x, c.y, if claimed then 2 else 0, 0, 0, 0, 0, 0, 0, 0, 0])) ∧
      ∀ e ∈ s.dieMap, e.coord = c → (s.dieMap.Pairwise fun a b => a.coord.key < b.coord.key) →
        exec (.mapQuery tag x y) s = .next
          (s.respondOk tag ([c.x, c.y, if claimed then 3 else 1] ++
            (match e.outcome with
            | .bound index => 0x01 :: be32 index
            | .voided index => 0x02 :: be32 index
            | .tried => [0x03, 0, 0, 0, 0]) ++
            [byteOf e.attempts] ++ be16 e.lastTouchdown))

/-- LOG READ answers the oldest record in 28 bytes, or an empty payload, and changes nothing (R156, R179). LOG DROP removes as
many of the oldest records as it is asked to, or all, keeps the others and the next sequence, lets the pool serve where
that freed a slot, and answers the two counts (R157, R38). Also taken in the phase released, the model's choice (assumption 6). -/
def Obligations.LogReadAndDrop : Prop :=
  ∀ (tag : Byte) (count : Word) (s : State), s.ready →
    (s.log.records = [] → exec (.logRead tag) s = .next (s.respondOk tag [])) ∧
    (∀ r rest, s.log.records = r :: rest →
      let layout : List Byte := be32 r.sequence ++
        [if r.kind = .bound then 0x01 else r.kind.code, voidReasonCode r.reason] ++ be32 r.keyIndex ++ be32 r.label ++
        be32 r.lot ++ [r.wafer, r.coord.x, r.coord.y] ++ be16 r.digest ++ [byteOf r.attempts, byteOf r.site.val] ++
        be16 r.touchdown ++ [0]
      layout.length = 28 ∧ exec (.logRead tag) s = .next (s.respondOk tag layout)) ∧
    let n := min count.toNat s.log.records.length
    let t : State := { s with log := { s.log with records := s.log.records.drop n } }
    exec (.logDrop tag count) s = .next
      ((if n = 0 then t else t.serviceKeys).respondOk tag
        (be16 (wordOf n) ++ be16 (wordOf (s.log.records.length - n))))

/-! ## Requests and transactions -/

/-- The Rule Matcher takes the lowest-numbered rule that holds, with its action, and PASS with no rule number where none holds
(R49, R50, R53). A rule holds when it is enabled and its kind, every selected address bit, for a WRITE every selected data
bit, and for a chain rule the port's previous winning rule, one number below its own, agree with the request. -/
def Obligations.LowestRuleWins : Prop :=
  ∀ (rules : Vector Rule 64) (prev : Option (Fin 64)) (q : Request),
    let holds : Fin 64 → Prop := fun n =>
      (rules[n]).enabled = true ∧
      ((rules[n]).kind = .any ∨ ((rules[n]).kind = .write ∧ q.op ≠ .read) ∨ ((rules[n]).kind = .read ∧ q.op = .read)) ∧
      (∀ b : Nat, b < 16 → (rules[n]).addrMask.getLsbD b = true →
        q.address.getLsbD b = (rules[n]).addrValue.getLsbD b) ∧
      (∀ d, q.op = .write d → ∀ b : Nat, b < 16 → (rules[n]).dataMask.getLsbD b = true →
        d.getLsbD b = (rules[n]).dataValue.getLsbD b) ∧
      ((rules[n]).chain = true → ∃ k : Fin 64, prev = some k ∧ k.val + 1 = n.val)
    (∀ n : Fin 64, holds n → (∀ m : Fin 64, m.val < n.val → ¬ holds m) →
      matchRecord rules prev q = { rule := some n, action := (rules[n]).action }) ∧
    ((∀ n : Fin 64, ¬ holds n) → matchRecord rules prev q = { rule := none, action := .pass })

/-- A transaction start (R3, R9, R12, R19, R52, R53, R86, R87, R89): an IDLE port takes the head of its queue and records the
winning rule as its previous one. BLOCK is answered BLOCKED; the context then sends, substitutes the image word, or
refuses, by its state and the action; what is sent makes the port BUSY with its window, and moves the context from HELD to
LOADING, READY to BURNING with one more attempt, or VERIFIED to LOCKING. A port that sent nothing goes on with its queue.
A port that is not IDLE, or has no request, starts nothing (assumption 11). An image word of an absent image would read 0,
which is the model's choice for states no run reaches (assumption 12). -/
def Obligations.TransactionStartAsksTheContext : Prop :=
  ∀ (p : PortId) (s : State), s.phase ≠ .held →
    exec (.transactionStart p) s = .next (s.startPort p) ∧
    (((s.port p).state ≠ .idle ∨ (s.port p).queue = []) → s.startPort p = s) ∧
    ∀ (r : Request) (rest : List Request), (s.port p).state = .idle → (s.port p).queue = r :: rest →
      let m := matchRecord s.rules (s.port p).prevRule r
      let c := s.ctx p
      let pt : Port := { s.port p with queue := rest, prevRule := m.rule }
      let t : State := { s with ports := s.ports.set p pt }
      let answered := fun status : Status => (t.deliver r status none).startPort p
      let sent := fun (q : Request) (window : Nat) (c' : Context) =>
        ({ s with
          ports := s.ports.set p
            { pt with state := .busy { request := q, record := m, window := window, gear := (s.port p).gear } window }
          contexts := s.contexts.set p c' } : State)
      let normal := s.params.respTmo * 400
      let gated := s.params.burnTmo * 40000
      let imageWord := fun w : Fin 17 => ({ r with op := .write ((c.image.map fun img => img[w]).getD 0) } : Request)
      s.startPort p =
        match m.action with
        | .block => answered .blocked
        | .inject w =>
          if c.state = .held then sent (imageWord w) normal { c with state := .loading, exposed := true }
          else if c.state = .loading ∨ c.state = .reburn then sent (imageWord w) normal c
          else answered .refused
        | .gateBurn =>
          if c.state = .ready then sent r gated { c with state := .burning, attempts := c.attempts + 1 }
          else answered .refused
        | .gateLock =>
          if c.state = .verified then sent r gated { c with state := .locking } else answered .refused
        | .pass | .capture _ | .verify _ => sent r normal c

/-- A frame for one logical site (R85, R109, R110): NOSITE where its entry is disabled; then the port decides: LOST where it is
parked by contact loss, NOSITE where it is parked otherwise, ABORTED with admission closed, QFULL with eight requests
queued; otherwise the request joins the tail of the port's queue, and an IDLE port starts it at once (R83). -/
def Obligations.SingleSiteFrameIsOffered : Prop :=
  ∀ (f : SiteFrame) (i : SiteId) (s : State), i.val = f.site.toNat →
    let p : PortId := (s.siteMap[i]).port
    let pt : Port := s.port p
    let answer := fun st : Status => s.emit { tag := f.tag, site := f.site, status := st, payload := [] }
    let request : Request := { tag := f.tag, site := f.site, address := f.address, op := f.op, merge := none }
    s.siteFrame f =
      if (s.siteMap[i]).enabled = false then answer .noSite
      else if pt.state = .parked .contact then answer .lost
      else if pt.state.isParked = true then answer .noSite
      else if pt.admissionClosed = true then answer .aborted
      else if 8 ≤ pt.queue.length then answer .qFull
      else State.startPort { s with ports := s.ports.set p { pt with queue := pt.queue ++ [request] } } p

/-- A group frame (R109, R111..R116): NOSITE for an empty group; QFULL as a whole where a member's queue is full; with no
admissible member, the merged response at once; QFULL where no merge record is free; otherwise one merge record is taken,
every admissible member's port receives one request with its reference, no other port changes, and the ports start what
they can in ascending order (R173). Which free record is taken is the model's choice (assumption 9). -/
def Obligations.GroupFrameIsAllOrNothing : Prop :=
  ∀ (f : SiteFrame) (g : Fin 15) (s : State), g.val + 16 = f.site.toNat →
    let members : BitVec 16 := s.groups[g]
    let within : SiteId → Prop := fun i => members.getLsbD i.val = true
    let answer := fun st : Status => s.emit { tag := f.tag, site := f.site, status := st, payload := [] }
    let declines : SiteId → Status → Prop := fun i st =>
      if (s.siteMap[i]).enabled = true then (s.port (s.sitePort i)).admission = .declined st else st = .noSite
    let admits : SiteId → Prop := fun i =>
      (s.siteMap[i]).enabled = true ∧ (s.port (s.sitePort i)).admission = .accept
    let isFull : SiteId → Prop := fun i =>
      (s.siteMap[i]).enabled = true ∧ (s.port (s.sitePort i)).admission = .full
    (members = 0 → s.siteFrame f = answer .noSite) ∧
    (∀ i, within i → isFull i → s.siteFrame f = answer .qFull) ∧
    (∀ why : SiteId → Status, members ≠ 0 → (∀ i, within i → declines i (why i)) →
      s.siteFrame f = s.emit
        { tag := f.tag, site := f.site, status := .partialOk,
          payload := ((List.finRange 16).filter fun i : SiteId => members.getLsbD i.val).flatMap
            fun i => [(why i).code, 0, 0] }) ∧
    ((∀ i, within i → ¬ isFull i) → (∃ i, within i ∧ admits i) → (∀ k : Fin 8, s.merge[k] ≠ none) →
      s.siteFrame f = answer .qFull) ∧
    ((∀ i, within i → ¬ isFull i) → (∃ i, within i ∧ admits i) → (∃ k : Fin 8, s.merge[k] = none) → s.SitesDistinct →
      ∃ (k : Fin 8) (record : MergeRecord) (u : State),
        s.merge[k] = none ∧
        s.siteFrame f = ((List.finRange 16).filter fun p : PortId =>
          (List.finRange 16).any fun i : SiteId =>
            members.getLsbD i.val && (s.siteMap[i]).enabled && (s.port (s.sitePort i)).admission == .accept &&
            s.sitePort i == p).foldl (fun v p => v.startPort p) u ∧
        record.tag = f.tag ∧ record.group = f.site ∧ record.members = members ∧
        (∀ i, within i → admits i → record.slots[i] = none) ∧
        (∀ i st, within i → declines i st → record.slots[i] = some { status := st, word := none }) ∧
        u.merge = s.merge.set k (some record) ∧
        (∀ i, within i → admits i →
          u.port (s.sitePort i) =
            { s.port (s.sitePort i) with
              queue := (s.port (s.sitePort i)).queue ++
                [{ tag := f.tag, site := f.site, address := f.address, op := f.op,
                   merge := some { record := k, member := i } }] }) ∧
        (∀ p, (∀ i, within i → admits i → s.sitePort i ≠ p) → u.port p = s.port p) ∧
        ({ u with merge := s.merge, ports := s.ports } : State) = s)

/-- A port's result (R63, R103, R115, R116): upstream as one frame with the word's two bytes for a single-site request; for a
member request into the slot of its merge record, where the delivery that fills the last slot releases the record and
produces one response of three bytes a member in ascending site order, OK where every member is OK, PARTIAL otherwise. -/
def Obligations.LastMemberProducesTheResponse : Prop :=
  ∀ (r : Request) (status : Status) (word : Option Word) (s : State),
    (r.merge = none → s.deliver r status word = s.emit
      { tag := r.tag, site := r.site, status := status,
        payload := match word with
          | some w => [w.extractLsb' 8 8, w.extractLsb' 0 8]
          | none => [] }) ∧
    ∀ (ref : MergeRef) (m : MergeRecord), r.merge = some ref → s.merge[ref.record] = some m →
      m.members.getLsbD ref.member.val = true →
      let slots := m.slots.set ref.member (some { status := status, word := word })
      ((∃ i : SiteId, i ≠ ref.member ∧ m.members.getLsbD i.val = true ∧ m.slots[i] = none) →
        s.deliver r status word = { s with merge := s.merge.set ref.record (some { m with slots := slots }) }) ∧
      ∀ result : SiteId → MemberResult,
        (∀ i : SiteId, m.members.getLsbD i.val = true → slots[i] = some (result i)) →
        let members := (List.finRange 16).filter fun i : SiteId => m.members.getLsbD i.val
        s.deliver r status word =
          State.emit { s with merge := s.merge.set ref.record none }
            { tag := m.tag, site := m.group,
              status := if ∀ i ∈ members, (result i).status = .ok then .ok else .partialOk,
              payload := members.flatMap fun i => (result i).status.code :: be16 ((result i).word.getD 0) }

/-- A die response (R63, R88, R91, R94): in BUSY it ends the transaction in flight, OK or NAK as R88 reads it: the port is IDLE,
the context acts, the response goes up, with the word of a VERIFY replaced, and the next request starts; this may complete
a TOUCHDOWN END. In IDLE and BREAK it is late: discarded and counted, saturating, with LATE_RESP latched. A PARKED port
does not take it (assumption 11). -/
def Obligations.DieResponseEndsTheTransaction : Prop :=
  ∀ (p : PortId) (a : DieAnswer) (s : State), s.phase ≠ .held →
    (∀ cause, (s.port p).state = .parked cause → exec (.dieResponse p a) s = .next s) ∧
    (((s.port p).state = .idle ∨ ∃ n, (s.port p).state = .breaking n) →
      exec (.dieResponse p a) s = .next
        { s with events := { s.events with
          latches := s.events.latches ||| 0x200#12
          lateResponses := BitVec.ofNat 16 (min 65535 (s.events.lateResponses.toNat + 1)) } }) ∧
    ∀ (tx : Transaction) (n : Nat), (s.port p).state = .busy tx n →
      let o : TxOutcome :=
        if a.parityGood = true ∧ a.positive = true then
          match tx.request.op, a.word with
          | .read, some w => .ok (some w)
          | .write _, none => .ok none
          | _, _ => .nak
        else .nak
      let word : Option Word :=
        match o, tx.record.action with
        | .ok (some w), .verify k =>
          some (if (s.ctx p).state = .checking then verdictWord ((s.ctx p).expectedWord k) w else 0x0300)
        | .ok w, _ => w
        | _, _ => none
      exec (.dieResponse p a) s = .next
        (((((s.setPortState p .idle).contextAtEnd p tx.record.action o).deliver tx.request
          (if o.isOk = true then .ok else .dieNak) word).startPort p).completeAndRelease)

/-- What a die answers a VERIFY read never leaves the part. Outside CHECKING, the outcome of a VERIFY response is the same
whatever word it carries (R59, R74). In CHECKING, two words of the same class and the same numbers of differing bits give the
same verdict word, and two DIE_RESPONSEs carrying them leave the same stream, merge records, events, log and everything else
outside the contexts and ports; the context's missing masks and image may differ, and with them the word a next injected
write carries to the die. A touchdown that is ending is left out: R20 and R23 leave no context of it in CHECKING. -/
def Obligations.VerifyWordNeverLeaves : Prop :=
  (∀ (p : PortId) (s : State) (tx : Transaction) (n : Nat) (k : Fin 17) (positive parityGood : Bool) (w w' : Word),
    (s.port p).state = .busy tx n → tx.record.action = .verify k → (s.ctx p).state ≠ .checking →
    exec (.dieResponse p { positive := positive, parityGood := parityGood, word := some w }) s =
      exec (.dieResponse p { positive := positive, parityGood := parityGood, word := some w' }) s) ∧
  (∀ (expected w w' : Word), classify expected w = classify expected w' →
    oneBits (extraBits expected w) = oneBits (extraBits expected w') →
    oneBits (missingBits expected w) = oneBits (missingBits expected w') →
    verdictWord expected w = verdictWord expected w') ∧
  ∀ (p : PortId) (s : State) (tx : Transaction) (n : Nat) (k : Fin 17) (positive parityGood : Bool) (w w' : Word),
    (s.port p).state = .busy tx n → tx.record.action = .verify k → (s.ctx p).state = .checking →
    s.td.state ≠ .touchdownEnding →
    let expected := (s.ctx p).expectedWord k
    classify expected w = classify expected w' →
    oneBits (extraBits expected w) = oneBits (extraBits expected w') →
    oneBits (missingBits expected w) = oneBits (missingBits expected w') →
    ∃ t t' : State,
      exec (.dieResponse p { positive := positive, parityGood := parityGood, word := some w }) s = .next t ∧
      exec (.dieResponse p { positive := positive, parityGood := parityGood, word := some w' }) s = .next t' ∧
      t.link = t'.link ∧ t.merge = t'.merge ∧
      ({ t with contexts := t'.contexts, ports := t'.ports } : State) = t' ∧
      (∀ q, q ≠ p → t.ctx q = t'.ctx q ∧ t.port q = t'.port q) ∧
      ({ t.ctx p with image := (t'.ctx p).image, missing := (t'.ctx p).missing } : Context) = t'.ctx p ∧
      (t.port p).queue = (t'.port p).queue ∧ (t.port p).prevRule = (t'.port p).prevRule ∧
      (t.port p).state.isBusy = (t'.port p).state.isBusy

/-- The response timer of a BUSY port runs out: outcome TIMEOUT, DIE_TIMEOUT latched, the context acts, DIE_TIMEOUT goes up,
and the port enters BREAK for 4000 ticks (R92). The break timer runs out: the port is IDLE and starts its next request
(R93). Neither timer runs in another state, where the rows do nothing, which is the model's choice (assumption 11). -/
def Obligations.TimeoutLeadsToABreak : Prop :=
  ∀ (p : PortId) (s : State), s.phase ≠ .held →
    (∀ (tx : Transaction) (n : Nat), (s.port p).state = .busy tx n →
      let t : State :=
        { s with
          events := { s.events with latches := s.events.latches ||| 0x100#12 }
          ports := s.ports.set p { s.port p with state := .breaking 4000 } }
      exec (.responseTimeout p) s = .next
        (((t.contextAtEnd p tx.record.action .timeout).deliver tx.request .dieTimeout none).completeAndRelease)) ∧
    ((s.port p).state.isBusy = false → exec (.responseTimeout p) s = .next s) ∧
    (∀ n, (s.port p).state = .breaking n → exec (.breakEnd p) s = .next
      (State.startPort { s with ports := s.ports.set p { s.port p with state := .idle } } p)) ∧
    ((∀ n, (s.port p).state ≠ .breaking n) → exec (.breakEnd p) s = .next s)

/-! ## Contexts -/

/-- An OK CAPTURE in IDENT records its field and, with all six captured, runs the identity check at that event (R5, R55, R56,
R142); a rejection ends the context in DONE with its verdict, MAP_FULL latched for MAP_FULL (R6); a pass takes the claim,
reserves a map slot where the coordinate has no entry, joins the wait list and may be served at once, and KEY_WAIT is
latched where the context is left waiting (R7, R143). -/
def Obligations.CaptureRunsTheIdentityCheck : Prop :=
  (∀ (p : PortId) (f : CaptureField) (w : Word) (s : State), (s.ctx p).state = .ident →
    let i := (s.ctx p).identity
    let bit : BitVec 6 := 1#6 <<< f.code.toNat
    let i' : Identity :=
      match f with
      | .lotHi => { i with lot := w ++ i.lot.extractLsb' 0 16, captured := i.captured ||| bit }
      | .lotLo => { i with lot := i.lot.extractLsb' 16 16 ++ w, captured := i.captured ||| bit }
      | .wafer => { i with wafer := w.extractLsb' 0 8, captured := i.captured ||| bit }
      | .xPos => { i with coord := { x := w.extractLsb' 0 8, y := i.coord.y }, captured := i.captured ||| bit }
      | .yPos => { i with coord := { x := i.coord.x, y := w.extractLsb' 0 8 }, captured := i.captured ||| bit }
      | .lock mask => { i with lock := decide (w &&& mask ≠ 0), captured := i.captured ||| bit }
    let t : State := { s with contexts := s.contexts.set p { s.ctx p with identity := i' } }
    s.contextAtEnd p (.capture f) (.ok (some w)) = if i'.captured = 0x3F#6 then t.checkIdentity p else t) ∧
  (∀ (i : Identity) (s : State), (s.dieMap.Pairwise fun a b => a.coord.key < b.coord.key) →
    let entry : (MapOutcome → Prop) → Prop := fun P => ∃ e ∈ s.dieMap, e.coord = i.coord ∧ P e.outcome
    let badId : Prop := i.wafer = 0 ∨ 25 < i.wafer.toNat
    let wrongWafer : Prop := s.td.wafer ≠ some { lot := i.lot, number := i.wafer }
    let duplicate : Prop := ∃ q, (s.ctx q).claim = some i.coord
    let bound : Prop := entry fun o => ∃ k, o = .bound k
    let voided : Prop := entry fun o => ∃ k, o = .voided k
    let full : Prop := ¬ entry (fun _ => True) ∧ 4096 ≤ s.dieMap.length + s.mapReservations
    (badId → s.identityCheck i = some .badId) ∧
    (¬ badId → wrongWafer → s.identityCheck i = some .wrongWafer) ∧
    (¬ badId → ¬ wrongWafer → duplicate → s.identityCheck i = some .duplicateDie) ∧
    (¬ badId → ¬ wrongWafer → ¬ duplicate → bound → i.lock = true → s.identityCheck i = some .alreadyBound) ∧
    (¬ badId → ¬ wrongWafer → ¬ duplicate → bound → i.lock = false → s.identityCheck i = some .lockMissing) ∧
    (¬ badId → ¬ wrongWafer → ¬ duplicate → voided → s.identityCheck i = some .scrap) ∧
    (¬ badId → ¬ wrongWafer → ¬ duplicate → ¬ bound → ¬ voided → i.lock = true →
      s.identityCheck i = some .foreignLock) ∧
    (¬ badId → ¬ wrongWafer → ¬ duplicate → ¬ bound → ¬ voided → i.lock = false → full →
      s.identityCheck i = some .mapFull) ∧
    (¬ badId → ¬ wrongWafer → ¬ duplicate → ¬ bound → ¬ voided → i.lock = false → ¬ full →
      s.identityCheck i = none)) ∧
  ∀ (p : PortId) (s : State),
    let c := s.ctx p
    let rejected := fun (v : Verdict) (t : State) =>
      t.closeContext p { verdict := v, reason := none, keyIndex := none, attempts := 0 }
    (∀ v, s.identityCheck c.identity = some v → v ≠ .mapFull → s.checkIdentity p = rejected v s) ∧
    (s.identityCheck c.identity = some .mapFull → s.checkIdentity p =
      rejected .mapFull { s with events := { s.events with latches := s.events.latches ||| 0x800#12 } }) ∧
    (∀ fresh : Bool, s.identityCheck c.identity = none → (fresh = true ↔ ∀ e ∈ s.dieMap, e.coord ≠ c.identity.coord) →
      let u : State := State.serviceKeys
        { s with
          waitList := s.waitList ++ [p]
          contexts := s.contexts.set p { c with state := .wait, claim := some c.identity.coord, mapReserved := fresh } }
      s.checkIdentity p =
        if p ∈ u.waitList then { u with events := { u.events with latches := u.events.latches ||| 8#12 } } else u)

/-- What a context does at the end of a transaction, but for CAPTURE in IDENT and VERIFY in CHECKING. In DRAINING the end ends
the drain (R21): BOUND for a drain from LOCKING whose lock ended OK, otherwise VOIDED under its cause. An OK injected write
sets its bit, and the full mask moves LOADING to SETTLING with the supply switched on, REBURN to READY (R10, R71, R122). A
GATE-BURN in BURNING moves to CHECKING or voids (R13, R77), a GATE-LOCK in LOCKING binds or voids (R19). A PASS, and a
CAPTURE or VERIFY that is not OK or finds another state, leaves everything as it is. -/
def Obligations.ContextActsAtTheEnd : Prop :=
  ∀ (p : PortId) (s : State),
    let c := s.ctx p
    (∀ (cause : DrainCause) (a : Action) (o : TxOutcome), c.state = .draining cause →
      s.contextAtEnd p a o =
        match cause with
        | .aborted true => if o.isOk = true then s.settleBound p else s.settleVoided p .aborted
        | .aborted false => s.settleVoided p .aborted
        | .supplyFault => s.settleVoided p .supplyFault) ∧
    (∀ (w : Fin 17) (o : TxOutcome), (c.state = .loading ∨ c.state = .reburn) →
      let mask : BitVec 17 := c.injected ||| (1#17 <<< w.val)
      let ticks := s.params.settleCode * 2 ^ (5 + s.params.settleScale)
      s.contextAtEnd p (.inject w) o =
        if o.isOk = false then s
        else if mask ≠ 0x1FFFF#17 then { s with contexts := s.contexts.set p { c with injected := mask } }
        else if c.state = .reburn then
          { s with contexts := s.contexts.set p { c with injected := mask, state := .ready } }
        else
          { s with
            contexts := s.contexts.set p { c with injected := mask, state := .settling }
            supplies :=
              if (s.supply p).state = .off then
                s.supplies.set p { state := .settling ticks, interval := some ticks }
              else s.supplies }) ∧
    (c.state = .burning →
      (∀ w, s.contextAtEnd p .gateBurn (.ok w) =
        { s with contexts := s.contexts.set p { c with state := .checking, verified := 0 } }) ∧
      s.contextAtEnd p .gateBurn .nak = s.settleVoided p .dieNak ∧
      s.contextAtEnd p .gateBurn .timeout = s.settleVoided p .dieTimeout) ∧
    (c.state = .locking →
      (∀ w, s.contextAtEnd p .gateLock (.ok w) = s.settleBound p) ∧
      s.contextAtEnd p .gateLock .nak = s.settleVoided p .dieNak ∧
      s.contextAtEnd p .gateLock .timeout = s.settleVoided p .dieTimeout) ∧
    (c.state.isDraining = false →
      (∀ o, s.contextAtEnd p .pass o = s) ∧
      (∀ f o, (c.state ≠ .ident ∨ o.isOk = false) → s.contextAtEnd p (.capture f) o = s) ∧
      (∀ w o, (c.state ≠ .checking ∨ o.isOk = false) → s.contextAtEnd p (.verify w) o = s))

/-- An OK VERIFY in CHECKING (R15, R16, R66, R72, R73, R75, R76): a bit read that is not expected voids the key FATAL_BITS.
Otherwise the missing mask of the word and its verified bit are recorded; with all 17 verified the pass ends: VERIFIED
with nothing missing, VOIDED RETRY_LIMIT with no attempt left, or a REBURN pass whose image is the missing masks. -/
def Obligations.VerifyClassifiesTheWord : Prop :=
  ∀ (p : PortId) (w : Fin 17) (read : Word) (k : Key) (d : Word) (s : State),
    (s.ctx p).state = .checking → (s.ctx p).heldKey = some k → (s.ctx p).digest = some d →
    let c := s.ctx p
    let expected : Word := if w.val < 16 then k.bits.extractLsb' (240 - 16 * w.val) 16 else d
    let missing := c.missing.set w (expected &&& ~~~read)
    let verified : BitVec 17 := c.verified ||| (1#17 <<< w.val)
    let put := fun c' : Context => ({ s with contexts := s.contexts.set p c' } : State)
    let c' : Context := { c with missing := missing, verified := verified }
    s.contextAtEnd p (.verify w) (.ok (some read)) =
      if read &&& ~~~expected ≠ 0 then s.settleVoided p .fatalBits
      else if verified ≠ 0x1FFFF#17 then put c'
      else if ∀ v : Fin 17, missing[v] = 0 then put { c' with state := .verified }
      else if s.params.burnLimit ≤ c.attempts then (put c').settleVoided p .retryLimit
      else put { c' with state := .reburn, pass := .reburn, image := some missing, injected := 0 }

/-- A settlement BOUND or VOIDED (R24, R80, R144, R150, R152, R155): one record at the log's tail with the next sequence number, the
map entry of the claim, one count BOUND or VOIDED, and the context in DONE with its verdict record and key, digest, image,
claim and reservations absent, its supply off; LOG_HIGH, KEY_VOID and TD_COMPLETE are latched as R158, R24 and R25 say; no
other context and nothing else changes. A settlement without a record (R6, R24, R39): ABANDONED takes the context off the wait list,
puts a held key back in the pool's order and leaves a TRIED entry; a rejection closes the context with its verdict and burn
attempts 0, and does nothing else. Closing a context (`closeContext`, O52) leaves it in DONE with the verdict record, switches
its supply off and latches TD_COMPLETE where every enabled context is then in DONE (R25); nothing else changes. The attempts of a claim
with neither reservation nor entry are the model's choice (assumption 12). -/
def Obligations.SettlementClosesTheAccounts : Prop :=
  (∀ (p : PortId) (reason : Option VoidReason) (k : Key) (d : Word) (c : Coord) (s : State),
    (s.ctx p).heldKey = some k → (s.ctx p).digest = some d → (s.ctx p).claim = some c →
    let x := s.ctx p
    let kind : Verdict := if reason = none then .bound else .voided
    let outcome : MapOutcome := if reason = none then .bound k.index else .voided k.index
    let t : State := match reason with
      | none => s.settleBound p
      | some why => s.settleVoided p why
    t.log.records = s.log.records ++
      [{ sequence := s.log.nextSequence, kind := kind, reason := reason, keyIndex := k.index, label := k.label,
         lot := x.identity.lot, wafer := x.identity.wafer, coord := x.identity.coord, digest := d,
         attempts := x.attempts, site := x.site, touchdown := s.td.number }] ∧
    t.log.nextSequence = s.log.nextSequence + 1 ∧
    t.counters =
      (if reason = none then { s.counters with bound := s.counters.bound + 1 }
      else { s.counters with voided := s.counters.voided + 1 }) ∧
    t.ctx p =
      { x with
        state := .done, heldKey := none, digest := none, image := none, claim := none, mapReserved := false,
        logReserved := false,
        verdict := some { verdict := kind, reason := reason, keyIndex := some k.index, attempts := x.attempts } } ∧
    (∀ q, q ≠ p → t.ctx q = s.ctx q ∧ t.supply q = s.supply q) ∧
    (t.supply p).state = .off ∧ (t.supply p).interval = (s.supply p).interval ∧
    mapLookup t.dieMap c = some
      { coord := c, outcome := outcome, lastTouchdown := s.td.number,
        attempts :=
          if x.mapReserved = true then 1
          else min 7 (((mapLookup s.dieMap c).map (·.attempts)).getD 0 + 1) } ∧
    (∀ c', c' ≠ c → mapLookup t.dieMap c' = mapLookup s.dieMap c') ∧
    (∀ b : Nat, b < 12 →
      t.events.latches.getLsbD b =
        (s.events.latches.getLsbD b ||
          (b == 4 && s.params.logHigh != 0 && decide (s.params.logHigh ≤ s.log.records.length + 1)) ||
          (b == 5 && reason.isSome) ||
          (b == 10 && t.touchdownComplete))) ∧
    ({ t with
      log := s.log, counters := s.counters, contexts := s.contexts, supplies := s.supplies, dieMap := s.dieMap,
      events := { t.events with latches := s.events.latches } } : State) = s) ∧
  (∀ (p : PortId) (v : VerdictRecord) (s : State),
    let t : State :=
      { s with
        contexts := s.contexts.set p
          { s.ctx p with
            state := .done, heldKey := none, digest := none, image := none, claim := none, mapReserved := false,
            logReserved := false, verdict := some v }
        supplies := s.supplies.set p { s.supply p with state := .off } }
    s.closeContext p v =
      if t.touchdownComplete = true then { t with events := { s.events with latches := s.events.latches ||| 0x400#12 } }
      else t) ∧
  (∀ (p : PortId) (verdict : Verdict) (s : State), s.settleRejected p verdict =
    s.closeContext p { verdict := verdict, reason := none, keyIndex := none, attempts := 0 }) ∧
  (∀ s : State, s.touchdownComplete = true ↔
    ∀ i : SiteId, s.td.enabled.getLsbD i.val = true → (s.ctx (s.sitePort i)).state = .done) ∧
  ∀ (p : PortId) (s : State),
    let x := s.ctx p
    let t := s.settleAbandoned p
    t.waitList = s.waitList.filter (fun q => decide (q ≠ p)) ∧
    t.log = s.log ∧ t.counters = s.counters ∧
    t.events =
      (if t.touchdownComplete = true then { s.events with latches := s.events.latches ||| 0x400#12 } else s.events) ∧
    (t.supply p).interval = (s.supply p).interval ∧
    ({ t with
      waitList := s.waitList, pool := s.pool, contexts := s.contexts, supplies := s.supplies, dieMap := s.dieMap,
      events := s.events } : State) = s ∧
    t.ctx p =
      { x with
        state := .done, heldKey := none, digest := none, image := none, claim := none, mapReserved := false,
        logReserved := false,
        verdict := some { verdict := .abandoned, reason := none, keyIndex := none, attempts := x.attempts } } ∧
    (∀ q, q ≠ p → t.ctx q = s.ctx q ∧ t.supply q = s.supply q) ∧ (t.supply p).state = .off ∧
    (x.heldKey = none → t.pool = s.pool) ∧
    (∀ k, x.heldKey = some k → t.pool.Perm (k :: s.pool) ∧
      ((s.pool.Pairwise fun a b => a.index < b.index) → (∀ j ∈ s.pool, j.index ≠ k.index) →
        t.pool.Pairwise fun a b => a.index < b.index)) ∧
    (x.claim = none → t.dieMap = s.dieMap) ∧
    ∀ c, x.claim = some c →
      mapLookup t.dieMap c = some
        { coord := c, outcome := .tried, lastTouchdown := s.td.number,
          attempts :=
            if x.mapReserved = true then 1
            else min 7 (((mapLookup s.dieMap c).map (·.attempts)).getD 0 + 1) } ∧
      ∀ c', c' ≠ c → mapLookup t.dieMap c' = mapLookup s.dieMap c'

/-! ## Burn supplies and CONTACT -/

/-- SETTLE_EXPIRY and SUPPLY_GOOD_CHANGE (R11, R18, R123..R125). At the settle expiry the input decides: good, the supply is
ON_GOOD and a context in SETTLING is READY; not good, the supply is off, SUPPLY_FAULT is latched, and a context in SETTLING
ends VOIDED SUPPLY_FAULT, or drains while its port is BUSY. A change to not good in ON_GOOD is a supply fault: the switch
opens, SUPPLY_FAULT is latched, and the context ends, drains, or changes its drain's cause by its state. Either may
complete a TOUCHDOWN END. Every other change of the input moves the pin alone. No other controller has a timer, and
SETTLE_EXPIRY does nothing at one, which is the model's choice (assumption 11); so is that a drain entered from LOCKING by a
supply fault carries no LOCKING mark (assumption 20). -/
def Obligations.SupplyFollowsItsInput : Prop :=
  ∀ (p : PortId) (s : State), s.phase ≠ .held →
    let c := s.ctx p
    let on : State := { s with supplies := s.supplies.set p { s.supply p with state := .onGood } }
    let fault := fun u : State =>
      ({ u with
        supplies := u.supplies.set p { s.supply p with state := .off }
        events := { u.events with latches := u.events.latches ||| 0x40#12 } } : State)
    let drained := fun u : State =>
      ({ u with contexts := u.contexts.set p { c with state := .draining .supplyFault } } : State)
    let ends := fun u : State =>
      if (s.port p).state.isBusy = true then drained u else u.settleVoided p .supplyFault
    (∀ n, (s.supply p).state = .settling n → s.pins.supplyGood[p] = true →
      exec (.settleExpiry p) s = .next
        (State.completeAndRelease
          (if c.state = .settling then { on with contexts := s.contexts.set p { c with state := .ready } } else on))) ∧
    (∀ n, (s.supply p).state = .settling n → s.pins.supplyGood[p] = false →
      exec (.settleExpiry p) s = .next
        (State.completeAndRelease (if c.state = .settling then ends (fault s) else fault s))) ∧
    ((∀ n, (s.supply p).state ≠ .settling n) → exec (.settleExpiry p) s = .next s) ∧
    ∀ good : Bool,
      let t : State := { s with pins := { s.pins with supplyGood := s.pins.supplyGood.set p good } }
      (((s.supply p).state ≠ .onGood ∨ good = true) → exec (.supplyGoodChange p good) s = .next t) ∧
      ((s.supply p).state = .onGood → good = false →
        exec (.supplyGoodChange p good) s = .next
          (State.completeAndRelease
            (match c.state with
            | .ready | .checking | .reburn | .verified => ends (fault t)
            | .burning | .locking | .draining (.aborted true) => drained (fault t)
            | _ => fault t)))

/-- CONTACT_FALL latches CONTACT_LOST in any touchdown state (R137, R141). In an open touchdown whose contacts were not lost
before it reaches every port, context and supply at that event (R22, R38, R100, R127, R154, R173). In ascending order, each
port that is not PARKED answers LOST, first its transaction in flight and then its queued requests, and parks CONTACT with
its queue empty. Then every context ends, in ascending logical site order, each drain under its own cause; every supply is
off; key service follows where a HELD key was returned. In a sound state no context waits after it, so every returned key
stays in the pool; the VOIDED records join the log in site order with consecutive sequence numbers and are counted; every
claim has its map entry. No other fall does more, and CONTACT_RISE moves the pin alone. The order ports, contexts, supplies,
service, and that of contexts with one logical site, is the model's choice (assumption 17); so is that a fall which does no
more leaves the supplies, which are off then (assumption 15). -/
def Obligations.ContactFallEndsEverySite : Prop :=
  ∀ s : State, s.phase ≠ .held →
    let fallen : State :=
      { s with
        pins := { s.pins with contact := false }
        events := { s.events with latches := s.events.latches ||| 0x80#12 } }
    exec .contactRise s = .next { s with pins := { s.pins with contact := true } } ∧
    ((s.touchdownIsOpen = false ∨ s.td.contactLost = true) → exec .contactFall s = .next fallen) ∧
    (s.touchdownIsOpen = true → s.td.contactLost = false → ∃ order : List PortId,
      order.Perm (List.finRange 16) ∧
      (order.Pairwise fun p q => (s.ctx p).site < (s.ctx q).site ∨ ((s.ctx p).site = (s.ctx q).site ∧ p < q)) ∧
      let queued := fun (t : State) (p : PortId) => (s.port p).queue.foldl (fun t r => t.deliver r .lost none) t
      let answered : State := (List.finRange 16).foldl
        (fun t p =>
          match (s.port p).state with
          | .parked _ => t
          | .busy tx _ => queued (t.deliver tx.request .lost none) p
          | .idle | .breaking _ => queued t p) fallen
      let parked : State :=
        { answered with
          td := { s.td with contactLost := true }
          ports := Vector.ofFn fun p : PortId =>
            if (s.port p).state.isParked = true then s.port p
            else { s.port p with state := .parked .contact, queue := [] } }
      let why : PortId → VoidReason := fun p =>
        match (s.ctx p).state with
        | .draining (.aborted _) => .aborted
        | .draining .supplyFault => .supplyFault
        | _ => .contactLost
      let ends := fun (t : State) (p : PortId) =>
        match (s.ctx p).state with
        | .idle | .done => t
        | .ident | .wait | .held => t.settleAbandoned p
        | _ => t.settleVoided p (why p)
      let v : State :=
        { order.foldl ends parked with
          supplies := Vector.ofFn fun p : PortId => { s.supply p with state := .off } }
      let u : State := if ∃ p, (s.ctx p).state = .held then v.serviceKeys else v
      exec .contactFall s = .next u.completeAndRelease ∧
      u.pins = fallen.pins ∧ u.td = { s.td with contactLost := true } ∧ u.control = s.control ∧
      u.link = answered.link ∧ u.merge = answered.merge ∧ u.events.latches.getLsbD 7 = true ∧
      (∀ p, u.port p =
        if (s.port p).state.isParked = true then s.port p
        else { s.port p with state := .parked .contact, queue := [] }) ∧
      (∀ p, (u.supply p).state = .off) ∧
      (s.Sound →
        let voids := order.filter fun p => (s.ctx p).state.holdsKey && decide ((s.ctx p).state ≠ .held)
        u.log =
          { records := s.log.records ++ voids.zipIdx.map fun x =>
              { s.logRecordOf x.1 .voided (some (why x.1)) with
                sequence := s.log.nextSequence + BitVec.ofNat 32 x.2 }
            nextSequence := s.log.nextSequence + BitVec.ofNat 32 voids.length } ∧
        u.counters = { s.counters with voided := s.counters.voided + BitVec.ofNat 32 voids.length } ∧
        u.waitList = [] ∧
        (u.pool.Pairwise fun a b => a.index < b.index) ∧
        u.pool.Perm (s.pool ++ (List.finRange 16).filterMap fun p : PortId =>
          if (s.ctx p).state = .held then (s.ctx p).heldKey else none) ∧
        (∀ p c, (s.ctx p).claim = some c → mapLookup u.dieMap c = some
          { coord := c, lastTouchdown := s.td.number,
            outcome :=
              if (s.ctx p).state = .wait ∨ (s.ctx p).state = .held then .tried
              else .voided ((s.heldIndex p).getD 0),
            attempts :=
              if (s.ctx p).mapReserved = true then 1
              else min 7 (((mapLookup s.dieMap c).map (·.attempts)).getD 0 + 1) }) ∧
        (∀ c, (∀ p, (s.ctx p).claim ≠ some c) → mapLookup u.dieMap c = mapLookup s.dieMap c) ∧
        ∀ p,
          let ended := fun v : VerdictRecord => ({ s.ctx p with
            state := .done, heldKey := none, digest := none, image := none, claim := none, mapReserved := false,
            logReserved := false, verdict := some v } : Context)
          u.ctx p =
            match (s.ctx p).state with
            | .idle | .done => s.ctx p
            | .ident | .wait | .held =>
              ended { verdict := .abandoned, reason := none, keyIndex := none, attempts := (s.ctx p).attempts }
            | _ => ended
              { verdict := .voided, reason := some (why p), keyIndex := s.heldIndex p, attempts := (s.ctx p).attempts }))

/-! ## Invariants -/

/-- What reset leaves satisfies every invariant stated below. -/
def Obligations.ResetIsSound : Prop :=
  State.reset.Sound ∧ State.reset.StreamSound ∧ State.reset.MergesOpen ∧ State.reset.RulesLegal ∧
  ∀ s t : State, exec .reset s = .next t →
    t.Sound ∧ t.StreamSound ∧ t.MergesOpen ∧ t.RulesLegal ∧ t.link.stream = []

/-- Each of these survives every command, from any state that has it: stored parameters and gears in their ranges (R95, R171),
stored rules acceptable to RULE WRITE and in normal form (R45, R46), no port named by two enabled entries (R104), at most
192 frames upstream, none while the lane is DOWN or the part in reset, the head in transmission (R161, R174, R176, R187),
and every merge record in use still waiting for a member (R116). -/
def Obligations.SettingsAndStreamsStayLegal : Prop :=
  ∀ (c : Instr) (s t : State), exec c s = .next t →
    (s.ParamsInRange → t.ParamsInRange) ∧ (s.RulesLegal → t.RulesLegal) ∧ (s.SitesDistinct → t.SitesDistinct) ∧
    (s.MergesOpen → t.MergesOpen) ∧
    (s.StreamSound → (s.phase = .held → s.link.stream = []) →
      t.StreamSound ∧ (t.phase = .held → t.link.stream = []))

/-- Every command keeps the invariants of `State.Sound`, whatever it finds: key custody, log capacity and key accounting (R28,
R42, R151, R155), the pool's order and range (R31, R32), one record a key (R153), the images and burn attempts (R64, R66,
R76, R78), the wait list served (R7, R37), the die map and claims (R133, R134, R143..R145), ports and queues (R83, R84,
R99..R102), the control queue (R131, R168), and the supplies, on only with the probes down and for a context in work
(R2, R128). -/
def Obligations.EveryCommandKeepsThePartSound : Prop :=
  (∀ (c : Instr) (s t : State), s.Sound → exec c s = .next t → t.Sound) ∧
  ∀ s t : State, s.Sound → step s = .next t →
    t.Sound ∧
    (∀ p, (t.supply p).state.switchOn = true → t.pins.contact = true ∧ (t.ctx p).state.ended = false) ∧
    (∀ p q k j, (t.ctx p).heldKey = some k → (t.ctx q).heldKey = some j → k.index = j.index → p = q) ∧
    t.counters.accepted =
      BitVec.ofNat 32 (t.pool.length + t.heldKeys) + t.counters.bound + t.counters.voided + t.counters.purged

end
end

