-- ==== Sys2Proof/Laws/State.lean ====
section
/-! SUPPORT. Laws/State.lean: the small lemmas of the state: what each plain update leaves of each field (true by `rfl`), and
what the accessors read after it. -/

namespace Sys2Proof.Machine

variable (s : State)

/-! ### raise -/

@[simp] theorem raise_phase (e : Event) : (s.raise e).phase = s.phase := rfl
@[simp] theorem raise_pins (e : Event) : (s.raise e).pins = s.pins := rfl
@[simp] theorem raise_link (e : Event) : (s.raise e).link = s.link := rfl
@[simp] theorem raise_control (e : Event) : (s.raise e).control = s.control := rfl
@[simp] theorem raise_siteMap (e : Event) : (s.raise e).siteMap = s.siteMap := rfl
@[simp] theorem raise_groups (e : Event) : (s.raise e).groups = s.groups := rfl
@[simp] theorem raise_merge (e : Event) : (s.raise e).merge = s.merge := rfl
@[simp] theorem raise_ports (e : Event) : (s.raise e).ports = s.ports := rfl
@[simp] theorem raise_rules (e : Event) : (s.raise e).rules = s.rules := rfl
@[simp] theorem raise_contexts (e : Event) : (s.raise e).contexts = s.contexts := rfl
@[simp] theorem raise_waitList (e : Event) : (s.raise e).waitList = s.waitList := rfl
@[simp] theorem raise_batch (e : Event) : (s.raise e).batch = s.batch := rfl
@[simp] theorem raise_pool (e : Event) : (s.raise e).pool = s.pool := rfl
@[simp] theorem raise_counters (e : Event) : (s.raise e).counters = s.counters := rfl
@[simp] theorem raise_supplies (e : Event) : (s.raise e).supplies = s.supplies := rfl
@[simp] theorem raise_td (e : Event) : (s.raise e).td = s.td := rfl
@[simp] theorem raise_dieMap (e : Event) : (s.raise e).dieMap = s.dieMap := rfl
@[simp] theorem raise_log (e : Event) : (s.raise e).log = s.log := rfl
@[simp] theorem raise_params (e : Event) : (s.raise e).params = s.params := rfl
@[simp] theorem raise_transportKeyId (e : Event) : (s.raise e).transportKeyId = s.transportKeyId := rfl
@[simp] theorem raise_strapSamples (e : Event) : (s.raise e).strapSamples = s.strapSamples := rfl
@[simp] theorem raise_pending (e : Event) : (s.raise e).pending = s.pending := rfl
@[simp] theorem raise_ctx (e : Event) (q : PortId) : (s.raise e).ctx q = s.ctx q := rfl
@[simp] theorem raise_port (e : Event) (q : PortId) : (s.raise e).port q = s.port q := rfl
@[simp] theorem raise_supply (e : Event) (q : PortId) : (s.raise e).supply q = s.supply q := rfl

/-! ### setCtx -/

@[simp] theorem setCtx_phase (p : PortId) (c : Context) : (s.setCtx p c).phase = s.phase := rfl
@[simp] theorem setCtx_pins (p : PortId) (c : Context) : (s.setCtx p c).pins = s.pins := rfl
@[simp] theorem setCtx_link (p : PortId) (c : Context) : (s.setCtx p c).link = s.link := rfl
@[simp] theorem setCtx_control (p : PortId) (c : Context) : (s.setCtx p c).control = s.control := rfl
@[simp] theorem setCtx_siteMap (p : PortId) (c : Context) : (s.setCtx p c).siteMap = s.siteMap := rfl
@[simp] theorem setCtx_groups (p : PortId) (c : Context) : (s.setCtx p c).groups = s.groups := rfl
@[simp] theorem setCtx_merge (p : PortId) (c : Context) : (s.setCtx p c).merge = s.merge := rfl
@[simp] theorem setCtx_ports (p : PortId) (c : Context) : (s.setCtx p c).ports = s.ports := rfl
@[simp] theorem setCtx_rules (p : PortId) (c : Context) : (s.setCtx p c).rules = s.rules := rfl
@[simp] theorem setCtx_waitList (p : PortId) (c : Context) : (s.setCtx p c).waitList = s.waitList := rfl
@[simp] theorem setCtx_batch (p : PortId) (c : Context) : (s.setCtx p c).batch = s.batch := rfl
@[simp] theorem setCtx_pool (p : PortId) (c : Context) : (s.setCtx p c).pool = s.pool := rfl
@[simp] theorem setCtx_counters (p : PortId) (c : Context) : (s.setCtx p c).counters = s.counters := rfl
@[simp] theorem setCtx_supplies (p : PortId) (c : Context) : (s.setCtx p c).supplies = s.supplies := rfl
@[simp] theorem setCtx_td (p : PortId) (c : Context) : (s.setCtx p c).td = s.td := rfl
@[simp] theorem setCtx_dieMap (p : PortId) (c : Context) : (s.setCtx p c).dieMap = s.dieMap := rfl
@[simp] theorem setCtx_log (p : PortId) (c : Context) : (s.setCtx p c).log = s.log := rfl
@[simp] theorem setCtx_events (p : PortId) (c : Context) : (s.setCtx p c).events = s.events := rfl
@[simp] theorem setCtx_params (p : PortId) (c : Context) : (s.setCtx p c).params = s.params := rfl
@[simp] theorem setCtx_transportKeyId (p : PortId) (c : Context) : (s.setCtx p c).transportKeyId = s.transportKeyId := rfl
@[simp] theorem setCtx_strapSamples (p : PortId) (c : Context) : (s.setCtx p c).strapSamples = s.strapSamples := rfl
@[simp] theorem setCtx_pending (p : PortId) (c : Context) : (s.setCtx p c).pending = s.pending := rfl
@[simp] theorem setCtx_port (p : PortId) (c : Context) (q : PortId) : (s.setCtx p c).port q = s.port q := rfl
@[simp] theorem setCtx_supply (p : PortId) (c : Context) (q : PortId) : (s.setCtx p c).supply q = s.supply q := rfl

/-! ### setPort -/

@[simp] theorem setPort_phase (p : PortId) (pt : Port) : (s.setPort p pt).phase = s.phase := rfl
@[simp] theorem setPort_pins (p : PortId) (pt : Port) : (s.setPort p pt).pins = s.pins := rfl
@[simp] theorem setPort_link (p : PortId) (pt : Port) : (s.setPort p pt).link = s.link := rfl
@[simp] theorem setPort_control (p : PortId) (pt : Port) : (s.setPort p pt).control = s.control := rfl
@[simp] theorem setPort_siteMap (p : PortId) (pt : Port) : (s.setPort p pt).siteMap = s.siteMap := rfl
@[simp] theorem setPort_groups (p : PortId) (pt : Port) : (s.setPort p pt).groups = s.groups := rfl
@[simp] theorem setPort_merge (p : PortId) (pt : Port) : (s.setPort p pt).merge = s.merge := rfl
@[simp] theorem setPort_rules (p : PortId) (pt : Port) : (s.setPort p pt).rules = s.rules := rfl
@[simp] theorem setPort_contexts (p : PortId) (pt : Port) : (s.setPort p pt).contexts = s.contexts := rfl
@[simp] theorem setPort_waitList (p : PortId) (pt : Port) : (s.setPort p pt).waitList = s.waitList := rfl
@[simp] theorem setPort_batch (p : PortId) (pt : Port) : (s.setPort p pt).batch = s.batch := rfl
@[simp] theorem setPort_pool (p : PortId) (pt : Port) : (s.setPort p pt).pool = s.pool := rfl
@[simp] theorem setPort_counters (p : PortId) (pt : Port) : (s.setPort p pt).counters = s.counters := rfl
@[simp] theorem setPort_supplies (p : PortId) (pt : Port) : (s.setPort p pt).supplies = s.supplies := rfl
@[simp] theorem setPort_td (p : PortId) (pt : Port) : (s.setPort p pt).td = s.td := rfl
@[simp] theorem setPort_dieMap (p : PortId) (pt : Port) : (s.setPort p pt).dieMap = s.dieMap := rfl
@[simp] theorem setPort_log (p : PortId) (pt : Port) : (s.setPort p pt).log = s.log := rfl
@[simp] theorem setPort_events (p : PortId) (pt : Port) : (s.setPort p pt).events = s.events := rfl
@[simp] theorem setPort_params (p : PortId) (pt : Port) : (s.setPort p pt).params = s.params := rfl
@[simp] theorem setPort_transportKeyId (p : PortId) (pt : Port) : (s.setPort p pt).transportKeyId = s.transportKeyId := rfl
@[simp] theorem setPort_strapSamples (p : PortId) (pt : Port) : (s.setPort p pt).strapSamples = s.strapSamples := rfl
@[simp] theorem setPort_pending (p : PortId) (pt : Port) : (s.setPort p pt).pending = s.pending := rfl
@[simp] theorem setPort_ctx (p : PortId) (pt : Port) (q : PortId) : (s.setPort p pt).ctx q = s.ctx q := rfl
@[simp] theorem setPort_supply (p : PortId) (pt : Port) (q : PortId) : (s.setPort p pt).supply q = s.supply q := rfl

/-! ### setSupply -/

@[simp] theorem setSupply_phase (p : PortId) (u : Supply) : (s.setSupply p u).phase = s.phase := rfl
@[simp] theorem setSupply_pins (p : PortId) (u : Supply) : (s.setSupply p u).pins = s.pins := rfl
@[simp] theorem setSupply_link (p : PortId) (u : Supply) : (s.setSupply p u).link = s.link := rfl
@[simp] theorem setSupply_control (p : PortId) (u : Supply) : (s.setSupply p u).control = s.control := rfl
@[simp] theorem setSupply_siteMap (p : PortId) (u : Supply) : (s.setSupply p u).siteMap = s.siteMap := rfl
@[simp] theorem setSupply_groups (p : PortId) (u : Supply) : (s.setSupply p u).groups = s.groups := rfl
@[simp] theorem setSupply_merge (p : PortId) (u : Supply) : (s.setSupply p u).merge = s.merge := rfl
@[simp] theorem setSupply_ports (p : PortId) (u : Supply) : (s.setSupply p u).ports = s.ports := rfl
@[simp] theorem setSupply_rules (p : PortId) (u : Supply) : (s.setSupply p u).rules = s.rules := rfl
@[simp] theorem setSupply_contexts (p : PortId) (u : Supply) : (s.setSupply p u).contexts = s.contexts := rfl
@[simp] theorem setSupply_waitList (p : PortId) (u : Supply) : (s.setSupply p u).waitList = s.waitList := rfl
@[simp] theorem setSupply_batch (p : PortId) (u : Supply) : (s.setSupply p u).batch = s.batch := rfl
@[simp] theorem setSupply_pool (p : PortId) (u : Supply) : (s.setSupply p u).pool = s.pool := rfl
@[simp] theorem setSupply_counters (p : PortId) (u : Supply) : (s.setSupply p u).counters = s.counters := rfl
@[simp] theorem setSupply_td (p : PortId) (u : Supply) : (s.setSupply p u).td = s.td := rfl
@[simp] theorem setSupply_dieMap (p : PortId) (u : Supply) : (s.setSupply p u).dieMap = s.dieMap := rfl
@[simp] theorem setSupply_log (p : PortId) (u : Supply) : (s.setSupply p u).log = s.log := rfl
@[simp] theorem setSupply_events (p : PortId) (u : Supply) : (s.setSupply p u).events = s.events := rfl
@[simp] theorem setSupply_params (p : PortId) (u : Supply) : (s.setSupply p u).params = s.params := rfl
@[simp] theorem setSupply_transportKeyId (p : PortId) (u : Supply) : (s.setSupply p u).transportKeyId = s.transportKeyId := rfl
@[simp] theorem setSupply_strapSamples (p : PortId) (u : Supply) : (s.setSupply p u).strapSamples = s.strapSamples := rfl
@[simp] theorem setSupply_pending (p : PortId) (u : Supply) : (s.setSupply p u).pending = s.pending := rfl
@[simp] theorem setSupply_ctx (p : PortId) (u : Supply) (q : PortId) : (s.setSupply p u).ctx q = s.ctx q := rfl
@[simp] theorem setSupply_port (p : PortId) (u : Supply) (q : PortId) : (s.setSupply p u).port q = s.port q := rfl

/-! ### setCtxState -/

@[simp] theorem setCtxState_phase (p : PortId) (st : ContextState) : (s.setCtxState p st).phase = s.phase := rfl
@[simp] theorem setCtxState_pins (p : PortId) (st : ContextState) : (s.setCtxState p st).pins = s.pins := rfl
@[simp] theorem setCtxState_link (p : PortId) (st : ContextState) : (s.setCtxState p st).link = s.link := rfl
@[simp] theorem setCtxState_control (p : PortId) (st : ContextState) : (s.setCtxState p st).control = s.control := rfl
@[simp] theorem setCtxState_siteMap (p : PortId) (st : ContextState) : (s.setCtxState p st).siteMap = s.siteMap := rfl
@[simp] theorem setCtxState_groups (p : PortId) (st : ContextState) : (s.setCtxState p st).groups = s.groups := rfl
@[simp] theorem setCtxState_merge (p : PortId) (st : ContextState) : (s.setCtxState p st).merge = s.merge := rfl
@[simp] theorem setCtxState_ports (p : PortId) (st : ContextState) : (s.setCtxState p st).ports = s.ports := rfl
@[simp] theorem setCtxState_rules (p : PortId) (st : ContextState) : (s.setCtxState p st).rules = s.rules := rfl
@[simp] theorem setCtxState_waitList (p : PortId) (st : ContextState) : (s.setCtxState p st).waitList = s.waitList := rfl
@[simp] theorem setCtxState_batch (p : PortId) (st : ContextState) : (s.setCtxState p st).batch = s.batch := rfl
@[simp] theorem setCtxState_pool (p : PortId) (st : ContextState) : (s.setCtxState p st).pool = s.pool := rfl
@[simp] theorem setCtxState_counters (p : PortId) (st : ContextState) : (s.setCtxState p st).counters = s.counters := rfl
@[simp] theorem setCtxState_supplies (p : PortId) (st : ContextState) : (s.setCtxState p st).supplies = s.supplies := rfl
@[simp] theorem setCtxState_td (p : PortId) (st : ContextState) : (s.setCtxState p st).td = s.td := rfl
@[simp] theorem setCtxState_dieMap (p : PortId) (st : ContextState) : (s.setCtxState p st).dieMap = s.dieMap := rfl
@[simp] theorem setCtxState_log (p : PortId) (st : ContextState) : (s.setCtxState p st).log = s.log := rfl
@[simp] theorem setCtxState_events (p : PortId) (st : ContextState) : (s.setCtxState p st).events = s.events := rfl
@[simp] theorem setCtxState_params (p : PortId) (st : ContextState) : (s.setCtxState p st).params = s.params := rfl
@[simp] theorem setCtxState_transportKeyId (p : PortId) (st : ContextState) : (s.setCtxState p st).transportKeyId = s.transportKeyId := rfl
@[simp] theorem setCtxState_strapSamples (p : PortId) (st : ContextState) : (s.setCtxState p st).strapSamples = s.strapSamples := rfl
@[simp] theorem setCtxState_pending (p : PortId) (st : ContextState) : (s.setCtxState p st).pending = s.pending := rfl
@[simp] theorem setCtxState_port (p : PortId) (st : ContextState) (q : PortId) : (s.setCtxState p st).port q = s.port q := rfl
@[simp] theorem setCtxState_supply (p : PortId) (st : ContextState) (q : PortId) : (s.setCtxState p st).supply q = s.supply q := rfl

/-! ### setPortState -/

@[simp] theorem setPortState_phase (p : PortId) (st : PortState) : (s.setPortState p st).phase = s.phase := rfl
@[simp] theorem setPortState_pins (p : PortId) (st : PortState) : (s.setPortState p st).pins = s.pins := rfl
@[simp] theorem setPortState_link (p : PortId) (st : PortState) : (s.setPortState p st).link = s.link := rfl
@[simp] theorem setPortState_control (p : PortId) (st : PortState) : (s.setPortState p st).control = s.control := rfl
@[simp] theorem setPortState_siteMap (p : PortId) (st : PortState) : (s.setPortState p st).siteMap = s.siteMap := rfl
@[simp] theorem setPortState_groups (p : PortId) (st : PortState) : (s.setPortState p st).groups = s.groups := rfl
@[simp] theorem setPortState_merge (p : PortId) (st : PortState) : (s.setPortState p st).merge = s.merge := rfl
@[simp] theorem setPortState_rules (p : PortId) (st : PortState) : (s.setPortState p st).rules = s.rules := rfl
@[simp] theorem setPortState_contexts (p : PortId) (st : PortState) : (s.setPortState p st).contexts = s.contexts := rfl
@[simp] theorem setPortState_waitList (p : PortId) (st : PortState) : (s.setPortState p st).waitList = s.waitList := rfl
@[simp] theorem setPortState_batch (p : PortId) (st : PortState) : (s.setPortState p st).batch = s.batch := rfl
@[simp] theorem setPortState_pool (p : PortId) (st : PortState) : (s.setPortState p st).pool = s.pool := rfl
@[simp] theorem setPortState_counters (p : PortId) (st : PortState) : (s.setPortState p st).counters = s.counters := rfl
@[simp] theorem setPortState_supplies (p : PortId) (st : PortState) : (s.setPortState p st).supplies = s.supplies := rfl
@[simp] theorem setPortState_td (p : PortId) (st : PortState) : (s.setPortState p st).td = s.td := rfl
@[simp] theorem setPortState_dieMap (p : PortId) (st : PortState) : (s.setPortState p st).dieMap = s.dieMap := rfl
@[simp] theorem setPortState_log (p : PortId) (st : PortState) : (s.setPortState p st).log = s.log := rfl
@[simp] theorem setPortState_events (p : PortId) (st : PortState) : (s.setPortState p st).events = s.events := rfl
@[simp] theorem setPortState_params (p : PortId) (st : PortState) : (s.setPortState p st).params = s.params := rfl
@[simp] theorem setPortState_transportKeyId (p : PortId) (st : PortState) : (s.setPortState p st).transportKeyId = s.transportKeyId := rfl
@[simp] theorem setPortState_strapSamples (p : PortId) (st : PortState) : (s.setPortState p st).strapSamples = s.strapSamples := rfl
@[simp] theorem setPortState_pending (p : PortId) (st : PortState) : (s.setPortState p st).pending = s.pending := rfl
@[simp] theorem setPortState_ctx (p : PortId) (st : PortState) (q : PortId) : (s.setPortState p st).ctx q = s.ctx q := rfl
@[simp] theorem setPortState_supply (p : PortId) (st : PortState) (q : PortId) : (s.setPortState p st).supply q = s.supply q := rfl

/-! ### setExecutor -/

@[simp] theorem setExecutor_phase (x : Executor) : (s.setExecutor x).phase = s.phase := rfl
@[simp] theorem setExecutor_pins (x : Executor) : (s.setExecutor x).pins = s.pins := rfl
@[simp] theorem setExecutor_link (x : Executor) : (s.setExecutor x).link = s.link := rfl
@[simp] theorem setExecutor_siteMap (x : Executor) : (s.setExecutor x).siteMap = s.siteMap := rfl
@[simp] theorem setExecutor_groups (x : Executor) : (s.setExecutor x).groups = s.groups := rfl
@[simp] theorem setExecutor_merge (x : Executor) : (s.setExecutor x).merge = s.merge := rfl
@[simp] theorem setExecutor_ports (x : Executor) : (s.setExecutor x).ports = s.ports := rfl
@[simp] theorem setExecutor_rules (x : Executor) : (s.setExecutor x).rules = s.rules := rfl
@[simp] theorem setExecutor_contexts (x : Executor) : (s.setExecutor x).contexts = s.contexts := rfl
@[simp] theorem setExecutor_waitList (x : Executor) : (s.setExecutor x).waitList = s.waitList := rfl
@[simp] theorem setExecutor_batch (x : Executor) : (s.setExecutor x).batch = s.batch := rfl
@[simp] theorem setExecutor_pool (x : Executor) : (s.setExecutor x).pool = s.pool := rfl
@[simp] theorem setExecutor_counters (x : Executor) : (s.setExecutor x).counters = s.counters := rfl
@[simp] theorem setExecutor_supplies (x : Executor) : (s.setExecutor x).supplies = s.supplies := rfl
@[simp] theorem setExecutor_td (x : Executor) : (s.setExecutor x).td = s.td := rfl
@[simp] theorem setExecutor_dieMap (x : Executor) : (s.setExecutor x).dieMap = s.dieMap := rfl
@[simp] theorem setExecutor_log (x : Executor) : (s.setExecutor x).log = s.log := rfl
@[simp] theorem setExecutor_events (x : Executor) : (s.setExecutor x).events = s.events := rfl
@[simp] theorem setExecutor_params (x : Executor) : (s.setExecutor x).params = s.params := rfl
@[simp] theorem setExecutor_transportKeyId (x : Executor) : (s.setExecutor x).transportKeyId = s.transportKeyId := rfl
@[simp] theorem setExecutor_strapSamples (x : Executor) : (s.setExecutor x).strapSamples = s.strapSamples := rfl
@[simp] theorem setExecutor_pending (x : Executor) : (s.setExecutor x).pending = s.pending := rfl
@[simp] theorem setExecutor_ctx (x : Executor) (q : PortId) : (s.setExecutor x).ctx q = s.ctx q := rfl
@[simp] theorem setExecutor_port (x : Executor) (q : PortId) : (s.setExecutor x).port q = s.port q := rfl
@[simp] theorem setExecutor_supply (x : Executor) (q : PortId) : (s.setExecutor x).supply q = s.supply q := rfl

/-! ### switchOff -/

@[simp] theorem switchOff_phase (p : PortId) : (s.switchOff p).phase = s.phase := rfl
@[simp] theorem switchOff_pins (p : PortId) : (s.switchOff p).pins = s.pins := rfl
@[simp] theorem switchOff_link (p : PortId) : (s.switchOff p).link = s.link := rfl
@[simp] theorem switchOff_control (p : PortId) : (s.switchOff p).control = s.control := rfl
@[simp] theorem switchOff_siteMap (p : PortId) : (s.switchOff p).siteMap = s.siteMap := rfl
@[simp] theorem switchOff_groups (p : PortId) : (s.switchOff p).groups = s.groups := rfl
@[simp] theorem switchOff_merge (p : PortId) : (s.switchOff p).merge = s.merge := rfl
@[simp] theorem switchOff_ports (p : PortId) : (s.switchOff p).ports = s.ports := rfl
@[simp] theorem switchOff_rules (p : PortId) : (s.switchOff p).rules = s.rules := rfl
@[simp] theorem switchOff_contexts (p : PortId) : (s.switchOff p).contexts = s.contexts := rfl
@[simp] theorem switchOff_waitList (p : PortId) : (s.switchOff p).waitList = s.waitList := rfl
@[simp] theorem switchOff_batch (p : PortId) : (s.switchOff p).batch = s.batch := rfl
@[simp] theorem switchOff_pool (p : PortId) : (s.switchOff p).pool = s.pool := rfl
@[simp] theorem switchOff_counters (p : PortId) : (s.switchOff p).counters = s.counters := rfl
@[simp] theorem switchOff_td (p : PortId) : (s.switchOff p).td = s.td := rfl
@[simp] theorem switchOff_dieMap (p : PortId) : (s.switchOff p).dieMap = s.dieMap := rfl
@[simp] theorem switchOff_log (p : PortId) : (s.switchOff p).log = s.log := rfl
@[simp] theorem switchOff_events (p : PortId) : (s.switchOff p).events = s.events := rfl
@[simp] theorem switchOff_params (p : PortId) : (s.switchOff p).params = s.params := rfl
@[simp] theorem switchOff_transportKeyId (p : PortId) : (s.switchOff p).transportKeyId = s.transportKeyId := rfl
@[simp] theorem switchOff_strapSamples (p : PortId) : (s.switchOff p).strapSamples = s.strapSamples := rfl
@[simp] theorem switchOff_pending (p : PortId) : (s.switchOff p).pending = s.pending := rfl
@[simp] theorem switchOff_ctx (p : PortId) (q : PortId) : (s.switchOff p).ctx q = s.ctx q := rfl
@[simp] theorem switchOff_port (p : PortId) (q : PortId) : (s.switchOff p).port q = s.port q := rfl

/-! ### enqueue -/

@[simp] theorem enqueue_phase (p : PortId) (r : Request) : (s.enqueue p r).phase = s.phase := rfl
@[simp] theorem enqueue_pins (p : PortId) (r : Request) : (s.enqueue p r).pins = s.pins := rfl
@[simp] theorem enqueue_link (p : PortId) (r : Request) : (s.enqueue p r).link = s.link := rfl
@[simp] theorem enqueue_control (p : PortId) (r : Request) : (s.enqueue p r).control = s.control := rfl
@[simp] theorem enqueue_siteMap (p : PortId) (r : Request) : (s.enqueue p r).siteMap = s.siteMap := rfl
@[simp] theorem enqueue_groups (p : PortId) (r : Request) : (s.enqueue p r).groups = s.groups := rfl
@[simp] theorem enqueue_merge (p : PortId) (r : Request) : (s.enqueue p r).merge = s.merge := rfl
@[simp] theorem enqueue_rules (p : PortId) (r : Request) : (s.enqueue p r).rules = s.rules := rfl
@[simp] theorem enqueue_contexts (p : PortId) (r : Request) : (s.enqueue p r).contexts = s.contexts := rfl
@[simp] theorem enqueue_waitList (p : PortId) (r : Request) : (s.enqueue p r).waitList = s.waitList := rfl
@[simp] theorem enqueue_batch (p : PortId) (r : Request) : (s.enqueue p r).batch = s.batch := rfl
@[simp] theorem enqueue_pool (p : PortId) (r : Request) : (s.enqueue p r).pool = s.pool := rfl
@[simp] theorem enqueue_counters (p : PortId) (r : Request) : (s.enqueue p r).counters = s.counters := rfl
@[simp] theorem enqueue_supplies (p : PortId) (r : Request) : (s.enqueue p r).supplies = s.supplies := rfl
@[simp] theorem enqueue_td (p : PortId) (r : Request) : (s.enqueue p r).td = s.td := rfl
@[simp] theorem enqueue_dieMap (p : PortId) (r : Request) : (s.enqueue p r).dieMap = s.dieMap := rfl
@[simp] theorem enqueue_log (p : PortId) (r : Request) : (s.enqueue p r).log = s.log := rfl
@[simp] theorem enqueue_events (p : PortId) (r : Request) : (s.enqueue p r).events = s.events := rfl
@[simp] theorem enqueue_params (p : PortId) (r : Request) : (s.enqueue p r).params = s.params := rfl
@[simp] theorem enqueue_transportKeyId (p : PortId) (r : Request) : (s.enqueue p r).transportKeyId = s.transportKeyId := rfl
@[simp] theorem enqueue_strapSamples (p : PortId) (r : Request) : (s.enqueue p r).strapSamples = s.strapSamples := rfl
@[simp] theorem enqueue_pending (p : PortId) (r : Request) : (s.enqueue p r).pending = s.pending := rfl
@[simp] theorem enqueue_ctx (p : PortId) (r : Request) (q : PortId) : (s.enqueue p r).ctx q = s.ctx q := rfl
@[simp] theorem enqueue_supply (p : PortId) (r : Request) (q : PortId) : (s.enqueue p r).supply q = s.supply q := rfl

/-! ### setContact -/

@[simp] theorem setContact_phase (b : Bool) : (s.setContact b).phase = s.phase := rfl
@[simp] theorem setContact_link (b : Bool) : (s.setContact b).link = s.link := rfl
@[simp] theorem setContact_control (b : Bool) : (s.setContact b).control = s.control := rfl
@[simp] theorem setContact_siteMap (b : Bool) : (s.setContact b).siteMap = s.siteMap := rfl
@[simp] theorem setContact_groups (b : Bool) : (s.setContact b).groups = s.groups := rfl
@[simp] theorem setContact_merge (b : Bool) : (s.setContact b).merge = s.merge := rfl
@[simp] theorem setContact_ports (b : Bool) : (s.setContact b).ports = s.ports := rfl
@[simp] theorem setContact_rules (b : Bool) : (s.setContact b).rules = s.rules := rfl
@[simp] theorem setContact_contexts (b : Bool) : (s.setContact b).contexts = s.contexts := rfl
@[simp] theorem setContact_waitList (b : Bool) : (s.setContact b).waitList = s.waitList := rfl
@[simp] theorem setContact_batch (b : Bool) : (s.setContact b).batch = s.batch := rfl
@[simp] theorem setContact_pool (b : Bool) : (s.setContact b).pool = s.pool := rfl
@[simp] theorem setContact_counters (b : Bool) : (s.setContact b).counters = s.counters := rfl
@[simp] theorem setContact_supplies (b : Bool) : (s.setContact b).supplies = s.supplies := rfl
@[simp] theorem setContact_td (b : Bool) : (s.setContact b).td = s.td := rfl
@[simp] theorem setContact_dieMap (b : Bool) : (s.setContact b).dieMap = s.dieMap := rfl
@[simp] theorem setContact_log (b : Bool) : (s.setContact b).log = s.log := rfl
@[simp] theorem setContact_events (b : Bool) : (s.setContact b).events = s.events := rfl
@[simp] theorem setContact_params (b : Bool) : (s.setContact b).params = s.params := rfl
@[simp] theorem setContact_transportKeyId (b : Bool) : (s.setContact b).transportKeyId = s.transportKeyId := rfl
@[simp] theorem setContact_strapSamples (b : Bool) : (s.setContact b).strapSamples = s.strapSamples := rfl
@[simp] theorem setContact_pending (b : Bool) : (s.setContact b).pending = s.pending := rfl
@[simp] theorem setContact_ctx (b : Bool) (q : PortId) : (s.setContact b).ctx q = s.ctx q := rfl
@[simp] theorem setContact_port (b : Bool) (q : PortId) : (s.setContact b).port q = s.port q := rfl
@[simp] theorem setContact_supply (b : Bool) (q : PortId) : (s.setContact b).supply q = s.supply q := rfl

/-! ### setSupplyGood -/

@[simp] theorem setSupplyGood_phase (p : PortId) (b : Bool) : (s.setSupplyGood p b).phase = s.phase := rfl
@[simp] theorem setSupplyGood_link (p : PortId) (b : Bool) : (s.setSupplyGood p b).link = s.link := rfl
@[simp] theorem setSupplyGood_control (p : PortId) (b : Bool) : (s.setSupplyGood p b).control = s.control := rfl
@[simp] theorem setSupplyGood_siteMap (p : PortId) (b : Bool) : (s.setSupplyGood p b).siteMap = s.siteMap := rfl
@[simp] theorem setSupplyGood_groups (p : PortId) (b : Bool) : (s.setSupplyGood p b).groups = s.groups := rfl
@[simp] theorem setSupplyGood_merge (p : PortId) (b : Bool) : (s.setSupplyGood p b).merge = s.merge := rfl
@[simp] theorem setSupplyGood_ports (p : PortId) (b : Bool) : (s.setSupplyGood p b).ports = s.ports := rfl
@[simp] theorem setSupplyGood_rules (p : PortId) (b : Bool) : (s.setSupplyGood p b).rules = s.rules := rfl
@[simp] theorem setSupplyGood_contexts (p : PortId) (b : Bool) : (s.setSupplyGood p b).contexts = s.contexts := rfl
@[simp] theorem setSupplyGood_waitList (p : PortId) (b : Bool) : (s.setSupplyGood p b).waitList = s.waitList := rfl
@[simp] theorem setSupplyGood_batch (p : PortId) (b : Bool) : (s.setSupplyGood p b).batch = s.batch := rfl
@[simp] theorem setSupplyGood_pool (p : PortId) (b : Bool) : (s.setSupplyGood p b).pool = s.pool := rfl
@[simp] theorem setSupplyGood_counters (p : PortId) (b : Bool) : (s.setSupplyGood p b).counters = s.counters := rfl
@[simp] theorem setSupplyGood_supplies (p : PortId) (b : Bool) : (s.setSupplyGood p b).supplies = s.supplies := rfl
@[simp] theorem setSupplyGood_td (p : PortId) (b : Bool) : (s.setSupplyGood p b).td = s.td := rfl
@[simp] theorem setSupplyGood_dieMap (p : PortId) (b : Bool) : (s.setSupplyGood p b).dieMap = s.dieMap := rfl
@[simp] theorem setSupplyGood_log (p : PortId) (b : Bool) : (s.setSupplyGood p b).log = s.log := rfl
@[simp] theorem setSupplyGood_events (p : PortId) (b : Bool) : (s.setSupplyGood p b).events = s.events := rfl
@[simp] theorem setSupplyGood_params (p : PortId) (b : Bool) : (s.setSupplyGood p b).params = s.params := rfl
@[simp] theorem setSupplyGood_transportKeyId (p : PortId) (b : Bool) : (s.setSupplyGood p b).transportKeyId = s.transportKeyId := rfl
@[simp] theorem setSupplyGood_strapSamples (p : PortId) (b : Bool) : (s.setSupplyGood p b).strapSamples = s.strapSamples := rfl
@[simp] theorem setSupplyGood_pending (p : PortId) (b : Bool) : (s.setSupplyGood p b).pending = s.pending := rfl
@[simp] theorem setSupplyGood_ctx (p : PortId) (b : Bool) (q : PortId) : (s.setSupplyGood p b).ctx q = s.ctx q := rfl
@[simp] theorem setSupplyGood_port (p : PortId) (b : Bool) (q : PortId) : (s.setSupplyGood p b).port q = s.port q := rfl
@[simp] theorem setSupplyGood_supply (p : PortId) (b : Bool) (q : PortId) : (s.setSupplyGood p b).supply q = s.supply q := rfl

/-! ### setLinkRdy -/

@[simp] theorem setLinkRdy_phase (b : Bool) : (s.setLinkRdy b).phase = s.phase := rfl
@[simp] theorem setLinkRdy_link (b : Bool) : (s.setLinkRdy b).link = s.link := rfl
@[simp] theorem setLinkRdy_control (b : Bool) : (s.setLinkRdy b).control = s.control := rfl
@[simp] theorem setLinkRdy_siteMap (b : Bool) : (s.setLinkRdy b).siteMap = s.siteMap := rfl
@[simp] theorem setLinkRdy_groups (b : Bool) : (s.setLinkRdy b).groups = s.groups := rfl
@[simp] theorem setLinkRdy_merge (b : Bool) : (s.setLinkRdy b).merge = s.merge := rfl
@[simp] theorem setLinkRdy_ports (b : Bool) : (s.setLinkRdy b).ports = s.ports := rfl
@[simp] theorem setLinkRdy_rules (b : Bool) : (s.setLinkRdy b).rules = s.rules := rfl
@[simp] theorem setLinkRdy_contexts (b : Bool) : (s.setLinkRdy b).contexts = s.contexts := rfl
@[simp] theorem setLinkRdy_waitList (b : Bool) : (s.setLinkRdy b).waitList = s.waitList := rfl
@[simp] theorem setLinkRdy_batch (b : Bool) : (s.setLinkRdy b).batch = s.batch := rfl
@[simp] theorem setLinkRdy_pool (b : Bool) : (s.setLinkRdy b).pool = s.pool := rfl
@[simp] theorem setLinkRdy_counters (b : Bool) : (s.setLinkRdy b).counters = s.counters := rfl
@[simp] theorem setLinkRdy_supplies (b : Bool) : (s.setLinkRdy b).supplies = s.supplies := rfl
@[simp] theorem setLinkRdy_td (b : Bool) : (s.setLinkRdy b).td = s.td := rfl
@[simp] theorem setLinkRdy_dieMap (b : Bool) : (s.setLinkRdy b).dieMap = s.dieMap := rfl
@[simp] theorem setLinkRdy_log (b : Bool) : (s.setLinkRdy b).log = s.log := rfl
@[simp] theorem setLinkRdy_events (b : Bool) : (s.setLinkRdy b).events = s.events := rfl
@[simp] theorem setLinkRdy_params (b : Bool) : (s.setLinkRdy b).params = s.params := rfl
@[simp] theorem setLinkRdy_transportKeyId (b : Bool) : (s.setLinkRdy b).transportKeyId = s.transportKeyId := rfl
@[simp] theorem setLinkRdy_strapSamples (b : Bool) : (s.setLinkRdy b).strapSamples = s.strapSamples := rfl
@[simp] theorem setLinkRdy_pending (b : Bool) : (s.setLinkRdy b).pending = s.pending := rfl
@[simp] theorem setLinkRdy_ctx (b : Bool) (q : PortId) : (s.setLinkRdy b).ctx q = s.ctx q := rfl
@[simp] theorem setLinkRdy_port (b : Bool) (q : PortId) : (s.setLinkRdy b).port q = s.port q := rfl
@[simp] theorem setLinkRdy_supply (b : Bool) (q : PortId) : (s.setLinkRdy b).supply q = s.supply q := rfl

/-! ### setRx -/

@[simp] theorem setRx_phase (rx : RxState) (l : List Byte) (n : Nat) : (s.setRx rx l n).phase = s.phase := rfl
@[simp] theorem setRx_pins (rx : RxState) (l : List Byte) (n : Nat) : (s.setRx rx l n).pins = s.pins := rfl
@[simp] theorem setRx_control (rx : RxState) (l : List Byte) (n : Nat) : (s.setRx rx l n).control = s.control := rfl
@[simp] theorem setRx_siteMap (rx : RxState) (l : List Byte) (n : Nat) : (s.setRx rx l n).siteMap = s.siteMap := rfl
@[simp] theorem setRx_groups (rx : RxState) (l : List Byte) (n : Nat) : (s.setRx rx l n).groups = s.groups := rfl
@[simp] theorem setRx_merge (rx : RxState) (l : List Byte) (n : Nat) : (s.setRx rx l n).merge = s.merge := rfl
@[simp] theorem setRx_ports (rx : RxState) (l : List Byte) (n : Nat) : (s.setRx rx l n).ports = s.ports := rfl
@[simp] theorem setRx_rules (rx : RxState) (l : List Byte) (n : Nat) : (s.setRx rx l n).rules = s.rules := rfl
@[simp] theorem setRx_contexts (rx : RxState) (l : List Byte) (n : Nat) : (s.setRx rx l n).contexts = s.contexts := rfl
@[simp] theorem setRx_waitList (rx : RxState) (l : List Byte) (n : Nat) : (s.setRx rx l n).waitList = s.waitList := rfl
@[simp] theorem setRx_batch (rx : RxState) (l : List Byte) (n : Nat) : (s.setRx rx l n).batch = s.batch := rfl
@[simp] theorem setRx_pool (rx : RxState) (l : List Byte) (n : Nat) : (s.setRx rx l n).pool = s.pool := rfl
@[simp] theorem setRx_counters (rx : RxState) (l : List Byte) (n : Nat) : (s.setRx rx l n).counters = s.counters := rfl
@[simp] theorem setRx_supplies (rx : RxState) (l : List Byte) (n : Nat) : (s.setRx rx l n).supplies = s.supplies := rfl
@[simp] theorem setRx_td (rx : RxState) (l : List Byte) (n : Nat) : (s.setRx rx l n).td = s.td := rfl
@[simp] theorem setRx_dieMap (rx : RxState) (l : List Byte) (n : Nat) : (s.setRx rx l n).dieMap = s.dieMap := rfl
@[simp] theorem setRx_log (rx : RxState) (l : List Byte) (n : Nat) : (s.setRx rx l n).log = s.log := rfl
@[simp] theorem setRx_events (rx : RxState) (l : List Byte) (n : Nat) : (s.setRx rx l n).events = s.events := rfl
@[simp] theorem setRx_params (rx : RxState) (l : List Byte) (n : Nat) : (s.setRx rx l n).params = s.params := rfl
@[simp] theorem setRx_transportKeyId (rx : RxState) (l : List Byte) (n : Nat) : (s.setRx rx l n).transportKeyId = s.transportKeyId := rfl
@[simp] theorem setRx_strapSamples (rx : RxState) (l : List Byte) (n : Nat) : (s.setRx rx l n).strapSamples = s.strapSamples := rfl
@[simp] theorem setRx_pending (rx : RxState) (l : List Byte) (n : Nat) : (s.setRx rx l n).pending = s.pending := rfl
@[simp] theorem setRx_ctx (rx : RxState) (l : List Byte) (n : Nat) (q : PortId) : (s.setRx rx l n).ctx q = s.ctx q := rfl
@[simp] theorem setRx_port (rx : RxState) (l : List Byte) (n : Nat) (q : PortId) : (s.setRx rx l n).port q = s.port q := rfl
@[simp] theorem setRx_supply (rx : RxState) (l : List Byte) (n : Nat) (q : PortId) : (s.setRx rx l n).supply q = s.supply q := rfl

/-! ### clearStream -/

@[simp] theorem clearStream_phase : s.clearStream.phase = s.phase := rfl
@[simp] theorem clearStream_pins : s.clearStream.pins = s.pins := rfl
@[simp] theorem clearStream_control : s.clearStream.control = s.control := rfl
@[simp] theorem clearStream_siteMap : s.clearStream.siteMap = s.siteMap := rfl
@[simp] theorem clearStream_groups : s.clearStream.groups = s.groups := rfl
@[simp] theorem clearStream_merge : s.clearStream.merge = s.merge := rfl
@[simp] theorem clearStream_ports : s.clearStream.ports = s.ports := rfl
@[simp] theorem clearStream_rules : s.clearStream.rules = s.rules := rfl
@[simp] theorem clearStream_contexts : s.clearStream.contexts = s.contexts := rfl
@[simp] theorem clearStream_waitList : s.clearStream.waitList = s.waitList := rfl
@[simp] theorem clearStream_batch : s.clearStream.batch = s.batch := rfl
@[simp] theorem clearStream_pool : s.clearStream.pool = s.pool := rfl
@[simp] theorem clearStream_counters : s.clearStream.counters = s.counters := rfl
@[simp] theorem clearStream_supplies : s.clearStream.supplies = s.supplies := rfl
@[simp] theorem clearStream_td : s.clearStream.td = s.td := rfl
@[simp] theorem clearStream_dieMap : s.clearStream.dieMap = s.dieMap := rfl
@[simp] theorem clearStream_log : s.clearStream.log = s.log := rfl
@[simp] theorem clearStream_events : s.clearStream.events = s.events := rfl
@[simp] theorem clearStream_params : s.clearStream.params = s.params := rfl
@[simp] theorem clearStream_transportKeyId : s.clearStream.transportKeyId = s.transportKeyId := rfl
@[simp] theorem clearStream_strapSamples : s.clearStream.strapSamples = s.strapSamples := rfl
@[simp] theorem clearStream_pending : s.clearStream.pending = s.pending := rfl
@[simp] theorem clearStream_ctx (q : PortId) : s.clearStream.ctx q = s.ctx q := rfl
@[simp] theorem clearStream_port (q : PortId) : s.clearStream.port q = s.port q := rfl
@[simp] theorem clearStream_supply (q : PortId) : s.clearStream.supply q = s.supply q := rfl

/-! ### Reading after an update -/

@[simp] theorem ctx_setCtx_self (p : PortId) (c : Context) : (s.setCtx p c).ctx p = c := by
  simp [State.setCtx, State.ctx]

@[simp] theorem ctx_setCtx_ne {p q : PortId} (c : Context) (h : q ≠ p) : (s.setCtx p c).ctx q = s.ctx q := by
  have hv : p.val ≠ q.val := fun hv => h (Fin.ext hv.symm)
  simp [State.setCtx, State.ctx, hv]

theorem ctx_setCtx (p q : PortId) (c : Context) : (s.setCtx p c).ctx q = if q = p then c else s.ctx q := by
  by_cases h : q = p
  · subst h; simp
  · simp [h]

@[simp] theorem port_setPort_self (p : PortId) (pt : Port) : (s.setPort p pt).port p = pt := by
  simp [State.setPort, State.port]

@[simp] theorem port_setPort_ne {p q : PortId} (pt : Port) (h : q ≠ p) : (s.setPort p pt).port q = s.port q := by
  have hv : p.val ≠ q.val := fun hv => h (Fin.ext hv.symm)
  simp [State.setPort, State.port, hv]

theorem port_setPort (p q : PortId) (pt : Port) : (s.setPort p pt).port q = if q = p then pt else s.port q := by
  by_cases h : q = p
  · subst h; simp
  · simp [h]

@[simp] theorem supply_setSupply_self (p : PortId) (u : Supply) : (s.setSupply p u).supply p = u := by
  simp [State.setSupply, State.supply]

@[simp] theorem supply_setSupply_ne {p q : PortId} (u : Supply) (h : q ≠ p) :
    (s.setSupply p u).supply q = s.supply q := by
  have hv : p.val ≠ q.val := fun hv => h (Fin.ext hv.symm)
  simp [State.setSupply, State.supply, hv]

theorem supply_setSupply (p q : PortId) (u : Supply) :
    (s.setSupply p u).supply q = if q = p then u else s.supply q := by
  by_cases h : q = p
  · subst h; simp
  · simp [h]

theorem ctx_setCtxState (p q : PortId) (st : ContextState) :
    (s.setCtxState p st).ctx q = if q = p then { s.ctx p with state := st } else s.ctx q := ctx_setCtx ..

@[simp] theorem ctx_setCtxState_self (p : PortId) (st : ContextState) :
    (s.setCtxState p st).ctx p = { s.ctx p with state := st } := by simp [ctx_setCtxState]

@[simp] theorem ctx_setCtxState_ne {p q : PortId} (st : ContextState) (h : q ≠ p) :
    (s.setCtxState p st).ctx q = s.ctx q := by simp [ctx_setCtxState, h]

theorem port_setPortState (p q : PortId) (st : PortState) :
    (s.setPortState p st).port q = if q = p then { s.port p with state := st } else s.port q := port_setPort ..

@[simp] theorem port_setPortState_self (p : PortId) (st : PortState) :
    (s.setPortState p st).port p = { s.port p with state := st } := by simp [port_setPortState]

@[simp] theorem port_setPortState_ne {p q : PortId} (st : PortState) (h : q ≠ p) :
    (s.setPortState p st).port q = s.port q := by simp [port_setPortState, h]

theorem port_enqueue (p q : PortId) (r : Request) :
    (s.enqueue p r).port q = if q = p then { s.port p with queue := (s.port p).queue ++ [r] } else s.port q :=
  port_setPort ..

theorem supply_switchOff (p q : PortId) :
    (s.switchOff p).supply q = if q = p then { s.supply p with state := .off } else s.supply q := supply_setSupply ..

@[simp] theorem supply_switchOff_self (p : PortId) : (s.switchOff p).supply p = { s.supply p with state := .off } := by
  simp [supply_switchOff]

@[simp] theorem supply_switchOff_ne {p q : PortId} (h : q ≠ p) : (s.switchOff p).supply q = s.supply q := by
  simp [supply_switchOff, h]

/-- A context is read from the field `contexts` alone. -/
theorem ctx_congr {s t : State} (h : t.contexts = s.contexts) (p : PortId) : t.ctx p = s.ctx p := by
  simp [State.ctx, h]

/-- A port is read from the field `ports` alone. -/
theorem port_congr {s t : State} (h : t.ports = s.ports) (p : PortId) : t.port p = s.port p := by
  simp [State.port, h]

/-- A supply is read from the field `supplies` alone. -/
theorem supply_congr {s t : State} (h : t.supplies = s.supplies) (p : PortId) : t.supply p = s.supply p := by
  simp [State.supply, h]

/-! ### Raising an event -/

@[simp] theorem raise_linkErrors (e : Event) : (s.raise e).events.linkErrors = s.events.linkErrors := rfl
@[simp] theorem raise_unwrapFails (e : Event) : (s.raise e).events.unwrapFails = s.events.unwrapFails := rfl
@[simp] theorem raise_lateResponses (e : Event) : (s.raise e).events.lateResponses = s.events.lateResponses := rfl

/-- Raising an event sets its latch (R180). -/
@[simp] theorem raise_latched (e : Event) : (s.raise e).events.latches.getLsbD e.bit = true := by
  cases e <;> simp [State.raise, Event.mask, Event.bit]

/-- Raising an event leaves the other latches (R180). -/
theorem raise_other {e : Event} {i : Nat} (h : i ≠ e.bit) :
    (s.raise e).events.latches.getLsbD i = s.events.latches.getLsbD i := by
  have : e.mask.getLsbD i = false := by
    simp only [Event.mask, BitVec.getLsbD_shiftLeft, BitVec.getLsbD_one]
    rcases Nat.lt_or_gt_of_ne h with h | h
    · simp [h]
    · have : i - e.bit ≠ 0 := by omega
      simp; omega
  simp [State.raise, this]

end Sys2Proof.Machine
end

