-- ==== Sys2Proof/Laws/Collections.lean ====
section
/-! SUPPORT. Laws/Collections.lean: the ordered collections of the part: the key pool (R31) and the canonical list of the die
map (R133, assumption 9). Every map operation keeps the canonical form. -/

namespace Sys2Proof.Machine

/-! ### The key pool -/

theorem poolInsert_length (k : Key) (l : List Key) : (poolInsert k l).length = l.length + 1 := by
  induction l with
  | nil => rfl
  | cons h t ih => simp only [poolInsert]; split <;> simp [ih]

theorem mem_poolInsert {k j : Key} {l : List Key} : j ∈ poolInsert k l ↔ j = k ∨ j ∈ l := by
  induction l with
  | nil => simp [poolInsert]
  | cons h t ih =>
    simp only [poolInsert]
    split
    · simp only [List.mem_cons, ih]
      exact ⟨fun | .inl h => .inr (.inl h) | .inr (.inl h) => .inl h | .inr (.inr h) => .inr (.inr h),
        fun | .inl h => .inr (.inl h) | .inr (.inl h) => .inl h | .inr (.inr h) => .inr (.inr h)⟩
    · simp

theorem poolInsert_ne_nil (k : Key) (l : List Key) : poolInsert k l ≠ [] := by
  cases l with
  | nil => simp [poolInsert]
  | cons h t => simp only [poolInsert]; split <;> simp

/-- A key whose index is not in the pool joins it in strictly ascending order (R31). -/
theorem poolInsert_sorted {k : Key} {l : List Key} (hl : l.Pairwise fun a b => a.index < b.index)
    (hk : ∀ j ∈ l, j.index ≠ k.index) : (poolInsert k l).Pairwise fun a b => a.index < b.index := by
  induction l with
  | nil => simp [poolInsert]
  | cons h t ih =>
    rw [List.pairwise_cons] at hl
    simp only [poolInsert]
    split
    · rename_i hlt
      rw [List.pairwise_cons]
      refine ⟨fun j hj => ?_, ih hl.2 fun j hj => hk j (List.mem_cons_of_mem _ hj)⟩
      rcases mem_poolInsert.1 hj with rfl | hj
      · exact hlt
      · exact hl.1 j hj
    · rename_i hnlt
      have hne := hk h (List.mem_cons_self ..)
      have hlt : k.index < h.index := by
        rcases Nat.lt_trichotomy k.index.toNat h.index.toNat with h1 | h1 | h1
        · exact h1
        · exact absurd (BitVec.eq_of_toNat_eq h1.symm) hne
        · exact absurd h1 hnlt
      rw [List.pairwise_cons]
      refine ⟨fun j hj => ?_, List.pairwise_cons.2 hl⟩
      rcases List.mem_cons.1 hj with rfl | hj
      · exact hlt
      · exact Nat.lt_trans hlt (hl.1 j hj)

/-! ### The die map -/

theorem Coord.key_inj {a b : Coord} : a.key = b.key ↔ a = b := by
  constructor
  · intro h
    cases a with | mk ax ay =>
    cases b with | mk bx byy =>
    simp only [Coord.key] at h
    have h1 := ay.isLt
    have h2 := byy.isLt
    have hx : ax.toNat = bx.toNat := by omega
    have hy : ay.toNat = byy.toNat := by omega
    rw [BitVec.eq_of_toNat_eq hx, BitVec.eq_of_toNat_eq hy]
  · rintro rfl; rfl

/-- The canonical form of the die map: coordinates in strictly rising order. -/
def mapSorted (m : List MapEntry) : Prop := m.Pairwise fun a b => a.coord.key < b.coord.key

theorem mem_mapPut {e x : MapEntry} {m : List MapEntry} (hm : mapSorted m) :
    x ∈ mapPut e m ↔ x = e ∨ (x ∈ m ∧ x.coord ≠ e.coord) := by
  induction m with
  | nil => simp [mapPut]
  | cons h t ih =>
    rw [mapSorted, List.pairwise_cons] at hm
    have apart : ∀ y ∈ t, y.coord ≠ h.coord := fun y hy he => by
      have := hm.1 y hy
      rw [he] at this
      exact Nat.lt_irrefl _ this
    simp only [mapPut]
    split
    · rename_i hlt
      have hne : h.coord ≠ e.coord := fun he => by rw [he] at hlt; exact Nat.lt_irrefl _ hlt
      simp only [List.mem_cons, ih hm.2]
      constructor
      · rintro (rfl | rfl | ⟨h1, h2⟩)
        · exact .inr ⟨.inl rfl, hne⟩
        · exact .inl rfl
        · exact .inr ⟨.inr h1, h2⟩
      · rintro (rfl | ⟨rfl | h1, h2⟩)
        · exact .inr (.inl rfl)
        · exact .inl rfl
        · exact .inr (.inr ⟨h1, h2⟩)
    · split
      · rename_i heq
        simp only [List.mem_cons]
        constructor
        · rintro (rfl | hx)
          · exact .inl rfl
          · exact .inr ⟨.inr hx, fun he => apart x hx (he.trans heq.symm)⟩
        · rintro (rfl | ⟨rfl | hx, hne⟩)
          · exact .inl rfl
          · exact absurd heq hne
          · exact .inr hx
      · rename_i hnlt hne
        have hlt : e.coord.key < h.coord.key := by
          have : h.coord.key ≠ e.coord.key := fun he => hne (Coord.key_inj.1 he)
          omega
        simp only [List.mem_cons]
        constructor
        · rintro (rfl | rfl | hx)
          · exact .inl rfl
          · exact .inr ⟨.inl rfl, hne⟩
          · refine .inr ⟨.inr hx, fun he => ?_⟩
            have := hm.1 x hx
            rw [he] at this
            omega
        · rintro (rfl | ⟨rfl | hx, -⟩)
          · exact .inl rfl
          · exact .inr (.inl rfl)
          · exact .inr (.inr hx)

/-- Writing an entry keeps the canonical form. -/
theorem mapPut_sorted (e : MapEntry) {m : List MapEntry} (hm : mapSorted m) : mapSorted (mapPut e m) := by
  induction m with
  | nil => simp [mapPut, mapSorted]
  | cons h t ih =>
    have hm' := hm
    rw [mapSorted, List.pairwise_cons] at hm
    simp only [mapPut]
    split
    · rename_i hlt
      rw [mapSorted, List.pairwise_cons]
      refine ⟨fun y hy => ?_, ih hm.2⟩
      rcases (mem_mapPut hm.2).1 hy with rfl | ⟨hy, -⟩
      · exact hlt
      · exact hm.1 y hy
    · split
      · rename_i heq
        rw [mapSorted, List.pairwise_cons]
        exact ⟨fun y hy => heq ▸ hm.1 y hy, hm.2⟩
      · rename_i hnlt hne
        have hlt : e.coord.key < h.coord.key := by
          have : h.coord.key ≠ e.coord.key := fun he => hne (Coord.key_inj.1 he)
          omega
        rw [mapSorted, List.pairwise_cons]
        refine ⟨fun y hy => ?_, hm'⟩
        rcases List.mem_cons.1 hy with rfl | hy
        · exact hlt
        · exact Nat.lt_trans hlt (hm.1 y hy)

/-- In the canonical form an entry is the one that its coordinate looks up. -/
theorem mapLookup_eq_some {m : List MapEntry} (hm : mapSorted m) {c : Coord} {e : MapEntry} :
    mapLookup m c = some e ↔ e ∈ m ∧ e.coord = c := by
  induction m with
  | nil => simp [mapLookup]
  | cons h t ih =>
    rw [mapSorted, List.pairwise_cons] at hm
    have ih := ih hm.2
    simp only [mapLookup] at ih
    simp only [mapLookup, List.find?_cons]
    by_cases hc : h.coord = c
    · simp only [hc, beq_self_eq_true, Option.some.injEq, List.mem_cons]
      constructor
      · rintro rfl; exact ⟨.inl rfl, hc⟩
      · rintro ⟨rfl | he, h2⟩
        · rfl
        · have := hm.1 e he
          rw [hc, h2] at this
          exact absurd this (Nat.lt_irrefl _)
    · have : (h.coord == c) = false := by simpa using hc
      simp only [this, ih, List.mem_cons]
      constructor
      · rintro ⟨h1, h2⟩; exact ⟨.inr h1, h2⟩
      · rintro ⟨rfl | h1, h2⟩
        · exact absurd h2 hc
        · exact ⟨h1, h2⟩

theorem mapLookup_eq_none {m : List MapEntry} {c : Coord} : mapLookup m c = none ↔ ∀ e ∈ m, e.coord ≠ c := by
  simp [mapLookup, List.find?_eq_none]

/-- What the map holds after an entry is written (R133, R144). -/
theorem mapLookup_mapPut {m : List MapEntry} (hm : mapSorted m) (e : MapEntry) (c : Coord) :
    mapLookup (mapPut e m) c = if c = e.coord then some e else mapLookup m c := by
  split
  · rename_i h
    exact (mapLookup_eq_some (mapPut_sorted e hm)).2 ⟨(mem_mapPut hm).2 (.inl rfl), h.symm⟩
  · rename_i h
    cases hl : mapLookup m c with
    | none =>
      rw [mapLookup_eq_none] at hl ⊢
      intro x hx
      rcases (mem_mapPut hm).1 hx with rfl | ⟨hx, -⟩
      · exact fun he => h he.symm
      · exact hl x hx
    | some x =>
      rw [mapLookup_eq_some hm] at hl
      rw [mapLookup_eq_some (mapPut_sorted e hm), mem_mapPut hm]
      exact ⟨.inr ⟨hl.1, fun he => h (hl.2.symm.trans he)⟩, hl.2⟩

/-- The number of entries after an entry is written: one more for a coordinate that had none. -/
theorem mapPut_length {m : List MapEntry} (hm : mapSorted m) (e : MapEntry) :
    (mapPut e m).length = if (mapLookup m e.coord).isSome then m.length else m.length + 1 := by
  induction m with
  | nil => simp [mapPut, mapLookup]
  | cons h t ih =>
    rw [mapSorted, List.pairwise_cons] at hm
    have ih := ih hm.2
    simp only [mapPut]
    split
    · rename_i hlt
      have hne : (h.coord == e.coord) = false := by
        simp only [beq_eq_false_iff_ne]
        intro he; rw [he] at hlt; exact Nat.lt_irrefl _ hlt
      simp only [mapLookup, List.find?_cons, hne, List.length_cons] at ih ⊢
      rw [ih]
      split <;> rename_i hf <;> simp [hf]
    · split
      · rename_i heq
        simp [mapLookup, heq]
      · rename_i hnlt hne
        have hlt : e.coord.key < h.coord.key := by
          have : h.coord.key ≠ e.coord.key := fun he => hne (Coord.key_inj.1 he)
          omega
        have : mapLookup (h :: t) e.coord = none := by
          rw [mapLookup_eq_none]
          intro x hx he
          rcases List.mem_cons.1 hx with rfl | hx
          · exact hne he
          · have := hm.1 x hx
            rw [he] at this
            omega
        simp [this]

end Sys2Proof.Machine
end

