-- ==== Sys2Proof/Laws/Frames.lean ====
section
/-! SUPPORT. Laws/Frames.lean: for each shared operation, once, the fields it leaves as they are: everything it can change
is among the fields its docstring names. -/

namespace Sys2Proof.Machine

/-- A fold leaves what each of its steps leaves. -/
theorem foldl_field {α β : Type} (f : State → β) (step : State → α → State) (l : List α)
    (h : ∀ s a, f (step s a) = f s) (s : State) : f (l.foldl step s) = f s := by
  induction l generalizing s with
  | nil => rfl
  | cons a l ih => simp [ih, h]

variable (s : State)

/-- All that it can change: events. -/
@[simp] theorem countLinkErrors_frame (n : Nat) :
    (s.countLinkErrors n).phase = s.phase ∧ (s.countLinkErrors n).pins = s.pins ∧
    (s.countLinkErrors n).link = s.link ∧ (s.countLinkErrors n).control = s.control ∧
    (s.countLinkErrors n).siteMap = s.siteMap ∧ (s.countLinkErrors n).groups = s.groups ∧
    (s.countLinkErrors n).merge = s.merge ∧ (s.countLinkErrors n).ports = s.ports ∧
    (s.countLinkErrors n).rules = s.rules ∧ (s.countLinkErrors n).contexts = s.contexts ∧
    (s.countLinkErrors n).waitList = s.waitList ∧ (s.countLinkErrors n).batch = s.batch ∧
    (s.countLinkErrors n).pool = s.pool ∧ (s.countLinkErrors n).counters = s.counters ∧
    (s.countLinkErrors n).supplies = s.supplies ∧ (s.countLinkErrors n).td = s.td ∧
    (s.countLinkErrors n).dieMap = s.dieMap ∧ (s.countLinkErrors n).log = s.log ∧
    (s.countLinkErrors n).params = s.params ∧ (s.countLinkErrors n).transportKeyId = s.transportKeyId ∧
    (s.countLinkErrors n).strapSamples = s.strapSamples ∧ (s.countLinkErrors n).pending = s.pending := by
  unfold State.countLinkErrors
  repeat' split
  all_goals simp

@[simp] theorem countLinkErrors_ctx (n : Nat) (q : PortId) : (s.countLinkErrors n).ctx q = s.ctx q := by simp [State.ctx]
@[simp] theorem countLinkErrors_port (n : Nat) (q : PortId) : (s.countLinkErrors n).port q = s.port q := by simp [State.port]
@[simp] theorem countLinkErrors_supply (n : Nat) (q : PortId) : (s.countLinkErrors n).supply q = s.supply q := by simp [State.supply]

/-- All that it can change: events. -/
@[simp] theorem countUnwrapFail_frame :
    (s.countUnwrapFail).phase = s.phase ∧ (s.countUnwrapFail).pins = s.pins ∧
    (s.countUnwrapFail).link = s.link ∧ (s.countUnwrapFail).control = s.control ∧
    (s.countUnwrapFail).siteMap = s.siteMap ∧ (s.countUnwrapFail).groups = s.groups ∧
    (s.countUnwrapFail).merge = s.merge ∧ (s.countUnwrapFail).ports = s.ports ∧
    (s.countUnwrapFail).rules = s.rules ∧ (s.countUnwrapFail).contexts = s.contexts ∧
    (s.countUnwrapFail).waitList = s.waitList ∧ (s.countUnwrapFail).batch = s.batch ∧
    (s.countUnwrapFail).pool = s.pool ∧ (s.countUnwrapFail).counters = s.counters ∧
    (s.countUnwrapFail).supplies = s.supplies ∧ (s.countUnwrapFail).td = s.td ∧
    (s.countUnwrapFail).dieMap = s.dieMap ∧ (s.countUnwrapFail).log = s.log ∧
    (s.countUnwrapFail).params = s.params ∧ (s.countUnwrapFail).transportKeyId = s.transportKeyId ∧
    (s.countUnwrapFail).strapSamples = s.strapSamples ∧ (s.countUnwrapFail).pending = s.pending := by
  unfold State.countUnwrapFail
  repeat' split
  all_goals simp

@[simp] theorem countUnwrapFail_ctx (q : PortId) : (s.countUnwrapFail).ctx q = s.ctx q := by simp [State.ctx]
@[simp] theorem countUnwrapFail_port (q : PortId) : (s.countUnwrapFail).port q = s.port q := by simp [State.port]
@[simp] theorem countUnwrapFail_supply (q : PortId) : (s.countUnwrapFail).supply q = s.supply q := by simp [State.supply]

/-- All that it can change: events. -/
@[simp] theorem countLateResponse_frame :
    (s.countLateResponse).phase = s.phase ∧ (s.countLateResponse).pins = s.pins ∧
    (s.countLateResponse).link = s.link ∧ (s.countLateResponse).control = s.control ∧
    (s.countLateResponse).siteMap = s.siteMap ∧ (s.countLateResponse).groups = s.groups ∧
    (s.countLateResponse).merge = s.merge ∧ (s.countLateResponse).ports = s.ports ∧
    (s.countLateResponse).rules = s.rules ∧ (s.countLateResponse).contexts = s.contexts ∧
    (s.countLateResponse).waitList = s.waitList ∧ (s.countLateResponse).batch = s.batch ∧
    (s.countLateResponse).pool = s.pool ∧ (s.countLateResponse).counters = s.counters ∧
    (s.countLateResponse).supplies = s.supplies ∧ (s.countLateResponse).td = s.td ∧
    (s.countLateResponse).dieMap = s.dieMap ∧ (s.countLateResponse).log = s.log ∧
    (s.countLateResponse).params = s.params ∧ (s.countLateResponse).transportKeyId = s.transportKeyId ∧
    (s.countLateResponse).strapSamples = s.strapSamples ∧ (s.countLateResponse).pending = s.pending := by
  unfold State.countLateResponse
  repeat' split
  all_goals simp

@[simp] theorem countLateResponse_ctx (q : PortId) : (s.countLateResponse).ctx q = s.ctx q := by simp [State.ctx]
@[simp] theorem countLateResponse_port (q : PortId) : (s.countLateResponse).port q = s.port q := by simp [State.port]
@[simp] theorem countLateResponse_supply (q : PortId) : (s.countLateResponse).supply q = s.supply q := by simp [State.supply]

/-- All that it can change: link, events. -/
@[simp] theorem emit_frame (r : Response) :
    (s.emit r).phase = s.phase ∧ (s.emit r).pins = s.pins ∧
    (s.emit r).control = s.control ∧ (s.emit r).siteMap = s.siteMap ∧
    (s.emit r).groups = s.groups ∧ (s.emit r).merge = s.merge ∧
    (s.emit r).ports = s.ports ∧ (s.emit r).rules = s.rules ∧
    (s.emit r).contexts = s.contexts ∧ (s.emit r).waitList = s.waitList ∧
    (s.emit r).batch = s.batch ∧ (s.emit r).pool = s.pool ∧
    (s.emit r).counters = s.counters ∧ (s.emit r).supplies = s.supplies ∧
    (s.emit r).td = s.td ∧ (s.emit r).dieMap = s.dieMap ∧
    (s.emit r).log = s.log ∧ (s.emit r).params = s.params ∧
    (s.emit r).transportKeyId = s.transportKeyId ∧ (s.emit r).strapSamples = s.strapSamples ∧
    (s.emit r).pending = s.pending := by
  unfold State.emit
  repeat' split
  all_goals simp

@[simp] theorem emit_ctx (r : Response) (q : PortId) : (s.emit r).ctx q = s.ctx q := by simp [State.ctx]
@[simp] theorem emit_port (r : Response) (q : PortId) : (s.emit r).port q = s.port q := by simp [State.port]
@[simp] theorem emit_supply (r : Response) (q : PortId) : (s.emit r).supply q = s.supply q := by simp [State.supply]

/-- All that it can change: link, events. -/
@[simp] theorem respond_frame (tag : Byte) (st : Status) (l : List Byte) :
    (s.respond tag st l).phase = s.phase ∧ (s.respond tag st l).pins = s.pins ∧
    (s.respond tag st l).control = s.control ∧ (s.respond tag st l).siteMap = s.siteMap ∧
    (s.respond tag st l).groups = s.groups ∧ (s.respond tag st l).merge = s.merge ∧
    (s.respond tag st l).ports = s.ports ∧ (s.respond tag st l).rules = s.rules ∧
    (s.respond tag st l).contexts = s.contexts ∧ (s.respond tag st l).waitList = s.waitList ∧
    (s.respond tag st l).batch = s.batch ∧ (s.respond tag st l).pool = s.pool ∧
    (s.respond tag st l).counters = s.counters ∧ (s.respond tag st l).supplies = s.supplies ∧
    (s.respond tag st l).td = s.td ∧ (s.respond tag st l).dieMap = s.dieMap ∧
    (s.respond tag st l).log = s.log ∧ (s.respond tag st l).params = s.params ∧
    (s.respond tag st l).transportKeyId = s.transportKeyId ∧ (s.respond tag st l).strapSamples = s.strapSamples ∧
    (s.respond tag st l).pending = s.pending := by
  unfold State.respond
  repeat' split
  all_goals simp

@[simp] theorem respond_ctx (tag : Byte) (st : Status) (l : List Byte) (q : PortId) : (s.respond tag st l).ctx q = s.ctx q := by simp [State.ctx]
@[simp] theorem respond_port (tag : Byte) (st : Status) (l : List Byte) (q : PortId) : (s.respond tag st l).port q = s.port q := by simp [State.port]
@[simp] theorem respond_supply (tag : Byte) (st : Status) (l : List Byte) (q : PortId) : (s.respond tag st l).supply q = s.supply q := by simp [State.supply]

/-- All that it can change: link, events. -/
@[simp] theorem respondOk_frame (tag : Byte) (l : List Byte) :
    (s.respondOk tag l).phase = s.phase ∧ (s.respondOk tag l).pins = s.pins ∧
    (s.respondOk tag l).control = s.control ∧ (s.respondOk tag l).siteMap = s.siteMap ∧
    (s.respondOk tag l).groups = s.groups ∧ (s.respondOk tag l).merge = s.merge ∧
    (s.respondOk tag l).ports = s.ports ∧ (s.respondOk tag l).rules = s.rules ∧
    (s.respondOk tag l).contexts = s.contexts ∧ (s.respondOk tag l).waitList = s.waitList ∧
    (s.respondOk tag l).batch = s.batch ∧ (s.respondOk tag l).pool = s.pool ∧
    (s.respondOk tag l).counters = s.counters ∧ (s.respondOk tag l).supplies = s.supplies ∧
    (s.respondOk tag l).td = s.td ∧ (s.respondOk tag l).dieMap = s.dieMap ∧
    (s.respondOk tag l).log = s.log ∧ (s.respondOk tag l).params = s.params ∧
    (s.respondOk tag l).transportKeyId = s.transportKeyId ∧ (s.respondOk tag l).strapSamples = s.strapSamples ∧
    (s.respondOk tag l).pending = s.pending := by
  unfold State.respondOk
  repeat' split
  all_goals simp

@[simp] theorem respondOk_ctx (tag : Byte) (l : List Byte) (q : PortId) : (s.respondOk tag l).ctx q = s.ctx q := by simp [State.ctx]
@[simp] theorem respondOk_port (tag : Byte) (l : List Byte) (q : PortId) : (s.respondOk tag l).port q = s.port q := by simp [State.port]
@[simp] theorem respondOk_supply (tag : Byte) (l : List Byte) (q : PortId) : (s.respondOk tag l).supply q = s.supply q := by simp [State.supply]

/-- All that it can change: link, events. -/
@[simp] theorem refuse_frame (tag : Byte) (st : Status) :
    (s.refuse tag st).phase = s.phase ∧ (s.refuse tag st).pins = s.pins ∧
    (s.refuse tag st).control = s.control ∧ (s.refuse tag st).siteMap = s.siteMap ∧
    (s.refuse tag st).groups = s.groups ∧ (s.refuse tag st).merge = s.merge ∧
    (s.refuse tag st).ports = s.ports ∧ (s.refuse tag st).rules = s.rules ∧
    (s.refuse tag st).contexts = s.contexts ∧ (s.refuse tag st).waitList = s.waitList ∧
    (s.refuse tag st).batch = s.batch ∧ (s.refuse tag st).pool = s.pool ∧
    (s.refuse tag st).counters = s.counters ∧ (s.refuse tag st).supplies = s.supplies ∧
    (s.refuse tag st).td = s.td ∧ (s.refuse tag st).dieMap = s.dieMap ∧
    (s.refuse tag st).log = s.log ∧ (s.refuse tag st).params = s.params ∧
    (s.refuse tag st).transportKeyId = s.transportKeyId ∧ (s.refuse tag st).strapSamples = s.strapSamples ∧
    (s.refuse tag st).pending = s.pending := by
  unfold State.refuse
  repeat' split
  all_goals simp

@[simp] theorem refuse_ctx (tag : Byte) (st : Status) (q : PortId) : (s.refuse tag st).ctx q = s.ctx q := by simp [State.ctx]
@[simp] theorem refuse_port (tag : Byte) (st : Status) (q : PortId) : (s.refuse tag st).port q = s.port q := by simp [State.port]
@[simp] theorem refuse_supply (tag : Byte) (st : Status) (q : PortId) : (s.refuse tag st).supply q = s.supply q := by simp [State.supply]

/-- All that it can change: link, events, merge. -/
@[simp] theorem deliverMember_frame (ref : MergeRef) (r : MemberResult) :
    (s.deliverMember ref r).phase = s.phase ∧ (s.deliverMember ref r).pins = s.pins ∧
    (s.deliverMember ref r).control = s.control ∧ (s.deliverMember ref r).siteMap = s.siteMap ∧
    (s.deliverMember ref r).groups = s.groups ∧ (s.deliverMember ref r).ports = s.ports ∧
    (s.deliverMember ref r).rules = s.rules ∧ (s.deliverMember ref r).contexts = s.contexts ∧
    (s.deliverMember ref r).waitList = s.waitList ∧ (s.deliverMember ref r).batch = s.batch ∧
    (s.deliverMember ref r).pool = s.pool ∧ (s.deliverMember ref r).counters = s.counters ∧
    (s.deliverMember ref r).supplies = s.supplies ∧ (s.deliverMember ref r).td = s.td ∧
    (s.deliverMember ref r).dieMap = s.dieMap ∧ (s.deliverMember ref r).log = s.log ∧
    (s.deliverMember ref r).params = s.params ∧ (s.deliverMember ref r).transportKeyId = s.transportKeyId ∧
    (s.deliverMember ref r).strapSamples = s.strapSamples ∧ (s.deliverMember ref r).pending = s.pending := by
  unfold State.deliverMember
  repeat' split
  all_goals (try dsimp only)
  all_goals (try split)
  all_goals simp

@[simp] theorem deliverMember_ctx (ref : MergeRef) (r : MemberResult) (q : PortId) : (s.deliverMember ref r).ctx q = s.ctx q := by simp [State.ctx]
@[simp] theorem deliverMember_port (ref : MergeRef) (r : MemberResult) (q : PortId) : (s.deliverMember ref r).port q = s.port q := by simp [State.port]
@[simp] theorem deliverMember_supply (ref : MergeRef) (r : MemberResult) (q : PortId) : (s.deliverMember ref r).supply q = s.supply q := by simp [State.supply]

/-- All that it can change: link, events, merge. -/
@[simp] theorem deliver_frame (r : Request) (st : Status) (w : Option Word) :
    (s.deliver r st w).phase = s.phase ∧ (s.deliver r st w).pins = s.pins ∧
    (s.deliver r st w).control = s.control ∧ (s.deliver r st w).siteMap = s.siteMap ∧
    (s.deliver r st w).groups = s.groups ∧ (s.deliver r st w).ports = s.ports ∧
    (s.deliver r st w).rules = s.rules ∧ (s.deliver r st w).contexts = s.contexts ∧
    (s.deliver r st w).waitList = s.waitList ∧ (s.deliver r st w).batch = s.batch ∧
    (s.deliver r st w).pool = s.pool ∧ (s.deliver r st w).counters = s.counters ∧
    (s.deliver r st w).supplies = s.supplies ∧ (s.deliver r st w).td = s.td ∧
    (s.deliver r st w).dieMap = s.dieMap ∧ (s.deliver r st w).log = s.log ∧
    (s.deliver r st w).params = s.params ∧ (s.deliver r st w).transportKeyId = s.transportKeyId ∧
    (s.deliver r st w).strapSamples = s.strapSamples ∧ (s.deliver r st w).pending = s.pending := by
  unfold State.deliver
  repeat' split
  all_goals simp

@[simp] theorem deliver_ctx (r : Request) (st : Status) (w : Option Word) (q : PortId) : (s.deliver r st w).ctx q = s.ctx q := by simp [State.ctx]
@[simp] theorem deliver_port (r : Request) (st : Status) (w : Option Word) (q : PortId) : (s.deliver r st w).port q = s.port q := by simp [State.port]
@[simp] theorem deliver_supply (r : Request) (st : Status) (w : Option Word) (q : PortId) : (s.deliver r st w).supply q = s.supply q := by simp [State.supply]

/-- All that it can change: link, events, merge, ports. -/
@[simp] theorem answerQueue_frame (p : PortId) (st : Status) :
    (s.answerQueue p st).phase = s.phase ∧ (s.answerQueue p st).pins = s.pins ∧
    (s.answerQueue p st).control = s.control ∧ (s.answerQueue p st).siteMap = s.siteMap ∧
    (s.answerQueue p st).groups = s.groups ∧ (s.answerQueue p st).rules = s.rules ∧
    (s.answerQueue p st).contexts = s.contexts ∧ (s.answerQueue p st).waitList = s.waitList ∧
    (s.answerQueue p st).batch = s.batch ∧ (s.answerQueue p st).pool = s.pool ∧
    (s.answerQueue p st).counters = s.counters ∧ (s.answerQueue p st).supplies = s.supplies ∧
    (s.answerQueue p st).td = s.td ∧ (s.answerQueue p st).dieMap = s.dieMap ∧
    (s.answerQueue p st).log = s.log ∧ (s.answerQueue p st).params = s.params ∧
    (s.answerQueue p st).transportKeyId = s.transportKeyId ∧ (s.answerQueue p st).strapSamples = s.strapSamples ∧
    (s.answerQueue p st).pending = s.pending := by
  unfold State.answerQueue
  refine ⟨?_, ?_, ?_, ?_, ?_, ?_, ?_, ?_, ?_, ?_, ?_, ?_, ?_, ?_, ?_, ?_, ?_, ?_, ?_⟩
  all_goals exact (foldl_field _ _ _ (by intros; simp) _).trans (by simp)

@[simp] theorem answerQueue_ctx (p : PortId) (st : Status) (q : PortId) : (s.answerQueue p st).ctx q = s.ctx q := by simp [State.ctx]
@[simp] theorem answerQueue_supply (p : PortId) (st : Status) (q : PortId) : (s.answerQueue p st).supply q = s.supply q := by simp [State.supply]

/-- All that it can change: supplies. -/
@[simp] theorem switchOn_frame (p : PortId) :
    (s.switchOn p).phase = s.phase ∧ (s.switchOn p).pins = s.pins ∧
    (s.switchOn p).link = s.link ∧ (s.switchOn p).control = s.control ∧
    (s.switchOn p).siteMap = s.siteMap ∧ (s.switchOn p).groups = s.groups ∧
    (s.switchOn p).merge = s.merge ∧ (s.switchOn p).ports = s.ports ∧
    (s.switchOn p).rules = s.rules ∧ (s.switchOn p).contexts = s.contexts ∧
    (s.switchOn p).waitList = s.waitList ∧ (s.switchOn p).batch = s.batch ∧
    (s.switchOn p).pool = s.pool ∧ (s.switchOn p).counters = s.counters ∧
    (s.switchOn p).td = s.td ∧ (s.switchOn p).dieMap = s.dieMap ∧
    (s.switchOn p).log = s.log ∧ (s.switchOn p).events = s.events ∧
    (s.switchOn p).params = s.params ∧ (s.switchOn p).transportKeyId = s.transportKeyId ∧
    (s.switchOn p).strapSamples = s.strapSamples ∧ (s.switchOn p).pending = s.pending := by
  unfold State.switchOn
  repeat' split
  all_goals simp

@[simp] theorem switchOn_ctx (p : PortId) (q : PortId) : (s.switchOn p).ctx q = s.ctx q := by simp [State.ctx]
@[simp] theorem switchOn_port (p : PortId) (q : PortId) : (s.switchOn p).port q = s.port q := by simp [State.port]

/-- All that it can change: events. -/
@[simp] theorem checkPoolLow_frame :
    (s.checkPoolLow).phase = s.phase ∧ (s.checkPoolLow).pins = s.pins ∧
    (s.checkPoolLow).link = s.link ∧ (s.checkPoolLow).control = s.control ∧
    (s.checkPoolLow).siteMap = s.siteMap ∧ (s.checkPoolLow).groups = s.groups ∧
    (s.checkPoolLow).merge = s.merge ∧ (s.checkPoolLow).ports = s.ports ∧
    (s.checkPoolLow).rules = s.rules ∧ (s.checkPoolLow).contexts = s.contexts ∧
    (s.checkPoolLow).waitList = s.waitList ∧ (s.checkPoolLow).batch = s.batch ∧
    (s.checkPoolLow).pool = s.pool ∧ (s.checkPoolLow).counters = s.counters ∧
    (s.checkPoolLow).supplies = s.supplies ∧ (s.checkPoolLow).td = s.td ∧
    (s.checkPoolLow).dieMap = s.dieMap ∧ (s.checkPoolLow).log = s.log ∧
    (s.checkPoolLow).params = s.params ∧ (s.checkPoolLow).transportKeyId = s.transportKeyId ∧
    (s.checkPoolLow).strapSamples = s.strapSamples ∧ (s.checkPoolLow).pending = s.pending := by
  unfold State.checkPoolLow
  repeat' split
  all_goals simp

@[simp] theorem checkPoolLow_ctx (q : PortId) : (s.checkPoolLow).ctx q = s.ctx q := by simp [State.ctx]
@[simp] theorem checkPoolLow_port (q : PortId) : (s.checkPoolLow).port q = s.port q := by simp [State.port]
@[simp] theorem checkPoolLow_supply (q : PortId) : (s.checkPoolLow).supply q = s.supply q := by simp [State.supply]

/-- All that it can change: contexts, waitList, pool, events. -/
@[simp] theorem serve_frame (n : Nat) :
    (State.serve n s).phase = s.phase ∧ (State.serve n s).pins = s.pins ∧
    (State.serve n s).link = s.link ∧ (State.serve n s).control = s.control ∧
    (State.serve n s).siteMap = s.siteMap ∧ (State.serve n s).groups = s.groups ∧
    (State.serve n s).merge = s.merge ∧ (State.serve n s).ports = s.ports ∧
    (State.serve n s).rules = s.rules ∧ (State.serve n s).batch = s.batch ∧
    (State.serve n s).counters = s.counters ∧ (State.serve n s).supplies = s.supplies ∧
    (State.serve n s).td = s.td ∧ (State.serve n s).dieMap = s.dieMap ∧
    (State.serve n s).log = s.log ∧ (State.serve n s).params = s.params ∧
    (State.serve n s).transportKeyId = s.transportKeyId ∧ (State.serve n s).strapSamples = s.strapSamples ∧
    (State.serve n s).pending = s.pending := by
  induction n generalizing s with
  | zero => simp [State.serve]
  | succ n ih =>
    simp only [State.serve]
    split
    · rename_i t h
      simp only [State.serveHead] at h
      repeat' split at h
      all_goals (first | contradiction | skip)
      cases h
      simp [ih]
    · simp

@[simp] theorem serve_port (n : Nat) (q : PortId) : (State.serve n s).port q = s.port q := by simp [State.port]
@[simp] theorem serve_supply (n : Nat) (q : PortId) : (State.serve n s).supply q = s.supply q := by simp [State.supply]

/-- All that it can change: contexts, waitList, pool, events. -/
@[simp] theorem serviceKeys_frame :
    (s.serviceKeys).phase = s.phase ∧ (s.serviceKeys).pins = s.pins ∧
    (s.serviceKeys).link = s.link ∧ (s.serviceKeys).control = s.control ∧
    (s.serviceKeys).siteMap = s.siteMap ∧ (s.serviceKeys).groups = s.groups ∧
    (s.serviceKeys).merge = s.merge ∧ (s.serviceKeys).ports = s.ports ∧
    (s.serviceKeys).rules = s.rules ∧ (s.serviceKeys).batch = s.batch ∧
    (s.serviceKeys).counters = s.counters ∧ (s.serviceKeys).supplies = s.supplies ∧
    (s.serviceKeys).td = s.td ∧ (s.serviceKeys).dieMap = s.dieMap ∧
    (s.serviceKeys).log = s.log ∧ (s.serviceKeys).params = s.params ∧
    (s.serviceKeys).transportKeyId = s.transportKeyId ∧ (s.serviceKeys).strapSamples = s.strapSamples ∧
    (s.serviceKeys).pending = s.pending := by
  unfold State.serviceKeys
  repeat' split
  all_goals simp

@[simp] theorem serviceKeys_port (q : PortId) : (s.serviceKeys).port q = s.port q := by simp [State.port]
@[simp] theorem serviceKeys_supply (q : PortId) : (s.serviceKeys).supply q = s.supply q := by simp [State.supply]

/-- All that it can change: contexts, waitList, pool, events. -/
@[simp] theorem serviceIf_frame (b : Bool) :
    (s.serviceIf b).phase = s.phase ∧ (s.serviceIf b).pins = s.pins ∧
    (s.serviceIf b).link = s.link ∧ (s.serviceIf b).control = s.control ∧
    (s.serviceIf b).siteMap = s.siteMap ∧ (s.serviceIf b).groups = s.groups ∧
    (s.serviceIf b).merge = s.merge ∧ (s.serviceIf b).ports = s.ports ∧
    (s.serviceIf b).rules = s.rules ∧ (s.serviceIf b).batch = s.batch ∧
    (s.serviceIf b).counters = s.counters ∧ (s.serviceIf b).supplies = s.supplies ∧
    (s.serviceIf b).td = s.td ∧ (s.serviceIf b).dieMap = s.dieMap ∧
    (s.serviceIf b).log = s.log ∧ (s.serviceIf b).params = s.params ∧
    (s.serviceIf b).transportKeyId = s.transportKeyId ∧ (s.serviceIf b).strapSamples = s.strapSamples ∧
    (s.serviceIf b).pending = s.pending := by
  unfold State.serviceIf
  repeat' split
  all_goals simp

@[simp] theorem serviceIf_port (b : Bool) (q : PortId) : (s.serviceIf b).port q = s.port q := by simp [State.port]
@[simp] theorem serviceIf_supply (b : Bool) (q : PortId) : (s.serviceIf b).supply q = s.supply q := by simp [State.supply]

/-- All that it can change: dieMap. -/
@[simp] theorem settleClaim_frame (p : PortId) (o : MapOutcome) :
    (s.settleClaim p o).phase = s.phase ∧ (s.settleClaim p o).pins = s.pins ∧
    (s.settleClaim p o).link = s.link ∧ (s.settleClaim p o).control = s.control ∧
    (s.settleClaim p o).siteMap = s.siteMap ∧ (s.settleClaim p o).groups = s.groups ∧
    (s.settleClaim p o).merge = s.merge ∧ (s.settleClaim p o).ports = s.ports ∧
    (s.settleClaim p o).rules = s.rules ∧ (s.settleClaim p o).contexts = s.contexts ∧
    (s.settleClaim p o).waitList = s.waitList ∧ (s.settleClaim p o).batch = s.batch ∧
    (s.settleClaim p o).pool = s.pool ∧ (s.settleClaim p o).counters = s.counters ∧
    (s.settleClaim p o).supplies = s.supplies ∧ (s.settleClaim p o).td = s.td ∧
    (s.settleClaim p o).log = s.log ∧ (s.settleClaim p o).events = s.events ∧
    (s.settleClaim p o).params = s.params ∧ (s.settleClaim p o).transportKeyId = s.transportKeyId ∧
    (s.settleClaim p o).strapSamples = s.strapSamples ∧ (s.settleClaim p o).pending = s.pending := by
  unfold State.settleClaim
  repeat' split
  all_goals simp

@[simp] theorem settleClaim_ctx (p : PortId) (o : MapOutcome) (q : PortId) : (s.settleClaim p o).ctx q = s.ctx q := by simp [State.ctx]
@[simp] theorem settleClaim_port (p : PortId) (o : MapOutcome) (q : PortId) : (s.settleClaim p o).port q = s.port q := by simp [State.port]
@[simp] theorem settleClaim_supply (p : PortId) (o : MapOutcome) (q : PortId) : (s.settleClaim p o).supply q = s.supply q := by simp [State.supply]

/-- All that it can change: log, events. -/
@[simp] theorem appendRecord_frame (r : LogRecord) :
    (s.appendRecord r).phase = s.phase ∧ (s.appendRecord r).pins = s.pins ∧
    (s.appendRecord r).link = s.link ∧ (s.appendRecord r).control = s.control ∧
    (s.appendRecord r).siteMap = s.siteMap ∧ (s.appendRecord r).groups = s.groups ∧
    (s.appendRecord r).merge = s.merge ∧ (s.appendRecord r).ports = s.ports ∧
    (s.appendRecord r).rules = s.rules ∧ (s.appendRecord r).contexts = s.contexts ∧
    (s.appendRecord r).waitList = s.waitList ∧ (s.appendRecord r).batch = s.batch ∧
    (s.appendRecord r).pool = s.pool ∧ (s.appendRecord r).counters = s.counters ∧
    (s.appendRecord r).supplies = s.supplies ∧ (s.appendRecord r).td = s.td ∧
    (s.appendRecord r).dieMap = s.dieMap ∧ (s.appendRecord r).params = s.params ∧
    (s.appendRecord r).transportKeyId = s.transportKeyId ∧ (s.appendRecord r).strapSamples = s.strapSamples ∧
    (s.appendRecord r).pending = s.pending := by
  unfold State.appendRecord
  dsimp only
  split
  all_goals simp

@[simp] theorem appendRecord_ctx (r : LogRecord) (q : PortId) : (s.appendRecord r).ctx q = s.ctx q := by simp [State.ctx]
@[simp] theorem appendRecord_port (r : LogRecord) (q : PortId) : (s.appendRecord r).port q = s.port q := by simp [State.port]
@[simp] theorem appendRecord_supply (r : LogRecord) (q : PortId) : (s.appendRecord r).supply q = s.supply q := by simp [State.supply]

/-- All that it can change: contexts, supplies, events. -/
@[simp] theorem closeContext_frame (p : PortId) (v : VerdictRecord) :
    (s.closeContext p v).phase = s.phase ∧ (s.closeContext p v).pins = s.pins ∧
    (s.closeContext p v).link = s.link ∧ (s.closeContext p v).control = s.control ∧
    (s.closeContext p v).siteMap = s.siteMap ∧ (s.closeContext p v).groups = s.groups ∧
    (s.closeContext p v).merge = s.merge ∧ (s.closeContext p v).ports = s.ports ∧
    (s.closeContext p v).rules = s.rules ∧ (s.closeContext p v).waitList = s.waitList ∧
    (s.closeContext p v).batch = s.batch ∧ (s.closeContext p v).pool = s.pool ∧
    (s.closeContext p v).counters = s.counters ∧ (s.closeContext p v).td = s.td ∧
    (s.closeContext p v).dieMap = s.dieMap ∧ (s.closeContext p v).log = s.log ∧
    (s.closeContext p v).params = s.params ∧ (s.closeContext p v).transportKeyId = s.transportKeyId ∧
    (s.closeContext p v).strapSamples = s.strapSamples ∧ (s.closeContext p v).pending = s.pending := by
  unfold State.closeContext
  dsimp only
  split
  all_goals simp

@[simp] theorem closeContext_port (p : PortId) (v : VerdictRecord) (q : PortId) : (s.closeContext p v).port q = s.port q := by simp [State.port]

/-- All that it can change: contexts, supplies, events, log, dieMap, counters. -/
@[simp] theorem settleBound_frame (p : PortId) :
    (s.settleBound p).phase = s.phase ∧ (s.settleBound p).pins = s.pins ∧
    (s.settleBound p).link = s.link ∧ (s.settleBound p).control = s.control ∧
    (s.settleBound p).siteMap = s.siteMap ∧ (s.settleBound p).groups = s.groups ∧
    (s.settleBound p).merge = s.merge ∧ (s.settleBound p).ports = s.ports ∧
    (s.settleBound p).rules = s.rules ∧ (s.settleBound p).waitList = s.waitList ∧
    (s.settleBound p).batch = s.batch ∧ (s.settleBound p).pool = s.pool ∧
    (s.settleBound p).td = s.td ∧ (s.settleBound p).params = s.params ∧
    (s.settleBound p).transportKeyId = s.transportKeyId ∧ (s.settleBound p).strapSamples = s.strapSamples ∧
    (s.settleBound p).pending = s.pending := by
  unfold State.settleBound
  repeat' split
  all_goals simp

@[simp] theorem settleBound_port (p : PortId) (q : PortId) : (s.settleBound p).port q = s.port q := by simp [State.port]

/-- All that it can change: contexts, supplies, events, log, dieMap, counters. -/
@[simp] theorem settleVoided_frame (p : PortId) (r : VoidReason) :
    (s.settleVoided p r).phase = s.phase ∧ (s.settleVoided p r).pins = s.pins ∧
    (s.settleVoided p r).link = s.link ∧ (s.settleVoided p r).control = s.control ∧
    (s.settleVoided p r).siteMap = s.siteMap ∧ (s.settleVoided p r).groups = s.groups ∧
    (s.settleVoided p r).merge = s.merge ∧ (s.settleVoided p r).ports = s.ports ∧
    (s.settleVoided p r).rules = s.rules ∧ (s.settleVoided p r).waitList = s.waitList ∧
    (s.settleVoided p r).batch = s.batch ∧ (s.settleVoided p r).pool = s.pool ∧
    (s.settleVoided p r).td = s.td ∧ (s.settleVoided p r).params = s.params ∧
    (s.settleVoided p r).transportKeyId = s.transportKeyId ∧ (s.settleVoided p r).strapSamples = s.strapSamples ∧
    (s.settleVoided p r).pending = s.pending := by
  unfold State.settleVoided
  repeat' split
  all_goals simp

@[simp] theorem settleVoided_port (p : PortId) (r : VoidReason) (q : PortId) : (s.settleVoided p r).port q = s.port q := by simp [State.port]

/-- All that it can change: contexts, supplies, events, dieMap, waitList, pool. -/
@[simp] theorem settleAbandoned_frame (p : PortId) :
    (s.settleAbandoned p).phase = s.phase ∧ (s.settleAbandoned p).pins = s.pins ∧
    (s.settleAbandoned p).link = s.link ∧ (s.settleAbandoned p).control = s.control ∧
    (s.settleAbandoned p).siteMap = s.siteMap ∧ (s.settleAbandoned p).groups = s.groups ∧
    (s.settleAbandoned p).merge = s.merge ∧ (s.settleAbandoned p).ports = s.ports ∧
    (s.settleAbandoned p).rules = s.rules ∧ (s.settleAbandoned p).batch = s.batch ∧
    (s.settleAbandoned p).counters = s.counters ∧ (s.settleAbandoned p).td = s.td ∧
    (s.settleAbandoned p).log = s.log ∧ (s.settleAbandoned p).params = s.params ∧
    (s.settleAbandoned p).transportKeyId = s.transportKeyId ∧ (s.settleAbandoned p).strapSamples = s.strapSamples ∧
    (s.settleAbandoned p).pending = s.pending := by
  unfold State.settleAbandoned
  simp

@[simp] theorem settleAbandoned_port (p : PortId) (q : PortId) : (s.settleAbandoned p).port q = s.port q := by simp [State.port]

/-- All that it can change: contexts, supplies, events. -/
@[simp] theorem settleRejected_frame (p : PortId) (v : Verdict) :
    (s.settleRejected p v).phase = s.phase ∧ (s.settleRejected p v).pins = s.pins ∧
    (s.settleRejected p v).link = s.link ∧ (s.settleRejected p v).control = s.control ∧
    (s.settleRejected p v).siteMap = s.siteMap ∧ (s.settleRejected p v).groups = s.groups ∧
    (s.settleRejected p v).merge = s.merge ∧ (s.settleRejected p v).ports = s.ports ∧
    (s.settleRejected p v).rules = s.rules ∧ (s.settleRejected p v).waitList = s.waitList ∧
    (s.settleRejected p v).batch = s.batch ∧ (s.settleRejected p v).pool = s.pool ∧
    (s.settleRejected p v).counters = s.counters ∧ (s.settleRejected p v).td = s.td ∧
    (s.settleRejected p v).dieMap = s.dieMap ∧ (s.settleRejected p v).log = s.log ∧
    (s.settleRejected p v).params = s.params ∧ (s.settleRejected p v).transportKeyId = s.transportKeyId ∧
    (s.settleRejected p v).strapSamples = s.strapSamples ∧ (s.settleRejected p v).pending = s.pending := by
  unfold State.settleRejected
  repeat' split
  all_goals simp

@[simp] theorem settleRejected_port (p : PortId) (v : Verdict) (q : PortId) : (s.settleRejected p v).port q = s.port q := by simp [State.port]

/-- All that it can change: contexts, supplies, events, log, dieMap, counters. -/
@[simp] theorem endDrain_frame (p : PortId) (c : DrainCause) (o : TxOutcome) :
    (s.endDrain p c o).phase = s.phase ∧ (s.endDrain p c o).pins = s.pins ∧
    (s.endDrain p c o).link = s.link ∧ (s.endDrain p c o).control = s.control ∧
    (s.endDrain p c o).siteMap = s.siteMap ∧ (s.endDrain p c o).groups = s.groups ∧
    (s.endDrain p c o).merge = s.merge ∧ (s.endDrain p c o).ports = s.ports ∧
    (s.endDrain p c o).rules = s.rules ∧ (s.endDrain p c o).waitList = s.waitList ∧
    (s.endDrain p c o).batch = s.batch ∧ (s.endDrain p c o).pool = s.pool ∧
    (s.endDrain p c o).td = s.td ∧ (s.endDrain p c o).params = s.params ∧
    (s.endDrain p c o).transportKeyId = s.transportKeyId ∧ (s.endDrain p c o).strapSamples = s.strapSamples ∧
    (s.endDrain p c o).pending = s.pending := by
  unfold State.endDrain
  repeat' split
  all_goals simp

@[simp] theorem endDrain_port (p : PortId) (c : DrainCause) (o : TxOutcome) (q : PortId) : (s.endDrain p c o).port q = s.port q := by simp [State.port]

/-- All that it can change: contexts, supplies, events, log, dieMap, counters, waitList, pool. -/
@[simp] theorem abortContext_frame (p : PortId) :
    (s.abortContext p).phase = s.phase ∧ (s.abortContext p).pins = s.pins ∧
    (s.abortContext p).link = s.link ∧ (s.abortContext p).control = s.control ∧
    (s.abortContext p).siteMap = s.siteMap ∧ (s.abortContext p).groups = s.groups ∧
    (s.abortContext p).merge = s.merge ∧ (s.abortContext p).ports = s.ports ∧
    (s.abortContext p).rules = s.rules ∧ (s.abortContext p).batch = s.batch ∧
    (s.abortContext p).td = s.td ∧ (s.abortContext p).params = s.params ∧
    (s.abortContext p).transportKeyId = s.transportKeyId ∧ (s.abortContext p).strapSamples = s.strapSamples ∧
    (s.abortContext p).pending = s.pending := by
  unfold State.abortContext
  repeat' split
  all_goals simp

@[simp] theorem abortContext_port (p : PortId) (q : PortId) : (s.abortContext p).port q = s.port q := by simp [State.port]

/-- All that it can change: contexts, supplies, events, log, dieMap, counters, waitList, pool. -/
@[simp] theorem contactLostContext_frame (p : PortId) :
    (s.contactLostContext p).phase = s.phase ∧ (s.contactLostContext p).pins = s.pins ∧
    (s.contactLostContext p).link = s.link ∧ (s.contactLostContext p).control = s.control ∧
    (s.contactLostContext p).siteMap = s.siteMap ∧ (s.contactLostContext p).groups = s.groups ∧
    (s.contactLostContext p).merge = s.merge ∧ (s.contactLostContext p).ports = s.ports ∧
    (s.contactLostContext p).rules = s.rules ∧ (s.contactLostContext p).batch = s.batch ∧
    (s.contactLostContext p).td = s.td ∧ (s.contactLostContext p).params = s.params ∧
    (s.contactLostContext p).transportKeyId = s.transportKeyId ∧ (s.contactLostContext p).strapSamples = s.strapSamples ∧
    (s.contactLostContext p).pending = s.pending := by
  unfold State.contactLostContext
  repeat' split
  all_goals simp

@[simp] theorem contactLostContext_port (p : PortId) (q : PortId) : (s.contactLostContext p).port q = s.port q := by simp [State.port]

/-- All that it can change: contexts, supplies, events, log, dieMap, counters. -/
@[simp] theorem supplyFaultContext_frame (p : PortId) :
    (s.supplyFaultContext p).phase = s.phase ∧ (s.supplyFaultContext p).pins = s.pins ∧
    (s.supplyFaultContext p).link = s.link ∧ (s.supplyFaultContext p).control = s.control ∧
    (s.supplyFaultContext p).siteMap = s.siteMap ∧ (s.supplyFaultContext p).groups = s.groups ∧
    (s.supplyFaultContext p).merge = s.merge ∧ (s.supplyFaultContext p).ports = s.ports ∧
    (s.supplyFaultContext p).rules = s.rules ∧ (s.supplyFaultContext p).waitList = s.waitList ∧
    (s.supplyFaultContext p).batch = s.batch ∧ (s.supplyFaultContext p).pool = s.pool ∧
    (s.supplyFaultContext p).td = s.td ∧ (s.supplyFaultContext p).params = s.params ∧
    (s.supplyFaultContext p).transportKeyId = s.transportKeyId ∧ (s.supplyFaultContext p).strapSamples = s.strapSamples ∧
    (s.supplyFaultContext p).pending = s.pending := by
  unfold State.supplyFaultContext
  repeat' split
  all_goals simp

@[simp] theorem supplyFaultContext_port (p : PortId) (q : PortId) : (s.supplyFaultContext p).port q = s.port q := by simp [State.port]

/-- All that it can change: contexts, ports, td, control, link, events. -/
@[simp] theorem completeTouchdown_frame (tag : Byte) :
    (s.completeTouchdown tag).phase = s.phase ∧ (s.completeTouchdown tag).pins = s.pins ∧
    (s.completeTouchdown tag).siteMap = s.siteMap ∧ (s.completeTouchdown tag).groups = s.groups ∧
    (s.completeTouchdown tag).merge = s.merge ∧ (s.completeTouchdown tag).rules = s.rules ∧
    (s.completeTouchdown tag).waitList = s.waitList ∧ (s.completeTouchdown tag).batch = s.batch ∧
    (s.completeTouchdown tag).pool = s.pool ∧ (s.completeTouchdown tag).counters = s.counters ∧
    (s.completeTouchdown tag).supplies = s.supplies ∧ (s.completeTouchdown tag).dieMap = s.dieMap ∧
    (s.completeTouchdown tag).log = s.log ∧ (s.completeTouchdown tag).params = s.params ∧
    (s.completeTouchdown tag).transportKeyId = s.transportKeyId ∧ (s.completeTouchdown tag).strapSamples = s.strapSamples ∧
    (s.completeTouchdown tag).pending = s.pending := by
  unfold State.completeTouchdown
  repeat' split
  all_goals simp

@[simp] theorem completeTouchdown_supply (tag : Byte) (q : PortId) : (s.completeTouchdown tag).supply q = s.supply q := by simp [State.supply]

/-- All that it can change: contexts, ports, td, control, link, events. -/
@[simp] theorem completeIfQuiet_frame :
    (s.completeIfQuiet).phase = s.phase ∧ (s.completeIfQuiet).pins = s.pins ∧
    (s.completeIfQuiet).siteMap = s.siteMap ∧ (s.completeIfQuiet).groups = s.groups ∧
    (s.completeIfQuiet).merge = s.merge ∧ (s.completeIfQuiet).rules = s.rules ∧
    (s.completeIfQuiet).waitList = s.waitList ∧ (s.completeIfQuiet).batch = s.batch ∧
    (s.completeIfQuiet).pool = s.pool ∧ (s.completeIfQuiet).counters = s.counters ∧
    (s.completeIfQuiet).supplies = s.supplies ∧ (s.completeIfQuiet).dieMap = s.dieMap ∧
    (s.completeIfQuiet).log = s.log ∧ (s.completeIfQuiet).params = s.params ∧
    (s.completeIfQuiet).transportKeyId = s.transportKeyId ∧ (s.completeIfQuiet).strapSamples = s.strapSamples ∧
    (s.completeIfQuiet).pending = s.pending := by
  unfold State.completeIfQuiet
  repeat' split
  all_goals simp

@[simp] theorem completeIfQuiet_supply (q : PortId) : (s.completeIfQuiet).supply q = s.supply q := by simp [State.supply]

/-- All that it can change: contexts, waitList. -/
@[simp] theorem passCheck_frame (p : PortId) :
    (s.passCheck p).phase = s.phase ∧ (s.passCheck p).pins = s.pins ∧
    (s.passCheck p).link = s.link ∧ (s.passCheck p).control = s.control ∧
    (s.passCheck p).siteMap = s.siteMap ∧ (s.passCheck p).groups = s.groups ∧
    (s.passCheck p).merge = s.merge ∧ (s.passCheck p).ports = s.ports ∧
    (s.passCheck p).rules = s.rules ∧ (s.passCheck p).batch = s.batch ∧
    (s.passCheck p).pool = s.pool ∧ (s.passCheck p).counters = s.counters ∧
    (s.passCheck p).supplies = s.supplies ∧ (s.passCheck p).td = s.td ∧
    (s.passCheck p).dieMap = s.dieMap ∧ (s.passCheck p).log = s.log ∧
    (s.passCheck p).events = s.events ∧ (s.passCheck p).params = s.params ∧
    (s.passCheck p).transportKeyId = s.transportKeyId ∧ (s.passCheck p).strapSamples = s.strapSamples ∧
    (s.passCheck p).pending = s.pending := by
  unfold State.passCheck
  repeat' split
  all_goals simp

@[simp] theorem passCheck_port (p : PortId) (q : PortId) : (s.passCheck p).port q = s.port q := by simp [State.port]
@[simp] theorem passCheck_supply (p : PortId) (q : PortId) : (s.passCheck p).supply q = s.supply q := by simp [State.supply]

/-- All that it can change: contexts, waitList, pool, events. -/
@[simp] theorem serveJoined_frame (p : PortId) :
    (s.serveJoined p).phase = s.phase ∧ (s.serveJoined p).pins = s.pins ∧
    (s.serveJoined p).link = s.link ∧ (s.serveJoined p).control = s.control ∧
    (s.serveJoined p).siteMap = s.siteMap ∧ (s.serveJoined p).groups = s.groups ∧
    (s.serveJoined p).merge = s.merge ∧ (s.serveJoined p).ports = s.ports ∧
    (s.serveJoined p).rules = s.rules ∧ (s.serveJoined p).batch = s.batch ∧
    (s.serveJoined p).counters = s.counters ∧ (s.serveJoined p).supplies = s.supplies ∧
    (s.serveJoined p).td = s.td ∧ (s.serveJoined p).dieMap = s.dieMap ∧
    (s.serveJoined p).log = s.log ∧ (s.serveJoined p).params = s.params ∧
    (s.serveJoined p).transportKeyId = s.transportKeyId ∧ (s.serveJoined p).strapSamples = s.strapSamples ∧
    (s.serveJoined p).pending = s.pending := by
  unfold State.serveJoined
  dsimp only
  split
  all_goals simp

@[simp] theorem serveJoined_port (p : PortId) (q : PortId) : (s.serveJoined p).port q = s.port q := by simp [State.port]
@[simp] theorem serveJoined_supply (p : PortId) (q : PortId) : (s.serveJoined p).supply q = s.supply q := by simp [State.supply]

/-- All that it can change: contexts, waitList, pool, events, supplies. -/
@[simp] theorem checkIdentity_frame (p : PortId) :
    (s.checkIdentity p).phase = s.phase ∧ (s.checkIdentity p).pins = s.pins ∧
    (s.checkIdentity p).link = s.link ∧ (s.checkIdentity p).control = s.control ∧
    (s.checkIdentity p).siteMap = s.siteMap ∧ (s.checkIdentity p).groups = s.groups ∧
    (s.checkIdentity p).merge = s.merge ∧ (s.checkIdentity p).ports = s.ports ∧
    (s.checkIdentity p).rules = s.rules ∧ (s.checkIdentity p).batch = s.batch ∧
    (s.checkIdentity p).counters = s.counters ∧ (s.checkIdentity p).td = s.td ∧
    (s.checkIdentity p).dieMap = s.dieMap ∧ (s.checkIdentity p).log = s.log ∧
    (s.checkIdentity p).params = s.params ∧ (s.checkIdentity p).transportKeyId = s.transportKeyId ∧
    (s.checkIdentity p).strapSamples = s.strapSamples ∧ (s.checkIdentity p).pending = s.pending := by
  unfold State.checkIdentity
  repeat' split
  all_goals simp

@[simp] theorem checkIdentity_port (p : PortId) (q : PortId) : (s.checkIdentity p).port q = s.port q := by simp [State.port]

/-- All that it can change: contexts, waitList, pool, events, supplies. -/
@[simp] theorem captureField_frame (p : PortId) (f : CaptureField) (w : Word) :
    (s.captureField p f w).phase = s.phase ∧ (s.captureField p f w).pins = s.pins ∧
    (s.captureField p f w).link = s.link ∧ (s.captureField p f w).control = s.control ∧
    (s.captureField p f w).siteMap = s.siteMap ∧ (s.captureField p f w).groups = s.groups ∧
    (s.captureField p f w).merge = s.merge ∧ (s.captureField p f w).ports = s.ports ∧
    (s.captureField p f w).rules = s.rules ∧ (s.captureField p f w).batch = s.batch ∧
    (s.captureField p f w).counters = s.counters ∧ (s.captureField p f w).td = s.td ∧
    (s.captureField p f w).dieMap = s.dieMap ∧ (s.captureField p f w).log = s.log ∧
    (s.captureField p f w).params = s.params ∧ (s.captureField p f w).transportKeyId = s.transportKeyId ∧
    (s.captureField p f w).strapSamples = s.strapSamples ∧ (s.captureField p f w).pending = s.pending := by
  unfold State.captureField
  dsimp only
  split
  all_goals simp

@[simp] theorem captureField_port (p : PortId) (f : CaptureField) (w : Word) (q : PortId) : (s.captureField p f w).port q = s.port q := by simp [State.port]

/-- All that it can change: contexts, supplies. -/
@[simp] theorem injectedEnd_frame (p : PortId) (w : Fin 17) :
    (s.injectedEnd p w).phase = s.phase ∧ (s.injectedEnd p w).pins = s.pins ∧
    (s.injectedEnd p w).link = s.link ∧ (s.injectedEnd p w).control = s.control ∧
    (s.injectedEnd p w).siteMap = s.siteMap ∧ (s.injectedEnd p w).groups = s.groups ∧
    (s.injectedEnd p w).merge = s.merge ∧ (s.injectedEnd p w).ports = s.ports ∧
    (s.injectedEnd p w).rules = s.rules ∧ (s.injectedEnd p w).waitList = s.waitList ∧
    (s.injectedEnd p w).batch = s.batch ∧ (s.injectedEnd p w).pool = s.pool ∧
    (s.injectedEnd p w).counters = s.counters ∧ (s.injectedEnd p w).td = s.td ∧
    (s.injectedEnd p w).dieMap = s.dieMap ∧ (s.injectedEnd p w).log = s.log ∧
    (s.injectedEnd p w).events = s.events ∧ (s.injectedEnd p w).params = s.params ∧
    (s.injectedEnd p w).transportKeyId = s.transportKeyId ∧ (s.injectedEnd p w).strapSamples = s.strapSamples ∧
    (s.injectedEnd p w).pending = s.pending := by
  unfold State.injectedEnd
  dsimp only
  repeat' split
  all_goals simp

@[simp] theorem injectedEnd_port (p : PortId) (w : Fin 17) (q : PortId) : (s.injectedEnd p w).port q = s.port q := by simp [State.port]

/-- All that it can change: contexts, supplies, events, log, dieMap, counters. -/
@[simp] theorem burnEnd_frame (p : PortId) (o : TxOutcome) :
    (s.burnEnd p o).phase = s.phase ∧ (s.burnEnd p o).pins = s.pins ∧
    (s.burnEnd p o).link = s.link ∧ (s.burnEnd p o).control = s.control ∧
    (s.burnEnd p o).siteMap = s.siteMap ∧ (s.burnEnd p o).groups = s.groups ∧
    (s.burnEnd p o).merge = s.merge ∧ (s.burnEnd p o).ports = s.ports ∧
    (s.burnEnd p o).rules = s.rules ∧ (s.burnEnd p o).waitList = s.waitList ∧
    (s.burnEnd p o).batch = s.batch ∧ (s.burnEnd p o).pool = s.pool ∧
    (s.burnEnd p o).td = s.td ∧ (s.burnEnd p o).params = s.params ∧
    (s.burnEnd p o).transportKeyId = s.transportKeyId ∧ (s.burnEnd p o).strapSamples = s.strapSamples ∧
    (s.burnEnd p o).pending = s.pending := by
  unfold State.burnEnd
  repeat' split
  all_goals simp

@[simp] theorem burnEnd_port (p : PortId) (o : TxOutcome) (q : PortId) : (s.burnEnd p o).port q = s.port q := by simp [State.port]

/-- All that it can change: contexts, supplies, events, log, dieMap, counters. -/
@[simp] theorem lockEnd_frame (p : PortId) (o : TxOutcome) :
    (s.lockEnd p o).phase = s.phase ∧ (s.lockEnd p o).pins = s.pins ∧
    (s.lockEnd p o).link = s.link ∧ (s.lockEnd p o).control = s.control ∧
    (s.lockEnd p o).siteMap = s.siteMap ∧ (s.lockEnd p o).groups = s.groups ∧
    (s.lockEnd p o).merge = s.merge ∧ (s.lockEnd p o).ports = s.ports ∧
    (s.lockEnd p o).rules = s.rules ∧ (s.lockEnd p o).waitList = s.waitList ∧
    (s.lockEnd p o).batch = s.batch ∧ (s.lockEnd p o).pool = s.pool ∧
    (s.lockEnd p o).td = s.td ∧ (s.lockEnd p o).params = s.params ∧
    (s.lockEnd p o).transportKeyId = s.transportKeyId ∧ (s.lockEnd p o).strapSamples = s.strapSamples ∧
    (s.lockEnd p o).pending = s.pending := by
  unfold State.lockEnd
  repeat' split
  all_goals simp

@[simp] theorem lockEnd_port (p : PortId) (o : TxOutcome) (q : PortId) : (s.lockEnd p o).port q = s.port q := by simp [State.port]

/-- All that it can change: contexts, supplies, events, log, dieMap, counters. -/
@[simp] theorem passEnd_frame (p : PortId) :
    (s.passEnd p).phase = s.phase ∧ (s.passEnd p).pins = s.pins ∧
    (s.passEnd p).link = s.link ∧ (s.passEnd p).control = s.control ∧
    (s.passEnd p).siteMap = s.siteMap ∧ (s.passEnd p).groups = s.groups ∧
    (s.passEnd p).merge = s.merge ∧ (s.passEnd p).ports = s.ports ∧
    (s.passEnd p).rules = s.rules ∧ (s.passEnd p).waitList = s.waitList ∧
    (s.passEnd p).batch = s.batch ∧ (s.passEnd p).pool = s.pool ∧
    (s.passEnd p).td = s.td ∧ (s.passEnd p).params = s.params ∧
    (s.passEnd p).transportKeyId = s.transportKeyId ∧ (s.passEnd p).strapSamples = s.strapSamples ∧
    (s.passEnd p).pending = s.pending := by
  unfold State.passEnd
  dsimp only
  repeat' split
  all_goals simp

@[simp] theorem passEnd_port (p : PortId) (q : PortId) : (s.passEnd p).port q = s.port q := by simp [State.port]

/-- All that it can change: contexts, supplies, events, log, dieMap, counters. -/
@[simp] theorem verifyEnd_frame (p : PortId) (w : Fin 17) (r : Word) :
    (s.verifyEnd p w r).phase = s.phase ∧ (s.verifyEnd p w r).pins = s.pins ∧
    (s.verifyEnd p w r).link = s.link ∧ (s.verifyEnd p w r).control = s.control ∧
    (s.verifyEnd p w r).siteMap = s.siteMap ∧ (s.verifyEnd p w r).groups = s.groups ∧
    (s.verifyEnd p w r).merge = s.merge ∧ (s.verifyEnd p w r).ports = s.ports ∧
    (s.verifyEnd p w r).rules = s.rules ∧ (s.verifyEnd p w r).waitList = s.waitList ∧
    (s.verifyEnd p w r).batch = s.batch ∧ (s.verifyEnd p w r).pool = s.pool ∧
    (s.verifyEnd p w r).td = s.td ∧ (s.verifyEnd p w r).params = s.params ∧
    (s.verifyEnd p w r).transportKeyId = s.transportKeyId ∧ (s.verifyEnd p w r).strapSamples = s.strapSamples ∧
    (s.verifyEnd p w r).pending = s.pending := by
  unfold State.verifyEnd
  dsimp only
  repeat' split
  all_goals simp

@[simp] theorem verifyEnd_port (p : PortId) (w : Fin 17) (r : Word) (q : PortId) : (s.verifyEnd p w r).port q = s.port q := by simp [State.port]

/-- All that it can change: contexts, supplies, events, log, dieMap, counters, waitList, pool. -/
@[simp] theorem contextAtEnd_frame (p : PortId) (a : Action) (o : TxOutcome) :
    (s.contextAtEnd p a o).phase = s.phase ∧ (s.contextAtEnd p a o).pins = s.pins ∧
    (s.contextAtEnd p a o).link = s.link ∧ (s.contextAtEnd p a o).control = s.control ∧
    (s.contextAtEnd p a o).siteMap = s.siteMap ∧ (s.contextAtEnd p a o).groups = s.groups ∧
    (s.contextAtEnd p a o).merge = s.merge ∧ (s.contextAtEnd p a o).ports = s.ports ∧
    (s.contextAtEnd p a o).rules = s.rules ∧ (s.contextAtEnd p a o).batch = s.batch ∧
    (s.contextAtEnd p a o).td = s.td ∧ (s.contextAtEnd p a o).params = s.params ∧
    (s.contextAtEnd p a o).transportKeyId = s.transportKeyId ∧ (s.contextAtEnd p a o).strapSamples = s.strapSamples ∧
    (s.contextAtEnd p a o).pending = s.pending := by
  unfold State.contextAtEnd
  repeat' split
  all_goals simp

@[simp] theorem contextAtEnd_port (p : PortId) (a : Action) (o : TxOutcome) (q : PortId) : (s.contextAtEnd p a o).port q = s.port q := by simp [State.port]

/-- All that it can change: ports, contexts. -/
@[simp] theorem sendRequest_frame (p : PortId) (r : Request) (m : MatchRecord) :
    (s.sendRequest p r m).phase = s.phase ∧ (s.sendRequest p r m).pins = s.pins ∧
    (s.sendRequest p r m).link = s.link ∧ (s.sendRequest p r m).control = s.control ∧
    (s.sendRequest p r m).siteMap = s.siteMap ∧ (s.sendRequest p r m).groups = s.groups ∧
    (s.sendRequest p r m).merge = s.merge ∧ (s.sendRequest p r m).rules = s.rules ∧
    (s.sendRequest p r m).waitList = s.waitList ∧ (s.sendRequest p r m).batch = s.batch ∧
    (s.sendRequest p r m).pool = s.pool ∧ (s.sendRequest p r m).counters = s.counters ∧
    (s.sendRequest p r m).supplies = s.supplies ∧ (s.sendRequest p r m).td = s.td ∧
    (s.sendRequest p r m).dieMap = s.dieMap ∧ (s.sendRequest p r m).log = s.log ∧
    (s.sendRequest p r m).events = s.events ∧ (s.sendRequest p r m).params = s.params ∧
    (s.sendRequest p r m).transportKeyId = s.transportKeyId ∧ (s.sendRequest p r m).strapSamples = s.strapSamples ∧
    (s.sendRequest p r m).pending = s.pending := by
  unfold State.sendRequest
  repeat' split
  all_goals simp

@[simp] theorem sendRequest_supply (p : PortId) (r : Request) (m : MatchRecord) (q : PortId) : (s.sendRequest p r m).supply q = s.supply q := by simp [State.supply]

/-- All that it can change: ports, contexts, link, events, merge. -/
@[simp] theorem startRequest_frame (p : PortId) (r : Request) (m : MatchRecord) :
    (s.startRequest p r m).phase = s.phase ∧ (s.startRequest p r m).pins = s.pins ∧
    (s.startRequest p r m).control = s.control ∧ (s.startRequest p r m).siteMap = s.siteMap ∧
    (s.startRequest p r m).groups = s.groups ∧ (s.startRequest p r m).rules = s.rules ∧
    (s.startRequest p r m).waitList = s.waitList ∧ (s.startRequest p r m).batch = s.batch ∧
    (s.startRequest p r m).pool = s.pool ∧ (s.startRequest p r m).counters = s.counters ∧
    (s.startRequest p r m).supplies = s.supplies ∧ (s.startRequest p r m).td = s.td ∧
    (s.startRequest p r m).dieMap = s.dieMap ∧ (s.startRequest p r m).log = s.log ∧
    (s.startRequest p r m).params = s.params ∧ (s.startRequest p r m).transportKeyId = s.transportKeyId ∧
    (s.startRequest p r m).strapSamples = s.strapSamples ∧ (s.startRequest p r m).pending = s.pending := by
  unfold State.startRequest
  dsimp only
  repeat' split
  all_goals simp

@[simp] theorem startRequest_supply (p : PortId) (r : Request) (m : MatchRecord) (q : PortId) : (s.startRequest p r m).supply q = s.supply q := by simp [State.supply]

/-- All that it can change: ports, contexts, link, events, merge. -/
@[simp] theorem startHead_frame (p : PortId) :
    (s.startHead p).phase = s.phase ∧ (s.startHead p).pins = s.pins ∧
    (s.startHead p).control = s.control ∧ (s.startHead p).siteMap = s.siteMap ∧
    (s.startHead p).groups = s.groups ∧ (s.startHead p).rules = s.rules ∧
    (s.startHead p).waitList = s.waitList ∧ (s.startHead p).batch = s.batch ∧
    (s.startHead p).pool = s.pool ∧ (s.startHead p).counters = s.counters ∧
    (s.startHead p).supplies = s.supplies ∧ (s.startHead p).td = s.td ∧
    (s.startHead p).dieMap = s.dieMap ∧ (s.startHead p).log = s.log ∧
    (s.startHead p).params = s.params ∧ (s.startHead p).transportKeyId = s.transportKeyId ∧
    (s.startHead p).strapSamples = s.strapSamples ∧ (s.startHead p).pending = s.pending := by
  unfold State.startHead
  repeat' split
  all_goals simp

@[simp] theorem startHead_supply (p : PortId) (q : PortId) : (s.startHead p).supply q = s.supply q := by simp [State.supply]

/-- All that it can change: ports, contexts, link, events, merge. -/
@[simp] theorem startUpTo_frame (n : Nat) (p : PortId) :
    (State.startUpTo n s p).phase = s.phase ∧ (State.startUpTo n s p).pins = s.pins ∧
    (State.startUpTo n s p).control = s.control ∧ (State.startUpTo n s p).siteMap = s.siteMap ∧
    (State.startUpTo n s p).groups = s.groups ∧ (State.startUpTo n s p).rules = s.rules ∧
    (State.startUpTo n s p).waitList = s.waitList ∧ (State.startUpTo n s p).batch = s.batch ∧
    (State.startUpTo n s p).pool = s.pool ∧ (State.startUpTo n s p).counters = s.counters ∧
    (State.startUpTo n s p).supplies = s.supplies ∧ (State.startUpTo n s p).td = s.td ∧
    (State.startUpTo n s p).dieMap = s.dieMap ∧ (State.startUpTo n s p).log = s.log ∧
    (State.startUpTo n s p).params = s.params ∧ (State.startUpTo n s p).transportKeyId = s.transportKeyId ∧
    (State.startUpTo n s p).strapSamples = s.strapSamples ∧ (State.startUpTo n s p).pending = s.pending := by
  induction n generalizing s with
  | zero => simp [State.startUpTo]
  | succ n ih =>
    simp only [State.startUpTo]
    split
    · simp [ih]
    · simp

@[simp] theorem startUpTo_supply (n : Nat) (p : PortId) (q : PortId) : (State.startUpTo n s p).supply q = s.supply q := by simp [State.supply]

/-- All that it can change: ports, contexts, link, events, merge. -/
@[simp] theorem startPort_frame (p : PortId) :
    (s.startPort p).phase = s.phase ∧ (s.startPort p).pins = s.pins ∧
    (s.startPort p).control = s.control ∧ (s.startPort p).siteMap = s.siteMap ∧
    (s.startPort p).groups = s.groups ∧ (s.startPort p).rules = s.rules ∧
    (s.startPort p).waitList = s.waitList ∧ (s.startPort p).batch = s.batch ∧
    (s.startPort p).pool = s.pool ∧ (s.startPort p).counters = s.counters ∧
    (s.startPort p).supplies = s.supplies ∧ (s.startPort p).td = s.td ∧
    (s.startPort p).dieMap = s.dieMap ∧ (s.startPort p).log = s.log ∧
    (s.startPort p).params = s.params ∧ (s.startPort p).transportKeyId = s.transportKeyId ∧
    (s.startPort p).strapSamples = s.strapSamples ∧ (s.startPort p).pending = s.pending := by
  unfold State.startPort
  repeat' split
  all_goals simp

@[simp] theorem startPort_supply (p : PortId) (q : PortId) : (s.startPort p).supply q = s.supply q := by simp [State.supply]

/-- All that it can change: ports, contexts, link, events, merge. -/
@[simp] theorem startPorts_frame (l : List PortId) :
    (s.startPorts l).phase = s.phase ∧ (s.startPorts l).pins = s.pins ∧
    (s.startPorts l).control = s.control ∧ (s.startPorts l).siteMap = s.siteMap ∧
    (s.startPorts l).groups = s.groups ∧ (s.startPorts l).rules = s.rules ∧
    (s.startPorts l).waitList = s.waitList ∧ (s.startPorts l).batch = s.batch ∧
    (s.startPorts l).pool = s.pool ∧ (s.startPorts l).counters = s.counters ∧
    (s.startPorts l).supplies = s.supplies ∧ (s.startPorts l).td = s.td ∧
    (s.startPorts l).dieMap = s.dieMap ∧ (s.startPorts l).log = s.log ∧
    (s.startPorts l).params = s.params ∧ (s.startPorts l).transportKeyId = s.transportKeyId ∧
    (s.startPorts l).strapSamples = s.strapSamples ∧ (s.startPorts l).pending = s.pending := by
  unfold State.startPorts
  refine ⟨?_, ?_, ?_, ?_, ?_, ?_, ?_, ?_, ?_, ?_, ?_, ?_, ?_, ?_, ?_, ?_, ?_, ?_⟩
  all_goals exact foldl_field _ _ _ (by intros; simp) _

@[simp] theorem startPorts_supply (l : List PortId) (q : PortId) : (s.startPorts l).supply q = s.supply q := by simp [State.supply]

/-- All that it can change: contexts, supplies, events, log, dieMap, counters, waitList, pool, ports, link, merge. -/
@[simp] theorem endTransaction_frame (p : PortId) (tx : Transaction) (o : TxOutcome) (st : PortState) :
    (s.endTransaction p tx o st).phase = s.phase ∧ (s.endTransaction p tx o st).pins = s.pins ∧
    (s.endTransaction p tx o st).control = s.control ∧ (s.endTransaction p tx o st).siteMap = s.siteMap ∧
    (s.endTransaction p tx o st).groups = s.groups ∧ (s.endTransaction p tx o st).rules = s.rules ∧
    (s.endTransaction p tx o st).batch = s.batch ∧ (s.endTransaction p tx o st).td = s.td ∧
    (s.endTransaction p tx o st).params = s.params ∧ (s.endTransaction p tx o st).transportKeyId = s.transportKeyId ∧
    (s.endTransaction p tx o st).strapSamples = s.strapSamples ∧ (s.endTransaction p tx o st).pending = s.pending := by
  unfold State.endTransaction
  repeat' split
  all_goals simp


/-- All that it can change: contexts, supplies, events, log, dieMap, counters, waitList, pool, ports, link, merge. -/
@[simp] theorem dieResponds_frame (p : PortId) (a : DieAnswer) :
    (s.dieResponds p a).phase = s.phase ∧ (s.dieResponds p a).pins = s.pins ∧
    (s.dieResponds p a).control = s.control ∧ (s.dieResponds p a).siteMap = s.siteMap ∧
    (s.dieResponds p a).groups = s.groups ∧ (s.dieResponds p a).rules = s.rules ∧
    (s.dieResponds p a).batch = s.batch ∧ (s.dieResponds p a).td = s.td ∧
    (s.dieResponds p a).params = s.params ∧ (s.dieResponds p a).transportKeyId = s.transportKeyId ∧
    (s.dieResponds p a).strapSamples = s.strapSamples ∧ (s.dieResponds p a).pending = s.pending := by
  unfold State.dieResponds
  repeat' split
  all_goals simp


/-- All that it can change: contexts, supplies, events, log, dieMap, counters, waitList, pool, ports, link, merge. -/
@[simp] theorem responseTimesOut_frame (p : PortId) :
    (s.responseTimesOut p).phase = s.phase ∧ (s.responseTimesOut p).pins = s.pins ∧
    (s.responseTimesOut p).control = s.control ∧ (s.responseTimesOut p).siteMap = s.siteMap ∧
    (s.responseTimesOut p).groups = s.groups ∧ (s.responseTimesOut p).rules = s.rules ∧
    (s.responseTimesOut p).batch = s.batch ∧ (s.responseTimesOut p).td = s.td ∧
    (s.responseTimesOut p).params = s.params ∧ (s.responseTimesOut p).transportKeyId = s.transportKeyId ∧
    (s.responseTimesOut p).strapSamples = s.strapSamples ∧ (s.responseTimesOut p).pending = s.pending := by
  unfold State.responseTimesOut
  repeat' split
  all_goals simp


/-- All that it can change: ports, contexts, link, events, merge. -/
@[simp] theorem breakEnds_frame (p : PortId) :
    (s.breakEnds p).phase = s.phase ∧ (s.breakEnds p).pins = s.pins ∧
    (s.breakEnds p).control = s.control ∧ (s.breakEnds p).siteMap = s.siteMap ∧
    (s.breakEnds p).groups = s.groups ∧ (s.breakEnds p).rules = s.rules ∧
    (s.breakEnds p).waitList = s.waitList ∧ (s.breakEnds p).batch = s.batch ∧
    (s.breakEnds p).pool = s.pool ∧ (s.breakEnds p).counters = s.counters ∧
    (s.breakEnds p).supplies = s.supplies ∧ (s.breakEnds p).td = s.td ∧
    (s.breakEnds p).dieMap = s.dieMap ∧ (s.breakEnds p).log = s.log ∧
    (s.breakEnds p).params = s.params ∧ (s.breakEnds p).transportKeyId = s.transportKeyId ∧
    (s.breakEnds p).strapSamples = s.strapSamples ∧ (s.breakEnds p).pending = s.pending := by
  unfold State.breakEnds
  repeat' split
  all_goals simp

@[simp] theorem breakEnds_supply (p : PortId) (q : PortId) : (s.breakEnds p).supply q = s.supply q := by simp [State.supply]

/-- All that it can change: ports, link, events, merge. -/
@[simp] theorem parkOnContactLoss_frame (p : PortId) :
    (s.parkOnContactLoss p).phase = s.phase ∧ (s.parkOnContactLoss p).pins = s.pins ∧
    (s.parkOnContactLoss p).control = s.control ∧ (s.parkOnContactLoss p).siteMap = s.siteMap ∧
    (s.parkOnContactLoss p).groups = s.groups ∧ (s.parkOnContactLoss p).rules = s.rules ∧
    (s.parkOnContactLoss p).contexts = s.contexts ∧ (s.parkOnContactLoss p).waitList = s.waitList ∧
    (s.parkOnContactLoss p).batch = s.batch ∧ (s.parkOnContactLoss p).pool = s.pool ∧
    (s.parkOnContactLoss p).counters = s.counters ∧ (s.parkOnContactLoss p).supplies = s.supplies ∧
    (s.parkOnContactLoss p).td = s.td ∧ (s.parkOnContactLoss p).dieMap = s.dieMap ∧
    (s.parkOnContactLoss p).log = s.log ∧ (s.parkOnContactLoss p).params = s.params ∧
    (s.parkOnContactLoss p).transportKeyId = s.transportKeyId ∧ (s.parkOnContactLoss p).strapSamples = s.strapSamples ∧
    (s.parkOnContactLoss p).pending = s.pending := by
  unfold State.parkOnContactLoss
  repeat' split
  all_goals simp

@[simp] theorem parkOnContactLoss_ctx (p : PortId) (q : PortId) : (s.parkOnContactLoss p).ctx q = s.ctx q := by simp [State.ctx]
@[simp] theorem parkOnContactLoss_supply (p : PortId) (q : PortId) : (s.parkOnContactLoss p).supply q = s.supply q := by simp [State.supply]

/-- All that it can change: ports, link, events, merge. -/
@[simp] theorem closePort_frame (p : PortId) :
    (s.closePort p).phase = s.phase ∧ (s.closePort p).pins = s.pins ∧
    (s.closePort p).control = s.control ∧ (s.closePort p).siteMap = s.siteMap ∧
    (s.closePort p).groups = s.groups ∧ (s.closePort p).rules = s.rules ∧
    (s.closePort p).contexts = s.contexts ∧ (s.closePort p).waitList = s.waitList ∧
    (s.closePort p).batch = s.batch ∧ (s.closePort p).pool = s.pool ∧
    (s.closePort p).counters = s.counters ∧ (s.closePort p).supplies = s.supplies ∧
    (s.closePort p).td = s.td ∧ (s.closePort p).dieMap = s.dieMap ∧
    (s.closePort p).log = s.log ∧ (s.closePort p).params = s.params ∧
    (s.closePort p).transportKeyId = s.transportKeyId ∧ (s.closePort p).strapSamples = s.strapSamples ∧
    (s.closePort p).pending = s.pending := by
  unfold State.closePort
  repeat' split
  all_goals simp

@[simp] theorem closePort_ctx (p : PortId) (q : PortId) : (s.closePort p).ctx q = s.ctx q := by simp [State.ctx]
@[simp] theorem closePort_supply (p : PortId) (q : PortId) : (s.closePort p).supply q = s.supply q := by simp [State.supply]

/-- All that it can change: td, contexts, ports, events. -/
@[simp] theorem beginTouchdown_frame (m : BitVec 16) :
    (s.beginTouchdown m).phase = s.phase ∧ (s.beginTouchdown m).pins = s.pins ∧
    (s.beginTouchdown m).link = s.link ∧ (s.beginTouchdown m).control = s.control ∧
    (s.beginTouchdown m).siteMap = s.siteMap ∧ (s.beginTouchdown m).groups = s.groups ∧
    (s.beginTouchdown m).merge = s.merge ∧ (s.beginTouchdown m).rules = s.rules ∧
    (s.beginTouchdown m).waitList = s.waitList ∧ (s.beginTouchdown m).batch = s.batch ∧
    (s.beginTouchdown m).pool = s.pool ∧ (s.beginTouchdown m).counters = s.counters ∧
    (s.beginTouchdown m).supplies = s.supplies ∧ (s.beginTouchdown m).dieMap = s.dieMap ∧
    (s.beginTouchdown m).log = s.log ∧ (s.beginTouchdown m).params = s.params ∧
    (s.beginTouchdown m).transportKeyId = s.transportKeyId ∧ (s.beginTouchdown m).strapSamples = s.strapSamples ∧
    (s.beginTouchdown m).pending = s.pending := by
  unfold State.beginTouchdown
  dsimp only
  split
  all_goals simp

@[simp] theorem beginTouchdown_supply (m : BitVec 16) (q : PortId) : (s.beginTouchdown m).supply q = s.supply q := by simp [State.supply]

/-- All that it can change: contexts, supplies, events, log, dieMap, counters, waitList, pool, ports, link, merge, td, control. -/
@[simp] theorem endTouchdown_frame (tag : Byte) :
    (s.endTouchdown tag).phase = s.phase ∧ (s.endTouchdown tag).pins = s.pins ∧
    (s.endTouchdown tag).siteMap = s.siteMap ∧ (s.endTouchdown tag).groups = s.groups ∧
    (s.endTouchdown tag).rules = s.rules ∧ (s.endTouchdown tag).batch = s.batch ∧
    (s.endTouchdown tag).params = s.params ∧ (s.endTouchdown tag).transportKeyId = s.transportKeyId ∧
    (s.endTouchdown tag).strapSamples = s.strapSamples ∧ (s.endTouchdown tag).pending = s.pending := by
  unfold State.endTouchdown
  refine ⟨?_, ?_, ?_, ?_, ?_, ?_, ?_, ?_, ?_, ?_⟩
  all_goals
    simp
    exact (foldl_field _ _ _ (by intros; simp) _).trans (foldl_field _ _ _ (by intros; simp) _)


/-- All that it can change: contexts, supplies, events, log, dieMap, counters, waitList, pool, ports, link, merge, td. -/
@[simp] theorem loseContact_frame :
    (s.loseContact).phase = s.phase ∧ (s.loseContact).pins = s.pins ∧
    (s.loseContact).control = s.control ∧ (s.loseContact).siteMap = s.siteMap ∧
    (s.loseContact).groups = s.groups ∧ (s.loseContact).rules = s.rules ∧
    (s.loseContact).batch = s.batch ∧ (s.loseContact).params = s.params ∧
    (s.loseContact).transportKeyId = s.transportKeyId ∧ (s.loseContact).strapSamples = s.strapSamples ∧
    (s.loseContact).pending = s.pending := by
  unfold State.loseContact
  refine ⟨?_, ?_, ?_, ?_, ?_, ?_, ?_, ?_, ?_, ?_, ?_⟩
  all_goals
    simp
    exact (foldl_field _ _ _ (by intros; simp) _).trans ((foldl_field _ _ _ (by intros; simp) _).trans (foldl_field _ _ _ (by intros; simp) _))


/-- All that it can change: link, events. -/
@[simp] theorem answerFrame_frame (f : SiteFrame) (st : Status) :
    (s.answerFrame f st).phase = s.phase ∧ (s.answerFrame f st).pins = s.pins ∧
    (s.answerFrame f st).control = s.control ∧ (s.answerFrame f st).siteMap = s.siteMap ∧
    (s.answerFrame f st).groups = s.groups ∧ (s.answerFrame f st).merge = s.merge ∧
    (s.answerFrame f st).ports = s.ports ∧ (s.answerFrame f st).rules = s.rules ∧
    (s.answerFrame f st).contexts = s.contexts ∧ (s.answerFrame f st).waitList = s.waitList ∧
    (s.answerFrame f st).batch = s.batch ∧ (s.answerFrame f st).pool = s.pool ∧
    (s.answerFrame f st).counters = s.counters ∧ (s.answerFrame f st).supplies = s.supplies ∧
    (s.answerFrame f st).td = s.td ∧ (s.answerFrame f st).dieMap = s.dieMap ∧
    (s.answerFrame f st).log = s.log ∧ (s.answerFrame f st).params = s.params ∧
    (s.answerFrame f st).transportKeyId = s.transportKeyId ∧ (s.answerFrame f st).strapSamples = s.strapSamples ∧
    (s.answerFrame f st).pending = s.pending := by
  unfold State.answerFrame
  repeat' split
  all_goals simp

@[simp] theorem answerFrame_ctx (f : SiteFrame) (st : Status) (q : PortId) : (s.answerFrame f st).ctx q = s.ctx q := by simp [State.ctx]
@[simp] theorem answerFrame_port (f : SiteFrame) (st : Status) (q : PortId) : (s.answerFrame f st).port q = s.port q := by simp [State.port]
@[simp] theorem answerFrame_supply (f : SiteFrame) (st : Status) (q : PortId) : (s.answerFrame f st).supply q = s.supply q := by simp [State.supply]

/-- All that it can change: ports, contexts, link, events, merge. -/
@[simp] theorem offer_frame (f : SiteFrame) (p : PortId) :
    (s.offer f p).phase = s.phase ∧ (s.offer f p).pins = s.pins ∧
    (s.offer f p).control = s.control ∧ (s.offer f p).siteMap = s.siteMap ∧
    (s.offer f p).groups = s.groups ∧ (s.offer f p).rules = s.rules ∧
    (s.offer f p).waitList = s.waitList ∧ (s.offer f p).batch = s.batch ∧
    (s.offer f p).pool = s.pool ∧ (s.offer f p).counters = s.counters ∧
    (s.offer f p).supplies = s.supplies ∧ (s.offer f p).td = s.td ∧
    (s.offer f p).dieMap = s.dieMap ∧ (s.offer f p).log = s.log ∧
    (s.offer f p).params = s.params ∧ (s.offer f p).transportKeyId = s.transportKeyId ∧
    (s.offer f p).strapSamples = s.strapSamples ∧ (s.offer f p).pending = s.pending := by
  unfold State.offer
  repeat' split
  all_goals simp

@[simp] theorem offer_supply (f : SiteFrame) (p : PortId) (q : PortId) : (s.offer f p).supply q = s.supply q := by simp [State.supply]

/-- All that it can change: ports, contexts, link, events, merge. -/
@[simp] theorem singleFrame_frame (f : SiteFrame) (i : SiteId) :
    (s.singleFrame f i).phase = s.phase ∧ (s.singleFrame f i).pins = s.pins ∧
    (s.singleFrame f i).control = s.control ∧ (s.singleFrame f i).siteMap = s.siteMap ∧
    (s.singleFrame f i).groups = s.groups ∧ (s.singleFrame f i).rules = s.rules ∧
    (s.singleFrame f i).waitList = s.waitList ∧ (s.singleFrame f i).batch = s.batch ∧
    (s.singleFrame f i).pool = s.pool ∧ (s.singleFrame f i).counters = s.counters ∧
    (s.singleFrame f i).supplies = s.supplies ∧ (s.singleFrame f i).td = s.td ∧
    (s.singleFrame f i).dieMap = s.dieMap ∧ (s.singleFrame f i).log = s.log ∧
    (s.singleFrame f i).params = s.params ∧ (s.singleFrame f i).transportKeyId = s.transportKeyId ∧
    (s.singleFrame f i).strapSamples = s.strapSamples ∧ (s.singleFrame f i).pending = s.pending := by
  unfold State.singleFrame
  repeat' split
  all_goals simp

@[simp] theorem singleFrame_supply (f : SiteFrame) (i : SiteId) (q : PortId) : (s.singleFrame f i).supply q = s.supply q := by simp [State.supply]

/-- All that it can change: ports. -/
@[simp] theorem replicate_frame (f : SiteFrame) (k : Fin 8) (l : List SiteId) :
    (s.replicate f k l).phase = s.phase ∧ (s.replicate f k l).pins = s.pins ∧
    (s.replicate f k l).link = s.link ∧ (s.replicate f k l).control = s.control ∧
    (s.replicate f k l).siteMap = s.siteMap ∧ (s.replicate f k l).groups = s.groups ∧
    (s.replicate f k l).merge = s.merge ∧ (s.replicate f k l).rules = s.rules ∧
    (s.replicate f k l).contexts = s.contexts ∧ (s.replicate f k l).waitList = s.waitList ∧
    (s.replicate f k l).batch = s.batch ∧ (s.replicate f k l).pool = s.pool ∧
    (s.replicate f k l).counters = s.counters ∧ (s.replicate f k l).supplies = s.supplies ∧
    (s.replicate f k l).td = s.td ∧ (s.replicate f k l).dieMap = s.dieMap ∧
    (s.replicate f k l).log = s.log ∧ (s.replicate f k l).events = s.events ∧
    (s.replicate f k l).params = s.params ∧ (s.replicate f k l).transportKeyId = s.transportKeyId ∧
    (s.replicate f k l).strapSamples = s.strapSamples ∧ (s.replicate f k l).pending = s.pending := by
  unfold State.replicate
  refine ⟨?_, ?_, ?_, ?_, ?_, ?_, ?_, ?_, ?_, ?_, ?_, ?_, ?_, ?_, ?_, ?_, ?_, ?_, ?_, ?_, ?_, ?_⟩
  all_goals exact foldl_field _ _ _ (by intros; simp) _

@[simp] theorem replicate_ctx (f : SiteFrame) (k : Fin 8) (l : List SiteId) (q : PortId) : (s.replicate f k l).ctx q = s.ctx q := by simp [State.ctx]
@[simp] theorem replicate_supply (f : SiteFrame) (k : Fin 8) (l : List SiteId) (q : PortId) : (s.replicate f k l).supply q = s.supply q := by simp [State.supply]

/-- All that it can change: ports, contexts, link, events, merge. -/
@[simp] theorem groupFrame_frame (f : SiteFrame) (m : BitVec 16) :
    (s.groupFrame f m).phase = s.phase ∧ (s.groupFrame f m).pins = s.pins ∧
    (s.groupFrame f m).control = s.control ∧ (s.groupFrame f m).siteMap = s.siteMap ∧
    (s.groupFrame f m).groups = s.groups ∧ (s.groupFrame f m).rules = s.rules ∧
    (s.groupFrame f m).waitList = s.waitList ∧ (s.groupFrame f m).batch = s.batch ∧
    (s.groupFrame f m).pool = s.pool ∧ (s.groupFrame f m).counters = s.counters ∧
    (s.groupFrame f m).supplies = s.supplies ∧ (s.groupFrame f m).td = s.td ∧
    (s.groupFrame f m).dieMap = s.dieMap ∧ (s.groupFrame f m).log = s.log ∧
    (s.groupFrame f m).params = s.params ∧ (s.groupFrame f m).transportKeyId = s.transportKeyId ∧
    (s.groupFrame f m).strapSamples = s.strapSamples ∧ (s.groupFrame f m).pending = s.pending := by
  unfold State.groupFrame
  dsimp only
  repeat' split
  all_goals simp

@[simp] theorem groupFrame_supply (f : SiteFrame) (m : BitVec 16) (q : PortId) : (s.groupFrame f m).supply q = s.supply q := by simp [State.supply]

/-- All that it can change: ports, contexts, link, events, merge. -/
@[simp] theorem siteFrame_frame (f : SiteFrame) :
    (s.siteFrame f).phase = s.phase ∧ (s.siteFrame f).pins = s.pins ∧
    (s.siteFrame f).control = s.control ∧ (s.siteFrame f).siteMap = s.siteMap ∧
    (s.siteFrame f).groups = s.groups ∧ (s.siteFrame f).rules = s.rules ∧
    (s.siteFrame f).waitList = s.waitList ∧ (s.siteFrame f).batch = s.batch ∧
    (s.siteFrame f).pool = s.pool ∧ (s.siteFrame f).counters = s.counters ∧
    (s.siteFrame f).supplies = s.supplies ∧ (s.siteFrame f).td = s.td ∧
    (s.siteFrame f).dieMap = s.dieMap ∧ (s.siteFrame f).log = s.log ∧
    (s.siteFrame f).params = s.params ∧ (s.siteFrame f).transportKeyId = s.transportKeyId ∧
    (s.siteFrame f).strapSamples = s.strapSamples ∧ (s.siteFrame f).pending = s.pending := by
  unfold State.siteFrame
  repeat' split
  all_goals simp

@[simp] theorem siteFrame_supply (f : SiteFrame) (q : PortId) : (s.siteFrame f).supply q = s.supply q := by simp [State.supply]

/-- All that it can change: contexts, supplies, events, log, dieMap, counters. -/
@[simp] theorem settleFaultContext_frame (p : PortId) :
    (s.settleFaultContext p).phase = s.phase ∧ (s.settleFaultContext p).pins = s.pins ∧
    (s.settleFaultContext p).link = s.link ∧ (s.settleFaultContext p).control = s.control ∧
    (s.settleFaultContext p).siteMap = s.siteMap ∧ (s.settleFaultContext p).groups = s.groups ∧
    (s.settleFaultContext p).merge = s.merge ∧ (s.settleFaultContext p).ports = s.ports ∧
    (s.settleFaultContext p).rules = s.rules ∧ (s.settleFaultContext p).waitList = s.waitList ∧
    (s.settleFaultContext p).batch = s.batch ∧ (s.settleFaultContext p).pool = s.pool ∧
    (s.settleFaultContext p).td = s.td ∧ (s.settleFaultContext p).params = s.params ∧
    (s.settleFaultContext p).transportKeyId = s.transportKeyId ∧ (s.settleFaultContext p).strapSamples = s.strapSamples ∧
    (s.settleFaultContext p).pending = s.pending := by
  unfold State.settleFaultContext
  repeat' split
  all_goals simp

@[simp] theorem settleFaultContext_port (p : PortId) (q : PortId) : (s.settleFaultContext p).port q = s.port q := by simp [State.port]

/-- All that it can change: contexts, supplies, events, log, dieMap, counters. -/
@[simp] theorem settleExpires_frame (p : PortId) :
    (s.settleExpires p).phase = s.phase ∧ (s.settleExpires p).pins = s.pins ∧
    (s.settleExpires p).link = s.link ∧ (s.settleExpires p).control = s.control ∧
    (s.settleExpires p).siteMap = s.siteMap ∧ (s.settleExpires p).groups = s.groups ∧
    (s.settleExpires p).merge = s.merge ∧ (s.settleExpires p).ports = s.ports ∧
    (s.settleExpires p).rules = s.rules ∧ (s.settleExpires p).waitList = s.waitList ∧
    (s.settleExpires p).batch = s.batch ∧ (s.settleExpires p).pool = s.pool ∧
    (s.settleExpires p).td = s.td ∧ (s.settleExpires p).params = s.params ∧
    (s.settleExpires p).transportKeyId = s.transportKeyId ∧ (s.settleExpires p).strapSamples = s.strapSamples ∧
    (s.settleExpires p).pending = s.pending := by
  unfold State.settleExpires
  dsimp only
  repeat' split
  all_goals simp

@[simp] theorem settleExpires_port (p : PortId) (q : PortId) : (s.settleExpires p).port q = s.port q := by simp [State.port]

/-- All that it can change: contexts, supplies, events, log, dieMap, counters. -/
@[simp] theorem supplyFaults_frame (p : PortId) :
    (s.supplyFaults p).phase = s.phase ∧ (s.supplyFaults p).pins = s.pins ∧
    (s.supplyFaults p).link = s.link ∧ (s.supplyFaults p).control = s.control ∧
    (s.supplyFaults p).siteMap = s.siteMap ∧ (s.supplyFaults p).groups = s.groups ∧
    (s.supplyFaults p).merge = s.merge ∧ (s.supplyFaults p).ports = s.ports ∧
    (s.supplyFaults p).rules = s.rules ∧ (s.supplyFaults p).waitList = s.waitList ∧
    (s.supplyFaults p).batch = s.batch ∧ (s.supplyFaults p).pool = s.pool ∧
    (s.supplyFaults p).td = s.td ∧ (s.supplyFaults p).params = s.params ∧
    (s.supplyFaults p).transportKeyId = s.transportKeyId ∧ (s.supplyFaults p).strapSamples = s.strapSamples ∧
    (s.supplyFaults p).pending = s.pending := by
  unfold State.supplyFaults
  repeat' split
  all_goals simp

@[simp] theorem supplyFaults_port (p : PortId) (q : PortId) : (s.supplyFaults p).port q = s.port q := by simp [State.port]

/-- All that it can change: contexts, waitList, pool, events, batch, counters. -/
@[simp] theorem acceptKey_frame (j : UnwrapJob) (k : KeyBits) :
    (s.acceptKey j k).phase = s.phase ∧ (s.acceptKey j k).pins = s.pins ∧
    (s.acceptKey j k).link = s.link ∧ (s.acceptKey j k).control = s.control ∧
    (s.acceptKey j k).siteMap = s.siteMap ∧ (s.acceptKey j k).groups = s.groups ∧
    (s.acceptKey j k).merge = s.merge ∧ (s.acceptKey j k).ports = s.ports ∧
    (s.acceptKey j k).rules = s.rules ∧ (s.acceptKey j k).supplies = s.supplies ∧
    (s.acceptKey j k).td = s.td ∧ (s.acceptKey j k).dieMap = s.dieMap ∧
    (s.acceptKey j k).log = s.log ∧ (s.acceptKey j k).params = s.params ∧
    (s.acceptKey j k).transportKeyId = s.transportKeyId ∧ (s.acceptKey j k).strapSamples = s.strapSamples ∧
    (s.acceptKey j k).pending = s.pending := by
  unfold State.acceptKey
  repeat' split
  all_goals simp

@[simp] theorem acceptKey_port (j : UnwrapJob) (k : KeyBits) (q : PortId) : (s.acceptKey j k).port q = s.port q := by simp [State.port]
@[simp] theorem acceptKey_supply (j : UnwrapJob) (k : KeyBits) (q : PortId) : (s.acceptKey j k).supply q = s.supply q := by simp [State.supply]

/-- All that it can change: contexts, waitList, pool, events, batch, counters, control, link. -/
@[simp] theorem unwrapEnds_frame (j : UnwrapJob) (r : Option KeyBits) :
    (s.unwrapEnds j r).phase = s.phase ∧ (s.unwrapEnds j r).pins = s.pins ∧
    (s.unwrapEnds j r).siteMap = s.siteMap ∧ (s.unwrapEnds j r).groups = s.groups ∧
    (s.unwrapEnds j r).merge = s.merge ∧ (s.unwrapEnds j r).ports = s.ports ∧
    (s.unwrapEnds j r).rules = s.rules ∧ (s.unwrapEnds j r).supplies = s.supplies ∧
    (s.unwrapEnds j r).td = s.td ∧ (s.unwrapEnds j r).dieMap = s.dieMap ∧
    (s.unwrapEnds j r).log = s.log ∧ (s.unwrapEnds j r).params = s.params ∧
    (s.unwrapEnds j r).transportKeyId = s.transportKeyId ∧ (s.unwrapEnds j r).strapSamples = s.strapSamples ∧
    (s.unwrapEnds j r).pending = s.pending := by
  unfold State.unwrapEnds
  dsimp only
  split
  all_goals simp

@[simp] theorem unwrapEnds_port (j : UnwrapJob) (r : Option KeyBits) (q : PortId) : (s.unwrapEnds j r).port q = s.port q := by simp [State.port]
@[simp] theorem unwrapEnds_supply (j : UnwrapJob) (r : Option KeyBits) (q : PortId) : (s.unwrapEnds j r).supply q = s.supply q := by simp [State.supply]

end Sys2Proof.Machine
end

