-- ==== Sys2Proof/Laws/Counts.lean ====
section
/-! SUPPORT. Laws/Counts.lean: the counts over the sixteen contexts, and how the update of one context moves them. -/

namespace Sys2Proof.Machine

/-- The number of contexts that meet a condition. -/
def State.count (s : State) (f : Context → Bool) : Nat := s.contexts.toList.countP f

theorem logReservations_eq_count (s : State) : s.logReservations = s.count (·.logReserved) := rfl
theorem mapReservations_eq_count (s : State) : s.mapReservations = s.count (·.mapReserved) := rfl
theorem heldKeys_eq_count (s : State) : s.heldKeys = s.count (·.state.holdsKey) := rfl
theorem poolCustody_eq_count (s : State) : s.poolCustody = s.pool.length + s.count (·.state == .held) := rfl

/-- The counts are read from the field `contexts` alone. -/
theorem count_congr {s t : State} (h : t.contexts = s.contexts) (f : Context → Bool) : t.count f = s.count f := by
  simp [State.count, h]

/-- Replacing one context moves a count by what that context contributes. -/
theorem count_setCtx (s : State) (p : PortId) (c : Context) (f : Context → Bool) :
    (s.setCtx p c).count f + (if f (s.ctx p) then 1 else 0) = s.count f + (if f c then 1 else 0) := by
  have hlt : p.val < s.contexts.toList.length := by simp
  have hget : s.contexts.toList[p.val] = s.ctx p := by simp [State.ctx]
  have hle : (if f s.contexts.toList[p.val] then 1 else 0) ≤ s.contexts.toList.countP f := by
    split
    · exact List.countP_pos_iff.2 ⟨_, List.getElem_mem hlt, by assumption⟩
    · omega
  have := List.countP_set (p := f) (l := s.contexts.toList) (i := p.val) (a := c) hlt
  simp only [State.count, State.setCtx, Vector.toList_set, this, hget] at *
  omega

/-- Replacing one context by one that contributes as much leaves a count as it is. -/
theorem count_setCtx_same (s : State) (p : PortId) {c : Context} {f : Context → Bool} (h : f c = f (s.ctx p)) :
    (s.setCtx p c).count f = s.count f := by
  have := count_setCtx s p c f
  rw [h] at this
  omega

/-- Replacing one context by one that no longer contributes lowers a count by one. -/
theorem count_setCtx_leave (s : State) (p : PortId) {c : Context} {f : Context → Bool} (ho : f (s.ctx p) = true)
    (hn : f c = false) : (s.setCtx p c).count f + 1 = s.count f := by
  have := count_setCtx s p c f
  simpa [ho, hn] using this

/-- Replacing one context by one that contributes anew raises a count by one. -/
theorem count_setCtx_join (s : State) (p : PortId) {c : Context} {f : Context → Bool} (ho : f (s.ctx p) = false)
    (hn : f c = true) : (s.setCtx p c).count f = s.count f + 1 := by
  have := count_setCtx s p c f
  simpa [ho, hn] using this

/-- A count is zero exactly where no context meets the condition. -/
theorem count_eq_zero (s : State) (f : Context → Bool) : s.count f = 0 ↔ ∀ p, f (s.ctx p) = false := by
  simp only [State.count, List.countP_eq_zero]
  constructor
  · intro h p
    have := h (s.ctx p) (by simp [State.ctx])
    simpa using this
  · intro h c hc
    obtain ⟨i, hi, rfl⟩ := List.mem_iff_getElem.1 hc
    have hi' : i < 16 := by simpa using hi
    have := h ⟨i, hi'⟩
    simp only [State.ctx] at this
    simpa using this

/-- A coordinate is claimed exactly where some context holds it as its claim (R134). -/
theorem claimed_iff (s : State) (c : Coord) : s.claimed c = true ↔ ∃ p, (s.ctx p).claim = some c := by
  simp only [State.claimed, List.any_eq_true, beq_iff_eq]
  constructor
  · rintro ⟨x, hx, he⟩
    obtain ⟨i, hi, rfl⟩ := List.mem_iff_getElem.1 hx
    have hi' : i < 16 := by simpa using hi
    exact ⟨⟨i, hi'⟩, by simpa [State.ctx] using he⟩
  · rintro ⟨p, hp⟩
    exact ⟨s.ctx p, by simp [State.ctx], hp⟩

end Sys2Proof.Machine
end

