-- ==== Sys2Proof/Laws/Settle.lean ====
section
/-! SUPPORT. Laws/Settle.lean: what settlement, key service and the identity check do, field by field: later proofs cite these
and do not unfold the operations. -/

namespace Sys2Proof.Machine

variable (s : State) (p : PortId)

/-! ### closeContext -/

@[simp] theorem closeContext_contexts (v : VerdictRecord) :
    (s.closeContext p v).contexts = s.contexts.set p ((s.ctx p).closed v) := by
  unfold State.closeContext
  dsimp only
  split <;> rfl

theorem closeContext_ctx (v : VerdictRecord) (q : PortId) :
    (s.closeContext p v).ctx q = if q = p then (s.ctx p).closed v else s.ctx q := by
  rw [← ctx_setCtx]
  exact ctx_congr (by simp [State.setCtx]) q

theorem closeContext_supply (v : VerdictRecord) (q : PortId) :
    (s.closeContext p v).supply q = if q = p then { s.supply p with state := .off } else s.supply q := by
  rw [← supply_switchOff]
  refine supply_congr ?_ q
  unfold State.closeContext
  dsimp only
  split <;> rfl

theorem closeContext_count (v : VerdictRecord) (f : Context → Bool) :
    (s.closeContext p v).count f = (s.setCtx p ((s.ctx p).closed v)).count f :=
  count_congr (by simp [State.setCtx]) f

/-! ### settleClaim -/

theorem settleClaim_none {o : MapOutcome} (h : (s.ctx p).claim = none) : s.settleClaim p o = s := by
  simp [State.settleClaim, h]

/-- The attempts that the settlement of a claim writes (R144). -/
def State.claimAttempts (s : State) (p : PortId) (c : Coord) : Nat :=
  if (s.ctx p).mapReserved then 1 else bumpAttempts (((mapLookup s.dieMap c).map (·.attempts)).getD 0)

theorem settleClaim_some {o : MapOutcome} {c : Coord} (h : (s.ctx p).claim = some c) :
    (s.settleClaim p o).dieMap =
      mapPut { coord := c, outcome := o, attempts := s.claimAttempts p c, lastTouchdown := s.td.number } s.dieMap := by
  simp [State.settleClaim, h, State.claimAttempts]

/-- The map that the settlement of a claim leaves is read from the context, the map and the touchdown number alone. -/
theorem settleClaim_congr {s t : State} {o : MapOutcome} (hc : t.contexts = s.contexts) (hm : t.dieMap = s.dieMap)
    (hn : t.td.number = s.td.number) : (t.settleClaim p o).dieMap = (s.settleClaim p o).dieMap := by
  have := ctx_congr hc p
  unfold State.settleClaim
  rw [this]
  split
  · exact hm
  · simp [hm, hn]

/-! ### appendRecord -/

@[simp] theorem appendRecord_log (r : LogRecord) :
    (s.appendRecord r).log = { records := s.log.records ++ [r], nextSequence := s.log.nextSequence + 1 } := by
  unfold State.appendRecord
  dsimp only
  split <;> rfl

/-! ### The four settlements (R24) -/

/-- The verdict record of a BOUND settlement (R24). -/
def Context.boundRecord (c : Context) : VerdictRecord :=
  { verdict := .bound, reason := none, keyIndex := some ((c.heldKey.map (·.index)).getD 0), attempts := c.attempts }

/-- The verdict record of a VOIDED settlement (R24). -/
def Context.voidedRecord (c : Context) (reason : VoidReason) : VerdictRecord :=
  { verdict := .voided, reason := some reason, keyIndex := some ((c.heldKey.map (·.index)).getD 0), attempts := c.attempts }

/-- The verdict record of an ABANDONED settlement (R24). -/
def Context.abandonedRecord (c : Context) : VerdictRecord :=
  { verdict := .abandoned, reason := none, keyIndex := none, attempts := c.attempts }

theorem settleBound_ctx (q : PortId) :
    (s.settleBound p).ctx q = if q = p then (s.ctx p).closed (s.ctx p).boundRecord else s.ctx q := by
  simp only [State.settleBound, closeContext_ctx]
  by_cases h : q = p
  · subst h
    simp only [if_true]
    simp [State.ctx, Context.boundRecord]
  · simp only [h, if_false]
    simp [State.ctx]

theorem settleBound_supply (q : PortId) :
    (s.settleBound p).supply q = if q = p then { s.supply p with state := .off } else s.supply q := by
  simp only [State.settleBound, closeContext_supply]
  by_cases h : q = p
  · subst h; simp [State.supply]
  · simp only [h, if_false]; simp [State.supply]

theorem settleBound_log : (s.settleBound p).log =
    { records := s.log.records ++ [s.logRecordOf p .bound none], nextSequence := s.log.nextSequence + 1 } := by
  simp [State.settleBound]

theorem settleBound_dieMap : (s.settleBound p).dieMap =
    (s.settleClaim p (.bound (((s.ctx p).heldKey.map (·.index)).getD 0))).dieMap := by
  simp only [State.settleBound, closeContext_frame]
  exact settleClaim_congr _ (by simp) (by simp) (by simp)

theorem settleBound_counters : (s.settleBound p).counters = { s.counters with bound := s.counters.bound + 1 } := by
  simp [State.settleBound]

theorem settleBound_count (f : Context → Bool) :
    (s.settleBound p).count f = (s.setCtx p ((s.ctx p).closed (s.ctx p).boundRecord)).count f := by
  refine count_congr ?_ f
  simp [State.settleBound, State.setCtx, State.ctx, Context.boundRecord]

theorem settleVoided_ctx (r : VoidReason) (q : PortId) :
    (s.settleVoided p r).ctx q = if q = p then (s.ctx p).closed ((s.ctx p).voidedRecord r) else s.ctx q := by
  simp only [State.settleVoided, closeContext_ctx]
  by_cases h : q = p
  · subst h
    simp only [if_true]
    simp [State.ctx, Context.voidedRecord]
  · simp only [h, if_false]
    simp [State.ctx]

theorem settleVoided_supply (r : VoidReason) (q : PortId) :
    (s.settleVoided p r).supply q = if q = p then { s.supply p with state := .off } else s.supply q := by
  simp only [State.settleVoided, closeContext_supply]
  by_cases h : q = p
  · subst h; simp [State.supply]
  · simp only [h, if_false]; simp [State.supply]

theorem settleVoided_log (r : VoidReason) : (s.settleVoided p r).log =
    { records := s.log.records ++ [s.logRecordOf p .voided (some r)], nextSequence := s.log.nextSequence + 1 } := by
  simp [State.settleVoided]

theorem settleVoided_dieMap (r : VoidReason) : (s.settleVoided p r).dieMap =
    (s.settleClaim p (.voided (((s.ctx p).heldKey.map (·.index)).getD 0))).dieMap := by
  simp only [State.settleVoided, closeContext_frame, raise_dieMap]
  exact settleClaim_congr _ (by simp) (by simp) (by simp)

theorem settleVoided_counters (r : VoidReason) :
    (s.settleVoided p r).counters = { s.counters with voided := s.counters.voided + 1 } := by
  simp [State.settleVoided]

theorem settleVoided_count (r : VoidReason) (f : Context → Bool) :
    (s.settleVoided p r).count f = (s.setCtx p ((s.ctx p).closed ((s.ctx p).voidedRecord r))).count f := by
  refine count_congr ?_ f
  simp [State.settleVoided, State.setCtx, State.ctx, Context.voidedRecord]

theorem settleAbandoned_ctx (q : PortId) :
    (s.settleAbandoned p).ctx q = if q = p then (s.ctx p).closed (s.ctx p).abandonedRecord else s.ctx q := by
  simp only [State.settleAbandoned, closeContext_ctx]
  by_cases h : q = p
  · subst h
    simp only [if_true]
    simp [State.ctx, Context.abandonedRecord]
  · simp only [h, if_false]
    simp [State.ctx]

theorem settleAbandoned_supply (q : PortId) :
    (s.settleAbandoned p).supply q = if q = p then { s.supply p with state := .off } else s.supply q := by
  simp only [State.settleAbandoned, closeContext_supply]
  by_cases h : q = p
  · subst h; simp [State.supply]
  · simp only [h, if_false]; simp [State.supply]

theorem settleAbandoned_waitList : (s.settleAbandoned p).waitList = s.waitList.filter (· ≠ p) := by
  simp [State.settleAbandoned]

theorem settleAbandoned_pool : (s.settleAbandoned p).pool =
    (match (s.ctx p).heldKey with | some k => poolInsert k s.pool | none => s.pool) := by
  simp only [State.settleAbandoned, closeContext_frame, settleClaim_frame] <;> cases (s.ctx p).heldKey <;> rfl

theorem settleAbandoned_dieMap : (s.settleAbandoned p).dieMap = (s.settleClaim p .tried).dieMap := by
  simp only [State.settleAbandoned, closeContext_frame]
  exact settleClaim_congr _ rfl rfl rfl

theorem settleAbandoned_count (f : Context → Bool) :
    (s.settleAbandoned p).count f = (s.setCtx p ((s.ctx p).closed (s.ctx p).abandonedRecord)).count f := by
  refine count_congr ?_ f
  simp [State.settleAbandoned, State.setCtx, State.ctx, Context.abandonedRecord]

/-- The verdict record of a rejection (R6). -/
def rejectedRecord (v : Verdict) : VerdictRecord := { verdict := v, reason := none, keyIndex := none, attempts := 0 }

theorem settleRejected_ctx (v : Verdict) (q : PortId) :
    (s.settleRejected p v).ctx q = if q = p then (s.ctx p).closed (rejectedRecord v) else s.ctx q :=
  closeContext_ctx ..

theorem settleRejected_supply (v : Verdict) (q : PortId) :
    (s.settleRejected p v).supply q = if q = p then { s.supply p with state := .off } else s.supply q :=
  closeContext_supply ..

theorem settleRejected_count (v : Verdict) (f : Context → Bool) :
    (s.settleRejected p v).count f = (s.setCtx p ((s.ctx p).closed (rejectedRecord v))).count f :=
  closeContext_count ..

/-! ### What a closed context reads -/

@[simp] theorem closed_state (c : Context) (v : VerdictRecord) : (c.closed v).state = .done := rfl
@[simp] theorem closed_heldKey (c : Context) (v : VerdictRecord) : (c.closed v).heldKey = none := rfl
@[simp] theorem closed_claim (c : Context) (v : VerdictRecord) : (c.closed v).claim = none := rfl
@[simp] theorem closed_mapReserved (c : Context) (v : VerdictRecord) : (c.closed v).mapReserved = false := rfl
@[simp] theorem closed_logReserved (c : Context) (v : VerdictRecord) : (c.closed v).logReserved = false := rfl
@[simp] theorem closed_image (c : Context) (v : VerdictRecord) : (c.closed v).image = none := rfl
@[simp] theorem closed_digest (c : Context) (v : VerdictRecord) : (c.closed v).digest = none := rfl
@[simp] theorem closed_verdict (c : Context) (v : VerdictRecord) : (c.closed v).verdict = some v := rfl
@[simp] theorem closed_identity (c : Context) (v : VerdictRecord) : (c.closed v).identity = c.identity := rfl
@[simp] theorem closed_attempts (c : Context) (v : VerdictRecord) : (c.closed v).attempts = c.attempts := rfl
@[simp] theorem closed_site (c : Context) (v : VerdictRecord) : (c.closed v).site = c.site := rfl

/-! ### Key service (R37) -/

/-- A service, where its conditions hold: exactly what it changes. -/
theorem serveHead_eq_some {t : State} : s.serveHead = some t ↔
    ∃ q ws k ks, s.waitList = q :: ws ∧ s.pool = k :: ks ∧
      s.log.records.length + s.logReservations < Config.logCapacity ∧
      t = (({ s with waitList := ws, pool := ks } : State).setCtx q ((s.ctx q).served k)).checkPoolLow := by
  unfold State.serveHead
  constructor
  · intro h
    split at h
    · split at h
      · cases h
        exact ⟨_, _, _, _, by assumption, by assumption, by assumption, rfl⟩
      · cases h
    · cases h
  · rintro ⟨q, ws, k, ks, hw, hp, hc, rfl⟩
    simp [hw, hp, hc]

/-- No service is possible: nobody waits, no key is free, or the log has no free slot. -/
theorem serveHead_eq_none : s.serveHead = none ↔
    s.waitList = [] ∨ s.pool = [] ∨ Config.logCapacity ≤ s.log.records.length + s.logReservations := by
  unfold State.serveHead
  cases hw : s.waitList with
  | nil => simp
  | cons q ws =>
    cases hp : s.pool with
    | nil => simp
    | cons k ks => simp only []; split <;> simp <;> omega

/-- A property that one service keeps is kept by a run of services. -/
theorem serve_keeps {I : State → Prop} (h : ∀ s t, s.serveHead = some t → I s → I t) (n : Nat) (s : State) (hs : I s) :
    I (State.serve n s) := by
  induction n generalizing s with
  | zero => exact hs
  | succ n ih =>
    simp only [State.serve]
    split
    · exact ih _ (h _ _ (by assumption) hs)
    · exact hs

theorem serviceIf_keeps {I : State → Prop} (h : ∀ s t, s.serveHead = some t → I s → I t) (s : State) (b : Bool)
    (hs : I s) : I (s.serviceIf b) := by
  unfold State.serviceIf
  split
  · exact serve_keeps h _ _ hs
  · exact hs

/-- A service takes its context off the list. -/
theorem serveHead_waitList {t : State} (h : s.serveHead = some t) : ∃ q, s.waitList = q :: t.waitList := by
  obtain ⟨q, ws, k, ks, hw, -, -, rfl⟩ := (serveHead_eq_some s).1 h
  exact ⟨q, by simp [hw]⟩

/-- A run of services ends where no service is possible (R37). -/
theorem serve_done (n : Nat) (s : State) (h : s.waitList.length ≤ n) : (State.serve n s).serveHead = none := by
  induction n generalizing s with
  | zero =>
    rw [serveHead_eq_none]
    exact .inl (List.eq_nil_of_length_eq_zero (Nat.le_zero.1 h))
  | succ n ih =>
    simp only [State.serve]
    split
    · rename_i t ht
      obtain ⟨q, hq⟩ := serveHead_waitList s ht
      exact ih _ (by rw [hq] at h; simpa using h)
    · assumption

theorem serviceKeys_done (s : State) : s.serviceKeys.serveHead = none := serve_done _ _ (Nat.le_refl _)

end Sys2Proof.Machine
end

