-- ==== Sys2Proof/Laws/Custody.lean ====
section
/-! SUPPORT. Laws/Custody.lean: what the operations on contexts, keys, log and map keep: the wait list, key custody and
accounting, the pool, the log, the map and the image state. -/

namespace Sys2Proof.Machine

/-- The invariants of contexts, keys, log, map and image state, which belong together: each operation keeps all of them. -/
structure State.Kept (s : State) : Prop where
  wait : s.WaitSound
  custody : s.CustodySound
  pool : s.PoolSound
  log : s.LogSound
  map : s.MapSound
  image : s.ImageSound

variable {s t : State} {p : PortId}

/-- A context without the fields that these invariants do not read. -/
def Context.core (c : Context) : Context := { c with injected := 0, verified := 0, site := 0, verdict := none }

/-- A count of contexts by a condition that reads the core alone depends on the cores alone. -/
theorem count_congr_core (h : ∀ q, (t.ctx q).core = (s.ctx q).core) {f : Context → Bool} (hf : ∀ c, f c = f c.core) :
    t.count f = s.count f := by
  have key : t.contexts.toList.map Context.core = s.contexts.toList.map Context.core := by
    apply List.ext_getElem
    · simp
    · intro i h1 h2
      have hi : i < 16 := by simpa using h1
      simpa [State.ctx] using h ⟨i, hi⟩
  have : ∀ l : List Context, l.countP f = (l.map Context.core).countP f := by
    intro l
    rw [List.countP_map]
    congr 1
    funext c
    exact hf c
  rw [State.count, State.count, this, key, ← this]

/-- The fields that these invariants read. -/
structure State.SameKept (s t : State) : Prop where
  core : ∀ q, (t.ctx q).core = (s.ctx q).core
  waitList : t.waitList = s.waitList
  pool : t.pool = s.pool
  batch : t.batch = s.batch
  counters : t.counters = s.counters
  log : t.log = s.log
  dieMap : t.dieMap = s.dieMap
  burnLimit : t.params.burnLimit = s.params.burnLimit
  isOpen : t.touchdownIsOpen = s.touchdownIsOpen
  unwrap : ∀ job, t.control.executor = .unwrapping job → s.control.executor = .unwrapping job

theorem State.Kept.congr (h : s.Kept) (e : s.SameKept t) : t.Kept := by
  have c1 : ∀ q, (t.ctx q).state = (s.ctx q).state := fun q => (Context.mk.inj (e.core q)).1
  have c2 : ∀ q, (t.ctx q).identity = (s.ctx q).identity := fun q => (Context.mk.inj (e.core q)).2.2.1
  have c3 : ∀ q, (t.ctx q).heldKey = (s.ctx q).heldKey := fun q => (Context.mk.inj (e.core q)).2.2.2.1
  have c4 : ∀ q, (t.ctx q).exposed = (s.ctx q).exposed := fun q => (Context.mk.inj (e.core q)).2.2.2.2.1
  have c5 : ∀ q, (t.ctx q).digest = (s.ctx q).digest := fun q => (Context.mk.inj (e.core q)).2.2.2.2.2.1
  have c6 : ∀ q, (t.ctx q).image = (s.ctx q).image := fun q => (Context.mk.inj (e.core q)).2.2.2.2.2.2.1
  have c7 : ∀ q, (t.ctx q).pass = (s.ctx q).pass := fun q => (Context.mk.inj (e.core q)).2.2.2.2.2.2.2.1
  have c8 : ∀ q, (t.ctx q).missing = (s.ctx q).missing := fun q => (Context.mk.inj (e.core q)).2.2.2.2.2.2.2.2.2.2.1
  have c9 : ∀ q, (t.ctx q).attempts = (s.ctx q).attempts := fun q => (Context.mk.inj (e.core q)).2.2.2.2.2.2.2.2.2.2.2.1
  have c10 : ∀ q, (t.ctx q).claim = (s.ctx q).claim := fun q => (Context.mk.inj (e.core q)).2.2.2.2.2.2.2.2.2.2.2.2.1
  have c11 : ∀ q, (t.ctx q).mapReserved = (s.ctx q).mapReserved := fun q => (Context.mk.inj (e.core q)).2.2.2.2.2.2.2.2.2.2.2.2.2.1
  have c12 : ∀ q, (t.ctx q).logReserved = (s.ctx q).logReserved := fun q => (Context.mk.inj (e.core q)).2.2.2.2.2.2.2.2.2.2.2.2.2.2.1
  have c13 : ∀ q w, (t.ctx q).expectedWord w = (s.ctx q).expectedWord w := fun q w => by
    simp only [Context.expectedWord, c3, c5]
  have n1 : t.logReservations = s.logReservations := count_congr_core e.core fun _ => rfl
  have n2 : t.mapReservations = s.mapReservations := count_congr_core e.core fun _ => rfl
  have n3 : t.heldKeys = s.heldKeys := count_congr_core e.core fun _ => rfl
  have n4 : t.poolCustody = s.poolCustody := by
    simp only [poolCustody_eq_count, e.pool, count_congr_core e.core (f := (·.state == .held)) fun _ => rfl]
  obtain ⟨hw, hk, hp, hl, hm, hi⟩ := h
  refine ⟨⟨?_, ?_, ?_⟩, ⟨?_, ?_, ?_, ?_, ?_, ?_⟩, ⟨?_, ?_, ?_, ?_, ?_, ?_, ?_, ?_⟩, ⟨?_, ?_, ?_, ?_⟩,
    ⟨?_, ?_, ?_, ?_, ?_, ?_, ?_⟩, ⟨?_, ?_, ?_, ?_, ?_, ?_, ?_, ?_, ?_⟩⟩
  all_goals
    simp only [c1, c2, c3, c4, c5, c6, c7, c8, c9, c10, c11, c12, c13, n1, n2, n3, n4, e.waitList, e.pool, e.batch,
      e.counters, e.log, e.dieMap, e.burnLimit, e.isOpen]
  · exact hw.outside
  · exact hw.listed
  · exact hw.once
  · exact hk.key
  · exact hk.reservation
  · exact hk.exposure
  · exact hk.capacity
  · exact hk.accounting
  · exact hk.sequence
  · exact hp.sorted
  · exact hp.range
  · exact hp.label
  · exact hp.heldRange
  · exact hp.heldApart
  · exact hp.heldOnce
  · exact hp.capacity
  · exact fun job hj => hp.unwrap job (e.unwrap job hj)
  · exact hl.distinct
  · exact hl.range
  · exact hl.pool
  · exact hl.held
  · exact hm.sorted
  · exact hm.attempts
  · exact hm.capacity
  · exact hm.claim
  · exact hm.once
  · exact hm.reserved
  · exact hm.tried
  · exact hi.digest
  · exact hi.full
  · exact hi.reburn
  · exact hi.missing
  · exact hi.fullPass
  · exact hi.reburnPass
  · exact hi.unburned
  · exact hi.admitted
  · exact hi.bounded

/-- What a context must be after a move among the states that hold a key: the same custody, and sound image state. -/
structure Context.MovesTo (c c' : Context) (burnLimit : Nat) : Prop where
  holds : c.state.holdsKey = true
  still : c'.state.holdsKey = true
  notHeld : c'.state ≠ .held
  exposed : c'.exposed = true
  key : c'.heldKey = c.heldKey
  identity : c'.identity = c.identity
  claim : c'.claim = c.claim
  mapReserved : c'.mapReserved = c.mapReserved
  logReserved : c'.logReserved = c.logReserved
  digest : c'.digest = c.digest
  full : ∀ k, c.heldKey = some k → c'.pass = .full →
    c'.image = some (fullImage k.bits (bindingDigest c.identity k.index))
  reburn : ∀ k, c.heldKey = some k → c'.pass = .reburn →
    ∃ img, c'.image = some img ∧ ∀ w : Fin 17, img[w] &&& ~~~c.expectedWord w = 0
  missing : ∀ k, c.heldKey = some k → ∀ w : Fin 17, c'.missing[w] &&& ~~~c.expectedWord w = 0
  fullPass : c'.state ∈ [.held, .loading, .settling] → c'.pass = .full
  reburnPass : c'.state = .reburn → c'.pass = .reburn
  unburned : c'.state ∈ [.ident, .wait, .held, .loading, .settling] → c'.attempts = 0
  admitted : c'.state ∈ [.ready, .reburn] → c'.attempts < burnLimit
  bounded : c'.attempts ≤ burnLimit

theorem holdsKey_ne {st : ContextState} (h : st.holdsKey = true) :
    st ≠ .idle ∧ st ≠ .ident ∧ st ≠ .wait ∧ st ≠ .done := by
  refine ⟨?_, ?_, ?_, ?_⟩ <;> rintro rfl <;> cases h

/-- A move of one context among the states that hold a key keeps the invariants. -/
theorem State.Kept.move (h : s.Kept) {c : Context} (m : (s.ctx p).MovesTo c s.params.burnLimit) :
    (s.setCtx p c).Kept := by
  have hst := holdsKey_ne m.holds
  have hst' := holdsKey_ne m.still
  have hexp : c.expectedWord = (s.ctx p).expectedWord := by
    funext w; simp only [Context.expectedWord, m.key, m.digest]
  have n1 : (s.setCtx p c).logReservations = s.logReservations :=
    count_setCtx_same s p (f := (·.logReserved)) m.logReserved
  have n2 : (s.setCtx p c).mapReservations = s.mapReservations :=
    count_setCtx_same s p (f := (·.mapReserved)) m.mapReserved
  have n3 : (s.setCtx p c).heldKeys = s.heldKeys :=
    count_setCtx_same s p (f := (·.state.holdsKey)) (m.still.trans m.holds.symm)
  have n4 : (s.setCtx p c).poolCustody ≤ s.poolCustody := by
    have := count_setCtx s p c (·.state == .held)
    have hn : (c.state == .held) = false := by simpa using m.notHeld
    simp only [poolCustody_eq_count, setCtx_pool, hn] at this ⊢
    simp at this
    omega
  obtain ⟨hw, hk, hp, hl, hm, hi⟩ := h
  refine ⟨⟨?_, ?_, ?_⟩, ⟨?_, ?_, ?_, ?_, ?_, ?_⟩, ⟨?_, ?_, ?_, ?_, ?_, ?_, ?_, ?_⟩, ⟨?_, ?_, ?_, ?_⟩,
    ⟨?_, ?_, ?_, ?_, ?_, ?_, ?_⟩, ⟨?_, ?_, ?_, ?_, ?_, ?_, ?_, ?_, ?_⟩⟩
  · intro ho
    exact absurd (hw.outside ho p) hst.1
  · intro q
    rw [ctx_setCtx]
    split
    · subst_vars
      exact ⟨fun hq => absurd ((hw.listed _).1 hq) hst.2.2.1, fun hq => absurd hq hst'.2.2.1⟩
    · exact hw.listed q
  · exact hw.once
  · intro q
    rw [ctx_setCtx]
    split
    · subst_vars; rw [m.key, m.still, hk.key, m.holds]
    · exact hk.key q
  · intro q
    rw [ctx_setCtx]
    split
    · subst_vars; rw [m.logReserved, m.still, hk.reservation, m.holds]
    · exact hk.reservation q
  · intro q
    rw [ctx_setCtx]
    split
    · exact fun _ => ⟨fun _ => m.notHeld, fun _ => m.exposed⟩
    · exact hk.exposure q
  · rw [n1]; exact hk.capacity
  · rw [n3]; exact hk.accounting
  · exact hk.sequence
  · exact hp.sorted
  · exact hp.range
  · exact hp.label
  · intro q k
    rw [ctx_setCtx]
    split
    · subst_vars; rw [m.key]; exact hp.heldRange _ k
    · exact hp.heldRange q k
  · intro q k
    rw [ctx_setCtx]
    split
    · subst_vars; rw [m.key]; exact hp.heldApart _ k
    · exact hp.heldApart q k
  · intro q r k j hq hr he
    have hq' : (s.ctx q).heldKey = some k := by
      rw [ctx_setCtx] at hq
      split at hq
      · subst_vars; rw [← m.key]; exact hq
      · exact hq
    have hr' : (s.ctx r).heldKey = some j := by
      rw [ctx_setCtx] at hr
      split at hr
      · subst_vars; rw [← m.key]; exact hr
      · exact hr
    exact hp.heldOnce q r k j hq' hr' he
  · exact Nat.le_trans n4 hp.capacity
  · intro job hj
    obtain ⟨h1, h2, h3⟩ := hp.unwrap job hj
    exact ⟨h1, h2, Nat.lt_of_le_of_lt n4 h3⟩
  · exact hl.distinct
  · exact hl.range
  · exact hl.pool
  · intro r hr q k
    rw [ctx_setCtx]
    split
    · subst_vars; rw [m.key]; exact hl.held r hr _ k
    · exact hl.held r hr q k
  · exact hm.sorted
  · exact hm.attempts
  · rw [n2]; exact hm.capacity
  · intro q
    rw [ctx_setCtx]
    split
    · subst_vars
      have : c.state.holdsClaim = (s.ctx q).state.holdsClaim := by
        simp [ContextState.holdsClaim, m.still, m.holds]
      rw [this, m.claim, m.identity]
      exact hm.claim _
    · exact hm.claim q
  · intro q r d
    rw [ctx_setCtx, ctx_setCtx]
    intro hq hr
    refine hm.once q r d ?_ ?_
    · split at hq
      · subst_vars; rw [← m.claim]; exact hq
      · exact hq
    · split at hr
      · subst_vars; rw [← m.claim]; exact hr
      · exact hr
  · intro q
    rw [ctx_setCtx]
    split
    · subst_vars; rw [m.mapReserved, m.claim]; exact hm.reserved _
    · exact hm.reserved q
  · intro q d
    rw [ctx_setCtx]
    split
    · subst_vars; rw [m.mapReserved, m.claim]; exact hm.tried _ d
    · exact hm.tried q d
  · intro q k
    rw [ctx_setCtx]
    split
    · subst_vars; rw [m.key, m.digest, m.identity]; exact hi.digest _ k
    · exact hi.digest q k
  · intro q k
    rw [ctx_setCtx]
    split
    · subst_vars; rw [m.key, m.identity]; exact m.full k
    · exact hi.full q k
  · intro q k
    rw [ctx_setCtx]
    split
    · subst_vars; rw [m.key, hexp]; exact m.reburn k
    · exact hi.reburn q k
  · intro q k
    rw [ctx_setCtx]
    split
    · subst_vars; rw [m.key, hexp]; exact m.missing k
    · exact hi.missing q k
  · intro q
    rw [ctx_setCtx]
    split
    · exact m.fullPass
    · exact hi.fullPass q
  · intro q
    rw [ctx_setCtx]
    split
    · exact m.reburnPass
    · exact hi.reburnPass q
  · intro q
    rw [ctx_setCtx]
    split
    · exact m.unburned
    · exact hi.unburned q
  · intro q
    rw [ctx_setCtx]
    split
    · exact m.admitted
    · exact hi.admitted q
  · intro ho q
    rw [ctx_setCtx]
    split
    · exact m.bounded
    · exact hi.bounded ho q

/-! ### Settlement -/

/-- The settlement of a claim keeps the map sound (R144, R145): the reservation becomes an entry, or the TRIED entry is
changed. -/
theorem State.MapSound.settle (h : s.MapSound) {v : VerdictRecord} {o : MapOutcome}
    (hc : ∀ q, t.ctx q = if q = p then (s.ctx p).closed v else s.ctx q)
    (hn : t.mapReservations = (s.setCtx p ((s.ctx p).closed v)).mapReservations)
    (hd : t.dieMap = (s.settleClaim p o).dieMap) : t.MapSound := by
  cases hcl : (s.ctx p).claim with
  | none =>
    rw [settleClaim_none s p hcl] at hd
    have hres : (s.ctx p).mapReserved = false := by
      cases hr : (s.ctx p).mapReserved with
      | false => rfl
      | true => obtain ⟨c, hc, -⟩ := h.reserved p hr; rw [hcl] at hc; cases hc
    have n : t.mapReservations = s.mapReservations := by
      rw [hn]; exact count_setCtx_same s p (f := (·.mapReserved)) hres.symm
    refine ⟨hd ▸ h.sorted, hd ▸ h.attempts, by rw [hd, n]; exact h.capacity, ?_, ?_, ?_, ?_⟩
    · intro q
      rw [hc]
      split
      · rfl
      · exact h.claim q
    · intro q r c hq hr
      rw [hc] at hq hr
      split at hq <;> split at hr
      · simp at hq
      · simp at hq
      · simp at hr
      · exact h.once q r c hq hr
    · intro q
      rw [hc, hd]
      split
      · intro hf; simp at hf
      · exact h.reserved q
    · intro q c
      rw [hc, hd]
      split
      · intro hf; simp at hf
      · exact h.tried q c
  | some c =>
    rw [settleClaim_some s p hcl] at hd
    have hs : mapSorted s.dieMap := h.sorted
    have apart : ∀ q d, q ≠ p → (s.ctx q).claim = some d → d ≠ c :=
      fun q d hqp hq hdc => hqp (h.once q p c (hdc ▸ hq) hcl)
    have other : ∀ d, d ≠ c → mapLookup t.dieMap d = mapLookup s.dieMap d := fun d hdc => by
      rw [hd, mapLookup_mapPut hs]; simp [hdc]
    refine ⟨?_, ?_, ?_, ?_, ?_, ?_, ?_⟩
    · rw [hd]; exact mapPut_sorted _ hs
    · rw [hd]
      intro e he
      rcases (mem_mapPut hs).1 he with rfl | ⟨he, -⟩
      · simp only [State.claimAttempts, bumpAttempts, Config.maxDieAttempts]
        split <;> omega
      · exact h.attempts e he
    · rw [hd, hn, mapPut_length hs]
      have hcap := h.capacity
      cases hr : (s.ctx p).mapReserved with
      | true =>
        obtain ⟨d, hd', hl⟩ := h.reserved p hr
        rw [hcl] at hd'
        cases hd'
        have n : (s.setCtx p ((s.ctx p).closed v)).mapReservations + 1 = s.mapReservations :=
          count_setCtx_leave s p (f := (·.mapReserved)) hr rfl
        simp only [hl]
        simp
        omega
      | false =>
        obtain ⟨e, hl, -⟩ := h.tried p c hcl hr
        have n : (s.setCtx p ((s.ctx p).closed v)).mapReservations = s.mapReservations :=
          count_setCtx_same s p (f := (·.mapReserved)) hr.symm
        simp only [hl, n]
        simpa using hcap
    · intro q
      rw [hc]
      split
      · rfl
      · exact h.claim q
    · intro q r d hq hr
      rw [hc] at hq hr
      split at hq <;> split at hr
      · simp at hq
      · simp at hq
      · simp at hr
      · exact h.once q r d hq hr
    · intro q hq
      rw [hc] at hq ⊢
      split at hq
      · simp at hq
      · rename_i hqp
        obtain ⟨d, hd', hl⟩ := h.reserved q hq
        simp only [if_neg hqp]
        exact ⟨d, hd', (other d (apart q d hqp hd')).trans hl⟩
    · intro q d hq hr
      rw [hc] at hq hr
      split at hq
      · simp at hq
      · rename_i hqp
        simp only [if_neg hqp] at hr
        rw [other d (apart q d hqp hq)]
        exact h.tried q d hq hr

/-- What a context's image state must read where the context was closed and the others stand as they were. -/
theorem State.ImageSound.closed (h : s.ImageSound) {v : VerdictRecord}
    (hc : ∀ q, t.ctx q = if q = p then (s.ctx p).closed v else s.ctx q) (hb : t.params.burnLimit = s.params.burnLimit)
    (ho : t.touchdownIsOpen = s.touchdownIsOpen) : t.ImageSound := by
  refine ⟨?_, ?_, ?_, ?_, ?_, ?_, ?_, ?_, ?_⟩
  · intro q k; rw [hc]; split
    · intro hf; simp at hf
    · exact h.digest q k
  · intro q k; rw [hc]; split
    · intro hf; simp at hf
    · exact h.full q k
  · intro q k; rw [hc]; split
    · intro hf; simp at hf
    · exact h.reburn q k
  · intro q k; rw [hc]; split
    · intro hf; simp at hf
    · exact h.missing q k
  · intro q; rw [hc]; split
    · intro hf; simp at hf
    · exact h.fullPass q
  · intro q; rw [hc]; split
    · intro hf; simp at hf
    · exact h.reburnPass q
  · intro q; rw [hc]; split
    · intro hf; simp at hf
    · exact h.unburned q
  · intro q; rw [hc, hb]; split
    · intro hf; simp at hf
    · exact h.admitted q
  · intro hop q; rw [hc, hb]; split
    · exact h.bounded (ho ▸ hop) p
    · exact h.bounded (ho ▸ hop) q

/-- A settlement that leaves a log record: BOUND or VOIDED (R24, R152). -/
structure State.Records (s t : State) (p : PortId) (v : VerdictRecord) (o : MapOutcome) (r : LogRecord) : Prop where
  ctx : ∀ q, t.ctx q = if q = p then (s.ctx p).closed v else s.ctx q
  count : ∀ f, t.count f = (s.setCtx p ((s.ctx p).closed v)).count f
  waitList : t.waitList = s.waitList
  pool : t.pool = s.pool
  batch : t.batch = s.batch
  params : t.params = s.params
  control : t.control = s.control
  td : t.td = s.td
  log : t.log = { records := s.log.records ++ [r], nextSequence := s.log.nextSequence + 1 }
  dieMap : t.dieMap = (s.settleClaim p o).dieMap
  counters : t.counters = { s.counters with bound := s.counters.bound + 1 } ∨
    t.counters = { s.counters with voided := s.counters.voided + 1 }
  index : r.keyIndex = ((s.ctx p).heldKey.map (·.index)).getD 0

theorem settleBound_records (s : State) (p : PortId) : s.Records (s.settleBound p) p (s.ctx p).boundRecord
    (.bound (((s.ctx p).heldKey.map (·.index)).getD 0)) (s.logRecordOf p .bound none) := by
  refine ⟨settleBound_ctx s p, settleBound_count s p, ?_, ?_, ?_, ?_, ?_, ?_, settleBound_log s p,
    settleBound_dieMap s p, .inl (settleBound_counters s p), rfl⟩ <;> simp

theorem settleVoided_records (s : State) (p : PortId) (r : VoidReason) : s.Records (s.settleVoided p r) p
    ((s.ctx p).voidedRecord r) (.voided (((s.ctx p).heldKey.map (·.index)).getD 0))
    (s.logRecordOf p .voided (some r)) := by
  refine ⟨settleVoided_ctx s p r, settleVoided_count s p r, ?_, ?_, ?_, ?_, ?_, ?_, settleVoided_log s p r,
    settleVoided_dieMap s p r, .inr (settleVoided_counters s p r), rfl⟩ <;> simp

theorem State.Kept.records (h : s.Kept) (hold : (s.ctx p).state.holdsKey = true) {v : VerdictRecord} {o : MapOutcome}
    {r : LogRecord} (e : s.Records t p v o r) : t.Kept := by
  have hst := holdsKey_ne hold
  obtain ⟨hw, hk, hp, hl, hm, hi⟩ := h
  have hc := e.ctx
  have ho : t.touchdownIsOpen = s.touchdownIsOpen := by simp [State.touchdownIsOpen, e.td]
  obtain ⟨k, hkey⟩ : ∃ k, (s.ctx p).heldKey = some k := by
    rw [← Option.isSome_iff_exists, hk.key, hold]
  have hidx : r.keyIndex = k.index := by rw [e.index, hkey]; rfl
  have n1 : t.logReservations + 1 = s.logReservations := by
    have := e.count (·.logReserved)
    rw [logReservations_eq_count, this]
    exact count_setCtx_leave s p (f := (·.logReserved)) (by rw [hk.reservation, hold]) rfl
  have n3 : t.heldKeys + 1 = s.heldKeys := by
    have := e.count (·.state.holdsKey)
    rw [heldKeys_eq_count, this]
    exact count_setCtx_leave s p (f := (·.state.holdsKey)) hold rfl
  have n4 : t.poolCustody ≤ s.poolCustody := by
    have h1 := e.count (·.state == .held)
    have := count_setCtx s p ((s.ctx p).closed v) (·.state == .held)
    simp only [poolCustody_eq_count, e.pool, h1]
    simp at this
    omega
  refine ⟨⟨?_, ?_, ?_⟩, ⟨?_, ?_, ?_, ?_, ?_, ?_⟩, ⟨?_, ?_, ?_, ?_, ?_, ?_, ?_, ?_⟩, ⟨?_, ?_, ?_, ?_⟩,
    hm.settle hc (e.count _) e.dieMap, hi.closed hc (by rw [e.params]) ho⟩
  · intro hop
    exact absurd (hw.outside (ho ▸ hop) p) hst.1
  · intro q
    rw [e.waitList, hc]
    split
    · subst_vars
      exact ⟨fun hq => absurd ((hw.listed _).1 hq) hst.2.2.1, fun hq => by simp at hq⟩
    · exact hw.listed q
  · rw [e.waitList]; exact hw.once
  · intro q; rw [hc]; split
    · rfl
    · exact hk.key q
  · intro q; rw [hc]; split
    · rfl
    · exact hk.reservation q
  · intro q; rw [hc]; split
    · intro hf; cases hf
    · exact hk.exposure q
  · rw [e.log]
    have := hk.capacity
    simp
    omega
  · have := hk.accounting
    rw [← n3] at this
    rcases e.counters with hcn | hcn <;> rw [hcn, e.pool] <;> simp only [this] <;> bv_omega
  · have := hk.sequence
    rcases e.counters with hcn | hcn <;> rw [hcn, e.log] <;> simp only [this] <;> bv_omega
  · rw [e.pool]; exact hp.sorted
  · rw [e.pool, e.batch]; exact hp.range
  · rw [e.pool, e.batch]; exact hp.label
  · intro q j; rw [hc, e.batch]; split
    · intro hf; simp at hf
    · exact hp.heldRange q j
  · intro q j; rw [hc, e.pool]; split
    · intro hf; simp at hf
    · exact hp.heldApart q j
  · intro q u j l hq hr he
    rw [hc] at hq hr
    split at hq
    · simp at hq
    · split at hr
      · simp at hr
      · exact hp.heldOnce q u j l hq hr he
  · exact Nat.le_trans n4 hp.capacity
  · intro job hj
    rw [e.control] at hj
    rw [e.batch]
    obtain ⟨h1, h2, h3⟩ := hp.unwrap job hj
    exact ⟨h1, h2, Nat.lt_of_le_of_lt n4 h3⟩
  · rw [e.log]
    simp only [List.pairwise_append, List.pairwise_cons, List.mem_singleton]
    refine ⟨hl.distinct, ⟨by simp, List.Pairwise.nil⟩, ?_⟩
    rintro a ha _ rfl heq
    exact hl.held a ha p k hkey (by rw [← hidx, heq])
  · rw [e.log, e.batch]
    intro x hx
    simp only [List.mem_append, List.mem_singleton] at hx
    rcases hx with hx | rfl
    · exact hl.range x hx
    · rw [hidx]; exact (hp.heldRange p k hkey).2.1
  · rw [e.log, e.pool]
    intro x hx j hj
    simp only [List.mem_append, List.mem_singleton] at hx
    rcases hx with hx | rfl
    · exact hl.pool x hx j hj
    · rw [hidx]; exact hp.heldApart p k hkey j hj
  · rw [e.log]
    intro x hx q j hq
    rw [hc] at hq
    split at hq
    · simp at hq
    · rename_i hqp
      simp only [List.mem_append, List.mem_singleton] at hx
      rcases hx with hx | rfl
      · exact hl.held x hx q j hq
      · rw [hidx]
        exact fun he => hqp (hp.heldOnce q p j k hq hkey he)

theorem State.Kept.settleBound (h : s.Kept) (hold : (s.ctx p).state.holdsKey = true) : (s.settleBound p).Kept :=
  h.records hold (settleBound_records s p)

theorem State.Kept.settleVoided (h : s.Kept) (hold : (s.ctx p).state.holdsKey = true) (r : VoidReason) :
    (s.settleVoided p r).Kept :=
  h.records hold (settleVoided_records s p r)

/-- A settlement ABANDONED from IDENT, WAIT or HELD keeps the invariants: a held key goes back to the pool (R24, R39). -/
theorem State.Kept.settleAbandoned (h : s.Kept) (hs : (s.ctx p).state ∈ [.ident, .wait, .held]) :
    (s.settleAbandoned p).Kept := by
  obtain ⟨hw, hk, hp, hl, hm, hi⟩ := h
  have hc := settleAbandoned_ctx s p
  have hcn := settleAbandoned_count s p
  have hopen : (s.settleAbandoned p).touchdownIsOpen = s.touchdownIsOpen := by simp [State.touchdownIsOpen]
  have hctl : (s.settleAbandoned p).control = s.control := by simp
  have hcnt : (s.settleAbandoned p).counters = s.counters := by simp
  have hlog : (s.settleAbandoned p).log = s.log := by simp
  have hbat : (s.settleAbandoned p).batch = s.batch := by simp
  have hwl := settleAbandoned_waitList s p
  have hpool := settleAbandoned_pool s p
  have hne : (s.ctx p).state ≠ .idle := by rintro he; rw [he] at hs; simp at hs
  -- the pool holds the old keys and the key given back
  have hmem : ∀ j, j ∈ (s.settleAbandoned p).pool ↔ (s.ctx p).heldKey = some j ∨ j ∈ s.pool := by
    intro j
    rw [hpool]
    cases hkey : (s.ctx p).heldKey with
    | none => simp
    | some k => simp [mem_poolInsert, eq_comm]
  have nres : (s.settleAbandoned p).logReservations ≤ s.logReservations := by
    have h1 := hcn (·.logReserved)
    have := count_setCtx s p ((s.ctx p).closed (s.ctx p).abandonedRecord) (·.logReserved)
    simp only [logReservations_eq_count, h1]
    simp at this
    omega
  have nheld : (s.settleAbandoned p).pool.length + (s.settleAbandoned p).heldKeys = s.pool.length + s.heldKeys := by
    have h1 := hcn (·.state.holdsKey)
    have := count_setCtx s p ((s.ctx p).closed (s.ctx p).abandonedRecord) (·.state.holdsKey)
    have hsome := hk.key p
    simp only [heldKeys_eq_count, h1, hpool]
    simp only [closed_state] at this
    cases hkey : (s.ctx p).heldKey with
    | none =>
      rw [hkey] at hsome
      simp only [Option.isSome_none] at hsome
      rw [← hsome] at this
      have hd : ContextState.done.holdsKey = false := rfl
      simp only [hd] at this
      simp at this
      simp only []
      omega
    | some k =>
      rw [hkey] at hsome
      simp only [Option.isSome_some] at hsome
      rw [← hsome] at this
      have hd : ContextState.done.holdsKey = false := rfl
      simp only [hd] at this
      simp at this
      simp only [poolInsert_length]
      omega
  have ncust : (s.settleAbandoned p).poolCustody = s.poolCustody := by
    have h1 := hcn (·.state == .held)
    have := count_setCtx s p ((s.ctx p).closed (s.ctx p).abandonedRecord) (·.state == .held)
    have hsome := hk.key p
    simp only [poolCustody_eq_count, h1, hpool]
    simp only [closed_state] at this
    cases hkey : (s.ctx p).heldKey with
    | none =>
      rw [hkey] at hsome
      have hnh : ((s.ctx p).state == .held) = false := by
        simp only [beq_eq_false_iff_ne]
        rintro he; rw [he] at hsome; simp [ContextState.holdsKey] at hsome
      rw [hnh] at this
      simp at this
      simp only []
      omega
    | some k =>
      rw [hkey] at hsome
      have hh : ((s.ctx p).state == .held) = true := by
        simp only [List.mem_cons, List.not_mem_nil, or_false] at hs
        rcases hs with hs | hs | hs <;> rw [hs] at hsome <;> simp [ContextState.holdsKey, hs] at hsome ⊢
      rw [hh] at this
      simp at this
      simp only [poolInsert_length]
      omega
  refine ⟨⟨?_, ?_, ?_⟩, ⟨?_, ?_, ?_, ?_, ?_, ?_⟩, ⟨?_, ?_, ?_, ?_, ?_, ?_, ?_, ?_⟩, ⟨?_, ?_, ?_, ?_⟩,
    hm.settle hc (hcn _) (settleAbandoned_dieMap s p), hi.closed hc (by simp) hopen⟩
  · intro hop
    exact absurd (hw.outside (hopen ▸ hop) p) hne
  · intro q
    rw [hwl, hc]
    split
    · subst_vars
      constructor
      · intro hq; simp at hq
      · intro hq; simp at hq
    · rename_i hqp
      rw [← hw.listed q]
      simp [hqp]
  · rw [hwl]; exact hw.once.filter _
  · intro q; rw [hc]; split
    · rfl
    · exact hk.key q
  · intro q; rw [hc]; split
    · rfl
    · exact hk.reservation q
  · intro q; rw [hc]; split
    · intro hf; cases hf
    · exact hk.exposure q
  · rw [hlog]; exact Nat.le_trans (Nat.add_le_add_left nres _) hk.capacity
  · rw [hcnt, nheld]; exact hk.accounting
  · rw [hcnt, hlog]; exact hk.sequence
  · rw [hpool]
    cases hkey : (s.ctx p).heldKey with
    | none => exact hp.sorted
    | some k => exact poolInsert_sorted hp.sorted (hp.heldApart p k hkey)
  · intro j hj
    rw [hbat]
    rcases (hmem j).1 hj with hj | hj
    · exact ⟨(hp.heldRange p j hj).1, (hp.heldRange p j hj).2.1⟩
    · exact hp.range j hj
  · intro j hj
    rw [hbat]
    rcases (hmem j).1 hj with hj | hj
    · exact (hp.heldRange p j hj).2.2
    · exact hp.label j hj
  · intro q j; rw [hc, hbat]; split
    · intro hf; simp at hf
    · exact hp.heldRange q j
  · intro q j hq i hi'
    rw [hc] at hq
    split at hq
    · simp at hq
    · rename_i hqp
      rcases (hmem i).1 hi' with hi' | hi'
      · exact fun he => hqp (hp.heldOnce q p j i hq hi' he.symm)
      · exact hp.heldApart q j hq i hi'
  · intro q u j l hq hr he
    rw [hc] at hq hr
    split at hq
    · simp at hq
    · split at hr
      · simp at hr
      · exact hp.heldOnce q u j l hq hr he
  · rw [ncust]; exact hp.capacity
  · intro job hj
    rw [hctl] at hj
    rw [hbat, ncust]
    exact hp.unwrap job hj
  · rw [hlog]; exact hl.distinct
  · rw [hlog, hbat]; exact hl.range
  · rw [hlog]
    intro r hr j hj
    rcases (hmem j).1 hj with hj | hj
    · exact hl.held r hr p j hj
    · exact hl.pool r hr j hj
  · rw [hlog]
    intro r hr q j; rw [hc]; split
    · intro hf; simp at hf
    · exact hl.held r hr q j

/-- What a context of IDENT holds: no key, no claim, no reservation. -/
theorem State.Kept.ident_empty (h : s.Kept) (hs : (s.ctx p).state = .ident) :
    (s.ctx p).heldKey = none ∧ (s.ctx p).claim = none ∧ (s.ctx p).mapReserved = false ∧ (s.ctx p).logReserved = false := by
  have h1 := h.custody.key p
  have h2 := h.map.claim p
  have h3 := h.custody.reservation p
  rw [hs] at h1 h2 h3
  refine ⟨?_, by simpa [ContextState.holdsClaim, ContextState.holdsKey] using h2, ?_, h3⟩
  · cases hk : (s.ctx p).heldKey with
    | none => rfl
    | some k => rw [hk] at h1; cases h1
  · cases hr : (s.ctx p).mapReserved with
    | false => rfl
    | true =>
      obtain ⟨c, hc, -⟩ := h.map.reserved p hr
      simp [h2, ContextState.holdsClaim, ContextState.holdsKey] at hc

/-- A change of an IDENT context that leaves it without key, claim and reservation, in IDENT or in DONE, keeps the
invariants: the recording of an identity field (R56), and a rejection (R6). -/
theorem State.Kept.identChange (h : s.Kept) (hs : (s.ctx p).state = .ident) {c : Context}
    (hst : c.state = .ident ∨ c.state = .done) (hk : c.heldKey = none) (hcl : c.claim = none)
    (hmr : c.mapReserved = false) (hlr : c.logReserved = false) (hat : c.attempts = (s.ctx p).attempts) :
    (s.setCtx p c).Kept := by
  obtain ⟨e1, e2, e3, e4⟩ := h.ident_empty hs
  obtain ⟨hw, hkk, hp, hl, hm, hi⟩ := h
  have hne : (s.ctx p).state ≠ .idle := by simp [hs]
  have hold : c.state.holdsKey = false := by rcases hst with h | h <;> rw [h] <;> rfl
  have holdc : c.state.holdsClaim = false := by rcases hst with h | h <;> rw [h] <;> rfl
  have hnw : c.state ≠ .wait := by rcases hst with h | h <;> simp [h]
  have hnh : (c.state == .held) = ((s.ctx p).state == .held) := by rcases hst with h | h <;> rw [h, hs] <;> rfl
  have n1 : (s.setCtx p c).logReservations = s.logReservations :=
    count_setCtx_same s p (f := (·.logReserved)) (hlr.trans e4.symm)
  have n2 : (s.setCtx p c).mapReservations = s.mapReservations :=
    count_setCtx_same s p (f := (·.mapReserved)) (hmr.trans e3.symm)
  have n3 : (s.setCtx p c).heldKeys = s.heldKeys :=
    count_setCtx_same s p (f := (·.state.holdsKey)) (by rw [hold, hs]; rfl)
  have n4 : (s.setCtx p c).poolCustody = s.poolCustody := by
    simp only [poolCustody_eq_count, setCtx_pool, count_setCtx_same s p (f := (·.state == .held)) hnh]
  refine ⟨⟨?_, ?_, ?_⟩, ⟨?_, ?_, ?_, ?_, ?_, ?_⟩, ⟨?_, ?_, ?_, ?_, ?_, ?_, ?_, ?_⟩, ⟨?_, ?_, ?_, ?_⟩,
    ⟨?_, ?_, ?_, ?_, ?_, ?_, ?_⟩, ⟨?_, ?_, ?_, ?_, ?_, ?_, ?_, ?_, ?_⟩⟩
  · intro ho; exact absurd (hw.outside ho p) hne
  · intro q; rw [ctx_setCtx]; split
    · subst_vars
      exact ⟨fun hq => absurd ((hw.listed _).1 hq) (by rw [hs]; decide), fun hq => absurd hq hnw⟩
    · exact hw.listed q
  · exact hw.once
  · intro q; rw [ctx_setCtx]; split
    · rw [hk, hold]; rfl
    · exact hkk.key q
  · intro q; rw [ctx_setCtx]; split
    · rw [hlr, hold]
    · exact hkk.reservation q
  · intro q; rw [ctx_setCtx]; split
    · rw [hold]; intro hf; cases hf
    · exact hkk.exposure q
  · rw [n1]; exact hkk.capacity
  · rw [n3]; exact hkk.accounting
  · exact hkk.sequence
  · exact hp.sorted
  · exact hp.range
  · exact hp.label
  · intro q k; rw [ctx_setCtx]; split
    · rw [hk]; intro hf; cases hf
    · exact hp.heldRange q k
  · intro q k; rw [ctx_setCtx]; split
    · rw [hk]; intro hf; cases hf
    · exact hp.heldApart q k
  · intro q r k j hq hr he
    rw [ctx_setCtx] at hq hr
    split at hq
    · rw [hk] at hq; cases hq
    · split at hr
      · rw [hk] at hr; cases hr
      · exact hp.heldOnce q r k j hq hr he
  · rw [n4]; exact hp.capacity
  · rw [n4]; exact hp.unwrap
  · exact hl.distinct
  · exact hl.range
  · exact hl.pool
  · intro r hr q k; rw [ctx_setCtx]; split
    · rw [hk]; intro hf; cases hf
    · exact hl.held r hr q k
  · exact hm.sorted
  · exact hm.attempts
  · rw [n2]; exact hm.capacity
  · intro q; rw [ctx_setCtx]; split
    · rw [hcl, holdc]; rfl
    · exact hm.claim q
  · intro q r d hq hr
    rw [ctx_setCtx] at hq hr
    split at hq
    · rw [hcl] at hq; cases hq
    · split at hr
      · rw [hcl] at hr; cases hr
      · exact hm.once q r d hq hr
  · intro q; rw [ctx_setCtx]; split
    · rw [hmr]; intro hf; cases hf
    · exact hm.reserved q
  · intro q d; rw [ctx_setCtx]; split
    · rw [hcl]; intro hf; cases hf
    · exact hm.tried q d
  · intro q k; rw [ctx_setCtx]; split
    · rw [hk]; intro hf; cases hf
    · exact hi.digest q k
  · intro q k; rw [ctx_setCtx]; split
    · rw [hk]; intro hf; cases hf
    · exact hi.full q k
  · intro q k; rw [ctx_setCtx]; split
    · rw [hk]; intro hf; cases hf
    · exact hi.reburn q k
  · intro q k; rw [ctx_setCtx]; split
    · rw [hk]; intro hf; cases hf
    · exact hi.missing q k
  · intro q; rw [ctx_setCtx]; split
    · rcases hst with h | h <;> rw [h] <;> intro hf <;> simp at hf
    · exact hi.fullPass q
  · intro q; rw [ctx_setCtx]; split
    · rcases hst with h | h <;> rw [h] <;> intro hf <;> simp at hf
    · exact hi.reburnPass q
  · intro q; rw [ctx_setCtx]; split
    · rw [hat]; exact fun _ => hi.unburned p (by simp [hs])
    · exact hi.unburned q
  · intro q; rw [ctx_setCtx]; split
    · rcases hst with h | h <;> rw [h] <;> intro hf <;> simp at hf
    · exact hi.admitted q
  · intro ho q; rw [ctx_setCtx]; split
    · rw [hat]; exact hi.bounded ho p
    · exact hi.bounded ho q

/-- A rejection keeps the invariants (R6). -/
theorem State.Kept.settleRejected (h : s.Kept) (hs : (s.ctx p).state = .ident) (v : Verdict) :
    (s.settleRejected p v).Kept := by
  obtain ⟨e1, e2, e3, e4⟩ := h.ident_empty hs
  have hk := h.identChange hs (c := (s.ctx p).closed (rejectedRecord v)) (.inr rfl) rfl rfl rfl rfl rfl
  refine hk.congr ⟨?_, ?_, ?_, ?_, ?_, ?_, ?_, ?_, ?_, ?_⟩
  · intro q; rw [settleRejected_ctx, ctx_setCtx]
  all_goals simp [State.touchdownIsOpen]

end Sys2Proof.Machine
end

