-- ==== Sys2Proof/Laws/Service.lean ====
section
/-! SUPPORT. Laws/Service.lean: what key service and a check pass keep (R8, R37, R143). -/

namespace Sys2Proof.Machine

variable {s t : State} {p : PortId}

/-- What a context of WAIT holds: no key and no log reservation. -/
theorem State.Kept.wait_empty (h : s.Kept) (hs : (s.ctx p).state = .wait) :
    (s.ctx p).heldKey = none ∧ (s.ctx p).logReserved = false := by
  have h1 := h.custody.key p
  have h3 := h.custody.reservation p
  rw [hs] at h1 h3
  refine ⟨?_, h3⟩
  cases hk : (s.ctx p).heldKey with
  | none => rfl
  | some k => rw [hk] at h1; cases h1

/-- A service keeps the invariants (R8, R37). -/
theorem State.Kept.serveHead (h : s.Kept) (ht : s.serveHead = some t) : t.Kept := by
  obtain ⟨q, ws, k, ks, hwl, hpl, hcap, rfl⟩ := (serveHead_eq_some s).1 ht
  have hq : (s.ctx q).state = .wait := (h.wait.listed q).1 (by rw [hwl]; simp)
  obtain ⟨e1, e2⟩ := h.wait_empty hq
  refine State.Kept.congr (s := ({ s with waitList := ws, pool := ks } : State).setCtx q ((s.ctx q).served k)) ?_
    ⟨fun _ => by simp, by simp, by simp, by simp, by simp, by simp, by simp, by simp, by simp [State.touchdownIsOpen],
      fun _ => by simp⟩
  obtain ⟨hw, hk, hp, hl, hm, hi⟩ := h
  have hnd := hw.once
  rw [hwl, List.nodup_cons] at hnd
  have hs := hp.sorted
  rw [hpl, List.pairwise_cons] at hs
  have hr : ∀ j ∈ ks, j ∈ s.pool := fun j hj => by rw [hpl]; simp [hj]
  have hkm : k ∈ s.pool := by rw [hpl]; simp
  have hkr := hp.range k hkm
  have hkl := hp.label k hkm
  have hne : (s.ctx q).state ≠ .idle := by simp [hq]
  have hu := hi.unburned q (by simp [hq])
  generalize hs' : ({ s with waitList := ws, pool := ks } : State) = s'
  have hc : ∀ r, (s'.setCtx q ((s.ctx q).served k)).ctx r = if r = q then (s.ctx q).served k else s.ctx r := by
    intro r; rw [ctx_setCtx]; subst hs'; rfl
  have hcount : ∀ f, (s'.setCtx q ((s.ctx q).served k)).count f = (s.setCtx q ((s.ctx q).served k)).count f := by
    intro f; subst hs'; rfl
  have n1 : (s'.setCtx q ((s.ctx q).served k)).logReservations = s.logReservations + 1 :=
    (hcount _).trans (count_setCtx_join s q (f := (·.logReserved)) e2 rfl)
  have n2 : (s'.setCtx q ((s.ctx q).served k)).mapReservations = s.mapReservations :=
    (hcount _).trans (count_setCtx_same s q (f := (·.mapReserved)) rfl)
  have n3 : (s'.setCtx q ((s.ctx q).served k)).heldKeys = s.heldKeys + 1 :=
    (hcount _).trans (count_setCtx_join s q (f := (·.state.holdsKey)) (by rw [hq]; rfl) rfl)
  have n4 : (s'.setCtx q ((s.ctx q).served k)).poolCustody = s.poolCustody := by
    have hj := count_setCtx_join s q (f := (·.state == .held)) (c := (s.ctx q).served k) (by rw [hq]; rfl) rfl
    simp only [poolCustody_eq_count, hcount, hj, hpl]
    subst hs'
    simp
    omega
  have hlog : (s'.setCtx q ((s.ctx q).served k)).log = s.log := by subst hs'; rfl
  have hcn : (s'.setCtx q ((s.ctx q).served k)).counters = s.counters := by subst hs'; rfl
  have hbt : (s'.setCtx q ((s.ctx q).served k)).batch = s.batch := by subst hs'; rfl
  have hpo : (s'.setCtx q ((s.ctx q).served k)).pool = ks := by subst hs'; rfl
  have hwa : (s'.setCtx q ((s.ctx q).served k)).waitList = ws := by subst hs'; rfl
  have hdm : (s'.setCtx q ((s.ctx q).served k)).dieMap = s.dieMap := by subst hs'; rfl
  have hpm : (s'.setCtx q ((s.ctx q).served k)).params = s.params := by subst hs'; rfl
  have hop : (s'.setCtx q ((s.ctx q).served k)).touchdownIsOpen = s.touchdownIsOpen := by subst hs'; rfl
  have hct : (s'.setCtx q ((s.ctx q).served k)).control = s.control := by subst hs'; rfl
  refine ⟨⟨?_, ?_, ?_⟩, ⟨?_, ?_, ?_, ?_, ?_, ?_⟩, ⟨?_, ?_, ?_, ?_, ?_, ?_, ?_, ?_⟩, ⟨?_, ?_, ?_, ?_⟩,
    ⟨?_, ?_, ?_, ?_, ?_, ?_, ?_⟩, ⟨?_, ?_, ?_, ?_, ?_, ?_, ?_, ?_, ?_⟩⟩
  · intro ho; exact absurd (hw.outside (hop ▸ ho) q) hne
  · intro r; rw [hwa, hc]; split
    · subst_vars
      exact ⟨fun hr => absurd hr hnd.1, fun hr => by cases hr⟩
    · rename_i hrq
      rw [← hw.listed r, hwl]
      simp [hrq]
  · rw [hwa]; exact hnd.2
  · intro r; rw [hc]; split
    · rfl
    · exact hk.key r
  · intro r; rw [hc]; split
    · rfl
    · exact hk.reservation r
  · intro r; rw [hc]; split
    · intro _; simp [Context.served]
    · exact hk.exposure r
  · rw [hlog, n1]; omega
  · rw [hcn, hpo, n3]
    have := hk.accounting
    rw [hpl] at this
    simp only [List.length_cons] at this
    rw [this]
    congr 4
    omega
  · rw [hlog, hcn]; exact hk.sequence
  · rw [hpo]; exact hs.2
  · rw [hpo, hbt]; exact fun j hj => hp.range j (hr j hj)
  · rw [hpo, hbt]; exact fun j hj => hp.label j (hr j hj)
  · intro r j; rw [hc, hbt]; split
    · intro hf; simp only [Context.served, Option.some.injEq] at hf; subst hf; exact ⟨hkr.1, hkr.2, hkl⟩
    · exact hp.heldRange r j
  · intro r j; rw [hc, hpo]; split
    · intro hf; simp only [Context.served, Option.some.injEq] at hf; subst hf
      intro i hi' he
      have := hs.1 i hi'
      rw [he] at this
      exact Nat.lt_irrefl _ this
    · exact fun hf i hi' => hp.heldApart r j hf i (hr i hi')
  · intro r u j l hr' hu' he
    rw [hc] at hr' hu'
    split at hr' <;> split at hu'
    · subst_vars; rfl
    · simp only [Context.served, Option.some.injEq] at hr'; subst hr'
      exact absurd he (hp.heldApart u l hu' _ hkm)
    · simp only [Context.served, Option.some.injEq] at hu'; subst hu'
      exact absurd he.symm (hp.heldApart r j hr' _ hkm)
    · exact hp.heldOnce r u j l hr' hu' he
  · rw [n4]; exact hp.capacity
  · rw [hct, hbt, n4]; exact hp.unwrap
  · rw [hlog]; exact hl.distinct
  · rw [hlog, hbt]; exact hl.range
  · rw [hlog, hpo]; exact fun x hx j hj => hl.pool x hx j (hr j hj)
  · rw [hlog]
    intro x hx r j; rw [hc]; split
    · intro hf; simp only [Context.served, Option.some.injEq] at hf; subst hf; exact hl.pool x hx _ hkm
    · exact hl.held x hx r j
  · rw [hdm]; exact hm.sorted
  · rw [hdm]; exact hm.attempts
  · rw [hdm, n2]; exact hm.capacity
  · intro r; rw [hc]; split
    · subst_vars
      have := hm.claim r
      rw [hq] at this
      exact this
    · exact hm.claim r
  · intro r u d hr' hu'
    rw [hc] at hr' hu'
    refine hm.once r u d ?_ ?_
    · split at hr'
      · subst_vars; exact hr'
      · exact hr'
    · split at hu'
      · subst_vars; exact hu'
      · exact hu'
  · intro r; rw [hc, hdm]; split
    · subst_vars; exact hm.reserved r
    · exact hm.reserved r
  · intro r d; rw [hc, hdm]; split
    · subst_vars; exact hm.tried r d
    · exact hm.tried r d
  · intro r j; rw [hc]; split
    · intro hf; simp only [Context.served, Option.some.injEq] at hf ⊢; subst hf; rfl
    · exact hi.digest r j
  · intro r j; rw [hc]; split
    · intro hf _; simp only [Context.served, Option.some.injEq] at hf ⊢; subst hf; rfl
    · exact hi.full r j
  · intro r j; rw [hc]; split
    · intro _ hf; simp [Context.served] at hf
    · exact hi.reburn r j
  · intro r j; rw [hc]; split
    · intro _ w; simp [Context.served]
    · exact hi.missing r j
  · intro r; rw [hc]; split
    · intro _; rfl
    · exact hi.fullPass r
  · intro r; rw [hc]; split
    · intro hf; simp [Context.served] at hf
    · exact hi.reburnPass r
  · intro r; rw [hc]; split
    · intro _; rfl
    · exact hi.unburned r
  · intro r; rw [hc, hpm]; split
    · intro hf; simp [Context.served] at hf
    · exact hi.admitted r
  · intro ho r; rw [hc, hpm]; split
    · simp [Context.served]
    · exact hi.bounded (hop ▸ ho) r

theorem State.Kept.serviceKeys (h : s.Kept) : s.serviceKeys.Kept :=
  serve_keeps (fun _ _ ht h => h.serveHead ht) _ _ h

theorem State.Kept.serviceIf (h : s.Kept) (b : Bool) : (s.serviceIf b).Kept :=
  serviceIf_keeps (fun _ _ ht h => h.serveHead ht) _ _ h

/-- The identity check passes only an unclaimed coordinate, with a map entry TRIED or with none and a free slot (R142). -/
theorem identityCheck_pass {i : Identity} (h : s.identityCheck i = none) :
    s.claimed i.coord = false ∧
      ((∃ e, mapLookup s.dieMap i.coord = some e ∧ e.outcome = .tried) ∨
        (mapLookup s.dieMap i.coord = none ∧ s.dieMap.length + s.mapReservations < Config.mapCapacity)) := by
  unfold State.identityCheck at h
  dsimp only at h
  split at h
  · cases h
  · split at h
    · cases h
    · split at h
      · cases h
      · rename_i hcl
        refine ⟨by simpa using hcl, ?_⟩
        cases hlk : mapLookup s.dieMap i.coord with
        | none =>
          rw [hlk] at h
          simp only [Option.map_none] at h
          right
          refine ⟨rfl, ?_⟩
          split at h
          · cases h
          · split at h
            · cases h
            · rename_i hn
              simp only [Option.isNone_none, true_and, Nat.not_le] at hn
              exact hn
        | some e =>
          rw [hlk] at h
          simp only [Option.map_some] at h
          left
          refine ⟨e, rfl, ?_⟩
          cases he : e.outcome with
          | tried => rfl
          | bound k => rw [he] at h; simp only [] at h; split at h <;> cases h
          | voided k => rw [he] at h; cases h

/-- A check pass keeps the invariants (R143). -/
theorem State.Kept.passCheck (h : s.Kept) (hs : (s.ctx p).state = .ident)
    (hpass : s.identityCheck (s.ctx p).identity = none) : (s.passCheck p).Kept := by
  obtain ⟨e1, e2, e3, e4⟩ := h.ident_empty hs
  obtain ⟨hncl, hmap⟩ := identityCheck_pass hpass
  obtain ⟨hw, hk, hp, hl, hm, hi⟩ := h
  have hne : (s.ctx p).state ≠ .idle := by simp [hs]
  have hu := hi.unburned p (by simp [hs])
  have hnl : p ∉ s.waitList := fun hf => by
    have := (hw.listed p).1 hf
    rw [hs] at this; cases this
  have hfree : ∀ q c, (s.ctx q).claim = some c → c ≠ (s.ctx p).identity.coord := by
    intro q c hq he
    have : s.claimed (s.ctx p).identity.coord = true := (claimed_iff s _).2 ⟨q, he ▸ hq⟩
    rw [hncl] at this; cases this
  generalize hcx : ({ s.ctx p with
      state := .wait, claim := some (s.ctx p).identity.coord,
      mapReserved := (mapLookup s.dieMap (s.ctx p).identity.coord).isNone } : Context) = c
  have hT : s.passCheck p = ({ s with waitList := s.waitList ++ [p] } : State).setCtx p c := by
    subst hcx; rfl
  have hcst : c.state = .wait := by subst hcx; rfl
  have hchk : c.heldKey = none := by subst hcx; exact e1
  have hclr : c.logReserved = false := by subst hcx; exact e4
  have hccl : c.claim = some (s.ctx p).identity.coord := by subst hcx; rfl
  have hcmr : c.mapReserved = (mapLookup s.dieMap (s.ctx p).identity.coord).isNone := by subst hcx; rfl
  have hcid : c.identity = (s.ctx p).identity := by subst hcx; rfl
  have hcat : c.attempts = (s.ctx p).attempts := by subst hcx; rfl
  have hc : ∀ r, (s.passCheck p).ctx r = if r = p then c else s.ctx r := by
    intro r; rw [hT, ctx_setCtx]; rfl
  have hcount : ∀ f, (s.passCheck p).count f = (s.setCtx p c).count f := by intro f; rw [hT]; rfl
  have n1 : (s.passCheck p).logReservations = s.logReservations :=
    (hcount _).trans (count_setCtx_same s p (f := (·.logReserved)) (hclr.trans e4.symm))
  have n3 : (s.passCheck p).heldKeys = s.heldKeys :=
    (hcount _).trans (count_setCtx_same s p (f := (·.state.holdsKey)) (by rw [hcst, hs]; rfl))
  have n4 : (s.passCheck p).poolCustody = s.poolCustody := by
    have := count_setCtx_same s p (c := c) (f := (·.state == .held)) (by rw [hcst, hs]; rfl)
    simp [poolCustody_eq_count, hcount, this]
  have hwa : (s.passCheck p).waitList = s.waitList ++ [p] := by rw [hT]; rfl
  refine ⟨⟨?_, ?_, ?_⟩, ⟨?_, ?_, ?_, ?_, ?_, ?_⟩, ⟨?_, ?_, ?_, ?_, ?_, ?_, ?_, ?_⟩, ⟨?_, ?_, ?_, ?_⟩,
    ⟨?_, ?_, ?_, ?_, ?_, ?_, ?_⟩, ⟨?_, ?_, ?_, ?_, ?_, ?_, ?_, ?_, ?_⟩⟩
  · intro ho; exact absurd (hw.outside (by simpa [State.touchdownIsOpen] using ho) p) hne
  · intro r; rw [hwa, hc]; split
    · subst_vars; simp
    · rename_i hrp
      rw [← hw.listed r]; simp [hrp]
  · rw [hwa]
    rw [List.nodup_append]
    refine ⟨hw.once, by simp, ?_⟩
    intro a ha b hb
    simp only [List.mem_singleton] at hb
    subst hb
    exact fun he => hnl (he ▸ ha)
  · intro r; rw [hc]; split
    · rw [hchk, hcst]; rfl
    · exact hk.key r
  · intro r; rw [hc]; split
    · rw [hclr, hcst]; rfl
    · exact hk.reservation r
  · intro r; rw [hc]; split
    · rw [hcst]; intro hf; cases hf
    · exact hk.exposure r
  · rw [n1]; simpa using hk.capacity
  · rw [n3]; simpa using hk.accounting
  · simpa using hk.sequence
  · simpa using hp.sorted
  · simpa using hp.range
  · simpa using hp.label
  · intro r j; rw [hc]; split
    · rw [hchk]; intro hf; cases hf
    · simpa using hp.heldRange r j
  · intro r j; rw [hc]; split
    · rw [hchk]; intro hf; cases hf
    · simpa using hp.heldApart r j
  · intro r u j l hr' hu' he
    rw [hc] at hr' hu'
    split at hr'
    · rw [hchk] at hr'; cases hr'
    · split at hu'
      · rw [hchk] at hu'; cases hu'
      · exact hp.heldOnce r u j l hr' hu' he
  · rw [n4]; exact hp.capacity
  · rw [n4]; simpa using hp.unwrap
  · simpa using hl.distinct
  · simpa using hl.range
  · simpa using hl.pool
  · intro x hx r j; rw [hc]; split
    · rw [hchk]; intro hf; cases hf
    · exact hl.held x (by simpa using hx) r j
  · simpa using hm.sorted
  · simpa using hm.attempts
  · have hcp := hm.capacity
    rcases hmap with ⟨e, he, -⟩ | ⟨he, hlt⟩
    · have n2 : (s.passCheck p).mapReservations = s.mapReservations :=
        (hcount _).trans (count_setCtx_same s p (f := (·.mapReserved)) (by rw [hcmr, he, e3]; rfl))
      simpa [n2] using hcp
    · have n2 : (s.passCheck p).mapReservations = s.mapReservations + 1 :=
        (hcount _).trans (count_setCtx_join s p (f := (·.mapReserved)) e3 (by rw [hcmr, he]; rfl))
      rw [n2]
      simp
      omega
  · intro r; rw [hc]; split
    · rw [hccl, hcst, hcid]; rfl
    · exact hm.claim r
  · intro r u d hr' hu'
    rw [hc] at hr' hu'
    split at hr' <;> split at hu'
    · subst_vars; rfl
    · rw [hccl] at hr'
      exact absurd (Option.some.inj hr').symm (hfree u d hu')
    · rw [hccl] at hu'
      exact absurd (Option.some.inj hu').symm (hfree r d hr')
    · exact hm.once r u d hr' hu'
  · intro r; rw [hc]; split
    · rw [hcmr, hccl]
      intro hn
      exact ⟨_, rfl, by simpa using hn⟩
    · simpa using hm.reserved r
  · intro r d; rw [hc]; split
    · rw [hcmr, hccl]
      intro hd hn
      cases hd
      rcases hmap with ⟨e, he, ho⟩ | ⟨he, -⟩
      · exact ⟨e, by simpa using he, ho⟩
      · rw [he] at hn; cases hn
    · simpa using hm.tried r d
  · intro r j; rw [hc]; split
    · rw [hchk]; intro hf; cases hf
    · exact hi.digest r j
  · intro r j; rw [hc]; split
    · rw [hchk]; intro hf; cases hf
    · exact hi.full r j
  · intro r j; rw [hc]; split
    · rw [hchk]; intro hf; cases hf
    · exact hi.reburn r j
  · intro r j; rw [hc]; split
    · rw [hchk]; intro hf; cases hf
    · exact hi.missing r j
  · intro r; rw [hc]; split
    · rw [hcst]; intro hf; simp at hf
    · exact hi.fullPass r
  · intro r; rw [hc]; split
    · rw [hcst]; intro hf; simp at hf
    · exact hi.reburnPass r
  · intro r; rw [hc]; split
    · rw [hcat]; exact fun _ => hu
    · exact hi.unburned r
  · intro r; rw [hc]; split
    · rw [hcst]; intro hf; simp at hf
    · simpa using hi.admitted r
  · intro ho r; rw [hc]; split
    · rw [hcat]; simp [hu]
    · simpa using hi.bounded (by simpa [State.touchdownIsOpen] using ho) r

end Sys2Proof.Machine
end

