-- ==== Sys2Proof/Laws/Contexts.lean ====
section
/-! SUPPORT. Laws/Contexts.lean: what the events of a context keep: the starts and ends of transactions, aborts, contact loss and
supply faults (R5..R23). -/

namespace Sys2Proof.Machine

variable {s t : State} {p : PortId}

/-- A change of fields that these invariants do not read keeps them. -/
theorem State.Kept.setCtx_core (h : s.Kept) {c : Context} (hc : c.core = (s.ctx p).core) : (s.setCtx p c).Kept :=
  h.congr ⟨fun q => by rw [ctx_setCtx]; split <;> simp_all, rfl, rfl, rfl, rfl, rfl, rfl, rfl, rfl, fun _ => id⟩

/-- An exposed context moves to another state and keeps all else that these invariants read. -/
theorem State.Kept.moveState (h : s.Kept) {c : Context} (hold : (s.ctx p).state.holdsKey = true)
    (hc : c.core = { (s.ctx p).core with state := c.state }) (hnh : (s.ctx p).state ≠ .held)
    (still : c.state.holdsKey = true) (notHeld : c.state ≠ .held)
    (fullPass : c.state ∈ [.loading, .settling] → (s.ctx p).pass = .full)
    (reburnPass : c.state = .reburn → (s.ctx p).pass = .reburn)
    (unburned : c.state ∈ [.loading, .settling] → (s.ctx p).attempts = 0)
    (admitted : c.state ∈ [.ready, .reburn] → (s.ctx p).attempts < s.params.burnLimit) :
    (s.setCtx p c).Kept := by
  have hop : s.touchdownIsOpen = true := by
    cases ho : s.touchdownIsOpen with
    | true => rfl
    | false => exact absurd (h.wait.outside ho p) (holdsKey_ne hold).1
  have hst' := holdsKey_ne still
  have e := Context.mk.inj hc
  simp only [Context.core] at e
  refine h.move ⟨hold, still, notHeld, ?_, e.2.2.2.1, e.2.2.1, e.2.2.2.2.2.2.2.2.2.2.2.2.1,
    e.2.2.2.2.2.2.2.2.2.2.2.2.2.1, e.2.2.2.2.2.2.2.2.2.2.2.2.2.2.1, e.2.2.2.2.2.1, ?_, ?_, ?_, ?_, ?_, ?_, ?_, ?_⟩
  · rw [e.2.2.2.2.1]; exact (h.custody.exposure p hold).2 hnh
  · rw [e.2.2.2.2.2.2.1, e.2.2.2.2.2.2.2.1]; exact h.image.full p
  · rw [e.2.2.2.2.2.2.1, e.2.2.2.2.2.2.2.1]; exact h.image.reburn p
  · rw [e.2.2.2.2.2.2.2.2.2.2.1]; exact h.image.missing p
  · intro hm
    rw [e.2.2.2.2.2.2.2.1]
    refine fullPass ?_
    simp only [List.mem_cons, List.not_mem_nil, or_false] at hm ⊢
    rcases hm with hm | hm
    · exact absurd hm notHeld
    · exact hm
  · rw [e.2.2.2.2.2.2.2.1]; exact reburnPass
  · intro hm
    rw [e.2.2.2.2.2.2.2.2.2.2.2.1]
    refine unburned ?_
    simp only [List.mem_cons, List.not_mem_nil, or_false] at hm ⊢
    rcases hm with hm | hm | hm | hm
    · exact absurd hm hst'.2.1
    · exact absurd hm hst'.2.2.1
    · exact absurd hm notHeld
    · exact hm
  · rw [e.2.2.2.2.2.2.2.2.2.2.2.1]; exact admitted
  · rw [e.2.2.2.2.2.2.2.2.2.2.2.1]; exact h.image.bounded hop p

/-- A touchdown is open where a context is not IDLE. -/
theorem State.Kept.open_of_active (h : s.Kept) (hne : (s.ctx p).state ≠ .idle) : s.touchdownIsOpen = true := by
  cases ho : s.touchdownIsOpen with
  | true => rfl
  | false => exact absurd (h.wait.outside ho p) hne

/-- Supplies, events, ports, link, merge records and pins are not read by these invariants. -/
theorem State.Kept.aside (h : s.Kept) (e1 : t.contexts = s.contexts) (e2 : t.waitList = s.waitList)
    (e3 : t.pool = s.pool) (e4 : t.batch = s.batch) (e5 : t.counters = s.counters) (e6 : t.log = s.log)
    (e7 : t.dieMap = s.dieMap) (e8 : t.params = s.params) (e9 : t.td = s.td) (e10 : t.control = s.control) : t.Kept :=
  h.congr ⟨fun q => by rw [ctx_congr e1 q], e2, e3, e4, e5, e6, e7, by rw [e8], by simp [State.touchdownIsOpen, e9],
    fun job => by rw [e10]; exact id⟩

theorem State.Kept.raise (h : s.Kept) (e : Event) : (s.raise e).Kept :=
  h.aside rfl rfl rfl rfl rfl rfl rfl rfl rfl rfl

theorem State.Kept.switchOff (h : s.Kept) (p : PortId) : (s.switchOff p).Kept :=
  h.aside rfl rfl rfl rfl rfl rfl rfl rfl rfl rfl

theorem State.Kept.switchOn (h : s.Kept) (p : PortId) : (s.switchOn p).Kept :=
  h.aside (by simp) (by simp) (by simp) (by simp) (by simp) (by simp) (by simp) (by simp) (by simp) (by simp)

theorem State.Kept.setSupply (h : s.Kept) (p : PortId) (u : Supply) : (s.setSupply p u).Kept :=
  h.aside rfl rfl rfl rfl rfl rfl rfl rfl rfl rfl

theorem State.Kept.setPort (h : s.Kept) (p : PortId) (pt : Port) : (s.setPort p pt).Kept :=
  h.aside rfl rfl rfl rfl rfl rfl rfl rfl rfl rfl

theorem State.Kept.emit (h : s.Kept) (r : Response) : (s.emit r).Kept :=
  h.aside (by simp) (by simp) (by simp) (by simp) (by simp) (by simp) (by simp) (by simp) (by simp) (by simp)

theorem State.Kept.deliver (h : s.Kept) (r : Request) (st : Status) (w : Option Word) : (s.deliver r st w).Kept :=
  h.aside (by simp) (by simp) (by simp) (by simp) (by simp) (by simp) (by simp) (by simp) (by simp) (by simp)

theorem State.Kept.answerQueue (h : s.Kept) (p : PortId) (st : Status) : (s.answerQueue p st).Kept :=
  h.aside (by simp) (by simp) (by simp) (by simp) (by simp) (by simp) (by simp) (by simp) (by simp) (by simp)

/-! ### Capture and the identity check -/

theorem State.Kept.serveJoined (h : s.Kept) (p : PortId) : (s.serveJoined p).Kept := by
  unfold State.serveJoined
  dsimp only
  split
  · exact h.serviceKeys.raise _
  · exact h.serviceKeys

theorem State.Kept.checkIdentity (h : s.Kept) (hs : (s.ctx p).state = .ident) : (s.checkIdentity p).Kept := by
  unfold State.checkIdentity
  split
  · exact (h.raise _).settleRejected hs _
  · exact h.settleRejected hs _
  · rename_i hp
    exact (h.passCheck hs hp).serveJoined p

theorem State.Kept.captureField (h : s.Kept) (hs : (s.ctx p).state = .ident) (f : CaptureField) (w : Word) :
    (s.captureField p f w).Kept := by
  obtain ⟨e1, e2, e3, e4⟩ := h.ident_empty hs
  unfold State.captureField
  dsimp only
  have hk : (s.setCtx p { s.ctx p with identity := (s.ctx p).identity.record f w }).Kept :=
    h.identChange hs (.inl hs) e1 e2 e3 e4 rfl
  split
  · exact hk.checkIdentity (by simpa using hs)
  · exact hk

/-! ### Starts (R9, R12, R19) -/

theorem State.Kept.atStart (h : s.Kept) (p : PortId) (a : Action) : (s.setCtx p ((s.ctx p).atStart a)).Kept := by
  unfold Context.atStart
  split
  · rename_i w hs
    have hop := h.open_of_active (p := p) (by simp [hs])
    refine h.move ⟨by rw [hs]; rfl, rfl, nofun, rfl, rfl, rfl, rfl, rfl, rfl, rfl, h.image.full p, h.image.reburn p,
      h.image.missing p, fun _ => h.image.fullPass p (by simp [hs]), nofun,
      fun _ => h.image.unburned p (by simp [hs]), fun hf => by simp at hf, h.image.bounded hop p⟩
  · rename_i hs
    have hop := h.open_of_active (p := p) (by simp [hs])
    have hexp := (h.custody.exposure p (by rw [hs]; rfl)).2 (by simp [hs])
    have hat := h.image.admitted p (by simp [hs])
    refine h.move ⟨by rw [hs]; rfl, rfl, nofun, hexp, rfl, rfl, rfl, rfl, rfl, rfl, h.image.full p, h.image.reburn p,
      h.image.missing p, fun hf => by simp at hf, nofun, fun hf => by simp at hf, fun hf => by simp at hf,
      hat⟩
  · rename_i hs
    exact h.moveState (by rw [hs]; rfl) rfl (by simp [hs]) rfl nofun (fun hf => by simp at hf)
      nofun (fun hf => by simp at hf) (fun hf => by simp at hf)
  · exact h.setCtx_core rfl

/-! ### Ends -/

theorem State.Kept.injectedEnd (h : s.Kept) (p : PortId) (w : Fin 17) :
    (s.injectedEnd p w).Kept := by
  have hk : (s.setCtx p { s.ctx p with injected := (s.ctx p).injected ||| wordBit w }).Kept := h.setCtx_core rfl
  unfold State.injectedEnd
  dsimp only
  split
  · split
    · rename_i hs
      refine State.Kept.switchOn ?_ p
      refine hk.moveState (by simp [hs]; rfl) (by simp [Context.core]) (by simp [hs]) rfl (by simp) (fun _ => ?_) nofun
        (fun _ => ?_) (fun hf => by simp at hf)
      · simpa using h.image.fullPass p (by simp [hs])
      · simpa using h.image.unburned p (by simp [hs])
    · rename_i hs
      refine hk.moveState (by simp [hs]; rfl) (by simp [Context.core]) (by simp [hs]) rfl (by simp) (fun hf => by simp at hf)
        nofun (fun hf => by simp at hf) (fun _ => ?_)
      simpa using h.image.admitted p (by simp [hs])
    · exact hk
  · exact hk

theorem State.Kept.burnEnd (h : s.Kept) (hs : (s.ctx p).state = .burning) (o : TxOutcome) : (s.burnEnd p o).Kept := by
  have hold : (s.ctx p).state.holdsKey = true := by rw [hs]; rfl
  unfold State.burnEnd
  split
  · exact h.moveState hold (by simp [Context.core]) (by simp [hs]) rfl (by simp) (fun hf => by simp at hf)
      nofun (fun hf => by simp at hf) (fun hf => by simp at hf)
  · exact h.settleVoided hold _
  · exact h.settleVoided hold _
  · exact h

theorem State.Kept.lockEnd (h : s.Kept) (hs : (s.ctx p).state = .locking) (o : TxOutcome) : (s.lockEnd p o).Kept := by
  have hold : (s.ctx p).state.holdsKey = true := by rw [hs]; rfl
  unfold State.lockEnd
  split
  · exact h.settleBound hold
  · exact h.settleVoided hold _
  · exact h.settleVoided hold _
  · exact h

theorem State.Kept.endDrain (h : s.Kept) (hs : (s.ctx p).state.isDraining = true) (c : DrainCause) (o : TxOutcome) :
    (s.endDrain p c o).Kept := by
  have hold : (s.ctx p).state.holdsKey = true := by
    revert hs; cases (s.ctx p).state <;> simp [ContextState.isDraining, ContextState.holdsKey]
  unfold State.endDrain
  split
  · split
    · exact h.settleBound hold
    · exact h.settleVoided hold _
  · exact h.settleVoided hold _
  · exact h.settleVoided hold _

/-- The missing bits of a read are bits of the expected word (R72). -/
theorem missingBits_subset (e r : Word) : missingBits e r &&& ~~~e = 0 := by
  ext i hi
  simp [missingBits]
  exact fun h _ => h

/-- A classification keeps every missing mask within the expected words (R73, R76). -/
theorem afterVerify_missing (c : Context) (w v : Fin 17) (r : Word)
    (h : ∀ v : Fin 17, c.missing[v] &&& ~~~c.expectedWord v = 0) :
    (c.afterVerify w r).missing[v] &&& ~~~c.expectedWord v = 0 := by
  simp only [Context.afterVerify]
  by_cases hv : w = v
  · subst hv
    simp [missingBits_subset]
  · have : w.val ≠ v.val := fun he => hv (Fin.ext he)
    simp [this]
    simpa using h v

theorem State.Kept.passEnd (h : s.Kept) (hs : (s.ctx p).state = .checking) : (s.passEnd p).Kept := by
  have hold : (s.ctx p).state.holdsKey = true := by rw [hs]; rfl
  have hop := h.open_of_active (p := p) (by simp [hs])
  have hexp := (h.custody.exposure p hold).2 (by simp [hs])
  unfold State.passEnd
  dsimp only
  split
  · exact h.moveState hold (by simp [Context.core]) (by simp [hs]) rfl (by simp) (fun hf => by simp at hf)
      nofun (fun hf => by simp at hf) (fun hf => by simp at hf)
  · split
    · exact h.settleVoided hold _
    · rename_i hlt
      refine h.move ⟨hold, rfl, by simp [Context.startReburn], hexp, rfl, rfl, rfl, rfl, rfl, rfl,
        fun _ _ hf => by simp [Context.startReburn] at hf, fun k hk _ => ⟨(s.ctx p).missing, rfl, h.image.missing p k hk⟩,
        h.image.missing p, fun hf => by simp [Context.startReburn] at hf, fun _ => rfl,
        fun hf => by simp [Context.startReburn] at hf, fun _ => by simpa [Context.startReburn] using hlt,
        h.image.bounded hop p⟩

theorem State.Kept.verifyEnd (h : s.Kept) (hs : (s.ctx p).state = .checking) (w : Fin 17) (r : Word) :
    (s.verifyEnd p w r).Kept := by
  have hold : (s.ctx p).state.holdsKey = true := by rw [hs]; rfl
  have hop := h.open_of_active (p := p) (by simp [hs])
  have hexp := (h.custody.exposure p hold).2 (by simp [hs])
  unfold State.verifyEnd
  dsimp only
  split
  · exact h.settleVoided hold _
  · have hk : (s.setCtx p ((s.ctx p).afterVerify w r)).Kept := by
      refine h.move ⟨hold, by simpa [Context.afterVerify] using hold, by simp [Context.afterVerify, hs], hexp, rfl, rfl, rfl,
        rfl, rfl, rfl, h.image.full p, h.image.reburn p,
        fun k hk v => afterVerify_missing _ w v r (h.image.missing p k hk), ?_, ?_, ?_, ?_, h.image.bounded hop p⟩
      · simp [Context.afterVerify, hs]
      · simp [Context.afterVerify, hs]
      · simp [Context.afterVerify, hs]
      · simp [Context.afterVerify, hs]
    split
    · exact hk.passEnd (by simpa [Context.afterVerify] using hs)
    · exact hk

theorem State.Kept.contextAtEnd (h : s.Kept) (p : PortId) (a : Action) (o : TxOutcome) :
    (s.contextAtEnd p a o).Kept := by
  unfold State.contextAtEnd
  split
  · rename_i hs; exact h.endDrain (by rw [hs]; rfl) _ _
  · exact h.captureField (by assumption) _ _
  · exact h.injectedEnd _ _
  · exact h.burnEnd (by assumption) _
  · exact h.lockEnd (by assumption) _
  · exact h.verifyEnd (by assumption) _ _
  · exact h

/-! ### Aborts, contact loss, supply faults -/

/-- A context that holds an exposed key enters DRAINING. -/
theorem State.Kept.drain (h : s.Kept) (hold : (s.ctx p).state.holdsKey = true) (hnh : (s.ctx p).state ≠ .held)
    (c : DrainCause) : (s.setCtxState p (.draining c)).Kept :=
  h.moveState hold (by simp [Context.core]) hnh rfl (by simp) (fun hf => by simp at hf) nofun
    (fun hf => by simp at hf) (fun hf => by simp at hf)

theorem State.Kept.abortContext (h : s.Kept) (p : PortId) : (s.abortContext p).Kept := by
  unfold State.abortContext
  split
  iterate 3 exact h
  iterate 3 exact h.settleAbandoned (by simp [*])
  iterate 6
    rename_i hs
    have hold : (s.ctx p).state.holdsKey = true := by rw [hs]; rfl
    split
    · exact (h.drain hold (by simp [hs]) _).switchOff p
    · exact h.settleVoided hold _
  · rename_i hs
    exact (h.drain (by rw [hs]; rfl) (by simp [hs]) _).switchOff p
  · rename_i hs
    exact h.drain (by rw [hs]; rfl) (by simp [hs]) _

theorem State.Kept.contactLostContext (h : s.Kept) (p : PortId) : (s.contactLostContext p).Kept := by
  unfold State.contactLostContext
  split
  iterate 2 exact h
  iterate 3 exact h.settleAbandoned (by simp [*])
  · rename_i hs; exact h.endDrain (by rw [hs]; rfl) _ _
  · rename_i h1 h2 h3 h4 h5 h6
    refine h.settleVoided ?_ _
    revert h1 h2 h3 h4 h5 h6
    cases (s.ctx p).state <;> simp [ContextState.holdsKey]

theorem State.Kept.supplyFaultContext (h : s.Kept) (p : PortId) : (s.supplyFaultContext p).Kept := by
  unfold State.supplyFaultContext
  split
  iterate 4
    rename_i hs
    have hold : (s.ctx p).state.holdsKey = true := by rw [hs]; rfl
    split
    · exact h.drain hold (by simp [hs]) _
    · exact h.settleVoided hold _
  iterate 2
    rename_i hs
    exact h.drain (by rw [hs]; rfl) (by simp [hs]) _
  · rename_i hs
    exact h.drain (by rw [hs]; rfl) (by simp [hs]) _
  · exact h

theorem State.Kept.settleFaultContext (h : s.Kept) (p : PortId) : (s.settleFaultContext p).Kept := by
  unfold State.settleFaultContext
  split
  · rename_i hs
    have hold : (s.ctx p).state.holdsKey = true := by rw [hs]; rfl
    split
    · exact h.drain hold (by simp [hs]) _
    · exact h.settleVoided hold _
  · exact h

theorem State.Kept.settleExpires (h : s.Kept) (hb : 1 ≤ s.params.burnLimit) (p : PortId) : (s.settleExpires p).Kept := by
  unfold State.settleExpires
  split
  · split
    · dsimp only
      split
      · rename_i hs
        have hs' : (s.ctx p).state = .settling := hs
        refine (h.setSupply p _).moveState (by rw [hs]; rfl) (by simp [Context.core]) (by simp [hs']) rfl (by simp)
          (fun hf => by simp at hf) nofun (fun hf => by simp at hf) (fun _ => ?_)
        have := h.image.unburned p (by simp [hs'])
        simp [this]
        omega
      · exact h.setSupply p _
    · exact ((h.switchOff p).raise _).settleFaultContext p
  · exact h

end Sys2Proof.Machine
end

