-- ==== Sys2Proof/Laws/Commands.lean ====
section
/-! SUPPORT. Laws/Commands.lean: what the commands and the touchdown keep of the invariants of keys, log and map. -/

namespace Sys2Proof.Machine

variable {s t : State} {p : PortId}

/-! ### States in which no context holds anything -/

/-- A context that holds no key, no claim and no reservation: in IDLE, IDENT or DONE. -/
structure Context.Empty (c : Context) : Prop where
  state : c.state = .idle ∨ c.state = .ident ∨ c.state = .done
  key : c.heldKey = none
  claim : c.claim = none
  mapReserved : c.mapReserved = false
  logReserved : c.logReserved = false

theorem Context.Empty.holdsKey {c : Context} (h : c.Empty) : c.state.holdsKey = false := by
  rcases h.state with h | h | h <;> rw [h] <;> rfl

theorem Context.Empty.not_held {c : Context} (h : c.Empty) : (c.state == .held) = false := by
  rcases h.state with h | h | h <;> rw [h] <;> rfl

theorem Context.Empty.not_wait {c : Context} (h : c.Empty) : c.state ≠ .wait := by
  rcases h.state with h | h | h <;> rw [h] <;> simp

/-- The shared tables, with no context holding anything. -/
structure State.TablesSound (s : State) : Prop where
  records : s.log.records.length ≤ Config.logCapacity
  accounting : s.counters.accepted =
    BitVec.ofNat 32 s.pool.length + s.counters.bound + s.counters.voided + s.counters.purged
  sequence : s.log.nextSequence = s.counters.bound + s.counters.voided
  sorted : s.pool.Pairwise fun a b => a.index < b.index
  range : ∀ k ∈ s.pool, 0 < k.index ∧ k.index ≤ s.batch.floor
  label : ∀ k ∈ s.pool, k.label = s.batch.label
  size : s.pool.length ≤ Config.poolCapacity
  unwrap : ∀ job, s.control.executor = .unwrapping job →
    s.batch.floor < job.index ∧ job.label = s.batch.label ∧ s.pool.length < Config.poolCapacity
  distinct : s.log.records.Pairwise fun a b => a.keyIndex ≠ b.keyIndex
  recordRange : ∀ r ∈ s.log.records, r.keyIndex ≤ s.batch.floor
  apart : ∀ r ∈ s.log.records, ∀ k ∈ s.pool, k.index ≠ r.keyIndex
  mapOrder : mapSorted s.dieMap
  attempts : ∀ e ∈ s.dieMap, 1 ≤ e.attempts ∧ e.attempts ≤ Config.maxDieAttempts
  mapSize : s.dieMap.length ≤ Config.mapCapacity

theorem State.Kept.ofEmpty (ht : s.TablesSound) (he : ∀ p, (s.ctx p).Empty) (hwl : s.waitList = [])
    (hout : s.touchdownIsOpen = false → ∀ p, (s.ctx p).state = .idle)
    (hun : ∀ p, (s.ctx p).state = .ident → (s.ctx p).attempts = 0)
    (hat : s.touchdownIsOpen = true → ∀ p, (s.ctx p).attempts ≤ s.params.burnLimit) : s.Kept := by
  have n1 : s.logReservations = 0 := (count_eq_zero s _).2 fun p => (he p).logReserved
  have n2 : s.mapReservations = 0 := (count_eq_zero s _).2 fun p => (he p).mapReserved
  have n3 : s.heldKeys = 0 := (count_eq_zero s _).2 fun p => (he p).holdsKey
  have n4 : s.poolCustody = s.pool.length := by
    rw [poolCustody_eq_count, (count_eq_zero s _).2 fun p => (he p).not_held]; rfl
  have hk : ∀ p k, (s.ctx p).heldKey ≠ some k := fun p k hf => by rw [(he p).key] at hf; cases hf
  have hcl : ∀ p c, (s.ctx p).claim ≠ some c := fun p c hf => by rw [(he p).claim] at hf; cases hf
  have hns : ∀ p st, st ≠ .idle → st ≠ .ident → st ≠ .done → (s.ctx p).state ≠ st := by
    intro p st h1 h2 h3 hf
    rcases (he p).state with h | h | h <;> rw [h] at hf <;> simp_all
  refine ⟨⟨hout, ?_, ?_⟩, ⟨?_, ?_, ?_, ?_, ?_, ht.sequence⟩, ⟨ht.sorted, ht.range, ht.label, ?_, ?_, ?_, ?_, ?_⟩,
    ⟨ht.distinct, ht.recordRange, ht.apart, ?_⟩, ⟨ht.mapOrder, ht.attempts, ?_, ?_, ?_, ?_, ?_⟩,
    ⟨?_, ?_, ?_, ?_, ?_, ?_, ?_, ?_, hat⟩⟩
  · intro p; rw [hwl]; simp [(he p).not_wait]
  · rw [hwl]; exact List.nodup_nil
  · intro p; rw [(he p).key, (he p).holdsKey]; rfl
  · intro p; rw [(he p).logReserved, (he p).holdsKey]
  · intro p hf; rw [(he p).holdsKey] at hf; cases hf
  · rw [n1]; exact ht.records
  · rw [n3]; exact ht.accounting
  · exact fun p k hf => absurd hf (hk p k)
  · exact fun p k hf => absurd hf (hk p k)
  · exact fun p q k j hf => absurd hf (hk p k)
  · rw [n4]; exact ht.size
  · rw [n4]; exact ht.unwrap
  · exact fun r _ p k hf => absurd hf (hk p k)
  · rw [n2]; exact ht.mapSize
  · intro p
    rw [(he p).claim]
    rcases (he p).state with h | h | h <;> rw [h] <;> rfl
  · exact fun p q c hf => absurd hf (hcl p c)
  · intro p hf; rw [(he p).mapReserved] at hf; cases hf
  · exact fun p c hf => absurd hf (hcl p c)
  · exact fun p k hf => absurd hf (hk p k)
  · exact fun p k hf => absurd hf (hk p k)
  · exact fun p k hf => absurd hf (hk p k)
  · exact fun p k hf => absurd hf (hk p k)
  · intro p hf
    rcases (he p).state with h | h | h <;> rw [h] at hf <;> simp at hf
  · exact fun p hf => absurd hf (hns p _ (by simp) (by simp) (by simp))
  · intro p hf
    rcases (he p).state with h | h | h
    · rw [h] at hf; simp at hf
    · exact hun p h
    · rw [h] at hf; simp at hf
  · intro p hf
    rcases (he p).state with h | h | h <;> rw [h] at hf <;> simp at hf

/-- A context in IDLE, IDENT or DONE holds nothing. -/
theorem State.Kept.empty (h : s.Kept) (hs : (s.ctx p).state = .idle ∨ (s.ctx p).state = .ident ∨ (s.ctx p).state =
    .done) :
    (s.ctx p).Empty := by
  have hn : (s.ctx p).state.holdsKey = false := by rcases hs with h | h | h <;> rw [h] <;> rfl
  have h1 := h.custody.key p
  have h2 := h.map.claim p
  have h3 := h.custody.reservation p
  rw [hn] at h1 h3
  have hc : (s.ctx p).claim = none := by
    rw [h2]; rcases hs with h | h | h <;> rw [h] <;> rfl
  refine ⟨hs, ?_, hc, ?_, h3⟩
  · cases hk : (s.ctx p).heldKey with
    | none => rfl
    | some k => rw [hk] at h1; cases h1
  · cases hr : (s.ctx p).mapReserved with
    | false => rfl
    | true => obtain ⟨c, hc', -⟩ := h.map.reserved p hr; rw [hc] at hc'; cases hc'

/-- Where every context is empty the tables are sound by themselves. -/
theorem State.Kept.tables (h : s.Kept) (he : ∀ p, (s.ctx p).Empty) : s.TablesSound := by
  have n1 : s.logReservations = 0 := (count_eq_zero s _).2 fun p => (he p).logReserved
  have n2 : s.mapReservations = 0 := (count_eq_zero s _).2 fun p => (he p).mapReserved
  have n3 : s.heldKeys = 0 := (count_eq_zero s _).2 fun p => (he p).holdsKey
  have n4 : s.poolCustody = s.pool.length := by
    rw [poolCustody_eq_count, (count_eq_zero s _).2 fun p => (he p).not_held]; rfl
  have a1 := h.custody.capacity
  have a2 := h.custody.accounting
  have a3 := h.pool.capacity
  have a4 := h.pool.unwrap
  have a5 := h.map.capacity
  rw [n1] at a1; rw [n3] at a2; rw [n4] at a3 a4; rw [n2] at a5
  exact ⟨a1, a2, h.custody.sequence, h.pool.sorted, h.pool.range, h.pool.label, a3, a4, h.log.distinct, h.log.range,
    h.log.pool, h.map.sorted, h.map.attempts, a5⟩

theorem State.Kept.outside_empty (h : s.Kept) (ho : s.touchdownIsOpen = false) : ∀ p, (s.ctx p).Empty :=
  fun p => h.empty (.inl (h.wait.outside ho p))

theorem State.Kept.waitList_nil (h : s.Kept) (he : ∀ p, (s.ctx p).state ≠ .wait) : s.waitList = [] := by
  cases hw : s.waitList with
  | nil => rfl
  | cons q ws => exact absurd ((h.wait.listed q).1 (by rw [hw]; simp)) (he q)

/-! ### Reset -/

theorem ctx_reset (p : PortId) : State.reset.ctx p = Context.reset p := by
  simp [State.ctx, State.reset]

/-- Reset leaves the invariants (R1, R187). -/
theorem kept_taken (s : State) : s.taken.Kept := by
  have hc : ∀ p, s.taken.ctx p = Context.reset p := fun p => ctx_reset p
  refine State.Kept.ofEmpty ⟨by simp [State.taken, State.reset, Config.logCapacity], rfl, rfl, by simp [State.taken,
      State.reset],
    by simp [State.taken, State.reset], by simp [State.taken, State.reset],
    by simp [State.taken, State.reset, Config.poolCapacity], by simp [State.taken, State.reset],
    by simp [State.taken, State.reset], by simp [State.taken, State.reset], by simp [State.taken, State.reset],
    by simp [State.taken, State.reset, mapSorted], by simp [State.taken, State.reset],
    by simp [State.taken, State.reset, Config.mapCapacity]⟩
    (fun p => by rw [hc]; exact ⟨.inl rfl, rfl, rfl, rfl, rfl⟩) rfl (fun _ p => by rw [hc]; rfl)
    (fun p hf => by rw [hc] at hf; cases hf) (fun hf => by cases hf)

/-! ### Commands -/

theorem State.Kept.respond (h : s.Kept) (tag : Byte) (st : Status) (l : List Byte) : (s.respond tag st l).Kept :=
    h.emit _
theorem State.Kept.respondOk (h : s.Kept) (tag : Byte) (l : List Byte) : (s.respondOk tag l).Kept := h.emit _
theorem State.Kept.refuse (h : s.Kept) (tag : Byte) (st : Status) : (s.refuse tag st).Kept := h.emit _

/-- The executor and its queue are read for the unwrap in flight alone. -/
theorem State.Kept.control (h : s.Kept) (c : Control)
    (hc : ∀ job, c.executor = .unwrapping job → s.control.executor = .unwrapping job) :
    ({ s with control := c } : State).Kept :=
  h.congr ⟨fun _ => rfl, rfl, rfl, rfl, rfl, rfl, rfl, rfl, rfl, hc⟩

theorem State.Kept.cmdParamSet (h : s.Kept) (tag id : Byte) (v : Word) : (cmdParamSet tag id v s).Kept := by
  unfold Machine.cmdParamSet
  split
  · exact h.refuse _ _
  · rename_i q _
    split
    · exact h.refuse _ _
    · rename_i hq
      refine State.Kept.respondOk ?_ _ _
      have same : ∀ t : State, t.contexts = s.contexts → t.waitList = s.waitList → t.pool = s.pool →
          t.batch = s.batch → t.counters = s.counters → t.log = s.log → t.dieMap = s.dieMap →
          t.params.burnLimit = s.params.burnLimit → t.td = s.td → t.control = s.control → t.Kept :=
        fun t e1 e2 e3 e4 e5 e6 e7 e8 e9 e10 =>
          h.congr ⟨fun q => by rw [ctx_congr e1 q], e2, e3, e4, e5, e6, e7, e8, by simp [State.touchdownIsOpen, e9],
            fun job => by rw [e10]; exact fun hj => hj⟩
      cases q
      case burnLimit =>
        have ho : s.touchdownIsOpen = false := by simpa using hq
        have he := h.outside_empty ho
        exact State.Kept.ofEmpty (s := s.setParam .burnLimit v) ⟨(h.tables he).1, (h.tables he).2, (h.tables he).3,
            (h.tables he).4, (h.tables he).5, (h.tables he).6,
          (h.tables he).7, (h.tables he).8, (h.tables he).9, (h.tables he).10, (h.tables he).11, (h.tables he).12,
          (h.tables he).13, (h.tables he).14⟩ he (h.waitList_nil fun p => (he p).not_wait)
          (fun _ => h.wait.outside ho)
          (fun p hf => by
            have := h.wait.outside ho p
            exact absurd hf (by show (s.ctx p).state ≠ _; simp [this]))
          (fun hf => by have hf' : s.touchdownIsOpen = true := hf; rw [ho] at hf'; cases hf')
      all_goals exact same _ rfl rfl rfl rfl rfl rfl rfl rfl rfl rfl

theorem State.Kept.cmdBatchOpen (h : s.Kept) (hx : ∀ job, s.control.executor ≠ .unwrapping job) (tag : Byte)
    (label floor : Long) : (cmdBatchOpen tag label floor s).Kept := by
  unfold Machine.cmdBatchOpen
  split
  · exact h.refuse _ _
  · rename_i hn
    simp only [not_or, Decidable.not_not] at hn
    obtain ⟨hpe, hhk⟩ := hn
    have hno : ∀ p, (s.ctx p).state.holdsKey = false := (count_eq_zero s _).1 hhk
    have hk : ∀ p k, (s.ctx p).heldKey ≠ some k := fun p k hf => by
      have := h.custody.key p
      rw [hf, hno] at this; cases this
    have hfl : s.batch.floor ≤ (if s.batch.floor < floor then floor else s.batch.floor) := by
      split
      · exact BitVec.le_of_lt (by assumption)
      · exact BitVec.le_refl _
    dsimp only
    refine State.Kept.respondOk ?_ _ _
    obtain ⟨hw, hkk, hp, hl, hm, hi⟩ := h
    refine ⟨⟨hw.outside, hw.listed, hw.once⟩, ⟨hkk.key, hkk.reservation, hkk.exposure, hkk.capacity, ?_, ?_⟩,
      ⟨hp.sorted, ?_, ?_, ?_, ?_, ?_, hp.capacity, ?_⟩, ⟨hl.distinct, ?_, hl.pool, hl.held⟩,
      ⟨hm.sorted, hm.attempts, hm.capacity, hm.claim, hm.once, hm.reserved, hm.tried⟩,
      ⟨hi.digest, hi.full, hi.reburn, hi.missing, hi.fullPass, hi.reburnPass, hi.unburned, hi.admitted, hi.bounded⟩⟩
    · show (0 : Long) = BitVec.ofNat 32 (s.pool.length + s.heldKeys) + 0 + 0 + 0
      rw [hhk, hpe]; rfl
    · rfl
    · intro k hf
      have hf' : k ∈ s.pool := hf
      rw [hpe] at hf'; cases hf'
    · intro k hf
      have hf' : k ∈ s.pool := hf
      rw [hpe] at hf'; cases hf'
    · exact fun p k hf => absurd hf (hk p k)
    · exact fun p k hf => absurd hf (hk p k)
    · exact fun p q k j hf => absurd hf (hk p k)
    · exact fun job hf => absurd hf (hx job)
    · exact fun r hr => BitVec.le_trans (hl.range r hr) hfl

theorem State.Kept.cmdKeyLoad (h : s.Kept) (tag : Byte) (r : KeyRecord) : (cmdKeyLoad tag r s).Kept := by
  unfold Machine.cmdKeyLoad
  split
  · exact h.refuse _ _
  · rename_i hn
    have hlt : s.batch.floor < r.index ∧ s.poolCustody < Config.poolCapacity := by
      unfold State.keyLoadRefusal at hn
      split at hn
      · cases hn
      · split at hn
        · cases hn
        · split at hn
          · cases hn
          · split at hn
            · cases hn
            · split at hn
              · cases hn
              · rename_i h1 h2
                exact ⟨Decidable.not_not.1 h1, by omega⟩
    obtain ⟨hw, hkk, hp, hl, hm, hi⟩ := h
    refine ⟨⟨hw.outside, hw.listed, hw.once⟩, ⟨hkk.key, hkk.reservation, hkk.exposure, hkk.capacity, hkk.accounting,
      hkk.sequence⟩, ⟨hp.sorted, hp.range, hp.label, hp.heldRange, hp.heldApart, hp.heldOnce, hp.capacity, ?_⟩,
      ⟨hl.distinct, hl.range, hl.pool, hl.held⟩,
      ⟨hm.sorted, hm.attempts, hm.capacity, hm.claim, hm.once, hm.reserved, hm.tried⟩,
      ⟨hi.digest, hi.full, hi.reburn, hi.missing, hi.fullPass, hi.reburnPass, hi.unburned, hi.admitted, hi.bounded⟩⟩
    intro job hj
    simp only [State.setExecutor, Executor.unwrapping.injEq] at hj
    subst hj
    exact ⟨hlt.1, rfl, hlt.2⟩

theorem State.Kept.cmdKeyPurge (h : s.Kept) (tag : Byte) : (cmdKeyPurge tag s).Kept := by
  have key : ({ s with pool := [], counters :=
      { s.counters with purged := s.counters.purged + BitVec.ofNat 32 s.pool.length } } : State).Kept := by
    obtain ⟨hw, hkk, hp, hl, hm, hi⟩ := h
    have hcap : s.count (·.state == .held) ≤ s.poolCustody := by rw [poolCustody_eq_count]; omega
    refine ⟨⟨hw.outside, hw.listed, hw.once⟩, ⟨hkk.key, hkk.reservation, hkk.exposure, hkk.capacity, ?_, hkk.sequence⟩,
      ⟨List.Pairwise.nil, by simp, by simp, hp.heldRange, by simp, hp.heldOnce, ?_, ?_⟩,
      ⟨hl.distinct, hl.range, by simp, hl.held⟩,
      ⟨hm.sorted, hm.attempts, hm.capacity, hm.claim, hm.once, hm.reserved, hm.tried⟩,
      ⟨hi.digest, hi.full, hi.reburn, hi.missing, hi.fullPass, hi.reburnPass, hi.unburned, hi.admitted, hi.bounded⟩⟩
    · have := hkk.accounting
      show s.counters.accepted = BitVec.ofNat 32 (0 + s.heldKeys) + s.counters.bound + s.counters.voided +
        (s.counters.purged + BitVec.ofNat 32 s.pool.length)
      rw [this]
      bv_omega
    · refine Nat.le_trans ?_ hp.capacity
      show 0 + s.count (·.state == .held) ≤ _
      omega
    · intro job hj
      obtain ⟨h1, h2, h3⟩ := hp.unwrap job hj
      refine ⟨h1, h2, Nat.lt_of_le_of_lt ?_ h3⟩
      show 0 + s.count (·.state == .held) ≤ _
      omega
  unfold Machine.cmdKeyPurge
  dsimp only
  refine State.Kept.respondOk ?_ _ _
  split
  · exact key
  · unfold State.checkPoolLow
    split
    · exact key.raise _
    · exact key

theorem accounting_succ {a b v p : Long} {n h : Nat} (e : a = BitVec.ofNat 32 (n + h) + b + v + p) :
    a + 1 = BitVec.ofNat 32 (n + 1 + h) + b + v + p := by
  rw [e, Nat.add_right_comm, BitVec.ofNat_add (n + h)]
  generalize BitVec.ofNat 32 (n + h) = m
  rw [show BitVec.ofNat 32 1 = (1 : Long) from rfl]
  ac_rfl

/-- A recovered key enters the pool (R35). -/
theorem State.Kept.pooled (h : s.Kept) {job : UnwrapJob} (hlt : s.batch.floor < job.index)
    (hlb : job.label = s.batch.label) (hcap : s.poolCustody < Config.poolCapacity)
    (hx : ∀ job, s.control.executor ≠ .unwrapping job) (key : KeyBits) :
    ({ s with
      pool := s.pool ++ [{ index := job.index, bits := key, label := job.label }]
      batch := { s.batch with floor := job.index }
      counters := { s.counters with accepted := s.counters.accepted + 1 } } : State).Kept := by
  obtain ⟨hw, hkk, hp, hl, hm, hi⟩ := h
  have hup : ∀ i : Long, i ≤ s.batch.floor → i < job.index := fun i hi' => Nat.lt_of_le_of_lt (BitVec.le_def.1 hi')
      (BitVec.lt_def.1 hlt)
  have hne : ∀ i : Long, i ≤ s.batch.floor → i ≠ job.index := fun i hi' he => BitVec.lt_irrefl _ (he ▸ hup i hi')
  have hpos : 0 < job.index := hup 0 (BitVec.le_def.2 (Nat.zero_le _))
  refine ⟨⟨hw.outside, hw.listed, hw.once⟩, ⟨hkk.key, hkk.reservation, hkk.exposure, hkk.capacity, ?_, hkk.sequence⟩,
    ⟨?_, ?_, ?_, ?_, ?_, hp.heldOnce, ?_, ?_⟩, ⟨hl.distinct, ?_, ?_, hl.held⟩,
    ⟨hm.sorted, hm.attempts, hm.capacity, hm.claim, hm.once, hm.reserved, hm.tried⟩,
    ⟨hi.digest, hi.full, hi.reburn, hi.missing, hi.fullPass, hi.reburnPass, hi.unburned, hi.admitted, hi.bounded⟩⟩
  · have e := accounting_succ hkk.accounting
    simp only [List.length_append, List.length_singleton]
    exact e
  · show (s.pool ++ [_]).Pairwise _
    rw [List.pairwise_append]
    refine ⟨hp.sorted, List.pairwise_singleton .., fun a ha b hb => ?_⟩
    simp only [List.mem_singleton] at hb
    subst hb
    exact hup _ (hp.range a ha).2
  · intro k hk
    simp only [List.mem_append, List.mem_singleton] at hk
    rcases hk with hk | rfl
    · exact ⟨(hp.range k hk).1, BitVec.le_of_lt (hup _ (hp.range k hk).2)⟩
    · exact ⟨hpos, BitVec.le_refl _⟩
  · intro k hk
    simp only [List.mem_append, List.mem_singleton] at hk
    rcases hk with hk | rfl
    · exact hp.label k hk
    · exact hlb
  · intro p k hk
    obtain ⟨a, b, c⟩ := hp.heldRange p k hk
    exact ⟨a, BitVec.le_of_lt (hup _ b), c⟩
  · intro p k hk j hj
    simp only [List.mem_append, List.mem_singleton] at hj
    rcases hj with hj | rfl
    · exact hp.heldApart p k hk j hj
    · exact (hne _ (hp.heldRange p k hk).2.1).symm
  · show (s.pool ++ [_]).length + s.count (·.state == .held) ≤ _
    rw [poolCustody_eq_count] at hcap
    simp only [List.length_append, List.length_singleton]
    omega
  · exact fun j hj => absurd hj (hx j)
  · exact fun r hr => BitVec.le_of_lt (hup _ (hl.range r hr))
  · intro r hr k hk
    simp only [List.mem_append, List.mem_singleton] at hk
    rcases hk with hk | rfl
    · exact hl.pool r hr k hk
    · exact (hne _ (hl.range r hr)).symm

theorem State.Kept.acceptKey (h : s.Kept) {job : UnwrapJob} (hlt : s.batch.floor < job.index)
    (hlb : job.label = s.batch.label) (hcap : s.poolCustody < Config.poolCapacity)
    (hx : ∀ job, s.control.executor ≠ .unwrapping job) (key : KeyBits) : (s.acceptKey job key).Kept :=
  (h.pooled hlt hlb hcap hx key).serviceKeys

theorem State.Kept.unwrapEnds (h : s.Kept) {job : UnwrapJob} (hj : s.control.executor = .unwrapping job)
    (r : Option KeyBits) : (s.unwrapEnds job r).Kept := by
  obtain ⟨h1, h2, h3⟩ := h.pool.unwrap job hj
  have hk : (s.setExecutor .idle).Kept := h.control _ nofun
  unfold State.unwrapEnds
  dsimp only
  split
  · exact (hk.acceptKey h1 h2 h3 nofun _).respondOk _ _
  · refine State.Kept.respond ?_ _ _ _
    exact hk.aside (by simp) (by simp) (by simp) (by simp) (by simp) (by simp) (by simp) (by simp) (by simp) (by simp)

/-- The oldest records are dropped (R157). -/
theorem State.Kept.dropped (h : s.Kept) (n : Nat) :
    ({ s with log := { s.log with records := s.log.records.drop n } } : State).Kept := by
  obtain ⟨hw, hkk, hp, hl, hm, hi⟩ := h
  have hsub : ∀ r ∈ s.log.records.drop n, r ∈ s.log.records :=
    fun r hr => List.mem_of_mem_drop hr
  refine ⟨⟨hw.outside, hw.listed, hw.once⟩, ⟨hkk.key, hkk.reservation, hkk.exposure, ?_, hkk.accounting,
    hkk.sequence⟩, ⟨hp.sorted, hp.range, hp.label, hp.heldRange, hp.heldApart, hp.heldOnce, hp.capacity, hp.unwrap⟩,
    ⟨?_, ?_, ?_, ?_⟩,
    ⟨hm.sorted, hm.attempts, hm.capacity, hm.claim, hm.once, hm.reserved, hm.tried⟩,
    ⟨hi.digest, hi.full, hi.reburn, hi.missing, hi.fullPass, hi.reburnPass, hi.unburned, hi.admitted, hi.bounded⟩⟩
  · have := hkk.capacity
    show (s.log.records.drop _).length + s.logReservations ≤ _
    rw [List.length_drop]
    omega
  · exact hl.distinct.sublist (List.drop_sublist _ _)
  · exact fun r hr => hl.range r (hsub r hr)
  · exact fun r hr => hl.pool r (hsub r hr)
  · exact fun r hr => hl.held r (hsub r hr)

theorem State.Kept.cmdLogDrop (h : s.Kept) (tag : Byte) (n : Word) : (cmdLogDrop tag n s).Kept :=
  State.Kept.respondOk (State.Kept.serviceIf (h.dropped _) _) _ _

/-- With no touchdown open, the wafer and the map may change (R132). -/
theorem State.Kept.wafer (h : s.Kept) (ho : s.touchdownIsOpen = false) (td : Touchdown) (hn : td.state.isOpen = false) :
    ({ s with td := td, dieMap := [] } : State).Kept := by
  have he := h.outside_empty ho
  have ht := h.tables he
  refine State.Kept.ofEmpty ⟨ht.1, ht.2, ht.3, ht.4, ht.5, ht.6, ht.7, ht.8, ht.9, ht.10, ht.11, ?_, ?_, ?_⟩ he
    (h.waitList_nil fun p => (he p).not_wait) (fun _ => h.wait.outside ho)
    (fun p hf => absurd hf (by show (s.ctx p).state ≠ _; simp [h.wait.outside ho p])) (fun hf => ?_)
  · exact List.Pairwise.nil
  · exact fun e he => by cases he
  · exact Nat.zero_le _
  · have : td.state.isOpen = true := hf
    rw [hn] at this; cases this

theorem ctx_beginTouchdown (s : State) (en : BitVec 16) (p : PortId) :
    (s.beginTouchdown en).ctx p = (s.ctx p).begun (s.namingSite en p) := by
  unfold State.beginTouchdown
  dsimp only
  split <;> simp [State.ctx]

theorem begun_empty {c : Context} (h : c.Empty) (hs : c.state = .idle) (o : Option SiteId) :
    (c.begun o).Empty ∧ (c.begun o).attempts = 0 := by
  obtain ⟨h1, h2, h3, h4, h5⟩ := h
  cases o with
  | none => exact ⟨⟨.inl hs, h2, h3, h4, h5⟩, rfl⟩
  | some i => exact ⟨⟨.inr (.inl rfl), h2, h3, h4, h5⟩, rfl⟩

theorem State.Kept.beginTouchdown (h : s.Kept) (ho : s.touchdownIsOpen = false) (en : BitVec 16) :
    (s.beginTouchdown en).Kept := by
  have he := h.outside_empty ho
  have ht := h.tables he
  have hop : (s.beginTouchdown en).touchdownIsOpen = true := by
    unfold State.beginTouchdown; dsimp only; split <;> rfl
  have hb : ∀ p, _ := fun p => begun_empty (he p) (h.wait.outside ho p) (s.namingSite en p)
  have hf : ∀ {α} (f : State → α), (∀ s e, f (State.raise s e) = f s) → f (s.beginTouchdown en) =
      f { s with
        td := { s.td with state := .touchdownOpen, number := nextTouchdown s.td.number, enabled := en,
                          contactLost := false }
        contexts := Vector.ofFn fun p => (s.ctx p).begun (s.namingSite en p)
        ports := Vector.ofFn fun p => (s.port p).begun (s.namingSite en p).isSome } := by
    intro α f hf; unfold State.beginTouchdown; dsimp only; split
    · rw [hf]
    · rfl
  have e1 : (s.beginTouchdown en).log = s.log := hf (·.log) (fun _ _ => rfl)
  have e2 : (s.beginTouchdown en).counters = s.counters := hf (·.counters) (fun _ _ => rfl)
  have e3 : (s.beginTouchdown en).pool = s.pool := hf (·.pool) (fun _ _ => rfl)
  have e4 : (s.beginTouchdown en).batch = s.batch := hf (·.batch) (fun _ _ => rfl)
  have e5 : (s.beginTouchdown en).control = s.control := hf (·.control) (fun _ _ => rfl)
  have e6 : (s.beginTouchdown en).dieMap = s.dieMap := hf (·.dieMap) (fun _ _ => rfl)
  have e7 : (s.beginTouchdown en).waitList = s.waitList := hf (·.waitList) (fun _ _ => rfl)
  refine State.Kept.ofEmpty ⟨?_, ?_, ?_, ?_, ?_, ?_, ?_, ?_, ?_, ?_, ?_, ?_, ?_, ?_⟩
    (fun p => by rw [ctx_beginTouchdown]; exact (hb p).1) (e7.trans (h.waitList_nil fun p => (he p).not_wait))
    (fun hf' => by rw [hop] at hf'; cases hf') (fun p _ => by rw [ctx_beginTouchdown]; exact (hb p).2)
    (fun _ p => by rw [ctx_beginTouchdown, (hb p).2]; exact Nat.zero_le _)
  all_goals simp only [e1, e2, e3, e4, e5, e6]
  · exact ht.1
  · exact ht.2
  · exact ht.3
  · exact ht.4
  · exact ht.5
  · exact ht.6
  · exact ht.7
  · exact ht.8
  · exact ht.9
  · exact ht.10
  · exact ht.11
  · exact ht.12
  · exact ht.13
  · exact ht.14

theorem ctx_completeTouchdown (s : State) (tag : Byte) (p : PortId) :
    (s.completeTouchdown tag).ctx p = (s.ctx p).returned := by
  unfold State.completeTouchdown
  simp [State.ctx]

theorem quiet_ended (h : s.quiet = true) (p : PortId) : (s.ctx p).state.ended = true ∧ s.inFlight p = false := by
  simp only [State.quiet, List.all_eq_true, Bool.and_eq_true, Bool.not_eq_true'] at h
  exact h p (by simp [allPorts])

theorem State.Kept.completeTouchdown (h : s.Kept) (hq : s.quiet = true) (tag : Byte) : (s.completeTouchdown tag).Kept
    := by
  have hst : ∀ p, (s.ctx p).state = .idle ∨ (s.ctx p).state = .done := fun p => by
    have := (quiet_ended hq p).1
    revert this
    cases (s.ctx p).state <;> simp [ContextState.ended]
  have he : ∀ p, (s.ctx p).Empty := fun p => h.empty (by rcases hst p with h | h <;> simp [h])
  have ht := h.tables he
  have hret : ∀ p, ((s.ctx p).returned).Empty ∧ ((s.ctx p).returned).state = .idle := fun p => by
    have := he p
    unfold Context.returned
    split
    · exact ⟨⟨.inl rfl, this.2, this.3, this.4, this.5⟩, rfl⟩
    · rename_i hn
      rcases hst p with hp | hp
      · exact ⟨this, hp⟩
      · exact absurd hp hn
  refine State.Kept.ofEmpty ⟨?_, ?_, ?_, ?_, ?_, ?_, ?_, ?_, ?_, ?_, ?_, ?_, ?_, ?_⟩
    (fun p => by rw [ctx_completeTouchdown]; exact (hret p).1) ?_ (fun _ p => by rw [ctx_completeTouchdown]; exact
        (hret p).2)
    (fun p hf => by rw [ctx_completeTouchdown, (hret p).2] at hf; cases hf) (fun hf => ?_)
  all_goals first | simp only [completeTouchdown_frame] | skip
  · exact ht.1
  · exact ht.2
  · exact ht.3
  · exact ht.4
  · exact ht.5
  · exact ht.6
  · exact ht.7
  · intro job hj
    simp [State.completeTouchdown] at hj
  · exact ht.9
  · exact ht.10
  · exact ht.11
  · exact ht.12
  · exact ht.13
  · exact ht.14
  · exact h.waitList_nil fun p => (he p).not_wait
  · simp [State.touchdownIsOpen, State.completeTouchdown, TdState.isOpen] at hf

end Sys2Proof.Machine
end

