-- ==== Sys2Proof/Laws/Endings.lean ====
section
/-! SUPPORT. Laws/Endings.lean: the ends of several contexts at one event (R20, R22, R38, R154): how each context ends is read
once, before the event, and the ends of a list of contexts are described field by field. -/

namespace Sys2Proof.Machine

/-- How one context ends at a SITE ABORT, a TOUCHDOWN END or a fall of CONTACT (R20, R22). -/
inductive Ending where
  | stays
  | abandoned
  | voided (reason : VoidReason)
  | drains (cause : DrainCause) (supplyOff : Bool)

/-- The end makes a VOIDED record. -/
def Ending.voids : Ending → Bool
  | .voided _ => true
  | _ => false

/-- The void reason of a VOIDED end. -/
def Ending.reason : Ending → VoidReason
  | .voided r => r
  | _ => .aborted

/-- The context after its end. -/
def Context.endedAs (c : Context) : Ending → Context
  | .stays => c
  | .abandoned => c.closed c.abandonedRecord
  | .voided r => c.closed (c.voidedRecord r)
  | .drains cause _ => { c with state := .draining cause }

/-- The supply after the end of its context. -/
def Supply.endedAs (u : Supply) : Ending → Supply
  | .stays => u
  | .drains _ false => u
  | _ => { u with state := .off }

/-- One context ends. -/
def State.endsAs (s : State) (p : PortId) : Ending → State
  | .stays => s
  | .abandoned => s.settleAbandoned p
  | .voided r => s.settleVoided p r
  | .drains cause off =>
    let t := s.setCtxState p (.draining cause)
    if off then t.switchOff p else t

/-- How a context ends by SITE ABORT or TOUCHDOWN END (R20). -/
def abortEnding (c : Context) (busy : Bool) : Ending :=
  match c.state with
  | .idle | .done | .draining _ => .stays
  | .ident | .wait | .held => .abandoned
  | .loading | .settling | .ready | .checking | .reburn | .verified =>
    if busy then .drains (.aborted false) true else .voided .aborted
  | .burning => .drains (.aborted false) true
  | .locking => .drains (.aborted true) false

/-- How a context ends by contact loss (R22). -/
def contactEnding (c : Context) : Ending :=
  match c.state with
  | .idle | .done => .stays
  | .ident | .wait | .held => .abandoned
  | .draining (.aborted _) => .voided .aborted
  | .draining .supplyFault => .voided .supplyFault
  | _ => .voided .contactLost

variable (s : State) (p : PortId)

theorem abortContext_eq : s.abortContext p = s.endsAs p (abortEnding (s.ctx p) (s.inFlight p)) := by
  unfold State.abortContext abortEnding
  cases (s.ctx p).state <;> try rfl
  all_goals cases s.inFlight p <;> rfl

theorem contactLostContext_eq : s.contactLostContext p = s.endsAs p (contactEnding (s.ctx p)) := by
  unfold State.contactLostContext contactEnding
  cases (s.ctx p).state <;> try rfl
  rename_i cause
  cases cause with
  | aborted fromLocking => cases fromLocking <;> rfl
  | supplyFault => rfl

/-! ### One end -/

theorem endsAs_ctx (e : Ending) (q : PortId) :
    (s.endsAs p e).ctx q = if q = p then (s.ctx p).endedAs e else s.ctx q := by
  cases e with
  | stays => by_cases h : q = p <;> simp [State.endsAs, Context.endedAs, h]
  | abandoned => exact settleAbandoned_ctx ..
  | voided r => exact settleVoided_ctx ..
  | drains cause off => cases off <;> exact ctx_setCtx ..

theorem endsAs_supply (e : Ending) (q : PortId) :
    (s.endsAs p e).supply q = if q = p then (s.supply p).endedAs e else s.supply q := by
  cases e with
  | stays => by_cases h : q = p <;> simp [State.endsAs, Supply.endedAs, h]
  | abandoned => exact settleAbandoned_supply ..
  | voided r => exact settleVoided_supply ..
  | drains cause off =>
    cases off
    · by_cases h : q = p <;> simp [State.endsAs, Supply.endedAs, State.setCtxState, h]
    · simp [State.endsAs, Supply.endedAs, State.setCtxState, supply_switchOff]

/-- The VOIDED record of a context under a sequence number (R150). -/
def State.recordAt (s : State) (p : PortId) (why : VoidReason) (n : Long) : LogRecord :=
  { s.logRecordOf p .voided (some why) with sequence := n }

theorem endsAs_log (e : Ending) :
    (s.endsAs p e).log =
      if e.voids then
        { records := s.log.records ++ [s.recordAt p e.reason s.log.nextSequence], nextSequence := s.log.nextSequence + 1 }
      else s.log := by
  cases e with
  | stays => rfl
  | abandoned => simp [State.endsAs, Ending.voids]
  | voided r => exact settleVoided_log ..
  | drains cause off => cases off <;> rfl

theorem endsAs_counters (e : Ending) :
    (s.endsAs p e).counters =
      if e.voids then { s.counters with voided := s.counters.voided + 1 } else s.counters := by
  cases e with
  | stays => rfl
  | abandoned => simp [State.endsAs, Ending.voids]
  | voided r => exact settleVoided_counters ..
  | drains cause off => cases off <;> rfl

theorem endsAs_pool (e : Ending) :
    (s.endsAs p e).pool =
      match e, (s.ctx p).heldKey with
      | .abandoned, some k => poolInsert k s.pool
      | _, _ => s.pool := by
  cases e with
  | stays => rfl
  | abandoned => rw [State.endsAs, settleAbandoned_pool]; cases (s.ctx p).heldKey <;> rfl
  | voided r => simp [State.endsAs]
  | drains cause off => cases off <;> rfl

theorem endsAs_td (e : Ending) : (s.endsAs p e).td = s.td := by
  cases e with
  | drains cause off => cases off <;> rfl
  | _ => simp [State.endsAs]

/-- The map entry that the end of a context with a claim writes (R144). -/
def State.endedEntry (s : State) (p : PortId) (c : Coord) (e : Ending) : MapEntry :=
  { coord := c, attempts := s.claimAttempts p c, lastTouchdown := s.td.number,
    outcome :=
      match e with
      | .voided _ => .voided (((s.ctx p).heldKey.map (·.index)).getD 0)
      | _ => .tried }

theorem endsAs_dieMap (e : Ending) :
    (s.endsAs p e).dieMap =
      match e, (s.ctx p).claim with
      | .abandoned, some c => mapPut (s.endedEntry p c e) s.dieMap
      | .voided _, some c => mapPut (s.endedEntry p c e) s.dieMap
      | _, _ => s.dieMap := by
  cases e with
  | stays => rfl
  | abandoned =>
    rw [State.endsAs, settleAbandoned_dieMap]
    cases h : (s.ctx p).claim with
    | none => rw [settleClaim_none _ _ h]
    | some c => rw [settleClaim_some _ _ h]; rfl
  | voided r =>
    rw [State.endsAs, settleVoided_dieMap]
    cases h : (s.ctx p).claim with
    | none => rw [settleClaim_none _ _ h]
    | some c => rw [settleClaim_some _ _ h]; rfl
  | drains cause off => cases off <;> rfl

/-! ### The ends of a list of contexts -/

/-- The contexts of a list end, one after another, each as it is told. -/
def State.endsAll (s : State) (l : List PortId) (e : PortId → Ending) : State := l.foldl (fun s p => s.endsAs p (e p)) s

variable {s} {e : PortId → Ending}

theorem endsAll_cons (l : List PortId) : s.endsAll (p :: l) e = (s.endsAs p (e p)).endsAll l e := rfl

theorem endsAll_ctx {l : List PortId} (hl : l.Nodup) (q : PortId) :
    (s.endsAll l e).ctx q = if q ∈ l then (s.ctx q).endedAs (e q) else s.ctx q := by
  induction l generalizing s with
  | nil => simp [State.endsAll]
  | cons a l ih =>
    obtain ⟨ha, hl⟩ := List.nodup_cons.1 hl
    rw [endsAll_cons, ih hl, endsAs_ctx]
    by_cases hq : q = a
    · subst hq; simp [ha]
    · simp [hq]

theorem endsAll_supply {l : List PortId} (hl : l.Nodup) (q : PortId) :
    (s.endsAll l e).supply q = if q ∈ l then (s.supply q).endedAs (e q) else s.supply q := by
  induction l generalizing s with
  | nil => simp [State.endsAll]
  | cons a l ih =>
    obtain ⟨ha, hl⟩ := List.nodup_cons.1 hl
    rw [endsAll_cons, ih hl, endsAs_supply]
    by_cases hq : q = a
    · subst hq; simp [ha]
    · simp [hq]

theorem endsAll_td (l : List PortId) : (s.endsAll l e).td = s.td := by
  induction l generalizing s with
  | nil => rfl
  | cons a l ih => rw [endsAll_cons, ih, endsAs_td]

theorem endsAll_counters (l : List PortId) :
    (s.endsAll l e).counters =
      { s.counters with voided := s.counters.voided + BitVec.ofNat 32 (l.filter fun p => (e p).voids).length } := by
  induction l generalizing s with
  | nil => simp [State.endsAll]
  | cons a l ih =>
    rw [endsAll_cons, ih, endsAs_counters]
    by_cases h : (e a).voids = true
    · simp only [h, if_true, List.filter_cons_of_pos, List.length_cons]
      congr 1
      rw [BitVec.add_assoc, BitVec.add_right_inj, Nat.add_comm, BitVec.ofNat_add]
      rfl
    · simp [h]

/-- The end of one context leaves what another's record would hold. -/
theorem endsAs_recordAt {a q : PortId} (h : q ≠ a) (x : Ending) (why : VoidReason) (n : Long) :
    (s.endsAs a x).recordAt q why n = s.recordAt q why n := by
  have hc : (s.endsAs a x).ctx q = s.ctx q := by rw [endsAs_ctx, if_neg h]
  simp only [State.recordAt, State.logRecordOf, hc, endsAs_td]

/-- The records of a row of ends: in the order of the list, with consecutive sequence numbers (R154, R155). -/
theorem endsAll_log {l : List PortId} (hl : l.Nodup) :
    (s.endsAll l e).log =
      { records := s.log.records ++ (l.filter fun p => (e p).voids).zipIdx.map fun x =>
          s.recordAt x.1 (e x.1).reason (s.log.nextSequence + BitVec.ofNat 32 x.2)
        nextSequence := s.log.nextSequence + BitVec.ofNat 32 (l.filter fun p => (e p).voids).length } := by
  induction l generalizing s with
  | nil => simp [State.endsAll]
  | cons a l ih =>
    obtain ⟨ha, hl⟩ := List.nodup_cons.1 hl
    have same : ∀ x ∈ (l.filter fun p => (e p).voids).zipIdx, ∀ n,
        (s.endsAs a (e a)).recordAt x.1 (e x.1).reason n = s.recordAt x.1 (e x.1).reason n := fun x hx n =>
      endsAs_recordAt (fun h : x.1 = a => ha (h ▸ List.mem_of_mem_filter (List.fst_mem_of_mem_zipIdx hx))) _ _ _
    have step : ∀ n : Nat, s.log.nextSequence + BitVec.ofNat 32 (n + 1) = s.log.nextSequence + 1 + BitVec.ofNat 32 n := by
      intro n
      rw [BitVec.add_assoc, BitVec.add_right_inj, Nat.add_comm, BitVec.ofNat_add]
      rfl
    rw [endsAll_cons, ih hl, endsAs_log]
    by_cases hv : (e a).voids = true
    · simp only [hv, if_true, List.filter_cons_of_pos, List.length_cons, List.zipIdx_cons, List.map_cons, step]
      rw [List.append_assoc, List.singleton_append, Nat.zero_add, List.zipIdx_succ, List.map_map]
      congr 3
      · simp
      · exact List.map_congr_left fun x hx => by rw [same x hx]; simp only [Function.comp, step]
    · simp only [hv, if_false, Bool.false_eq_true, not_false_eq_true, List.filter_cons_of_neg]
      congr 2
      exact List.map_congr_left fun x hx => by rw [same x hx]

/-- A returned key joins the pool's keys. -/
theorem poolInsert_perm (k : Key) (l : List Key) : (poolInsert k l).Perm (k :: l) := by
  induction l with
  | nil => exact .refl _
  | cons h t ih =>
    simp only [poolInsert]
    split
    · exact (ih.cons h).trans (.swap k h t)
    · exact .refl _

/-- The keys that a row of ends returns to the pool (R39). -/
theorem endsAll_pool {l : List PortId} (hl : l.Nodup) :
    (s.endsAll l e).pool.Perm (s.pool ++ l.filterMap fun p =>
      match e p with
      | .abandoned => (s.ctx p).heldKey
      | _ => none) := by
  induction l generalizing s with
  | nil => simp [State.endsAll]
  | cons a l ih =>
    obtain ⟨ha, hl⟩ := List.nodup_cons.1 hl
    rw [endsAll_cons]
    refine (ih hl).trans ?_
    have hc : (l.filterMap fun p => match e p with
        | .abandoned => ((s.endsAs a (e a)).ctx p).heldKey
        | _ => none) = l.filterMap fun p => match e p with
        | .abandoned => (s.ctx p).heldKey
        | _ => none := by
      apply List.filterMap_congr
      intro x hx
      rw [endsAs_ctx, if_neg fun h : x = a => ha (h ▸ hx)]
    rw [hc, endsAs_pool]
    cases he : e a with
    | abandoned =>
      cases hk : (s.ctx a).heldKey with
      | none => simp [he, hk]
      | some k =>
        simp only [he, hk, List.filterMap_cons]
        exact ((poolInsert_perm k s.pool).append_right _).trans (List.perm_middle.symm)
    | _ => simp [he]

theorem endsAs_waitList (x : Ending) (q : PortId) :
    q ∈ (s.endsAs p x).waitList ↔ q ∈ s.waitList ∧ ¬ (q = p ∧ x = .abandoned) := by
  cases x with
  | stays => simp [State.endsAs]
  | abandoned => simp [State.endsAs, settleAbandoned_waitList]
  | voided r => simp [State.endsAs]
  | drains cause off => cases off <;> simp [State.endsAs]

/-- The wait list keeps the contexts that do not end ABANDONED (R20, R22). -/
theorem endsAll_waitList (l : List PortId) (q : PortId) :
    q ∈ (s.endsAll l e).waitList ↔ q ∈ s.waitList ∧ ¬ (q ∈ l ∧ e q = .abandoned) := by
  induction l generalizing s with
  | nil => simp [State.endsAll]
  | cons a l ih =>
    rw [endsAll_cons, ih, endsAs_waitList]
    by_cases hq : q = a
    · subst hq; simp; tauto
    · simp [hq]

/-! ### The die map after a row of ends (R144) -/

theorem endsAs_mapSorted (x : Ending) (h : mapSorted s.dieMap) : mapSorted (s.endsAs p x).dieMap := by
  rw [endsAs_dieMap]
  split
  · exact mapPut_sorted _ h
  · exact mapPut_sorted _ h
  · exact h

/-- The end settles a claim. -/
def Ending.settles : Ending → Bool
  | .abandoned => true
  | .voided _ => true
  | _ => false

theorem endsAs_lookup (x : Ending) (h : mapSorted s.dieMap) (c : Coord) :
    mapLookup (s.endsAs p x).dieMap c =
      if x.settles = true ∧ (s.ctx p).claim = some c then some (s.endedEntry p c x) else mapLookup s.dieMap c := by
  rw [endsAs_dieMap]
  cases x with
  | abandoned =>
    cases hc : (s.ctx p).claim with
    | none => simp
    | some d =>
      simp only [mapLookup_mapPut h, Ending.settles, true_and, Option.some.injEq]
      by_cases hd : c = d
      · subst hd; simp [State.endedEntry]
      · simp [State.endedEntry, hd, Ne.symm hd]
  | voided r =>
    cases hc : (s.ctx p).claim with
    | none => simp
    | some d =>
      simp only [mapLookup_mapPut h, Ending.settles, true_and, Option.some.injEq]
      by_cases hd : c = d
      · subst hd; simp [State.endedEntry]
      · simp [State.endedEntry, hd, Ne.symm hd]
  | stays => simp [Ending.settles]
  | drains cause off => simp [Ending.settles]

/-- A coordinate that no ended context claims keeps its entry, or has none. -/
theorem endsAll_lookup_other {l : List PortId} (hl : l.Nodup) (h : mapSorted s.dieMap) (c : Coord)
    (hc : ∀ p ∈ l, (e p).settles = true → (s.ctx p).claim ≠ some c) :
    mapLookup (s.endsAll l e).dieMap c = mapLookup s.dieMap c := by
  induction l generalizing s with
  | nil => rfl
  | cons a l ih =>
    obtain ⟨ha, hl⟩ := List.nodup_cons.1 hl
    rw [endsAll_cons, ih hl (endsAs_mapSorted _ _ h), endsAs_lookup _ _ h, if_neg]
    · exact fun hn => hc a (by simp) hn.1 hn.2
    · intro q hq
      rw [endsAs_ctx, if_neg fun hqa : q = a => ha (hqa ▸ hq)]
      exact hc q (by simp [hq])

/-- The claim of an ended context becomes its entry, where no other context claims the coordinate. -/
theorem endsAll_lookup {l : List PortId} (hl : l.Nodup) (h : mapSorted s.dieMap) {q : PortId} (hq : q ∈ l) {c : Coord}
    (he : (e q).settles = true) (hc : (s.ctx q).claim = some c) (once : ∀ p, (s.ctx p).claim = some c → p = q) :
    mapLookup (s.endsAll l e).dieMap c = some (s.endedEntry q c (e q)) := by
  induction l generalizing s with
  | nil => cases hq
  | cons a l ih =>
    obtain ⟨ha, hl'⟩ := List.nodup_cons.1 hl
    rw [endsAll_cons]
    by_cases hqa : q = a
    · subst hqa
      rw [endsAll_lookup_other hl' (endsAs_mapSorted _ _ h), endsAs_lookup _ _ h, if_pos ⟨he, hc⟩]
      intro p hp _ hpc
      have hpq : p ≠ q := fun hn : p = q => ha (hn ▸ hp)
      rw [endsAs_ctx, if_neg hpq] at hpc
      exact hpq (once p hpc)
    · have keep : ∀ p, ((s.endsAs a (e a)).ctx p).claim = some c → (s.ctx p).claim = some c := by
        intro p
        rw [endsAs_ctx]
        split
        · rename_i hp
          subst hp
          cases e p <;> simp [Context.endedAs]
        · exact id
      have hcq : (s.endsAs a (e a)).ctx q = s.ctx q := by rw [endsAs_ctx, if_neg hqa]
      rw [ih hl' (endsAs_mapSorted _ _ h) (by simpa [hqa] using hq) (by rw [hcq]; exact hc)
        fun p hp => once p (keep p hp)]
      have hn : ¬ ((e a).settles = true ∧ (s.ctx a).claim = some c) := fun hn => hqa (once a hn.2).symm
      simp only [State.endedEntry, State.claimAttempts, hcq, endsAs_td, endsAs_lookup _ _ h, if_neg hn]

/-! ### The order of the ends of one event (R154) -/

theorem settlementOrder_sorted (s : State) : s.settlementOrder.Pairwise fun p q =>
    (s.ctx p).site < (s.ctx q).site ∨ ((s.ctx p).site = (s.ctx q).site ∧ p < q) := by
  unfold State.settlementOrder
  rw [List.pairwise_flatMap]
  constructor
  · intro i _
    have := (List.pairwise_lt_finRange 16).filter fun p => (s.ctx p).site == i
    refine this.imp_of_mem ?_
    intro p q hp hq h
    have e1 : (s.ctx p).site = i := by simpa using (List.mem_filter.1 hp).2
    have e2 : (s.ctx q).site = i := by simpa using (List.mem_filter.1 hq).2
    exact .inr ⟨e1.trans e2.symm, h⟩
  · refine (List.pairwise_lt_finRange 16).imp ?_
    intro i j hij p hp q hq
    have e1 : (s.ctx p).site = i := by simpa using (List.mem_filter.1 hp).2
    have e2 : (s.ctx q).site = j := by simpa using (List.mem_filter.1 hq).2
    exact .inl (by rw [e1, e2]; exact hij)

theorem settlementOrder_nodup (s : State) : s.settlementOrder.Nodup :=
  (settlementOrder_sorted s).imp fun h => by
    rintro rfl
    rcases h with h | h
    · exact absurd h (lt_irrefl _)
    · exact absurd h.2 (lt_irrefl _)

/-- Every context once. -/
theorem settlementOrder_perm (s : State) : s.settlementOrder.Perm (List.finRange 16) := by
  refine (List.perm_ext_iff_of_nodup (settlementOrder_nodup s) (List.nodup_finRange 16)).2 fun p => ?_
  simp [State.settlementOrder, allSites, allPorts]

/-- The contexts that end by TOUCHDOWN END, as a row of ends. -/
theorem foldl_abortContext {l : List PortId} (hl : l.Nodup) {how : PortId → Ending}
    (h : ∀ p ∈ l, abortEnding (s.ctx p) (s.inFlight p) = how p) :
    l.foldl (fun s p => s.abortContext p) s = s.endsAll l how := by
  induction l generalizing s with
  | nil => rfl
  | cons a l ih =>
    obtain ⟨ha, hl⟩ := List.nodup_cons.1 hl
    rw [List.foldl_cons, endsAll_cons, abortContext_eq, h a (by simp)]
    refine ih hl fun p hp => ?_
    have hpa : p ≠ a := fun hn : p = a => ha (hn ▸ hp)
    have hf : (s.endsAs a (how a)).inFlight p = s.inFlight p := by
      rw [← h a (by simp), ← abortContext_eq]
      simp [State.inFlight]
    rw [endsAs_ctx, if_neg hpa, hf]
    exact h p (by simp [hp])

/-- The contexts that end by a fall of CONTACT, as a row of ends. -/
theorem foldl_contactLostContext {l : List PortId} (hl : l.Nodup) {how : PortId → Ending}
    (h : ∀ p ∈ l, contactEnding (s.ctx p) = how p) :
    l.foldl (fun s p => s.contactLostContext p) s = s.endsAll l how := by
  induction l generalizing s with
  | nil => rfl
  | cons a l ih =>
    obtain ⟨ha, hl⟩ := List.nodup_cons.1 hl
    rw [List.foldl_cons, endsAll_cons, contactLostContext_eq, h a (by simp)]
    refine ih hl fun p hp => ?_
    rw [endsAs_ctx, if_neg fun hn : p = a => ha (hn ▸ hp)]
    exact h p (by simp [hp])

/-! ### What the ports answer (R100, R101, R102, R173) -/

/-- The responses of a row of requests, all with one status. -/
def State.answers (s : State) (queue : List Request) (status : Status) : State :=
  queue.foldl (fun s r => s.deliver r status none) s

variable (P : Vector Port 16) (T : Touchdown)

theorem emit_with (r : Response) :
    ({ s with ports := P, td := T } : State).emit r = { s.emit r with ports := P, td := T } := by
  unfold State.emit
  dsimp only
  split <;> rfl

/-- A delivery neither reads nor changes the port records and the touchdown. -/
theorem deliver_with (r : Request) (st : Status) (w : Option Word) :
    ({ s with ports := P, td := T } : State).deliver r st w = { s.deliver r st w with ports := P, td := T } := by
  unfold State.deliver
  cases r.merge with
  | none => exact emit_with ..
  | some ref =>
    unfold State.deliverMember
    dsimp only
    cases s.merge[ref.record] with
    | none => rfl
    | some m =>
      dsimp only
      split
      · exact emit_with (s := { s with merge := s.merge.set ref.record none }) ..
      · rfl

theorem answers_with (queue : List Request) (st : Status) :
    ({ s with ports := P, td := T } : State).answers queue st = { s.answers queue st with ports := P, td := T } := by
  unfold State.answers
  induction queue generalizing s with
  | nil => rfl
  | cons r queue ih => rw [List.foldl_cons, List.foldl_cons, deliver_with, ih]

variable (s)

/-- A port answers its queue: each request in queue order, and the queue is empty (R101, R103). -/
theorem answerQueue_eq (p : PortId) (st : Status) :
    s.answerQueue p st =
      { s.answers (s.port p).queue st with ports := s.ports.set p { s.port p with queue := [] } } := by
  have htd : (s.answers (s.port p).queue st).td = s.td := foldl_field (fun s : State => s.td) _ _ (by intros; simp) _
  exact (answers_with (s := s) (s.ports.set p { s.port p with queue := [] }) s.td _ st).trans (by rw [← htd])

theorem closePort_eq (p : PortId) :
    s.closePort p =
      { s.answers (s.port p).queue .aborted with
        ports := s.ports.set p { s.port p with queue := [], admissionClosed := true } } := by
  simp only [State.closePort, answerQueue_eq, State.setPort, State.port, Vector.set_set, Fin.getElem_fin,
    Vector.getElem_set_self]

/-- What a port that is not PARKED answers at a contact loss: its transaction in flight, then its queue (R100, R173). -/
def State.lostAnswers (s : State) (pt : Port) : State :=
  match pt.state with
  | .parked _ => s
  | .busy tx _ => (s.deliver tx.request .lost none).answers pt.queue .lost
  | _ => s.answers pt.queue .lost

/-- A port after a contact loss (R100). -/
def Port.lostContact (pt : Port) : Port :=
  if pt.state.isParked then pt else { pt with state := .parked .contact, queue := [] }

theorem parkOnContactLoss_eq (p : PortId) :
    s.parkOnContactLoss p = { s.lostAnswers (s.port p) with ports := s.ports.set p (s.port p).lostContact } := by
  unfold State.parkOnContactLoss State.lostAnswers Port.lostContact
  cases hs : (s.port p).state with
  | parked cause =>
    have : s.ports.set p (s.port p) = s.ports := by simp [State.port]
    simp [PortState.isParked, this]
  | _ =>
    simp [answerQueue_eq, State.setPortState, State.setPort, State.port, PortState.isParked, Vector.set_set]

variable {s}

theorem lostAnswers_with (pt : Port) :
    ({ s with ports := P, td := T } : State).lostAnswers pt = { s.lostAnswers pt with ports := P, td := T } := by
  unfold State.lostAnswers
  split
  · rfl
  · rw [deliver_with, answers_with]
  · exact answers_with ..

/-- A row of steps that neither read nor change the port records and the touchdown, each of which also sets a record. -/
theorem foldl_with {step : State → PortId → State} {set : PortId → Port}
    (h : ∀ (s : State) (P : Vector Port 16) (T : Touchdown) (p : PortId),
      step { s with ports := P, td := T } p = { step s p with ports := P, td := T })
    (l : List PortId) (s : State) (P : Vector Port 16) :
    l.foldl (fun t p => { step t p with ports := t.ports.set p (set p) }) { s with ports := P } =
      { l.foldl step s with ports := l.foldl (fun (P : Vector Port 16) (p : PortId) => P.set p (set p)) P } := by
  induction l generalizing s P with
  | nil => rfl
  | cons a l ih =>
    rw [List.foldl_cons, List.foldl_cons, List.foldl_cons, ← ih]
    have hs : step s a = { step s a with ports := s.ports, td := s.td } := h s s.ports s.td a
    have ht : (step s a).td = s.td := by rw [hs]
    congr 1
    exact (congrArg (fun u : State => { u with ports := P.set a (set a) }) (h s P s.td a)).trans (by rw [← ht])

theorem foldl_set_get (set : PortId → Port) (l : List PortId) (P : Vector Port 16) (q : PortId) :
    (l.foldl (fun (P : Vector Port 16) (p : PortId) => P.set p (set p)) P)[q] = if q ∈ l then set q else P[q] := by
  induction l generalizing P with
  | nil => simp
  | cons a l ih =>
    rw [List.foldl_cons, ih]
    by_cases hq : q = a
    · subst hq; simp
    · have : a.val ≠ q.val := fun hv => hq (Fin.ext hv.symm)
      simp [hq, this]

theorem foldl_set_all (set : PortId → Port) (P : Vector Port 16) :
    (List.finRange 16).foldl (fun (P : Vector Port 16) (p : PortId) => P.set p (set p)) P = Vector.ofFn set := by
  apply Vector.ext
  intro i hi
  have := foldl_set_get set (List.finRange 16) P ⟨i, hi⟩
  simpa using this

end Sys2Proof.Machine
end

