-- ==== Sys2Proof/Laws/PerInstr.lean ====
section
/-! SUPPORT. Laws/PerInstr.lean: one lemma per row of the table. `CommandSurvivesItsBytes` says of a control row that the
payload of its CONTROL frame has the length the command table gives and spells the row's command again (R166, R178); of
any other row, that it stands for no command. -/

namespace Sys2Proof.Laws.CommandSurvivesItsBytes

open Sys2Proof.Machine

/-- A command's payload has the command's parameter length and reads back as the command (R166, R178). -/
def Survives (c : Command) : Prop :=
  paramLength (commandCode c) = some (commandPayload c).length ∧
  commandOfPayload (commandCode c) (commandPayload c) = some c

/-- The command a row stands for, if it is a control row, survives its bytes. -/
def Statement (i : Instr) : Prop := ∀ tag c, controlCommand i = some (tag, c) → Survives c

/-- A row that stands for no command. -/
theorem of_none {i : Instr} (h : controlCommand i = none) : Statement i := by
  intro tag c hc; rw [h] at hc; cases hc

/-- A row that stands for a command. -/
theorem of_some {i : Instr} {tag : Byte} {c : Command} (h : controlCommand i = some (tag, c)) (hs : Survives c) :
    Statement i := by
  intro tag' c' hc; rw [h] at hc; cases hc; exact hs

/-! ### Words as bytes -/

theorem byte_at (w : BitVec n) (lo i : Nat) (h : lo ≤ i) (h' : i < lo + 8) :
    (w.extractLsb' lo 8).getLsbD (i - lo) = w.getLsbD i := by
  rw [BitVec.getLsbD_extractLsb', decide_eq_true (by omega), Bool.true_and, Nat.add_sub_cancel' h]

theorem word16_halves (w : Word) : word16 (w.extractLsb' 8 8) (w.extractLsb' 0 8) = w := by
  unfold word16
  apply BitVec.eq_of_getLsbD_eq
  intro i hi
  simp only [BitVec.getLsbD_append]
  split
  · exact byte_at w 0 i (by omega) (by omega)
  · exact byte_at w 8 i (by omega) (by omega)

theorem long32_quarters (w : Long) : long32 (w.extractLsb' 24 8) (w.extractLsb' 16 8) (w.extractLsb' 8 8)
    (w.extractLsb' 0 8) = w := by
  unfold long32
  apply BitVec.eq_of_getLsbD_eq
  intro i hi
  simp only [BitVec.getLsbD_append, Nat.sub_sub]
  repeat' split
  · exact byte_at w 0 i (by omega) (by omega)
  · exact byte_at w 8 i (by omega) (by omega)
  · exact byte_at w 16 i (by omega) (by omega)
  · exact byte_at w 24 i (by omega) (by omega)

theorem beNat_append (bytes : List Byte) : ∀ n : Nat,
    bytes.foldl (fun n b => n * 256 + b.toNat) n = n * 256 ^ bytes.length + beNat bytes := by
  induction bytes with
  | nil => intro n; simp [beNat]
  | cons b bytes ih =>
    intro n
    unfold beNat
    rw [List.foldl_cons, List.foldl_cons, ih, ih (0 * 256 + b.toNat), List.length_cons, Nat.pow_succ]
    ring

theorem bytesOf_length (n v : Nat) : (bytesOf n v).length = n := by simp [bytesOf]

/-- `n` bytes, the first the most significant, carry a number below 256 ^ n (R166). -/
theorem beNat_bytesOf (n v : Nat) : beNat (bytesOf n v) = v % 256 ^ n := by
  induction n with
  | zero => simp [bytesOf, beNat, Nat.mod_one]
  | succ n ih =>
    have e : bytesOf (n + 1) v = byteOf (v / 256 ^ n) :: bytesOf n v := by
      simp [bytesOf, List.range_succ]
    rw [e]
    show List.foldl _ (0 * 256 + (byteOf (v / 256 ^ n)).toNat) _ = _
    rw [beNat_append, ih, bytesOf_length]
    have hm : v % 256 ^ (n + 1) = v % 256 ^ n + 256 ^ n * (v / 256 ^ n % 256) := by rw [Nat.pow_succ, Nat.mod_mul]
    rw [hm, byteOf, BitVec.toNat_ofNat, Nat.zero_mul, Nat.zero_add, Nat.add_comm, Nat.mul_comm]

/-- The 46 bytes of a key record carry the record (R178). -/
theorem keyRecord_survives (r : KeyRecord) : keyRecordOfBytes (keyRecordBytes r) = r := by
  obtain ⟨i, k, c, t⟩ := r
  have h1 : i.toNat % 256 ^ 4 = i.toNat := Nat.mod_eq_of_lt (by simpa using i.isLt)
  have h2 : k.toNat % 256 ^ 2 = k.toNat := Nat.mod_eq_of_lt (by simpa using k.isLt)
  have h3 : c.toNat % 256 ^ 32 = c.toNat := Nat.mod_eq_of_lt (by simpa using c.isLt)
  have h4 : t.toNat % 256 ^ 8 = t.toNat := Nat.mod_eq_of_lt (by simpa using t.isLt)
  have l1 := bytesOf_length 4 i.toNat
  have l2 := bytesOf_length 2 k.toNat
  have l3 := bytesOf_length 32 c.toNat
  have cut : ∀ (a b : List Byte) (n : Nat), a.length = n → (a ++ b).take n = a ∧ (a ++ b).drop n = b := by
    rintro a b n rfl; simp
  have d6 : ∀ l : List Byte, l.drop 6 = (l.drop 4).drop 2 := fun l => by simp
  have d38 : ∀ l : List Byte, l.drop 38 = (l.drop 6).drop 32 := fun l => by simp
  unfold keyRecordOfBytes keyRecordBytes
  simp only [List.append_assoc]
  rw [d38, d6]
  simp only [cut _ _ 4 l1, cut _ _ 2 l2, cut _ _ 32 l3]
  rw [List.take_of_length_le (by rw [bytesOf_length])]
  simp only [beNat_bytesOf, h1, h2, h3, h4, BitVec.ofNat_toNat, BitVec.setWidth_eq]

/-! ### The rows -/

theorem reset : Statement .reset := of_none rfl
theorem resetRelease : Statement .resetRelease := of_none rfl
theorem receiverStart : Statement .receiverStart := of_none rfl
theorem frameLengthError (b : Byte) : Statement (.frameLengthError b) := of_none rfl
theorem requestFrame (b : Byte) : Statement (.requestFrame b) := of_none rfl
theorem responseEmission : Statement .responseEmission := of_none rfl
theorem frameLeavesStream : Statement .frameLeavesStream := of_none rfl
theorem linkRdyFall : Statement .linkRdyFall := of_none rfl
theorem linkRdyRise : Statement .linkRdyRise := of_none rfl
theorem identify (tag : Byte) : Statement (.identify tag) :=
  of_some rfl ⟨rfl, rfl⟩
theorem status (tag page : Byte) : Statement (.status tag page) :=
  of_some rfl ⟨rfl, rfl⟩
theorem paramSet (tag id : Byte) (value : Word) : Statement (.paramSet tag id value) :=
  of_some rfl ⟨rfl, by
    show some (Command.paramSet id (word16 (value.extractLsb' 8 8) (value.extractLsb' 0 8))) = _
    rw [word16_halves]⟩
theorem paramGet (tag id : Byte) : Statement (.paramGet tag id) :=
  of_some rfl ⟨rfl, rfl⟩
theorem ruleWrite (tag : Byte) (block : RuleBlock) : Statement (.ruleWrite tag block) :=
  of_some rfl (by
    refine ⟨rfl, ?_⟩
    show (ruleBlockOfBytes (ruleBlockBytes block)).map Command.ruleWrite = _
    simp [ruleBlockBytes, ruleBlockOfBytes, be16, word16_halves])
theorem ruleRead (tag number : Byte) : Statement (.ruleRead tag number) :=
  of_some rfl ⟨rfl, rfl⟩
theorem siteMapWrite (tag site port enabled : Byte) : Statement (.siteMapWrite tag site port enabled) :=
  of_some rfl ⟨rfl, rfl⟩
theorem siteMapRead (tag site : Byte) : Statement (.siteMapRead tag site) :=
  of_some rfl ⟨rfl, rfl⟩
theorem groupWrite (tag group : Byte) (members : Word) : Statement (.groupWrite tag group members) :=
  of_some rfl ⟨rfl, by
    show some (Command.groupWrite group (word16 (members.extractLsb' 8 8) (members.extractLsb' 0 8))) = _
    rw [word16_halves]⟩
theorem groupRead (tag group : Byte) : Statement (.groupRead tag group) :=
  of_some rfl ⟨rfl, rfl⟩
theorem strapSet (tag port directions levels : Byte) : Statement (.strapSet tag port directions levels) :=
  of_some rfl ⟨rfl, rfl⟩
theorem strapRead (tag port : Byte) : Statement (.strapRead tag port) :=
  of_some rfl ⟨rfl, rfl⟩
theorem batchOpen (tag : Byte) (label floor : Long) : Statement (.batchOpen tag label floor) :=
  of_some rfl ⟨rfl, by
    show some (Command.batchOpen (long32 (label.extractLsb' 24 8) (label.extractLsb' 16 8) (label.extractLsb' 8 8) (label.extractLsb' 0 8)) (long32 (floor.extractLsb' 24 8) (floor.extractLsb' 16 8) (floor.extractLsb' 8 8) (floor.extractLsb' 0 8))) = _
    rw [long32_quarters, long32_quarters]⟩
theorem keyLoad (tag : Byte) (record : KeyRecord) : Statement (.keyLoad tag record) :=
  of_some rfl (by
    have hl : (keyRecordBytes record).length = 46 := by simp [keyRecordBytes, bytesOf_length]
    refine ⟨congrArg some hl.symm, ?_⟩
    show (if (keyRecordBytes record).length = 46 then some (Command.keyLoad (keyRecordOfBytes (keyRecordBytes record))) else none) = _
    rw [if_pos hl, keyRecord_survives])
theorem unwrapCompletion (recovered : Option KeyBits) : Statement (.unwrapCompletion recovered) := of_none rfl
theorem keyPurge (tag : Byte) : Statement (.keyPurge tag) :=
  of_some rfl ⟨rfl, rfl⟩
theorem waferOpen (tag : Byte) (lot : Long) (number : Byte) : Statement (.waferOpen tag lot number) :=
  of_some rfl ⟨rfl, by
    show some (Command.waferOpen (long32 (lot.extractLsb' 24 8) (lot.extractLsb' 16 8) (lot.extractLsb' 8 8) (lot.extractLsb' 0 8)) number) = _
    rw [long32_quarters]⟩
theorem waferClose (tag : Byte) : Statement (.waferClose tag) :=
  of_some rfl ⟨rfl, rfl⟩
theorem touchdownBegin (tag : Byte) (enable : Word) : Statement (.touchdownBegin tag enable) :=
  of_some rfl ⟨rfl, by
    show some (Command.touchdownBegin (word16 (enable.extractLsb' 8 8) (enable.extractLsb' 0 8))) = _
    rw [word16_halves]⟩
theorem touchdownEnd (tag : Byte) : Statement (.touchdownEnd tag) :=
  of_some rfl ⟨rfl, rfl⟩
theorem touchdownEndCompletion : Statement .touchdownEndCompletion := of_none rfl
theorem siteAbort (tag site : Byte) : Statement (.siteAbort tag site) :=
  of_some rfl ⟨rfl, rfl⟩
theorem mapQuery (tag : Byte) (x y : Word) : Statement (.mapQuery tag x y) :=
  of_some rfl ⟨rfl, by
    show some (Command.mapQuery (word16 (x.extractLsb' 8 8) (x.extractLsb' 0 8)) (word16 (y.extractLsb' 8 8) (y.extractLsb' 0 8))) = _
    rw [word16_halves, word16_halves]⟩
theorem logRead (tag : Byte) : Statement (.logRead tag) :=
  of_some rfl ⟨rfl, rfl⟩
theorem logDrop (tag : Byte) (count : Word) : Statement (.logDrop tag count) :=
  of_some rfl ⟨rfl, by
    show some (Command.logDrop (word16 (count.extractLsb' 8 8) (count.extractLsb' 0 8))) = _
    rw [word16_halves]⟩
theorem eventRead (tag : Byte) : Statement (.eventRead tag) :=
  of_some rfl ⟨rfl, rfl⟩
theorem eventClear (tag : Byte) (keep : Word) : Statement (.eventClear tag keep) :=
  of_some rfl ⟨rfl, by
    show some (Command.eventClear (word16 (keep.extractLsb' 8 8) (keep.extractLsb' 0 8))) = _
    rw [word16_halves]⟩
theorem transactionStart (port : PortId) : Statement (.transactionStart port) := of_none rfl
theorem dieResponse (port : PortId) (answer : DieAnswer) : Statement (.dieResponse port answer) := of_none rfl
theorem keyService : Statement .keyService := of_none rfl
theorem responseTimeout (port : PortId) : Statement (.responseTimeout port) := of_none rfl
theorem breakEnd (port : PortId) : Statement (.breakEnd port) := of_none rfl
theorem settleExpiry (port : PortId) : Statement (.settleExpiry port) := of_none rfl
theorem supplyGoodChange (port : PortId) (good : Bool) : Statement (.supplyGoodChange port good) := of_none rfl
theorem contactFall : Statement .contactFall := of_none rfl
theorem contactRise : Statement .contactRise := of_none rfl
theorem downstreamByte (b : Byte) : Statement (.downstreamByte b) := of_none rfl

end Sys2Proof.Laws.CommandSurvivesItsBytes
end

