-- ==== Sys2Proof/Laws/Steps.lean ====
section
/-! SUPPORT. Laws/Steps.lean: ports, control queue and receiver keep the invariants of keys, log and map. -/

namespace Sys2Proof.Machine
variable {s t : State} {p : PortId}

theorem foldl_keeps {α : Type} {P : State → Prop} (f : State → α → State) (h : ∀ s a, P s → P (f s a)) (l : List α) :
    ∀ s, P s → P (l.foldl f s) := by
  induction l with
  | nil => exact fun s h => h
  | cons a l ih => exact fun s hs => ih _ (h s a hs)

/-- A property that port updates, deliveries and the contexts' part in a start keep is kept by the starts of a port
(R53, R86). -/
theorem startPort_keeps {P : State → Prop} (port : ∀ s p pt, P s → P (State.setPort s p pt))
    (deliver : ∀ s r st w, P s → P (State.deliver s r st w))
    (start : ∀ s p x, P s → P (State.setCtx s p ((s.ctx p).atStart x))) (h : P s) (p : PortId) : P (s.startPort p) := by
  have send : ∀ s r m, P s → P (State.sendRequest s p r m) := by
    intro s r m h
    unfold State.sendRequest
    exact start _ p m.action (port _ _ _ h)
  have head : ∀ s, P s → P (State.startHead s p) := by
    intro s h
    unfold State.startHead State.startRequest
    dsimp only
    repeat' split
    · exact deliver _ _ _ _ (port _ _ _ (port _ _ _ h))
    · exact deliver _ _ _ _ (port _ _ _ (port _ _ _ h))
    · exact send _ _ _ (port _ _ _ (port _ _ _ h))
    · exact send _ _ _ (port _ _ _ (port _ _ _ h))
    · exact h
  have upTo : ∀ n s, P s → P (State.startUpTo n s p) := by
    intro n
    induction n with
    | zero => exact fun _ h => h
    | succ n ih =>
      intro s h
      unfold State.startUpTo
      split
      · exact ih _ (head _ h)
      · exact h
  exact upTo _ _ h

theorem State.Kept.startPort (h : s.Kept) (p : PortId) : (s.startPort p).Kept :=
  startPort_keeps (P := State.Kept) (fun _ _ _ h => h.setPort _ _) (fun _ _ _ _ h => h.deliver _ _ _)
    (fun _ _ _ h => h.atStart _ _) h p

theorem State.Kept.endTransaction (h : s.Kept) (p : PortId) (tx : Transaction) (o : TxOutcome) (a : PortState) :
    (s.endTransaction p tx o a).Kept := by
  unfold State.endTransaction
  exact ((h.setPort p _).contextAtEnd p _ _).deliver _ _ _

theorem State.Kept.countLateResponse (h : s.Kept) : s.countLateResponse.Kept :=
  h.aside (by simp) (by simp) (by simp) (by simp) (by simp) (by simp) (by simp) (by simp) (by simp) (by simp)

theorem State.Kept.countLinkErrors (h : s.Kept) (n : Nat) : (s.countLinkErrors n).Kept :=
  h.aside (by simp) (by simp) (by simp) (by simp) (by simp) (by simp) (by simp) (by simp) (by simp) (by simp)

theorem State.Kept.dieResponds (h : s.Kept) (p : PortId) (a : DieAnswer) : (s.dieResponds p a).Kept := by
  unfold State.dieResponds
  split
  · exact h
  · exact h.countLateResponse
  · exact h.countLateResponse
  · exact (h.endTransaction _ _ _ _).startPort p

theorem State.Kept.responseTimesOut (h : s.Kept) (p : PortId) : (s.responseTimesOut p).Kept := by
  unfold State.responseTimesOut
  split
  · exact (h.raise _).endTransaction _ _ _ _
  · exact h

theorem State.Kept.breakEnds (h : s.Kept) (p : PortId) : (s.breakEnds p).Kept := by
  unfold State.breakEnds
  split
  · exact State.Kept.startPort (h.setPort _ _) p
  · exact h

theorem State.Kept.parkOnContactLoss (h : s.Kept) (p : PortId) : (s.parkOnContactLoss p).Kept := by
  unfold State.parkOnContactLoss
  split
  · exact h
  · exact ((h.deliver _ _ _).answerQueue _ _).setPort _ _
  · exact (h.answerQueue _ _).setPort _ _

theorem State.Kept.closePort (h : s.Kept) (p : PortId) : (s.closePort p).Kept := by
  unfold State.closePort
  exact (h.answerQueue _ _).setPort _ _

theorem State.Kept.endTouchdown (h : s.Kept) (ho : s.td.state = .touchdownOpen) (tag : Byte) : (s.endTouchdown
    tag).Kept := by
  unfold State.endTouchdown
  dsimp only
  have h1 := foldl_keeps (P := State.Kept) (fun s p => s.closePort p) (fun s p h => h.closePort p) allPorts s h
  have h2 := foldl_keeps (P := State.Kept) (fun s p => s.abortContext p) (fun s p h => h.abortContext p)
      s.settlementOrder _ h1
  have h3 := h2.serviceIf s.anyHeld
  have htd : ∀ (u : State) (l : List PortId), (l.foldl (fun s p => s.abortContext p) u).td = u.td := fun u l => by
    induction l generalizing u with
    | nil => rfl
    | cons a l ih => simp [ih]
  have htd2 : ∀ (u : State) (l : List PortId), (l.foldl (fun s p => s.closePort p) u).td = u.td := fun u l => by
    induction l generalizing u with
    | nil => rfl
    | cons a l ih => simp [ih]
  refine h3.congr ⟨fun _ => rfl, rfl, rfl, rfl, rfl, rfl, rfl, rfl, ?_, ?_⟩
  · simp [State.setExecutor, State.touchdownIsOpen, TdState.isOpen, htd, htd2, ho]
  · intro job hj; simp [State.setExecutor] at hj

theorem State.Kept.completeIfQuiet (h : s.Kept) : s.completeIfQuiet.Kept := by
  unfold State.completeIfQuiet
  split
  · rename_i tag hd
    refine h.completeTouchdown ?_ tag
    unfold State.completionDue at hd
    split at hd
    · split at hd
      · rename_i hq; exact hq.2
      · cases hd
    · cases hd
  · exact h

theorem State.Kept.loseContact (h : s.Kept) : s.loseContact.Kept := by
  unfold State.loseContact
  dsimp only
  refine State.Kept.serviceIf ?_ _
  refine foldl_keeps (P := State.Kept) _ (fun s p h => h.switchOff p) _ _ ?_
  refine foldl_keeps (P := State.Kept) _ (fun s p h => h.contactLostContext p) _ _ ?_
  refine foldl_keeps (P := State.Kept) _ (fun s p h => h.parkOnContactLoss p) _ _ ?_
  exact h.congr ⟨fun _ => rfl, rfl, rfl, rfl, rfl, rfl, rfl, rfl, rfl, fun _ h => h⟩

theorem State.Kept.supplyFaults (h : s.Kept) (p : PortId) : (s.supplyFaults p).Kept :=
  ((h.switchOff p).raise _).supplyFaultContext p

theorem State.Kept.same (h : s.Kept) (e1 : t.contexts = s.contexts) (e2 : t.waitList = s.waitList)
    (e3 : t.pool = s.pool) (e4 : t.batch = s.batch) (e5 : t.counters = s.counters) (e6 : t.log = s.log)
    (e7 : t.dieMap = s.dieMap) (e8 : t.params = s.params) (e9 : t.td = s.td) (e10 : t.control = s.control) : t.Kept :=
  h.aside e1 e2 e3 e4 e5 e6 e7 e8 e9 e10

theorem State.Kept.runCommand (h : s.Kept) (hx : s.control.executor = .idle) (tag : Byte) (c : Command) :
    (runCommand tag c s).Kept := by
  cases c <;> simp only [Machine.runCommand]
  case identify => exact h.respondOk _ _
  case status => unfold Machine.cmdStatus; split; exact h.respondOk _ _; split; exact h.respondOk _ _; exact h.refuse _ _
  case paramSet => exact h.cmdParamSet _ _ _
  case paramGet => unfold Machine.cmdParamGet; split; exact h.refuse _ _; exact h.respondOk _ _
  case ruleWrite =>
    unfold Machine.cmdRuleWrite; split; exact h.refuse _ _; split; exact h.refuse _ _
    refine State.Kept.respondOk ?_ _ _; exact h.same rfl rfl rfl rfl rfl rfl rfl rfl rfl rfl
  case ruleRead => unfold Machine.cmdRuleRead; split; exact h.respondOk _ _; exact h.refuse _ _
  case siteMapWrite =>
    unfold Machine.cmdSiteMapWrite; split; exact h.refuse _ _; split; dsimp only; split; exact h.refuse _ _
    refine State.Kept.respondOk ?_ _ _; exact h.same rfl rfl rfl rfl rfl rfl rfl rfl rfl rfl
    exact h.refuse _ _
  case siteMapRead => unfold Machine.cmdSiteMapRead; split; exact h.respondOk _ _; exact h.refuse _ _
  case groupWrite =>
    unfold Machine.cmdGroupWrite; split; exact h.refuse _ _; split; exact h.refuse _ _
    refine State.Kept.respondOk ?_ _ _; exact h.same rfl rfl rfl rfl rfl rfl rfl rfl rfl rfl
  case groupRead => unfold Machine.cmdGroupRead; split; exact h.refuse _ _; exact h.respondOk _ _
  case strapSet =>
    unfold Machine.cmdStrapSet; split
    exact State.Kept.respondOk (h.setPort _ _) _ _; exact h.refuse _ _
  case strapRead =>
    unfold Machine.cmdStrapRead; split
    · dsimp only; refine State.Kept.respondOk ?_ _ _; exact h.same rfl rfl rfl rfl rfl rfl rfl rfl rfl rfl
    · exact h.refuse _ _
  case batchOpen => exact h.cmdBatchOpen (by simp [hx]) _ _ _
  case keyLoad => exact h.cmdKeyLoad _ _
  case keyPurge => exact h.cmdKeyPurge _
  case waferOpen =>
    unfold Machine.cmdWaferOpen; split; exact h.refuse _ _; split; exact h.refuse _ _
    rename_i ho _
    exact State.Kept.respondOk (h.wafer (by simpa using ho) _ rfl) _ _
  case waferClose =>
    unfold Machine.cmdWaferClose; split; exact h.refuse _ _; split; exact h.refuse _ _
    rename_i ho _
    exact State.Kept.respondOk (h.wafer (by simpa using ho) _ rfl) _ _
  case touchdownBegin =>
    unfold Machine.cmdTouchdownBegin; split; exact h.refuse _ _; split; exact h.refuse _ _; split; exact h.refuse _ _
    rename_i ho _ _
    exact State.Kept.respondOk (h.beginTouchdown (by simpa using ho) _) _ _
  case touchdownEnd =>
    unfold Machine.cmdTouchdownEnd; split
    · rename_i ho; exact (h.endTouchdown ho _).completeIfQuiet
    · exact h.refuse _ _
  case siteAbort =>
    unfold Machine.cmdSiteAbort; split
    · dsimp only; split; exact h.refuse _ _; split; exact h.refuse _ _
      exact (((h.answerQueue _ _).abortContext _).serviceIf _).respondOk _ _
    · exact h.refuse _ _
  case mapQuery => unfold Machine.cmdMapQuery; split; exact h.refuse _ _; split; exact h.refuse _ _; exact h.respondOk _ _
  case logRead => exact h.respondOk _ _
  case logDrop => exact h.cmdLogDrop _ _
  case eventRead => exact h.respondOk _ _
  case eventClear => unfold Machine.cmdEventClear; dsimp only; refine State.Kept.respondOk ?_ _ _; exact h.same rfl rfl rfl rfl rfl rfl rfl rfl rfl rfl

@[simp] theorem endTouchdown_control (s : State) (tag : Byte) :
    (s.endTouchdown tag).control = { s.control with executor := .endingTouchdown tag } := by
  have h1 := foldl_field (fun s : State => s.control) (fun s p => s.closePort p) allPorts (by intros; simp) s
  have h2 := foldl_field (fun s : State => s.control) (fun s p => s.abortContext p) s.settlementOrder (by intros; simp)
    (allPorts.foldl (fun s p => s.closePort p) s)
  unfold State.endTouchdown
  simp only [State.setExecutor, serviceIf_frame, h2, h1]

@[simp] theorem endTouchdown_td (s : State) (tag : Byte) :
    (s.endTouchdown tag).td = { s.td with state := .touchdownEnding } := by
  have h1 := foldl_field (fun s : State => s.td) (fun s p => s.closePort p) allPorts (by intros; simp) s
  have h2 := foldl_field (fun s : State => s.td) (fun s p => s.abortContext p) s.settlementOrder (by intros; simp)
    (allPorts.foldl (fun s p => s.closePort p) s)
  unfold State.endTouchdown
  simp only [State.setExecutor, serviceIf_frame, h2, h1]

@[simp] theorem completeTouchdown_control (s : State) (tag : Byte) :
    (s.completeTouchdown tag).control = { s.control with executor := .idle } := by
  unfold State.completeTouchdown; simp

@[simp] theorem completeTouchdown_td (s : State) (tag : Byte) :
    (s.completeTouchdown tag).td = { s.td with state := .waferOpen } := by
  unfold State.completeTouchdown; simp

@[simp] theorem loseContact_td (s : State) : s.loseContact.td = { s.td with contactLost := true } := by
  unfold State.loseContact
  simp only [serviceIf_frame]
  rw [foldl_field (fun s : State => s.td) _ _ (by intros; simp), foldl_field (fun s : State => s.td) _ _ (by intros; simp),
    foldl_field (fun s : State => s.td) _ _ (by intros; simp)]

@[simp] theorem setParam_frame (s : State) (q : Param) (v : Word) :
    (s.setParam q v).phase = s.phase ∧ (s.setParam q v).pins = s.pins ∧
    (s.setParam q v).transportKeyId = s.transportKeyId ∧ (s.setParam q v).pending = s.pending := by
  cases q <;> exact ⟨rfl, rfl, rfl, rfl⟩

/-- No command changes the reset phase, the pins, the transport key id or the commands still on their way. -/
theorem runCommand_frame (tag : Byte) (c : Command) (s : State) :
    (runCommand tag c s).phase = s.phase ∧ (runCommand tag c s).pins = s.pins ∧
    (runCommand tag c s).transportKeyId = s.transportKeyId ∧ (runCommand tag c s).pending = s.pending := by
  cases c <;> simp only [runCommand, cmdIdentify, cmdStatus, cmdParamSet, cmdParamGet, cmdRuleWrite, cmdRuleRead,
    cmdSiteMapWrite, cmdSiteMapRead, cmdGroupWrite, cmdGroupRead, cmdStrapSet, cmdStrapRead, cmdBatchOpen, cmdKeyLoad,
    cmdKeyPurge, cmdWaferOpen, cmdWaferClose, cmdTouchdownBegin, cmdTouchdownEnd, cmdSiteAbort, cmdMapQuery, cmdLogRead,
    cmdLogDrop, cmdEventRead, cmdEventClear]
  all_goals (repeat' split) <;> simp

theorem State.Kept.runUpTo (n : Nat) (h : s.Kept) : (State.runUpTo n s).Kept := by
  induction n generalizing s with
  | zero => exact h
  | succ n ih =>
    unfold State.runUpTo
    split
    · rename_i hx _
      refine ih (State.Kept.runCommand ?_ ?_ _ _); exact h.control _ (fun _ h => h); exact hx
    · exact h

theorem State.Kept.runQueue (h : s.Kept) : s.runQueue.Kept := h.runUpTo _

theorem State.Kept.submit (h : s.Kept) (tag : Byte) (c : Command) : (s.submit tag c).Kept := by
  unfold State.submit
  split
  · exact h.refuse _ _
  · refine State.Kept.runQueue ?_; exact h.control _ (fun _ h => h)

theorem State.Kept.completeAndRelease (h : s.Kept) : s.completeAndRelease.Kept := by
  have := h.completeIfQuiet
  unfold State.completeIfQuiet at this
  unfold State.completeAndRelease
  split
  · simp_all only; exact this.runQueue
  · exact h

/-- An event whose site responses come first runs on a state that differs by answered queues alone: what holds before, and
what an answered queue keeps, holds where the event starts (R173). -/
theorem siteAnswersFirst_keeps {P Q : State → Prop} {event : State → State} (h : P s)
    (answer : ∀ s p, P s → P (State.answerQueue s p .aborted)) (run : ∀ t, P t → Q (event t)) :
    Q (s.siteAnswersFirst event) := run _ (foldl_keeps _ answer _ _ h)

theorem State.Kept.startPorts (h : s.Kept) (l : List PortId) : (s.startPorts l).Kept := by
  unfold State.startPorts
  exact foldl_keeps (P := State.Kept) _ (fun s p h => State.Kept.startPort h p) _ _ h

theorem State.Kept.routeFrame (h : s.Kept) (f : RequestFrame) : (s.routeFrame f).Kept := by
  unfold State.routeFrame
  split
  · exact h.emit _
  · split
    · unfold State.controlFrame
      split
      · exact h.refuse _ _
      · split
        · exact h.refuse _ _
        · split
          · exact h.refuse _ _
          · exact h.submit _ _
    · unfold State.siteFrame
      split
      · unfold State.singleFrame; split
        · unfold State.offer; split
          · exact State.Kept.startPort (h.setPort _ _) _
          · exact h.emit _
          · exact h.emit _
        · exact h.emit _
      · split
        · unfold State.groupFrame
          split
          · exact h.emit _
          · dsimp only; split
            · exact h.emit _
            · split
              · exact h.emit _
              · split
                · exact h.emit _
                · refine State.Kept.startPorts ?_ _
                  unfold State.replicate
                  refine foldl_keeps (P := State.Kept) _ (fun s p h => State.Kept.setPort h _ _) _ _ ?_
                  exact h.same rfl rfl rfl rfl rfl rfl rfl rfl rfl rfl
        · exact h

theorem State.Kept.setRx (h : s.Kept) (rx : RxState) (l : List Byte) (n : Nat) : (s.setRx rx l n).Kept :=
  h.same rfl rfl rfl rfl rfl rfl rfl rfl rfl rfl

theorem State.Kept.receiveByte (h : s.Kept) (b : Byte) : (s.receiveByte b).Kept := by
  unfold State.receiveByte
  split
  · exact h
  · exact h
  · split
    · split; exact h.setRx _ _ _; exact h
    · split; exact h.setRx _ _ _; split; exact h; exact h.setRx _ _ _
    · dsimp only; split; exact h.setRx _ _ _
      unfold State.headerEnds; split; exact (h.setRx _ _ _).countLinkErrors _; split; exact h.setRx _ _ _; exact h.setRx _ _ _
    · dsimp only; split; exact h.setRx _ _ _; exact h.setRx _ _ _
    · split; exact h.setRx _ _ _
      unfold State.frameEnds; dsimp only; split
      · split
        · exact (h.setRx _ _ _).routeFrame _
        · exact h.setRx _ _ _
      · exact (h.setRx _ _ _).countLinkErrors _

end Sys2Proof.Machine
end

