-- ==== Sys2Proof/Laws/Traffic.lean ====
section
/-! SUPPORT. Laws/Traffic.lean: what the operations do to the upstream stream and to the merge records is a row of
    responses
and of member results; the invariants of streams and merges are kept by each. -/

namespace Sys2Proof.Machine

variable {s t u : State} {p : PortId}

/-- `t` is reached from `s` by responses handed to the Link Interface and member results, and by changes that touch
neither the link, nor its ready input, nor the merge records. -/
inductive State.Traffic : State → State → Prop where
  | same {s t : State} (link : t.link = s.link) (up : t.pins.linkRdy = s.pins.linkRdy) (merge : t.merge = s.merge) :
      State.Traffic s t
  | emit (s : State) (r : Response) : State.Traffic s (s.emit r)
  | member (s : State) (ref : MergeRef) (res : MemberResult) : State.Traffic s (s.deliverMember ref res)
  | trans {s t u : State} (a : State.Traffic s t) (b : State.Traffic t u) : State.Traffic s u

namespace State.Traffic

theorem refl (s : State) : s.Traffic s := same rfl rfl rfl

/-- A change on the way that touches neither link nor merges. -/
theorem then_same (h : s.Traffic t) (link : u.link = t.link) (up : u.pins.linkRdy = t.pins.linkRdy)
    (merge : u.merge = t.merge) : s.Traffic u := h.trans (same link up merge)

theorem deliver (s : State) (r : Request) (st : Status) (w : Option Word) : s.Traffic (s.deliver r st w) := by
  unfold State.deliver
  split
  · exact emit _ _
  · exact member _ _ _

theorem foldl {α : Type} (f : State → α → State) (h : ∀ (s : State) a, s.Traffic (f s a)) (l : List α) :
    ∀ s : State, s.Traffic (l.foldl f s) := by
  induction l with
  | nil => exact refl
  | cons a l ih => exact fun s => (h s a).trans (ih _)

theorem answerQueue (s : State) (p : PortId) (st : Status) : s.Traffic (s.answerQueue p st) := by
  unfold State.answerQueue
  refine trans ?_ (foldl _ (fun s r => deliver s r st none) _ _)
  exact same rfl rfl rfl

theorem sendRequest (s : State) (p : PortId) (r : Request) (m : MatchRecord) : s.Traffic (s.sendRequest p r m) := by
  unfold State.sendRequest
  exact same rfl rfl rfl

theorem startRequest (s : State) (p : PortId) (r : Request) (m : MatchRecord) : s.Traffic (s.startRequest p r m) := by
  unfold State.startRequest
  refine trans (same rfl rfl rfl : s.Traffic (s.setPort p { s.port p with prevRule := m.rule })) ?_
  dsimp only
  split
  · exact deliver _ _ _ _
  · split
    · exact deliver _ _ _ _
    · exact sendRequest _ _ _ _
    · exact sendRequest _ _ _ _

theorem startHead (s : State) (p : PortId) : s.Traffic (s.startHead p) := by
  unfold State.startHead
  split
  · refine trans ?_ (startRequest _ _ _ _)
    exact same rfl rfl rfl
  · exact refl s

theorem startUpTo (n : Nat) (s : State) (p : PortId) : s.Traffic (State.startUpTo n s p) := by
  induction n generalizing s with
  | zero => exact refl s
  | succ n ih =>
    unfold State.startUpTo
    split
    · exact (startHead s p).trans (ih _)
    · exact refl s

theorem startPort (s : State) (p : PortId) : s.Traffic (s.startPort p) := startUpTo _ _ _

theorem startPorts (s : State) (l : List PortId) : s.Traffic (s.startPorts l) := foldl _ startPort _ _

theorem endTransaction (s : State) (p : PortId) (tx : Transaction) (o : TxOutcome) (a : PortState) :
    s.Traffic (s.endTransaction p tx o a) := by
  unfold State.endTransaction
  refine trans ?_ (deliver _ _ _ _)
  exact same (by simp) (by simp) (by simp)

theorem dieResponds (s : State) (p : PortId) (a : DieAnswer) : s.Traffic (s.dieResponds p a) := by
  unfold State.dieResponds
  split
  · exact refl s
  · exact same (by simp) (by simp) (by simp)
  · exact same (by simp) (by simp) (by simp)
  · exact (endTransaction _ _ _ _ _).trans (startPort _ _)

theorem responseTimesOut (s : State) (p : PortId) : s.Traffic (s.responseTimesOut p) := by
  unfold State.responseTimesOut
  split
  · refine trans ?_ (endTransaction _ _ _ _ _)
    exact same rfl rfl rfl
  · exact refl s

theorem breakEnds (s : State) (p : PortId) : s.Traffic (s.breakEnds p) := by
  unfold State.breakEnds
  split
  · refine trans ?_ (startPort _ _)
    exact same rfl rfl rfl
  · exact refl s

theorem parkOnContactLoss (s : State) (p : PortId) : s.Traffic (s.parkOnContactLoss p) := by
  unfold State.parkOnContactLoss
  split
  · exact refl s
  · exact ((deliver s _ _ _).trans (answerQueue _ p _)).then_same rfl rfl rfl
  · exact (answerQueue s p _).then_same rfl rfl rfl

theorem closePort (s : State) (p : PortId) : s.Traffic (s.closePort p) :=
  (answerQueue s p .aborted).then_same rfl rfl rfl

theorem respond (s : State) (tag : Byte) (st : Status) (l : List Byte) : s.Traffic (s.respond tag st l) := emit _ _
theorem respondOk (s : State) (tag : Byte) (l : List Byte) : s.Traffic (s.respondOk tag l) := emit _ _
theorem refuse (s : State) (tag : Byte) (st : Status) : s.Traffic (s.refuse tag st) := emit _ _

theorem serviceIf (s : State) (b : Bool) : s.Traffic (s.serviceIf b) := same (by simp) (by simp) (by simp)

theorem endTouchdown (s : State) (tag : Byte) : s.Traffic (s.endTouchdown tag) := by
  unfold State.endTouchdown
  dsimp only
  have h1 := foldl (fun s p => s.closePort p) closePort allPorts s
  have h2 := h1.trans (foldl (fun s p => s.abortContext p) (fun s p => same (by simp) (by simp) (by simp))
    s.settlementOrder _)
  exact (h2.trans (serviceIf _ s.anyHeld)).then_same rfl rfl rfl

theorem completeTouchdown (s : State) (tag : Byte) : s.Traffic (s.completeTouchdown tag) := by
  unfold State.completeTouchdown
  dsimp only
  refine trans ?_ (respondOk _ _ _)
  exact same rfl rfl rfl

theorem completeIfQuiet (s : State) : s.Traffic s.completeIfQuiet := by
  unfold State.completeIfQuiet
  split
  · exact completeTouchdown _ _
  · exact refl s

theorem loseContact (s : State) : s.Traffic s.loseContact := by
  unfold State.loseContact
  dsimp only
  refine trans ?_ (serviceIf _ _)
  refine trans ?_ (foldl _ (fun s p => same (by simp) (by simp) (by simp)) _ _)
  refine trans ?_ (foldl _ (fun s p => same (by simp) (by simp) (by simp)) _ _)
  refine trans ?_ (foldl _ parkOnContactLoss _ _)
  exact same rfl rfl rfl

theorem unwrapEnds (s : State) (j : UnwrapJob) (r : Option KeyBits) : s.Traffic (s.unwrapEnds j r) := by
  unfold State.unwrapEnds
  dsimp only
  split
  · refine trans ?_ (respondOk _ _ _)
    exact same (by simp) (by simp) (by simp)
  · refine trans ?_ (respond _ _ _ _)
    exact same (by simp) (by simp) (by simp)

theorem setParam (s : State) (q : Param) (v : Word) : s.Traffic (s.setParam q v) := by
  cases q <;> exact same rfl rfl rfl

theorem beginTouchdown (s : State) (m : BitVec 16) : s.Traffic (s.beginTouchdown m) :=
  same (by simp) (by simp) (by simp)

/-- Every command's effect is traffic. -/
theorem runCommand (tag : Byte) (c : Command) (s : State) : s.Traffic (runCommand tag c s) := by
  cases c
  case paramSet =>
    show s.Traffic (cmdParamSet _ _ _ s)
    unfold cmdParamSet
    repeat' split
    · exact refuse _ _ _
    · exact refuse _ _ _
    · exact (setParam _ _ _).trans (respondOk _ _ _)
  case keyLoad =>
    show s.Traffic (cmdKeyLoad _ _ s)
    unfold cmdKeyLoad
    split
    · exact refuse _ _ _
    · exact same rfl rfl rfl
  case keyPurge =>
    show s.Traffic (cmdKeyPurge _ s)
    unfold cmdKeyPurge
    dsimp only
    refine trans ?_ (respondOk _ _ _)
    split
    · exact same rfl rfl rfl
    · exact same (by simp) (by simp) (by simp)
  case touchdownBegin =>
    show s.Traffic (cmdTouchdownBegin _ _ s)
    unfold cmdTouchdownBegin
    dsimp only
    repeat' split
    · exact refuse _ _ _
    · exact refuse _ _ _
    · exact refuse _ _ _
    · exact (beginTouchdown _ _).trans (respondOk _ _ _)
  case touchdownEnd =>
    show s.Traffic (cmdTouchdownEnd _ s)
    unfold cmdTouchdownEnd
    split
    · exact (endTouchdown _ _).trans (completeIfQuiet _)
    · exact refuse _ _ _
  case siteAbort =>
    show s.Traffic (cmdSiteAbort _ _ s)
    unfold cmdSiteAbort
    split
    · dsimp only
      split
      · exact refuse _ _ _
      · split
        · exact refuse _ _ _
        · refine trans ?_ (respondOk _ _ _)
          exact (answerQueue s (s.sitePort ⟨_, by assumption⟩) .aborted).then_same (by simp) (by simp) (by simp)
    · exact refuse _ _ _
  case logDrop =>
    refine trans ?_ (respondOk _ _ _)
    refine trans ?_ (serviceIf _ _)
    exact same rfl rfl rfl
  case status =>
    show s.Traffic (cmdStatus _ _ s)
    unfold cmdStatus
    repeat' split
    all_goals exact emit _ _
  case siteMapWrite =>
    show s.Traffic (cmdSiteMapWrite _ _ _ _ s)
    unfold cmdSiteMapWrite
    dsimp only
    repeat' split
    · exact refuse _ _ _
    · exact refuse _ _ _
    · refine trans ?_ (respondOk _ _ _)
      exact same rfl rfl rfl
    · exact refuse _ _ _
  case ruleWrite =>
    show s.Traffic (cmdRuleWrite _ _ s)
    unfold cmdRuleWrite
    repeat' split
    · exact refuse _ _ _
    · exact refuse _ _ _
    · refine trans ?_ (respondOk _ _ _)
      exact same rfl rfl rfl
  case groupWrite =>
    show s.Traffic (cmdGroupWrite _ _ _ s)
    unfold cmdGroupWrite
    repeat' split
    · exact refuse _ _ _
    · exact refuse _ _ _
    · refine trans ?_ (respondOk _ _ _)
      exact same rfl rfl rfl
  case strapSet =>
    show s.Traffic (cmdStrapSet _ _ _ _ s)
    unfold cmdStrapSet
    split
    · refine trans ?_ (respondOk _ _ _)
      exact same rfl rfl rfl
    · exact refuse _ _ _
  case strapRead =>
    show s.Traffic (cmdStrapRead _ _ s)
    unfold cmdStrapRead
    split
    · refine trans ?_ (respondOk _ _ _)
      exact same rfl rfl rfl
    · exact refuse _ _ _
  case batchOpen =>
    show s.Traffic (cmdBatchOpen _ _ _ s)
    unfold cmdBatchOpen
    split
    · exact refuse _ _ _
    · refine trans ?_ (respondOk _ _ _)
      exact same rfl rfl rfl
  case waferOpen =>
    show s.Traffic (cmdWaferOpen _ _ _ s)
    unfold cmdWaferOpen
    repeat' split
    · exact refuse _ _ _
    · exact refuse _ _ _
    · refine trans ?_ (respondOk _ _ _)
      exact same rfl rfl rfl
  case waferClose =>
    show s.Traffic (cmdWaferClose _ s)
    unfold cmdWaferClose
    repeat' split
    · exact refuse _ _ _
    · exact refuse _ _ _
    · refine trans ?_ (respondOk _ _ _)
      exact same rfl rfl rfl
  case eventClear =>
    show s.Traffic (cmdEventClear _ _ s)
    unfold cmdEventClear
    refine trans ?_ (respondOk _ _ _)
    exact same rfl rfl rfl
  case paramGet => show s.Traffic (cmdParamGet _ _ s); unfold cmdParamGet; split <;> exact emit _ _
  case ruleRead => show s.Traffic (cmdRuleRead _ _ s); unfold cmdRuleRead; split <;> exact emit _ _
  case siteMapRead => show s.Traffic (cmdSiteMapRead _ _ s); unfold cmdSiteMapRead; split <;> exact emit _ _
  case groupRead => show s.Traffic (cmdGroupRead _ _ s); unfold cmdGroupRead; split <;> exact emit _ _
  case mapQuery => show s.Traffic (cmdMapQuery _ _ _ s); unfold cmdMapQuery; dsimp only; (repeat' split) <;> exact emit _ _
  case identify => exact emit _ _
  case logRead => exact emit _ _
  case eventRead => exact emit _ _

theorem runUpTo (n : Nat) (s : State) : s.Traffic (State.runUpTo n s) := by
  induction n generalizing s with
  | zero => exact refl s
  | succ n ih =>
    unfold State.runUpTo
    split
    · refine trans ?_ (ih _)
      refine trans ?_ (runCommand _ _ _)
      exact same rfl rfl rfl
    · exact refl s

theorem runQueue (s : State) : s.Traffic s.runQueue := runUpTo _ _

theorem siteAnswersFirst (s : State) {event : State → State} (h : ∀ t : State, t.Traffic (event t)) :
    s.Traffic (s.siteAnswersFirst event) := (foldl _ (fun s p => answerQueue s p _) _ _).trans (h _)

theorem submit (s : State) (tag : Byte) (c : Command) : s.Traffic (s.submit tag c) := by
  unfold State.submit
  split
  · exact refuse _ _ _
  · refine trans ?_ (runQueue _)
    exact same rfl rfl rfl

theorem completeAndRelease (s : State) : s.Traffic s.completeAndRelease := by
  unfold State.completeAndRelease
  split
  · exact (completeTouchdown _ _).trans (runQueue _)
  · exact refl s

theorem offer (s : State) (f : SiteFrame) (p : PortId) : s.Traffic (s.offer f p) := by
  unfold State.offer
  split
  · refine trans ?_ (startPort _ _)
    exact same rfl rfl rfl
  · exact emit _ _
  · exact emit _ _

theorem singleFrame (s : State) (f : SiteFrame) (i : SiteId) : s.Traffic (s.singleFrame f i) := by
  unfold State.singleFrame
  split
  · exact offer _ _ _
  · exact emit _ _

end State.Traffic

/-! ### The upstream stream -/

theorem State.StreamSound.congr (h : s.StreamSound) (e : t.link = s.link) (e' : t.pins.linkRdy = s.pins.linkRdy) :
    t.StreamSound := ⟨by rw [e]; exact h.bound, by rw [e, e']; exact h.down, by rw [e]; exact h.head⟩

theorem State.StreamSound.emit (h : s.StreamSound) (r : Response) : (s.emit r).StreamSound := by
  unfold State.emit
  split
  · rename_i hr
    refine ⟨?_, ?_, ?_⟩
    · simp only [List.length_append, List.length_singleton]; omega
    · intro hd; simp [hr.1] at hd
    · intro f hf
      have := h.head f hf
      simp only [List.head?_append, this, Option.some_or]
  · exact h.congr (by simp) (by simp)

theorem State.StreamSound.traffic (h : s.StreamSound) (ht : s.Traffic t) : t.StreamSound := by
  induction ht with
  | same e1 e2 _ => exact h.congr e1 e2
  | emit s r => exact h.emit r
  | member s ref res =>
    unfold State.deliverMember
    split
    · exact h
    · dsimp only
      split
      · refine State.StreamSound.emit ?_ _
        exact h.congr rfl rfl
      · exact h.congr rfl rfl
  | trans a b ih1 ih2 => exact ih2 (ih1 h)

/-! ### Merge records -/

theorem State.MergesOpen.set (h : s.MergesOpen) (k : Fin 8) {o : Option MergeRecord}
    (ho : ∀ m, o = some m → m.complete = false) (e : t.merge = s.merge.set k o) : t.MergesOpen := by
  intro j m hj
  have hj' : (s.merge.set k o)[j] = some m := by rw [← e]; exact hj
  rw [Fin.getElem_fin, Vector.getElem_set] at hj'
  split at hj'
  · exact ho m hj'
  · exact h j m hj'

theorem State.MergesOpen.traffic (h : s.MergesOpen) (ht : s.Traffic t) : t.MergesOpen := by
  induction ht with
  | same _ _ e3 => intro k m hm; exact h k m (by rw [← e3]; exact hm)
  | emit s r => intro k m hm; exact h k m (by simpa using hm)
  | member s ref res =>
    unfold State.deliverMember
    split
    · exact h
    · dsimp only
      split
      · exact h.set ref.record (o := none) nofun (by simp)
      · rename_i hc
        exact h.set ref.record (o := some _) (fun m hm => by cases hm; simpa using hc) rfl
  | trans a b ih1 ih2 => exact ih2 (ih1 h)

/-! ### Group frames (R111..R114) -/

theorem State.Traffic.replicate (s : State) (f : SiteFrame) (k : Fin 8) (l : List SiteId) :
    s.Traffic (s.replicate f k l) :=
  State.Traffic.foldl (fun s i => s.enqueue (s.sitePort i) (f.request (some { record := k, member := i })))
    (fun _ _ => .same rfl rfl rfl) l s

/-- A member that is admissible at a frame's arrival is not done: the merge record waits for it (R114). -/
theorem immediateSlots_waits {members : BitVec 16} {tag group : Byte}
    (h : (membersOf members).filter (fun i => s.memberClass i == .accept) ≠ []) :
    ({ tag := tag, group := group, members := members, slots := s.immediateSlots members } : MergeRecord).complete =
      false := by
  obtain ⟨i, hi⟩ := List.exists_mem_of_ne_nil _ h
  rw [List.mem_filter] at hi
  rw [MergeRecord.complete, List.all_eq_false]
  refine ⟨i, hi.1, ?_⟩
  have hm : members.getLsbD i.val = true := by
    exact (List.mem_filter.1 hi.1).2
  have hc : s.memberClass i = .accept := by simpa using hi.2
  simp [State.immediateSlots, hm, hc]

theorem State.StreamSound.groupFrame (h : s.StreamSound) (f : SiteFrame) (m : BitVec 16) :
    (s.groupFrame f m).StreamSound := by
  unfold State.groupFrame
  dsimp only
  repeat' split
  iterate 3 exact h.emit _
  · exact h.emit _
  · refine State.StreamSound.traffic ?_ (.startPorts _ _)
    refine State.StreamSound.traffic ?_ (.replicate _ _ _ _)
    exact h.congr rfl rfl

theorem State.MergesOpen.groupFrame (h : s.MergesOpen) (f : SiteFrame) (m : BitVec 16) :
    (s.groupFrame f m).MergesOpen := by
  unfold State.groupFrame
  dsimp only
  repeat' split
  iterate 3 exact h.traffic (.emit _ _)
  · exact h.traffic (.emit _ _)
  · rename_i hne _ k _
    refine State.MergesOpen.traffic ?_ (.startPorts _ _)
    refine State.MergesOpen.traffic ?_ (.replicate _ _ _ _)
    exact h.set k (o := some _) (fun m hm => by cases hm; exact immediateSlots_waits hne) rfl

end Sys2Proof.Machine
end

