-- ==== Sys2Proof/Laws/Ports.lean ====
section
/-! SUPPORT. Laws/Ports.lean: what the operations do to the port records, port by port. -/

namespace Sys2Proof.Machine

variable {s t : State} {p q : PortId} {o e a : Prop}

/-- What holds of a port with a touchdown open or not (`o`), ending or not (`e`), and active or not (`a`). -/
structure Port.Sound (o e a : Prop) (pt : Port) : Prop where
  bound : pt.queue.length ≤ Config.siteQueueCapacity
  parked : pt.state.isParked = true → pt.queue = []
  outside : ¬ o → pt.state = .parked .noTouchdown
  ending : e → pt.queue = [] ∧ pt.admissionClosed = true
  unparked : pt.state.isParked = false → a
  gear : pt.gear ≤ 3

/-- Every port is sound for these circumstances. -/
def State.PortsIn (s : State) (o e a : Prop) : Prop := ∀ p, (s.port p).Sound o e a

/-- A port rests: IDLE with an empty queue, or not IDLE (R83). -/
def State.Resting (s : State) (p : PortId) : Prop := (s.port p).state = .idle → (s.port p).queue = []

/-- The circumstances of the ports. -/
def State.active (s : State) : Prop := s.phase ≠ .held ∧ s.pins.contact = true ∧ s.td.contactLost = false

theorem portsSound_iff : (s.PortsSound ∧ ∀ p, (s.port p).gear ≤ 3) ↔
    s.PortsIn (s.touchdownIsOpen = true) (s.td.state = .touchdownEnding) s.active ∧ ∀ p, s.Resting p := by
  constructor
  · rintro ⟨h, g⟩
    exact ⟨fun p => ⟨h.bound p, h.parked p, fun ho => h.outside (by simpa using ho) p, fun he => h.ending he p,
      h.unparked p, g p⟩, h.idle⟩
  · rintro ⟨h, r⟩
    exact ⟨⟨fun p => (h p).bound, r, fun p => (h p).parked, fun ho p => (h p).outside (by simp [ho]),
      fun he p => (h p).ending he, fun p => (h p).unparked⟩, fun p => (h p).gear⟩

theorem State.PortsIn.congr (h : s.PortsIn o e a) (hp : ∀ p, t.port p = s.port p) : t.PortsIn o e a :=
  fun p => by rw [hp]; exact h p

theorem State.Resting.congr (h : s.Resting p) (hp : t.port p = s.port p) : t.Resting p := by
  unfold State.Resting; rw [hp]; exact h

/-! ### Replacing one port -/

theorem State.PortsIn.setPort (h : s.PortsIn o e a) {pt : Port} (hp : pt.Sound o e a) : (s.setPort p pt).PortsIn o e a
    := by
  intro q
  rw [port_setPort]
  split
  · exact hp
  · exact h q

theorem Port.Sound.empty {pt : Port} (h : pt.Sound o e a) : ({ pt with queue := [] } : Port).Sound o e a :=
  ⟨Nat.zero_le _, fun _ => rfl, h.outside, fun he => ⟨rfl, (h.ending he).2⟩, h.unparked, h.gear⟩

/-- A port that is not parked changes to another state that is not parked. -/
theorem Port.Sound.moves {pt : Port} (h : pt.Sound o e a) (hn : pt.state.isParked = false) {st : PortState}
    (hs : st.isParked = false) : ({ pt with state := st } : Port).Sound o e a :=
  ⟨h.bound, (fun hf => by have hf' : st.isParked = true := hf; rw [hs] at hf'; cases hf'),
    (fun ho => by rw [h.outside ho] at hn; cases hn), h.ending, fun _ => h.unparked hn, h.gear⟩

theorem Port.Sound.prev {pt : Port} (h : pt.Sound o e a) (k : Option (Fin 64)) :
    ({ pt with prevRule := k } : Port).Sound o e a := ⟨h.bound, h.parked, h.outside, h.ending, h.unparked, h.gear⟩

theorem Port.Sound.taken {pt : Port} (h : pt.Sound o e a) {r : Request} {rest : List Request} (hq : pt.queue = r ::
    rest) :
    ({ pt with queue := rest } : Port).Sound o e a := by
  refine ⟨?_, ?_, h.outside, ?_, h.unparked, h.gear⟩
  · have := h.bound; rw [hq] at this; exact Nat.le_of_succ_le this
  · intro hf; have := h.parked hf; rw [hq] at this; cases this
  · intro he; have := (h.ending he).1; rw [hq] at this; cases this

/-! ### answerQueue -/

theorem answerQueue_port (s : State) (p : PortId) (st : Status) (q : PortId) :
    (s.answerQueue p st).port q = if q = p then { s.port p with queue := [] } else s.port q := by
  unfold State.answerQueue
  rw [← port_setPort]
  exact foldl_field (fun s : State => s.port q) _ _ (by intros; simp) _

theorem State.PortsIn.answerQueue (h : s.PortsIn o e a) (p : PortId) (st : Status) : (s.answerQueue p st).PortsIn o e
    a := by
  intro q
  rw [answerQueue_port]
  split
  · exact (h p).empty
  · exact h q

theorem Resting.answerQueue (h : q ≠ p → s.Resting q) (st : Status) : (s.answerQueue p st).Resting q := by
  unfold State.Resting
  rw [answerQueue_port]
  split
  · exact fun _ => rfl
  · exact h (by assumption)

/-! ### Transaction starts -/

theorem sendRequest_port (s : State) (p : PortId) (r : Request) (m : MatchRecord) (q : PortId) :
    (s.sendRequest p r m).port q =
      if q = p then
        { s.port p with
          state := .busy { request := r, record := m, window := s.windowOf m.action, gear := (s.port p).gear }
                     (s.windowOf m.action) }
      else s.port q := by
  unfold State.sendRequest
  dsimp only
  rw [setCtx_port, port_setPortState]

/-- What a transaction start leaves of a port: its state BUSY or as it was, its queue as it was. -/
theorem startRequest_port (s : State) (p : PortId) (r : Request) (m : MatchRecord) (q : PortId) :
    (s.startRequest p r m).port q = s.port q ∧ q ≠ p ∨
    q = p ∧ ∃ k, (s.startRequest p r m).port q = { s.port p with prevRule := k } ∨
      ∃ tx n, (s.startRequest p r m).port q = { s.port p with prevRule := k, state := .busy tx n } := by
  unfold State.startRequest
  dsimp only
  by_cases hq : q = p
  · subst hq
    right
    refine ⟨rfl, m.rule, ?_⟩
    repeat' split
    · left; simp
    · left; simp
    · right; exact ⟨_, _, by rw [sendRequest_port, if_pos rfl, port_setPort, if_pos rfl]⟩
    · right; exact ⟨_, _, by rw [sendRequest_port, if_pos rfl, port_setPort, if_pos rfl]⟩
  · left
    refine ⟨?_, hq⟩
    repeat' split
    all_goals simp [sendRequest_port, hq]

theorem startHead_other (s : State) (h : q ≠ p) : (s.startHead p).port q = s.port q := by
  unfold State.startHead
  split
  · dsimp only
    rcases startRequest_port (s.setPort p { s.port p with queue := _ }) p _ _ q with ⟨h', -⟩ | ⟨h', -⟩
    · rw [h', port_setPort, if_neg h]
    · exact absurd h' h
  · rfl

/-- The started port: its queue without its head, its state BUSY or IDLE. -/
theorem startHead_port (s : State) {r : Request} {rest : List Request} (hi : (s.port p).state = .idle)
    (hq : (s.port p).queue = r :: rest) :
    ∃ k, (s.startHead p).port p = { s.port p with queue := rest, prevRule := k } ∨
      ∃ tx n, (s.startHead p).port p = { s.port p with queue := rest, prevRule := k, state := .busy tx n } := by
  have hh : s.startHead p = (s.setPort p { s.port p with queue := rest }).startRequest p r
      (matchRecord s.rules (s.port p).prevRule r) := by
    unfold State.startHead
    split
    · rename_i hq'; rw [hq] at hq'; cases hq'; rfl
    · rename_i hn; exact absurd hq (hn _ _ hi)
  rw [hh]
  rcases startRequest_port (s.setPort p { s.port p with queue := rest }) p r
    (matchRecord s.rules (s.port p).prevRule r) p with ⟨-, h⟩ | ⟨-, k, h⟩
  · exact absurd rfl h
  · refine ⟨k, ?_⟩
    simpa only [port_setPort, if_true] using h

theorem State.PortsIn.startHead (h : s.PortsIn o e a) (p : PortId) : (s.startHead p).PortsIn o e a := by
  intro q
  by_cases hq : q = p
  · subst hq
    by_cases hc : (s.port q).state = .idle ∧ (s.port q).queue ≠ []
    · obtain ⟨hi, hne⟩ := hc
      obtain ⟨r, rest, hr⟩ := List.exists_cons_of_ne_nil hne
      obtain ⟨k, hk | ⟨tx, n, hk⟩⟩ := startHead_port s hi hr
      · rw [hk]; exact ((h q).taken hr).prev k
      · rw [hk]; exact (((h q).taken hr).prev k).moves (by show (s.port q).state.isParked = false; rw [hi]; rfl) rfl
    · have : s.startHead q = s := by
        unfold State.startHead
        split
        · rename_i hi hr; exact absurd ⟨hi, by rw [hr]; simp⟩ hc
        · rfl
      rw [this]; exact h q
  · rw [startHead_other s hq]; exact h q

theorem startUpTo_other (n : Nat) (s : State) (h : q ≠ p) : (State.startUpTo n s p).port q = s.port q := by
  induction n generalizing s with
  | zero => rfl
  | succ n ih =>
    unfold State.startUpTo
    split
    · rw [ih, startHead_other s h]
    · rfl

theorem startPort_other (s : State) (h : q ≠ p) : (s.startPort p).port q = s.port q := startUpTo_other _ s h

theorem State.PortsIn.startUpTo (n : Nat) (h : s.PortsIn o e a) (p : PortId) : (State.startUpTo n s p).PortsIn o e a
    := by
  induction n generalizing s with
  | zero => exact h
  | succ n ih =>
    unfold State.startUpTo
    split
    · exact ih (h.startHead p)
    · exact h

theorem State.PortsIn.startPort (h : s.PortsIn o e a) (p : PortId) : (s.startPort p).PortsIn o e a := h.startUpTo _ p

theorem Resting.startUpTo (n : Nat) (s : State) (hn : (s.port p).queue.length ≤ n) : (State.startUpTo n s p).Resting p
    := by
  induction n generalizing s with
  | zero => exact fun _ => List.eq_nil_of_length_eq_zero (Nat.le_zero.1 hn)
  | succ n ih =>
    unfold State.startUpTo
    split
    · rename_i hc
      obtain ⟨r, rest, hr⟩ := List.exists_cons_of_ne_nil hc.2
      refine ih _ ?_
      rw [hr] at hn
      obtain ⟨k, hk | ⟨tx, m, hk⟩⟩ := startHead_port s hc.1 hr <;> rw [hk] <;> exact Nat.le_of_succ_le_succ hn
    · rename_i hc
      intro hi
      exact Decidable.byContradiction fun hne => hc ⟨hi, hne⟩

/-- A port that has started rests, and the others are as they were. -/
theorem Resting.startPort (h : q ≠ p → s.Resting q) : (s.startPort p).Resting q := by
  by_cases hq : q = p
  · subst hq; exact Resting.startUpTo _ _ (Nat.le_refl _)
  · exact State.Resting.congr (h hq) (startPort_other s hq)

/-! ### Transaction ends -/

theorem endTransaction_port (s : State) (p : PortId) (tx : Transaction) (oc : TxOutcome) (st : PortState) (q : PortId) :
    (s.endTransaction p tx oc st).port q = if q = p then { s.port p with state := st } else s.port q := by
  unfold State.endTransaction
  simp only [deliver_port, contextAtEnd_port, port_setPortState]

theorem State.PortsIn.endTransaction (h : s.PortsIn o e a) (hb : (s.port p).state.isParked = false) (tx : Transaction)
    (oc : TxOutcome) {st : PortState} (hs : st.isParked = false) : (s.endTransaction p tx oc st).PortsIn o e a := by
  intro q
  rw [endTransaction_port]
  split
  · exact (h p).moves hb hs
  · exact h q

theorem State.PortsIn.dieResponds (h : s.PortsIn o e a) (p : PortId) (ans : DieAnswer) : (s.dieResponds p ans).PortsIn
    o e a := by
  unfold State.dieResponds
  split
  · exact h
  · exact h.congr (by simp)
  · exact h.congr (by simp)
  · rename_i hs; exact (h.endTransaction (by rw [hs]; rfl) _ _ rfl).startPort p

theorem Resting.dieResponds (h : ∀ q, s.Resting q) (p : PortId) (ans : DieAnswer) : (s.dieResponds p ans).Resting q :=
    by
  unfold State.dieResponds
  split
  · exact h q
  · exact (h q).congr (by simp)
  · exact (h q).congr (by simp)
  · exact Resting.startPort fun hq => (h q).congr (by rw [endTransaction_port, if_neg hq])

theorem State.PortsIn.responseTimesOut (h : s.PortsIn o e a) (p : PortId) : (s.responseTimesOut p).PortsIn o e a := by
  unfold State.responseTimesOut
  split
  · rename_i hs
    have h' : (s.raise .dieTimeout).PortsIn o e a := h.congr fun _ => rfl
    refine h'.endTransaction ?_ _ _ rfl
    show (s.port p).state.isParked = false
    rw [hs]; rfl
  · exact h

theorem Resting.responseTimesOut (h : ∀ q, s.Resting q) (p : PortId) : (s.responseTimesOut p).Resting q := by
  unfold State.responseTimesOut
  split
  · unfold State.Resting
    rw [endTransaction_port]
    split
    · nofun
    · exact h q
  · exact h q

theorem State.PortsIn.breakEnds (h : s.PortsIn o e a) (p : PortId) : (s.breakEnds p).PortsIn o e a := by
  unfold State.breakEnds
  split
  · rename_i hs
    exact State.PortsIn.startPort (h.setPort ((h p).moves (by rw [hs]; rfl) rfl)) p
  · exact h

theorem Resting.breakEnds (h : ∀ q, s.Resting q) (p : PortId) : (s.breakEnds p).Resting q := by
  unfold State.breakEnds
  split
  · exact Resting.startPort fun hq => (h q).congr (by rw [port_setPortState, if_neg hq])
  · exact h q

/-! ### Parking and the end of a touchdown -/

theorem parkOnContactLoss_port (s : State) (p q : PortId) :
    (s.parkOnContactLoss p).port q =
      if q = p ∧ (s.port p).state.isParked = false then { s.port p with queue := [], state := .parked .contact }
      else s.port q := by
  unfold State.parkOnContactLoss
  split
  · rename_i hs; simp [hs, PortState.isParked]
  · rename_i hs
    by_cases hq : q = p <;> simp [hq, hs, PortState.isParked, answerQueue_port]
  · rename_i h1 h2
    have hn : (s.port p).state.isParked = false := by
      cases hs : (s.port p).state with
      | parked c => exact absurd hs (h1 c)
      | _ => rfl
    by_cases hq : q = p <;> simp [hq, hn, answerQueue_port]

/-- With its contacts lost a port is PARKED and its queue empty. -/
theorem Port.Sound.lost {pt : Port} (h : pt.Sound o e a) (ho : o) :
    ({ pt with queue := [], state := .parked .contact } : Port).Sound o e False :=
  ⟨Nat.zero_le _, fun _ => rfl, fun hn => absurd ho hn, fun he => ⟨rfl, (h.ending he).2⟩, nofun, h.gear⟩

theorem Port.Sound.stays {pt : Port} (h : pt.Sound o e a) (hp : pt.state.isParked = true) : pt.Sound o e False :=
  ⟨h.bound, h.parked, h.outside, h.ending, (by rw [hp]; nofun), h.gear⟩

theorem foldl_parkOnContactLoss_port (l : List PortId) (hl : l.Nodup) (s : State) (q : PortId) :
    (l.foldl (fun s p => s.parkOnContactLoss p) s).port q =
      if q ∈ l ∧ (s.port q).state.isParked = false then { s.port q with queue := [], state := .parked .contact }
      else s.port q := by
  induction l generalizing s with
  | nil => simp
  | cons r l ih =>
    obtain ⟨hr, hl⟩ := List.nodup_cons.1 hl
    simp only [List.foldl_cons]
    rw [ih hl, parkOnContactLoss_port]
    by_cases hq : q = r
    · subst hq
      simp [hr]
    · simp [hq]

theorem loseContact_port (s : State) (q : PortId) :
    s.loseContact.port q =
      if (s.port q).state.isParked = false then { s.port q with queue := [], state := .parked .contact } else s.port q := by
  unfold State.loseContact
  dsimp only
  rw [serviceIf_port, foldl_field (fun s : State => s.port q) _ _ (by intros; simp),
    foldl_field (fun s : State => s.port q) _ _ (by intros; simp), foldl_parkOnContactLoss_port allPorts (List.nodup_finRange 16)]
  simp only [allPorts, List.mem_finRange, true_and]
  rfl

theorem foldl_closePort_port (l : List PortId) (s : State) (q : PortId) :
    (l.foldl (fun s p => s.closePort p) s).port q =
      if q ∈ l then { s.port q with queue := [], admissionClosed := true } else s.port q := by
  induction l generalizing s with
  | nil => simp
  | cons r l ih =>
    simp only [List.foldl_cons]
    rw [ih]
    have hc : (s.closePort r).port q =
        if q = r then { s.port r with queue := [], admissionClosed := true } else s.port q := by
      simp only [State.closePort, port_setPort, answerQueue_port]
      split <;> simp_all
    rw [hc]
    by_cases hq : q = r
    · subst hq; simp
    · simp [hq]

/-- TOUCHDOWN END empties every queue and closes admission (R102). -/
theorem endTouchdown_port (s : State) (tag : Byte) (q : PortId) :
    (s.endTouchdown tag).port q = { s.port q with queue := [], admissionClosed := true } := by
  unfold State.endTouchdown
  dsimp only
  have : ∀ u : State, ((({ u with td := { u.td with state := .touchdownEnding } } : State).setExecutor
    (.endingTouchdown tag)).port q) = u.port q := fun _ => rfl
  rw [this, serviceIf_port, foldl_field (fun s : State => s.port q) _ _ (by intros; simp), foldl_closePort_port]
  simp [allPorts]

theorem completeTouchdown_port (s : State) (tag : Byte) (q : PortId) :
    (s.completeTouchdown tag).port q = (s.port q).parkedAtEnd := by
  unfold State.completeTouchdown
  simp [State.port]

theorem beginTouchdown_port (s : State) (en : BitVec 16) (q : PortId) :
    (s.beginTouchdown en).port q = (s.port q).begun (s.namingSite en q).isSome := by
  unfold State.beginTouchdown
  dsimp only
  split <;> simp [State.port]

/-! ### Admission -/

/-- A port that admits is not parked, is not closed, and has room (R85). -/
theorem admission_admit {pt : Port} (h : pt.admission = .accept) :
    pt.state.isParked = false ∧ pt.admissionClosed = false ∧ pt.queue.length < Config.siteQueueCapacity := by
  unfold Port.admission at h
  split at h
  · cases h
  · cases h
  · rename_i h1 h2
    split at h
    · cases h
    · split at h
      · cases h
      · refine ⟨?_, by simp_all, by omega⟩
        cases hs : pt.state with
        | parked c => exact absurd hs (h2 c)
        | _ => rfl

theorem Port.Sound.joined {pt : Port} (h : pt.Sound o e a) (hp : pt.state.isParked = false)
    (hc : pt.admissionClosed = false) (hr : pt.queue.length < Config.siteQueueCapacity) (r : Request) :
    ({ pt with queue := pt.queue ++ [r] } : Port).Sound o e a := by
  refine ⟨by simp only [List.length_append, List.length_singleton]; omega, ?_, h.outside, ?_, h.unparked, h.gear⟩
  · intro hf; have hf' : pt.state.isParked = true := hf; rw [hp] at hf'; cases hf'
  · intro he; have := (h.ending he).2; rw [hc] at this; cases this

theorem State.PortsIn.offer (h : s.PortsIn o e a) (f : SiteFrame) (p : PortId) : (s.offer f p).PortsIn o e a := by
  unfold State.offer
  split
  · rename_i ha
    obtain ⟨h1, h2, h3⟩ := admission_admit ha
    exact State.PortsIn.startPort (h.setPort ((h p).joined h1 h2 h3 _)) p
  · exact h.congr (by simp)
  · exact h.congr (by simp)

theorem Resting.offer (h : ∀ q, s.Resting q) (f : SiteFrame) (p : PortId) : (s.offer f p).Resting q := by
  unfold State.offer
  split
  · exact Resting.startPort fun hq => (h q).congr (by simp [State.enqueue, hq])
  · exact (h q).congr (by simp)
  · exact (h q).congr (by simp)

/-! ### Group frames -/

theorem startPorts_keeps {P : State → Prop} (h : ∀ s p, P s → P (s.startPort p)) (l : List PortId) (hs : P s) :
    P (s.startPorts l) := foldl_keeps _ h _ _ hs

/-- The replication of a group frame, one request to each admissible member's port: with the ports distinct, each port
takes at most one. -/
theorem State.PortsIn.replicate (f : SiteFrame) (k : Fin 8) (l : List SiteId) (hl : l.Nodup) :
    ∀ s : State, s.PortsIn o e a →
    (∀ i ∈ l, ∀ j ∈ l, s.sitePort i = s.sitePort j → i = j) →
    (∀ i ∈ l, (s.port (s.sitePort i)).state.isParked = false ∧ (s.port (s.sitePort i)).admissionClosed = false ∧
      (s.port (s.sitePort i)).queue.length < Config.siteQueueCapacity) →
    (s.replicate f k l).PortsIn o e a := by
  induction l with
  | nil => exact fun s h _ _ => h
  | cons i l ih =>
    obtain ⟨hi, hl⟩ := List.nodup_cons.1 hl
    intro s h hd ha
    obtain ⟨h1, h2, h3⟩ := ha i (by simp)
    refine ih hl (s.enqueue (s.sitePort i) _) (h.setPort ((h _).joined h1 h2 h3 _)) ?_ ?_
    · exact fun a' ha' b hb hab => hd a' (by simp [ha']) b (by simp [hb]) hab
    · intro j hj
      have hne : s.sitePort j ≠ s.sitePort i := fun heq => hi (hd j (by simp [hj]) i (by simp) heq ▸ hj)
      have : (s.enqueue (s.sitePort i) (f.request (some { record := k, member := i }))).port (s.sitePort j) =
          s.port (s.sitePort j) := by simp [State.enqueue, hne]
      show _ ∧ _ ∧ _
      have hsp : (s.enqueue (s.sitePort i) (f.request (some { record := k, member := i }))).sitePort j = s.sitePort j := rfl
      rw [hsp, this]
      exact ha j (by simp [hj])

theorem replicate_other (f : SiteFrame) (k : Fin 8) (l : List SiteId) :
    ∀ s : State, (∀ i ∈ l, s.sitePort i ≠ q) → (s.replicate f k l).port q = s.port q := by
  induction l with
  | nil => exact fun s _ => rfl
  | cons i l ih =>
    intro s h
    have h0 : (s.enqueue (s.sitePort i) (f.request (some { record := k, member := i }))).port q = s.port q := by
      simp [State.enqueue, (h i (by simp)).symm]
    rw [← h0]
    exact ih _ fun j hj => h j (by simp [hj])

theorem foldl_startPort_resting (l : List PortId) : ∀ s : State, (q ∉ l → s.Resting q) →
    (l.foldl (fun s p => s.startPort p) s).Resting q := by
  induction l with
  | nil => exact fun s h => h (by simp)
  | cons r l ih =>
    intro s h
    exact ih _ fun hn => Resting.startPort fun hq => h (by simp [hq, hn])

/-- The ports of a group frame rest after it. -/
theorem Resting.startPorts (l : List PortId) (h : q ∉ l → s.Resting q) : (s.startPorts l).Resting q := by
  unfold State.startPorts
  exact foldl_startPort_resting _ _ fun hn => h fun hq => hn (by simp [List.mem_filter, allPorts, hq])

theorem memberClass_admit {i : SiteId} (h : s.memberClass i = .accept) :
    (s.siteMap[i]).enabled = true ∧ (s.port (s.sitePort i)).admission = .accept := by
  unfold State.memberClass at h
  split at h
  · exact ⟨by assumption, h⟩
  · cases h

theorem membersOf_nodup (m : BitVec 16) : (membersOf m).Nodup := (List.nodup_finRange 16).filter _

theorem State.PortsIn.groupFrame (h : s.PortsIn o e a) (hd : s.SitesDistinct) (f : SiteFrame) (m : BitVec 16) :
    (s.groupFrame f m).PortsIn o e a := by
  unfold State.groupFrame
  dsimp only
  repeat' split
  iterate 4 exact h.congr (by simp)
  refine startPorts_keeps (P := fun u => u.PortsIn o e a) (fun _ p h => State.PortsIn.startPort h p) _ ?_
  have hm : ∀ i ∈ (membersOf m).filter (fun i => s.memberClass i == .accept), s.memberClass i = .accept := by
    intro i hi; simpa using (List.mem_filter.1 hi).2
  refine State.PortsIn.replicate _ _ _ ((membersOf_nodup m).filter _) _ (h.congr fun _ => rfl) ?_ ?_
  · exact fun i hi j hj => hd i j (memberClass_admit (hm i hi)).1 (memberClass_admit (hm j hj)).1
  · exact fun i hi => admission_admit (memberClass_admit (hm i hi)).2

theorem Resting.groupFrame (h : ∀ q, s.Resting q) (f : SiteFrame) (m : BitVec 16) : (s.groupFrame f m).Resting q := by
  unfold State.groupFrame
  dsimp only
  repeat' split
  iterate 4 exact (h q).congr (by simp)
  refine Resting.startPorts _ fun hn => ?_
  refine (h q).congr ?_
  rw [replicate_other]
  · rfl
  · intro i hi heq
    exact hn (List.mem_map.2 ⟨i, hi, heq⟩)

end Sys2Proof.Machine
end

