-- ==== Sys2Proof/Laws/Supply.lean ====
section
/-! SUPPORT. Laws/Supply.lean: a site's burn supply follows its context's state through every operation (R2,
    R119..R128). -/

namespace Sys2Proof.Machine

variable {s t : State} {p q : PortId} {a : Prop}

/-- Every supply is what its context's state asks for, and a context is at work only where `a` holds. -/
structure State.SupplyIn (s : State) (a : Prop) : Prop where
  agree : ∀ p, (s.ctx p).state.agreesWith (s.supply p).state = true
  active : ∀ p, (s.ctx p).state.ended = false → a

theorem supplySound_iff : s.SupplySound ↔ s.SupplyIn s.active := ⟨fun h => ⟨h.1, h.2⟩, fun h => ⟨h.1, h.2⟩⟩

theorem State.SupplyIn.congr (h : s.SupplyIn a) (hc : ∀ q, (t.ctx q).state = (s.ctx q).state)
    (hs : ∀ q, (t.supply q).state = (s.supply q).state) : t.SupplyIn a :=
  ⟨fun q => by rw [hc, hs]; exact h.agree q, fun q => by rw [hc]; exact h.active q⟩

/-- One context and its supply change together; the new state is at work only where it may be. -/
theorem State.SupplyIn.move (h : s.SupplyIn a) (hc : ∀ q, q ≠ p → (t.ctx q).state = (s.ctx q).state)
    (hs : ∀ q, q ≠ p → (t.supply q).state = (s.supply q).state)
    (ha : (t.ctx p).state.agreesWith (t.supply p).state = true)
    (hn : (t.ctx p).state.ended = false → (s.ctx p).state.ended = false) : t.SupplyIn a := by
  constructor
  · intro q
    by_cases hq : q = p
    · subst hq; exact ha
    · rw [hc q hq, hs q hq]; exact h.agree q
  · intro q
    by_cases hq : q = p
    · subst hq; exact fun hf => h.active q (hn hf)
    · rw [hc q hq]; exact h.active q

/-- A settlement leaves the context in DONE with its supply off. -/
theorem State.SupplyIn.closed (h : s.SupplyIn a) {c : Context} {v : VerdictRecord} {u : Supply}
    (hc : ∀ q, t.ctx q = if q = p then c.closed v else s.ctx q)
    (hs : ∀ q, t.supply q = if q = p then { u with state := .off } else s.supply q) : t.SupplyIn a := by
  refine h.move (p := p) (fun q hq => by rw [hc, if_neg hq]) (fun q hq => by rw [hs, if_neg hq]) ?_ ?_
  · rw [hc, hs, if_pos rfl, if_pos rfl]; rfl
  · rw [hc, if_pos rfl]; nofun

theorem State.SupplyIn.settleBound (h : s.SupplyIn a) (p : PortId) : (s.settleBound p).SupplyIn a :=
  h.closed (settleBound_ctx s p) (settleBound_supply s p)

theorem State.SupplyIn.settleVoided (h : s.SupplyIn a) (p : PortId) (r : VoidReason) : (s.settleVoided p r).SupplyIn a
    :=
  h.closed (settleVoided_ctx s p r) (settleVoided_supply s p r)

theorem State.SupplyIn.settleAbandoned (h : s.SupplyIn a) (p : PortId) : (s.settleAbandoned p).SupplyIn a :=
  h.closed (settleAbandoned_ctx s p) (settleAbandoned_supply s p)

theorem State.SupplyIn.settleRejected (h : s.SupplyIn a) (p : PortId) (v : Verdict) : (s.settleRejected p v).SupplyIn
    a :=
  h.closed (closeContext_ctx s p _) (closeContext_supply s p _)

/-! ### Key service -/

theorem State.SupplyIn.serveHead (h : s.SupplyIn a) (hk : s.Kept) (ht : s.serveHead = some t) : t.SupplyIn a := by
  obtain ⟨q, ws, k, ks, hwl, hpl, hcap, rfl⟩ := (serveHead_eq_some s).1 ht
  have hq : (s.ctx q).state = .wait := (hk.wait.listed q).1 (by rw [hwl]; simp)
  have hoff := h.agree q
  rw [hq] at hoff
  refine h.move (p := q) (fun r hr => ?_) (fun r _ => by simp; rfl) ?_ (fun _ => by rw [hq]; rfl)
  · rw [checkPoolLow_ctx, ctx_setCtx, if_neg hr]; rfl
  · rw [checkPoolLow_ctx, ctx_setCtx, if_pos rfl, checkPoolLow_supply]
    exact hoff

theorem State.SupplyIn.serviceKeys (h : s.SupplyIn a) (hk : s.Kept) : s.serviceKeys.SupplyIn a :=
  (serve_keeps (I := fun s => s.Kept ∧ s.SupplyIn a) (fun _ _ ht h => ⟨h.1.serveHead ht, h.2.serveHead h.1 ht⟩) _ _
    ⟨hk, h⟩).2

theorem State.SupplyIn.serviceIf (h : s.SupplyIn a) (hk : s.Kept) (b : Bool) : (s.serviceIf b).SupplyIn a :=
  (serviceIf_keeps (I := fun s => s.Kept ∧ s.SupplyIn a) (fun _ _ ht h => ⟨h.1.serveHead ht, h.2.serveHead h.1 ht⟩) _ _
    ⟨hk, h⟩).2

/-! ### Transactions -/

theorem State.SupplyIn.setCtx (h : s.SupplyIn a) {c : Context}
    (ha : c.state.agreesWith (s.supply p).state = true) (hn : c.state.ended = false → (s.ctx p).state.ended = false) :
    (s.setCtx p c).SupplyIn a := by
  refine h.move (p := p) (fun q hq => by rw [ctx_setCtx, if_neg hq]) (fun q _ => rfl) ?_ ?_
  · rw [ctx_setCtx, if_pos rfl]; exact ha
  · rw [ctx_setCtx, if_pos rfl]; exact hn

theorem State.SupplyIn.setCtx_same (h : s.SupplyIn a) {c : Context} (hc : c.state = (s.ctx p).state) :
    (s.setCtx p c).SupplyIn a := h.setCtx (by rw [hc]; exact h.agree p) (by rw [hc]; exact id)

theorem State.SupplyIn.atStart (h : s.SupplyIn a) (p : PortId) (x : Action) : (s.setCtx p ((s.ctx p).atStart
    x)).SupplyIn a := by
  have hp := h.agree p
  unfold Context.atStart
  split
  all_goals first
    | exact h.setCtx_same rfl
    | (rename_i hs; rw [hs] at hp; exact h.setCtx hp (fun _ => by rw [hs]; rfl))

theorem State.SupplyIn.startPort (h : s.SupplyIn a) (p : PortId) : (s.startPort p).SupplyIn a :=
  startPort_keeps (P := fun s => s.SupplyIn a) (fun _ _ _ h => h.congr (fun _ => rfl) (fun _ => rfl))
    (fun _ _ _ _ h => h.congr (by simp) (by simp)) (fun _ _ _ h => h.atStart _ _) h p

theorem State.SupplyIn.captureField (h : s.SupplyIn a) (hk : s.Kept) (hs : (s.ctx p).state = .ident) (f : CaptureField)
    (w : Word) : (s.captureField p f w).SupplyIn a := by
  have hkc := hk.ident_empty hs
  unfold State.captureField
  dsimp only
  have h1 : (s.setCtx p { s.ctx p with identity := (s.ctx p).identity.record f w }).SupplyIn a := h.setCtx_same rfl
  obtain ⟨e1, e2, e3, e4⟩ := hkc
  have hk1 : (s.setCtx p { s.ctx p with identity := (s.ctx p).identity.record f w }).Kept :=
    hk.identChange hs (.inl hs) e1 e2 e3 e4 rfl
  split
  · unfold State.checkIdentity
    have hs1 : ((s.setCtx p { s.ctx p with identity := (s.ctx p).identity.record f w }).ctx p).state = .ident := by
      rw [ctx_setCtx, if_pos rfl]; exact hs
    split
    · refine State.SupplyIn.settleRejected ?_ _ _
      exact h1.congr (fun _ => rfl) (fun _ => rfl)
    · exact h1.settleRejected _ _
    · rename_i hpass
      have h2 := h1.agree p
      rw [hs1] at h2
      unfold State.serveJoined
      have hk2 := hk1.passCheck hs1 hpass
      have h3 : ((s.setCtx p { s.ctx p with identity := (s.ctx p).identity.record f w }).passCheck p).SupplyIn a := by
        unfold State.passCheck
        refine State.SupplyIn.setCtx ?_ ?_ ?_
        · exact h1.congr (fun _ => rfl) (fun _ => rfl)
        · exact h2
        · intro _
          show ((s.setCtx p { s.ctx p with identity := (s.ctx p).identity.record f w }).ctx p).state.ended = false
          rw [hs1]; rfl
      have h4 := h3.serviceKeys hk2
      dsimp only
      split
      · exact h4.congr (fun _ => rfl) (fun _ => rfl)
      · exact h4
  · exact h1

theorem switchOn_agrees (s : State) (p : PortId) (hoff : (s.supply p).state = .off) :
    ∃ n, ((s.switchOn p).supply p).state = .settling n ∧ ∀ q, q ≠ p → (s.switchOn p).supply q = s.supply q := by
  unfold State.switchOn
  rw [hoff]
  dsimp only
  refine ⟨settleTicks s.params.settleCode s.params.settleScale, ?_, fun q hq => ?_⟩
  · rw [supply_setSupply, if_pos rfl]
  · rw [supply_setSupply, if_neg hq]

theorem agrees_off {st : ContextState} {u : SupplyState} (h : st.agreesWith u = true)
    (hs : st = .loading ∨ st = .idle ∨ st = .done ∨ st = .ident ∨ st = .wait ∨ st = .held) : u = .off := by
  rcases hs with rfl | rfl | rfl | rfl | rfl | rfl <;> cases u <;> simp_all [ContextState.agreesWith]

theorem State.SupplyIn.injectedEnd (h : s.SupplyIn a) (p : PortId) (w : Fin 17) : (s.injectedEnd p w).SupplyIn a := by
  have h1 : (s.setCtx p { s.ctx p with injected := (s.ctx p).injected ||| wordBit w }).SupplyIn a := h.setCtx_same rfl
  have hp := h.agree p
  unfold State.injectedEnd
  dsimp only
  split
  · split
    · rename_i hs
      rw [hs] at hp
      have hoff := agrees_off hp (.inl rfl)
      obtain ⟨n, e1, e2⟩ := switchOn_agrees
        ((s.setCtx p { s.ctx p with injected := (s.ctx p).injected ||| wordBit w }).setCtxState p .settling) p hoff
      refine h1.move (p := p) (fun q hq => ?_) (fun q hq => by rw [e2 q hq]; rfl) ?_ (fun _ => ?_)
      · rw [switchOn_ctx, ctx_setCtxState, if_neg hq]
      · rw [e1, switchOn_ctx, ctx_setCtxState, if_pos rfl]; rfl
      · rw [ctx_setCtx, if_pos rfl]; show (s.ctx p).state.ended = false; rw [hs]; rfl
    · rename_i hs
      rw [hs] at hp
      refine h1.setCtx (p := p) hp (fun _ => ?_)
      rw [ctx_setCtx, if_pos rfl]; show (s.ctx p).state.ended = false; rw [hs]; rfl
    · exact h1
  · exact h1

theorem State.SupplyIn.setCtxState (h : s.SupplyIn a) {st : ContextState} (ha : st.agreesWith (s.supply p).state = true)
    (hn : st.ended = false → (s.ctx p).state.ended = false) : (s.setCtxState p st).SupplyIn a := h.setCtx ha hn

theorem State.SupplyIn.endDrain (h : s.SupplyIn a) (p : PortId) (c : DrainCause) (o : TxOutcome) :
    (s.endDrain p c o).SupplyIn a := by
  unfold State.endDrain
  repeat' split
  · exact h.settleBound _
  · exact h.settleVoided _ _
  · exact h.settleVoided _ _
  · exact h.settleVoided _ _

theorem State.SupplyIn.contextAtEnd (h : s.SupplyIn a) (hk : s.Kept) (p : PortId) (x : Action) (o : TxOutcome) :
    (s.contextAtEnd p x o).SupplyIn a := by
  have hp := h.agree p
  unfold State.contextAtEnd
  split
  · exact h.endDrain _ _ _
  · exact h.captureField hk (by assumption) _ _
  · exact h.injectedEnd _ _
  · rename_i hs
    rw [hs] at hp
    unfold State.burnEnd
    split
    · exact h.setCtx hp (fun _ => by rw [hs]; rfl)
    · exact h.settleVoided _ _
    · exact h.settleVoided _ _
    · exact h
  · unfold State.lockEnd
    split
    · exact h.settleBound _
    · exact h.settleVoided _ _
    · exact h.settleVoided _ _
    · exact h
  · rename_i hs
    rw [hs] at hp
    unfold State.verifyEnd
    dsimp only
    split
    · exact h.settleVoided _ _
    · rename_i w r _
      have h1 : (s.setCtx p ((s.ctx p).afterVerify w r)).SupplyIn a := h.setCtx_same rfl
      split
      · unfold State.passEnd
        have hc : ((s.setCtx p ((s.ctx p).afterVerify w r)).ctx p).state = .checking := by
          rw [ctx_setCtx, if_pos rfl]; exact hs
        dsimp only
        split
        · exact h1.setCtxState hp (fun _ => by rw [hc]; rfl)
        · split
          · exact h1.settleVoided _ _
          · exact h1.setCtx hp (fun _ => by rw [hc]; rfl)
      · exact h1
  · exact h

/-! ### The ends of contexts -/

theorem State.SupplyIn.drainOff (h : s.SupplyIn a) (hn : (s.ctx p).state.ended = false) :
    ((s.setCtxState p (.draining (.aborted false))).switchOff p).SupplyIn a := by
  refine h.move (p := p) (fun q hq => ?_) (fun q hq => ?_) ?_ (fun _ => hn)
  · rw [switchOff_ctx, ctx_setCtxState, if_neg hq]
  · rw [supply_switchOff, if_neg hq]; rfl
  · rw [switchOff_ctx, ctx_setCtxState, if_pos rfl, supply_switchOff, if_pos rfl]; rfl

theorem State.SupplyIn.abortContext (h : s.SupplyIn a) (p : PortId) : (s.abortContext p).SupplyIn a := by
  have hp := h.agree p
  unfold State.abortContext
  split
  iterate 3 exact h
  iterate 3 exact h.settleAbandoned _
  all_goals rename_i hs
  iterate 6
    · split
      · exact h.drainOff (by rw [hs]; rfl)
      · exact h.settleVoided _ _
  · exact h.drainOff (by rw [hs]; rfl)
  · rw [hs] at hp
    exact h.setCtxState hp (fun _ => by rw [hs]; rfl)

/-- Contact loss ends the context it reaches, and no other. -/
theorem contactLostContext_ended (s : State) (p q : PortId) :
    ((s.contactLostContext p).ctx q).state.ended = if q = p then true else (s.ctx q).state.ended := by
  unfold State.contactLostContext
  split
  · rename_i hs; split
    · rename_i hq; subst hq; rw [hs]; rfl
    · rfl
  · rename_i hs; split
    · rename_i hq; subst hq; rw [hs]; rfl
    · rfl
  iterate 3
    · rw [settleAbandoned_ctx]; split <;> rfl
  · unfold State.endDrain
    repeat' split
    all_goals first
      | (rw [settleBound_ctx]; simp_all [Context.closed, ContextState.ended])
      | (rw [settleVoided_ctx]; simp_all [Context.closed, ContextState.ended])
  · rw [settleVoided_ctx]; split <;> rfl

theorem State.SupplyIn.contactLostContext (h : s.SupplyIn a) (p : PortId) : (s.contactLostContext p).SupplyIn a := by
  unfold State.contactLostContext
  split
  · exact h
  · exact h
  iterate 3 exact h.settleAbandoned _
  · exact h.endDrain _ _ _
  · exact h.settleVoided _ _

theorem mem_settlementOrder (s : State) (p : PortId) : p ∈ s.settlementOrder := by
  simp [State.settlementOrder, allSites, allPorts]

theorem foldl_contactLost_ended (l : List PortId) (q : PortId) : ∀ s : State, q ∈ l ∨ (s.ctx q).state.ended = true →
    ((l.foldl (fun s p => s.contactLostContext p) s).ctx q).state.ended = true := by
  induction l with
  | nil => intro s h; exact h.resolve_left (by simp)
  | cons r l ih =>
    intro s h
    refine ih _ ?_
    rw [contactLostContext_ended]
    by_cases hq : q = r
    · simp [hq]
    · simpa [hq] using h

/-- After contact loss every context has ended and every supply is off. -/
theorem State.SupplyIn.loseContact (h : s.SupplyIn a) (hk : s.Kept) : s.loseContact.SupplyIn False := by
  unfold State.loseContact
  dsimp only
  refine State.SupplyIn.serviceIf ?_ ?_ _
  · have h1 : ∀ (l : List PortId) (u : State), u.SupplyIn a → (l.foldl (fun (s : State) p => s.parkOnContactLoss p)
        u).SupplyIn a :=
      fun l u hu => foldl_keeps (P := fun s => s.SupplyIn a) _ (fun s p h => h.congr (by simp) (by simp)) l u hu
    have h2 : ∀ (l : List PortId) (u : State), u.SupplyIn a → (l.foldl (fun (s : State) p => s.contactLostContext p)
        u).SupplyIn a :=
      fun l u hu => foldl_keeps (P := fun s => s.SupplyIn a) _ (fun s p h => State.SupplyIn.contactLostContext h p) l
          u hu
    have h3 := h2 s.settlementOrder _ (h1 allPorts { s with td := { s.td with contactLost := true } }
      (h.congr (fun _ => rfl) (fun _ => rfl)))
    have hend : ∀ q, ((s.settlementOrder.foldl (fun (s : State) p => s.contactLostContext p) (allPorts.foldl
        (fun (s : State) p => s.parkOnContactLoss p) { s with td := { s.td with contactLost := true } })).ctx
            q).state.ended = true :=
      fun q => foldl_contactLost_ended _ q _ (.inl (mem_settlementOrder s q))
    have h4 : State.SupplyIn _ False := ⟨h3.agree, fun q hf => by rw [hend q] at hf; cases hf⟩
    refine (foldl_keeps (P := fun s => s.SupplyIn False) (fun s p => s.switchOff p) ?_ allPorts _ h4)
    intro u p hu
    have hst : (u.ctx p).state = .idle ∨ (u.ctx p).state = .done := by
      have : (u.ctx p).state.ended = true := by
        cases he : (u.ctx p).state.ended with
        | true => rfl
        | false => exact (hu.active p he).elim
      revert this; cases (u.ctx p).state <;> simp [ContextState.ended]
    refine hu.move (p := p) (fun q _ => rfl) (fun q hq => by rw [supply_switchOff, if_neg hq]) ?_ (fun h => h)
    rw [supply_switchOff, if_pos rfl, switchOff_ctx]
    rcases hst with h | h <;> rw [h] <;> rfl
  · have := hk
    refine foldl_keeps (P := State.Kept) _ (fun s p h => h.switchOff p) _ _ ?_
    refine foldl_keeps (P := State.Kept) _ (fun s p h => h.contactLostContext p) _ _ ?_
    refine foldl_keeps (P := State.Kept) _ (fun s p h => h.parkOnContactLoss p) _ _ ?_
    exact hk.congr ⟨fun _ => rfl, rfl, rfl, rfl, rfl, rfl, rfl, rfl, rfl, fun _ h => h⟩

/-! ### Supplies -/

theorem State.SupplyIn.supplyFaults (h : s.SupplyIn a) (hg : (s.supply p).state = .onGood) : (s.supplyFaults
    p).SupplyIn a := by
  have hp := h.agree p
  have hoff : ∀ q, (((s.switchOff p).raise .supplyFault).supply q) = if q = p then { s.supply p with state := .off }
      else s.supply q :=
    fun q => supply_switchOff s p q
  have hdrain : (s.ctx p).state.ended = false →
      (((s.switchOff p).raise .supplyFault).setCtxState p (.draining .supplyFault)).SupplyIn a := by
    intro hn
    refine h.move (p := p) (fun q hq => ?_) (fun q hq => ?_) ?_ (fun _ => hn)
    · rw [ctx_setCtxState, if_neg hq]; rfl
    · show (((s.switchOff p).raise .supplyFault).supply q).state = _
      rw [hoff, if_neg hq]
    · rw [ctx_setCtxState, if_pos rfl]
      show ContextState.agreesWith _ (((s.switchOff p).raise .supplyFault).supply p).state = true
      rw [hoff, if_pos rfl]; rfl
  have hvoid : ∀ r, (((s.switchOff p).raise .supplyFault).settleVoided p r).SupplyIn a := by
    intro r
    refine h.closed (p := p) (fun q => by rw [settleVoided_ctx]; rfl) (fun q => ?_)
      (c := s.ctx p) (v := (s.ctx p).voidedRecord r) (u := s.supply p)
    rw [settleVoided_supply]
    split
    · rw [hoff, if_pos rfl]
    · rw [hoff, if_neg (by assumption)]
  unfold State.supplyFaults State.supplyFaultContext
  have hc : ((s.switchOff p).raise .supplyFault).ctx p = s.ctx p := rfl
  rw [hc]
  split
  iterate 4
    · rename_i hs
      split
      · exact hdrain (by rw [hs]; rfl)
      · exact hvoid _
  iterate 2
    · rename_i hs; exact hdrain (by rw [hs]; rfl)
  · rename_i hs; exact hdrain (by rw [hs]; rfl)
  · rename_i h1 h2 h3 h4 h5 h6 h7
    exfalso
    rw [hg] at hp
    revert hp
    cases hs : (s.ctx p).state with
    | draining c =>
      cases c with
      | aborted b => cases b <;> simp_all [ContextState.agreesWith]
      | supplyFault => simp [ContextState.agreesWith]
    | _ => simp_all [ContextState.agreesWith]

theorem agrees_settling {st : ContextState} {n : Nat} (h : st.agreesWith (.settling n) = true) : st = .settling := by
  cases st with
  | draining c => cases c with
    | aborted b => cases b <;> simp [ContextState.agreesWith] at h
    | supplyFault => simp [ContextState.agreesWith] at h
  | _ => simp_all [ContextState.agreesWith]

theorem State.SupplyIn.settleExpires (h : s.SupplyIn a) (p : PortId) : (s.settleExpires p).SupplyIn a := by
  have hp := h.agree p
  unfold State.settleExpires
  split
  · rename_i n hs
    rw [hs] at hp
    have hst := agrees_settling hp
    split
    · dsimp only
      rw [if_pos (show ((s.setSupply p { s.supply p with state := .onGood }).ctx p).state = .settling from hst)]
      refine h.move (p := p) (fun q hq => ?_) (fun q hq => ?_) ?_ (fun _ => by rw [hst]; rfl)
      · rw [ctx_setCtxState, if_neg hq]; rfl
      · show ((s.setSupply p _).supply q).state = _
        rw [supply_setSupply, if_neg hq]
      · rw [ctx_setCtxState, if_pos rfl]
        show ContextState.agreesWith _ ((s.setSupply p _).supply p).state = true
        rw [supply_setSupply, if_pos rfl]; rfl
    · unfold State.settleFaultContext
      rw [if_pos (show (((s.switchOff p).raise .supplyFault).ctx p).state = .settling from hst)]
      have hoff : ∀ q, (((s.switchOff p).raise .supplyFault).supply q) = if q = p then { s.supply p with state := .off
          } else s.supply q :=
        fun q => supply_switchOff s p q
      split
      · refine h.move (p := p) (fun q hq => ?_) (fun q hq => ?_) ?_ (fun _ => by rw [hst]; rfl)
        · rw [ctx_setCtxState, if_neg hq]; rfl
        · show (((s.switchOff p).raise .supplyFault).supply q).state = _
          rw [hoff, if_neg hq]
        · rw [ctx_setCtxState, if_pos rfl]
          show ContextState.agreesWith _ (((s.switchOff p).raise .supplyFault).supply p).state = true
          rw [hoff, if_pos rfl]; rfl
      · refine h.closed (p := p) (fun q => by rw [settleVoided_ctx]; rfl) (fun q => ?_)
          (c := s.ctx p) (v := (s.ctx p).voidedRecord .supplyFault) (u := s.supply p)
        rw [settleVoided_supply]
        split
        · rw [hoff, if_pos rfl]
        · rw [hoff, if_neg (by assumption)]
  · exact h

/-! ### Touchdowns -/

theorem State.SupplyIn.completeTouchdown (h : s.SupplyIn a) (tag : Byte) : (s.completeTouchdown tag).SupplyIn a := by
  constructor
  · intro q
    rw [ctx_completeTouchdown, completeTouchdown_supply]
    have := h.agree q
    unfold Context.returned
    split
    · rename_i hs; rw [hs] at this; exact this
    · exact this
  · intro q
    rw [ctx_completeTouchdown]
    have := h.active q
    unfold Context.returned
    split
    · nofun
    · exact this

theorem State.SupplyIn.beginTouchdown {b : Prop} (h : s.SupplyIn a) (hk : s.Kept) (ho : s.touchdownIsOpen = false) (hb
    : b)
    (en : BitVec 16) : (s.beginTouchdown en).SupplyIn b := by
  refine ⟨fun q => ?_, fun _ _ => hb⟩
  have hoff := agrees_off (h.agree q) (.inr (.inl (hk.wait.outside ho q)))
  rw [ctx_beginTouchdown, beginTouchdown_supply, hoff]
  unfold Context.begun
  dsimp only
  split
  · rfl
  · show ContextState.agreesWith (s.ctx q).state .off = true
    rw [hk.wait.outside ho q]; rfl

end Sys2Proof.Machine
end

