-- ==== Sys2Proof/Laws/Served.lean ====
section
/-! SUPPORT. Laws/Served.lean: after every operation that ends a trigger of R38,
    the pool has served whom it can (R37). -/

namespace Sys2Proof.Machine

variable {s t : State} {p q : PortId}

/-- Log capacity in use: records and reservations (R37, R151). -/
def State.logUse (s : State) : Nat := s.log.records.length + s.logReservations

theorem served_iff : s.Served ↔ s.waitList = [] ∨ s.pool = [] ∨ Config.logCapacity ≤ s.logUse := serveHead_eq_none s

/-- No service becomes possible where no context joins the list, no key the pool and no log slot is freed. -/
theorem State.Served.mono (h : s.Served) (hw : s.waitList = [] → t.waitList = []) (hp : s.pool = [] → t.pool = [])
    (hl : s.logUse ≤ t.logUse) : t.Served := by
  rw [served_iff] at *
  rcases h with h | h | h
  · exact .inl (hw h)
  · exact .inr (.inl (hp h))
  · exact .inr (.inr (by omega))

theorem logUse_congr (hc : t.contexts = s.contexts) (hl : t.log = s.log) : t.logUse = s.logUse := by
  simp [State.logUse, State.logReservations, hc, hl]

theorem State.Served.congr (h : s.Served) (hw : t.waitList = s.waitList) (hp : t.pool = s.pool)
    (hc : t.contexts = s.contexts) (hl : t.log = s.log) : t.Served :=
  h.mono (by rw [hw]; exact id) (by rw [hp]; exact id) (Nat.le_of_eq (logUse_congr hc hl).symm)

theorem serviceKeys_served (s : State) : s.serviceKeys.Served := serviceKeys_done s

/-- Replacing one context by one with as much log reservation changes nothing. -/
theorem State.Served.setCtx (h : s.Served) {c : Context} (hc : c.logReserved = (s.ctx p).logReserved) :
    (s.setCtx p c).Served := by
  refine h.mono id id ?_
  show _ ≤ s.log.records.length + (s.setCtx p c).count (·.logReserved)
  rw [count_setCtx_same s p hc]
  exact Nat.le_refl _

theorem settleBound_logUse (s : State) (p : PortId) (h : (s.ctx p).logReserved = true) :
    (s.settleBound p).logUse = s.logUse := by
  have h1 := settleBound_count s p (·.logReserved)
  have h2 := count_setCtx_leave s p (c := (s.ctx p).closed (s.ctx p).boundRecord) (f := (·.logReserved)) h rfl
  have h3 := settleBound_log s p
  simp only [State.logUse, logReservations_eq_count, h1, h3, List.length_append, List.length_singleton]
  omega

theorem settleVoided_logUse (s : State) (p : PortId) (r : VoidReason) (h : (s.ctx p).logReserved = true) :
    (s.settleVoided p r).logUse = s.logUse := by
  have h1 := settleVoided_count s p r (·.logReserved)
  have h2 := count_setCtx_leave s p (c := (s.ctx p).closed ((s.ctx p).voidedRecord r)) (f := (·.logReserved)) h rfl
  have h3 := settleVoided_log s p r
  simp only [State.logUse, logReservations_eq_count, h1, h3, List.length_append, List.length_singleton]
  omega

theorem State.Served.settleBound (h : s.Served) (hl : (s.ctx p).logReserved = true) : (s.settleBound p).Served :=
  h.mono (by simp) (by simp) (Nat.le_of_eq (settleBound_logUse s p hl).symm)

theorem State.Served.settleVoided (h : s.Served) (hl : (s.ctx p).logReserved = true) (r : VoidReason) :
    (s.settleVoided p r).Served :=
  h.mono (by simp) (by simp) (Nat.le_of_eq (settleVoided_logUse s p r hl).symm)

/-- A context that holds no key settles ABANDONED without a key or a log slot coming free. -/
theorem State.Served.settleAbandoned (h : s.Served) (hk : (s.ctx p).heldKey = none) (hl : (s.ctx p).logReserved =
    false) :
    (s.settleAbandoned p).Served := by
  refine h.mono ?_ ?_ ?_
  · intro hw
    rw [settleAbandoned_waitList, hw]; rfl
  · intro hp
    rw [settleAbandoned_pool, hk]; exact hp
  · have h1 := settleAbandoned_count s p (·.logReserved)
    have h2 := count_setCtx_same s p (c := (s.ctx p).closed (s.ctx p).abandonedRecord) (f := (·.logReserved)) hl.symm
    simp only [State.logUse, logReservations_eq_count, h1, h2, settleAbandoned_frame]
    exact Nat.le_refl _

theorem State.Served.settleRejected (h : s.Served) (hl : (s.ctx p).logReserved = false) (v : Verdict) :
    (s.settleRejected p v).Served := by
  refine h.mono (by simp) (by simp) ?_
  have h1 := closeContext_count s p { verdict := v, reason := none, keyIndex := none, attempts := 0 } (·.logReserved)
  have h2 := count_setCtx_same s p
    (c := (s.ctx p).closed { verdict := v, reason := none, keyIndex := none, attempts := 0 }) (f := (·.logReserved)) hl.symm
  show s.logUse ≤ _
  simp only [State.logUse, logReservations_eq_count, State.settleRejected, h1, h2, closeContext_frame]
  exact Nat.le_refl _

/-! ### Transactions -/

theorem State.Served.atStart (h : s.Served) (p : PortId) (x : Action) : (s.setCtx p ((s.ctx p).atStart x)).Served := by
  refine h.setCtx ?_
  unfold Context.atStart
  split <;> rfl

theorem State.Served.startPort (h : s.Served) (p : PortId) : (s.startPort p).Served :=
  startPort_keeps (P := State.Served) (fun _ _ _ h => h.congr rfl rfl rfl rfl)
    (fun _ _ _ _ h => h.congr (by simp) (by simp) (by simp) (by simp)) (fun _ _ _ h => h.atStart _ _) h p

theorem State.Served.captureField (h : s.Served) (hk : s.Kept) (hs : (s.ctx p).state = .ident) (f : CaptureField)
    (w : Word) : (s.captureField p f w).Served := by
  obtain ⟨e1, e2, e3, e4⟩ := hk.ident_empty hs
  have h1 : (s.setCtx p { s.ctx p with identity := (s.ctx p).identity.record f w }).Served := h.setCtx rfl
  have hl : ((s.setCtx p { s.ctx p with identity := (s.ctx p).identity.record f w }).ctx p).logReserved = false := by
    rw [ctx_setCtx, if_pos rfl]; exact e4
  unfold State.captureField
  dsimp only
  split
  · unfold State.checkIdentity
    split
    · refine State.Served.settleRejected ?_ ?_ _
      · exact h1.congr rfl rfl rfl rfl
      · exact hl
    · exact h1.settleRejected hl _
    · unfold State.serveJoined
      dsimp only
      split
      · exact (serviceKeys_served _).congr rfl rfl rfl rfl
      · exact serviceKeys_served _
  · exact h1

theorem State.Served.endDrain (h : s.Served) (hl : (s.ctx p).logReserved = true) (c : DrainCause) (o : TxOutcome) :
    (s.endDrain p c o).Served := by
  unfold State.endDrain
  repeat' split
  · exact h.settleBound hl
  all_goals exact h.settleVoided hl _

theorem State.Kept.reserved (hk : s.Kept) (hs : (s.ctx p).state.holdsKey = true) : (s.ctx p).logReserved = true := by
  rw [hk.custody.reservation, hs]

theorem State.Served.injectedEnd (h : s.Served) (p : PortId) (w : Fin 17) : (s.injectedEnd p w).Served := by
  have h1 : (s.setCtx p { s.ctx p with injected := (s.ctx p).injected ||| wordBit w }).Served := h.setCtx rfl
  unfold State.injectedEnd
  dsimp only
  repeat' split
  · refine State.Served.congr (s := (s.setCtx p { s.ctx p with injected := (s.ctx p).injected ||| wordBit w
        }).setCtxState
      p .settling) ?_ (by simp) (by simp) (by simp) (by simp)
    exact h1.setCtx rfl
  · exact h1.setCtx rfl
  · exact h1
  · exact h1

theorem State.Served.contextAtEnd (h : s.Served) (hk : s.Kept) (p : PortId) (x : Action) (o : TxOutcome) :
    (s.contextAtEnd p x o).Served := by
  unfold State.contextAtEnd
  split
  · rename_i hs; exact h.endDrain (hk.reserved (by rw [hs]; rfl)) _ _
  · exact h.captureField hk (by assumption) _ _
  · exact h.injectedEnd _ _
  · rename_i hs
    have hr := hk.reserved (p := p) (by rw [hs]; rfl)
    unfold State.burnEnd
    split
    · exact h.setCtx rfl
    · exact h.settleVoided hr _
    · exact h.settleVoided hr _
    · exact h
  · rename_i hs
    have hr := hk.reserved (p := p) (by rw [hs]; rfl)
    unfold State.lockEnd
    split
    · exact h.settleBound hr
    · exact h.settleVoided hr _
    · exact h.settleVoided hr _
    · exact h
  · rename_i w r hs
    have hr := hk.reserved (p := p) (by rw [hs]; rfl)
    have hk1 : (s.setCtx p ((s.ctx p).afterVerify w r)).Served := h.setCtx rfl
    have hr1 : ((s.setCtx p ((s.ctx p).afterVerify w r)).ctx p).logReserved = true := by
      rw [ctx_setCtx, if_pos rfl]; exact hr
    unfold State.verifyEnd
    dsimp only
    split
    · exact h.settleVoided hr _
    · split
      · unfold State.passEnd
        dsimp only
        split
        · exact hk1.setCtx rfl
        · split
          · exact hk1.settleVoided hr1 _
          · exact hk1.setCtx rfl
      · exact hk1
  · exact h

/-! ### The ends of contexts -/

theorem State.Kept.unheld (hk : s.Kept) (hs : (s.ctx p).state = .ident ∨ (s.ctx p).state = .wait) :
    (s.ctx p).heldKey = none ∧ (s.ctx p).logReserved = false := by
  rcases hs with hs | hs
  · obtain ⟨e1, -, -, e4⟩ := hk.ident_empty hs; exact ⟨e1, e4⟩
  · exact hk.wait_empty hs

theorem State.Served.drainOff (h : s.Served) (c : DrainCause) : ((s.setCtxState p (.draining c)).switchOff p).Served
    := by
  refine State.Served.congr (s := s.setCtxState p (.draining c)) ?_ rfl rfl rfl rfl
  exact h.setCtx rfl

/-- An abort of a context that is not in HELD gives the pool nothing to serve (R38). -/
theorem State.Served.abortContext (h : s.Served) (hk : s.Kept) (hn : (s.ctx p).state ≠ .held) : (s.abortContext
    p).Served := by
  unfold State.abortContext
  split
  iterate 3 exact h
  · rename_i hs; obtain ⟨e1, e2⟩ := hk.unheld (.inl hs); exact h.settleAbandoned e1 e2
  · rename_i hs; obtain ⟨e1, e2⟩ := hk.unheld (.inr hs); exact h.settleAbandoned e1 e2
  · rename_i hs; exact absurd hs hn
  iterate 6
    · rename_i hs
      split
      · exact h.drainOff _
      · exact h.settleVoided (hk.reserved (by rw [hs]; rfl)) _
  · exact h.drainOff _
  · exact h.setCtx rfl

theorem abortContext_held (s : State) (p q : PortId) (h : (s.ctx q).state ≠ .held) : ((s.abortContext p).ctx q).state
    ≠ .held := by
  unfold State.abortContext
  split
  iterate 3 exact h
  iterate 3
    · rw [settleAbandoned_ctx]; split
      · nofun
      · exact h
  iterate 6
    · split
      · rw [switchOff_ctx, ctx_setCtxState]; split
        · nofun
        · exact h
      · rw [settleVoided_ctx]; split
        · nofun
        · exact h
  · rw [switchOff_ctx, ctx_setCtxState]; split
    · nofun
    · exact h
  · rw [ctx_setCtxState]; split
    · nofun
    · exact h

theorem State.Served.contactLostContext (h : s.Served) (hk : s.Kept) (hn : (s.ctx p).state ≠ .held) :
    (s.contactLostContext p).Served := by
  unfold State.contactLostContext
  split
  · exact h
  · exact h
  · rename_i hs; obtain ⟨e1, e2⟩ := hk.unheld (.inl hs); exact h.settleAbandoned e1 e2
  · rename_i hs; obtain ⟨e1, e2⟩ := hk.unheld (.inr hs); exact h.settleAbandoned e1 e2
  · rename_i hs; exact absurd hs hn
  · rename_i hs; exact h.endDrain (hk.reserved (by rw [hs]; rfl)) _ _
  · rename_i h1 h2 h3 h4 h5 h6
    refine h.settleVoided (hk.reserved ?_) _
    cases hs : (s.ctx p).state with
    | draining c => rfl
    | _ => simp_all [ContextState.holdsKey]

theorem contactLostContext_held (s : State) (p q : PortId) (h : (s.ctx q).state ≠ .held) :
    ((s.contactLostContext p).ctx q).state ≠ .held := by
  have := contactLostContext_ended s p q
  by_cases hq : q = p
  · rw [if_pos hq] at this
    intro hf; rw [hf] at this; cases this
  · unfold State.contactLostContext State.endDrain
    repeat' split
    all_goals first
      | exact h
      | (rw [settleAbandoned_ctx, if_neg hq]; exact h)
      | (rw [settleVoided_ctx, if_neg hq]; exact h)
      | (rw [settleBound_ctx, if_neg hq]; exact h)

theorem State.Kept.foldl_served {f : State → PortId → State} (hk : s.Kept) (h : s.Served)
    (hh : ∀ q, (s.ctx q).state ≠ .held) (keeps : ∀ (s : State) p, s.Kept → (f s p).Kept)
    (serves : ∀ (s : State) p, s.Kept → s.Served → (s.ctx p).state ≠ .held → (f s p).Served)
    (holds : ∀ (s : State) p q, (s.ctx q).state ≠ .held → ((f s p).ctx q).state ≠ .held) (l : List PortId) :
    (l.foldl f s).Served := by
  induction l generalizing s with
  | nil => exact h
  | cons r l ih => exact ih (keeps s r hk) (serves s r hk h (hh r)) fun q => holds s r q (hh q)

theorem anyHeld_false (h : s.anyHeld = false) (q : PortId) : (s.ctx q).state ≠ .held := by
  simp only [State.anyHeld, List.any_eq_false, beq_iff_eq] at h
  exact h q (by simp [allPorts])

theorem State.Served.endTouchdown (h : s.Served) (hk : s.Kept) (tag : Byte) : (s.endTouchdown tag).Served := by
  unfold State.endTouchdown
  dsimp only
  refine State.Served.congr (s := State.serviceIf _ _) ?_ rfl rfl rfl rfl
  unfold State.serviceIf
  split
  · exact serviceKeys_served _
  · rename_i hn
    have h1 := foldl_keeps (P := fun u => u.Kept ∧ u.Served ∧ ∀ q, (u.ctx q).state ≠ .held)
      (fun s p => s.closePort p) (fun s p hu => ⟨hu.1.closePort p, hu.2.1.congr (by simp) (by simp) (by simp) (by simp),
        fun q => by rw [closePort_ctx]; exact hu.2.2 q⟩) allPorts s ⟨hk, h, anyHeld_false (by simpa using hn)⟩
    exact h1.1.foldl_served h1.2.1 h1.2.2 (fun s p h => h.abortContext p) (fun s p hk h hn => h.abortContext hk hn)
      (fun s p q => abortContext_held s p q) _

theorem State.Served.loseContact (h : s.Served) (hk : s.Kept) : s.loseContact.Served := by
  unfold State.loseContact
  dsimp only
  unfold State.serviceIf
  split
  · exact serviceKeys_served _
  · rename_i hn
    have h0 : ({ s with td := { s.td with contactLost := true } } : State).Kept :=
      hk.congr ⟨fun _ => rfl, rfl, rfl, rfl, rfl, rfl, rfl, rfl, rfl, fun _ h => h⟩
    have h1 := foldl_keeps (P := fun u => u.Kept ∧ u.Served ∧ ∀ q, (u.ctx q).state ≠ .held)
      (fun s p => s.parkOnContactLoss p) (fun s p hu => ⟨hu.1.parkOnContactLoss p,
        hu.2.1.congr (by simp) (by simp) (by simp) (by simp), fun q => by rw [parkOnContactLoss_ctx]; exact hu.2.2 q⟩) allPorts { s with td := { s.td with contactLost := true } } ⟨h0, h.congr rfl rfl rfl rfl, fun q => anyHeld_false (s := s) (by simpa using hn) q⟩
    have h2 := h1.1.foldl_served h1.2.1 h1.2.2 (fun s p h => h.contactLostContext p)
      (fun s p hk h hn => h.contactLostContext hk hn) (fun s p q => contactLostContext_held s p q) s.settlementOrder
    exact foldl_keeps (P := State.Served) (fun s p => s.switchOff p) (fun s p h => h.congr rfl rfl rfl rfl) allPorts _
        h2

theorem State.Served.supplyFaultContext (h : s.Served) (hk : s.Kept) (p : PortId) : (s.supplyFaultContext p).Served :=
    by
  unfold State.supplyFaultContext
  split
  iterate 4
    · rename_i hs
      split
      · exact h.setCtx rfl
      · exact h.settleVoided (hk.reserved (by rw [hs]; rfl)) _
  iterate 3 exact h.setCtx rfl
  · exact h

theorem State.Served.supplyFaults (h : s.Served) (hk : s.Kept) (p : PortId) : (s.supplyFaults p).Served := by
  unfold State.supplyFaults
  have h1 : ((s.switchOff p).raise .supplyFault).Served := h.congr rfl rfl rfl rfl
  exact h1.supplyFaultContext ((hk.switchOff p).raise _) p

theorem State.Served.settleFaultContext (h : s.Served) (hk : s.Kept) (p : PortId) : (s.settleFaultContext p).Served :=
    by
  unfold State.settleFaultContext
  split
  · rename_i hs
    split
    · exact h.setCtx rfl
    · exact h.settleVoided (hk.reserved (by rw [hs]; rfl)) _
  · exact h

theorem State.Served.settleExpires (h : s.Served) (hk : s.Kept) (p : PortId) : (s.settleExpires p).Served := by
  unfold State.settleExpires
  split
  · split
    · have h1 : (s.setSupply p { s.supply p with state := .onGood }).Served := h.congr rfl rfl rfl rfl
      dsimp only
      split
      · exact h1.setCtx rfl
      · exact h1
    · have h1 : ((s.switchOff p).raise .supplyFault).Served := h.congr rfl rfl rfl rfl
      exact h1.settleFaultContext ((hk.switchOff p).raise _) p
  · exact h

end Sys2Proof.Machine
end

