-- ==== Sys2Proof/Laws/Sound.lean ====
section
/-! SUPPORT. Laws/Sound.lean: every operation keeps the invariants of the part together: settings, ports, custody, supplies. -/

namespace Sys2Proof.Machine
variable {s t : State} {p : PortId}

/-- The invariants of the part but for those of the control queue. -/
structure State.Core (s : State) : Prop where
  params : s.ParamsInRange
  sites : s.SitesDistinct
  ending : (∃ tag, s.control.executor = .endingTouchdown tag) ↔ s.td.state = .touchdownEnding
  ports : s.PortsIn (s.touchdownIsOpen = true) (s.td.state = .touchdownEnding) s.active
  rest : ∀ p, s.Resting p
  kept : s.Kept
  served : s.Served
  supply : s.SupplyIn s.active

theorem paramsInRange_of (h : s.ParamsInRange) (e : t.params = s.params) (g : ∀ p, (t.port p).gear ≤ 3) : t.ParamsInRange :=
  ⟨by rw [e]; exact h.1, by rw [e]; exact h.2, by rw [e]; exact h.3, by rw [e]; exact h.4, by rw [e]; exact h.5, by rw [e]; exact h.6, by rw [e]; exact h.7, g⟩

theorem State.Core.step (h : s.Core) (e1 : t.phase = s.phase) (e2 : t.pins.contact = s.pins.contact) (e3 : t.td = s.td)
    (e4 : t.params = s.params) (e5 : t.siteMap = s.siteMap)
    (e6 : t.control.executor = s.control.executor)
    (hp : t.PortsIn (s.touchdownIsOpen = true) (s.td.state = .touchdownEnding) s.active) (hr : ∀ p, t.Resting p)
    (hk : t.Kept) (hs : t.Served) (hu : t.SupplyIn s.active) : t.Core := by
  have ho : t.touchdownIsOpen = s.touchdownIsOpen := by simp [State.touchdownIsOpen, e3]
  have ha : t.active = s.active := by simp [State.active, e1, e2, e3]
  refine ⟨paramsInRange_of h.params e4 fun p => (hp p).gear, ?_, ?_, ?_, hr, hk, hs, ?_⟩
  · intro i j; simp only [State.sitePort, e5]; exact h.sites i j
  · rw [e6, e3]; exact h.ending
  · rw [ho, ha, e3]; exact hp
  · rw [ha]; exact hu

/-- A change of link, events, merge records, rules, groups or control queue alone. -/
theorem State.Core.aside (h : s.Core) (e1 : t.phase = s.phase) (e2 : t.pins.contact = s.pins.contact) (e3 : t.td = s.td)
    (e4 : t.params = s.params) (e5 : t.siteMap = s.siteMap) (e6 : t.control.executor = s.control.executor)
    (e7 : t.ports = s.ports) (e8 : t.contexts = s.contexts) (e9 : t.waitList = s.waitList)
    (f3 : t.pool = s.pool) (f4 : t.batch = s.batch) (f5 : t.counters = s.counters) (f6 : t.log = s.log)
    (f7 : t.dieMap = s.dieMap) (f8 : t.supplies = s.supplies) : t.Core := by
  have hport : ∀ q, t.port q = s.port q := fun q => by simp [State.port, e7]
  refine h.step e1 e2 e3 e4 e5 e6 (h.ports.congr hport) (fun q => (h.rest q).congr (hport q)) ?_ (h.served.congr e9 f3 e8 f6) (h.supply.congr ?_ ?_)
  · exact h.kept.congr ⟨fun q => by rw [ctx_congr e8 q], e9, f3, f4, f5, f6, f7, by rw [e4], by simp [State.touchdownIsOpen, e3], fun job => by rw [e6]; exact id⟩
  · intro q; rw [ctx_congr e8 q]
  · intro q; rw [supply_congr f8 q]

theorem State.Core.emit (h : s.Core) (r : Response) : (s.emit r).Core := by
  refine h.aside ?_ ?_ ?_ ?_ ?_ ?_ ?_ ?_ ?_ ?_ ?_ ?_ ?_ ?_ ?_ <;> simp
theorem State.Core.respond (h : s.Core) (tag : Byte) (st : Status) (l : List Byte) : (s.respond tag st l).Core := h.emit _
theorem State.Core.respondOk (h : s.Core) (tag : Byte) (l : List Byte) : (s.respondOk tag l).Core := h.emit _
theorem State.Core.refuse (h : s.Core) (tag : Byte) (st : Status) : (s.refuse tag st).Core := h.emit _

theorem State.Core.startPort (h : s.Core) (p : PortId) : (s.startPort p).Core :=
  h.step (by simp) (by simp) (by simp) (by simp) (by simp) (by simp) (h.ports.startPort p) (fun q => Resting.startPort fun _ => h.rest q) (h.kept.startPort p) (h.served.startPort p) (h.supply.startPort p)

theorem State.Core.endTransaction_parts (h : s.Core) (p : PortId) (tx : Transaction) (o : TxOutcome) (st : PortState) :
    (s.endTransaction p tx o st).Served ∧ (s.endTransaction p tx o st).SupplyIn s.active := by
  unfold State.endTransaction
  have hk : (s.setPortState p st).Kept := h.kept.setPort _ _
  have hs : (s.setPortState p st).Served := h.served.congr rfl rfl rfl rfl
  have hu : (s.setPortState p st).SupplyIn s.active := h.supply.congr (fun _ => rfl) (fun _ => rfl)
  exact ⟨(hs.contextAtEnd hk p tx.record.action o).congr (by simp) (by simp) (by simp) (by simp),
    (hu.contextAtEnd hk p tx.record.action o).congr (by simp) (by simp)⟩

theorem State.Core.dieResponds (h : s.Core) (p : PortId) (a : DieAnswer) : (s.dieResponds p a).Core := by
  refine h.step (by simp) (by simp) (by simp) (by simp) (by simp) (by simp) (h.ports.dieResponds p a) (fun q => Resting.dieResponds h.rest p a) (h.kept.dieResponds p a) ?_ ?_
  · unfold State.dieResponds
    split
    · exact h.served
    · exact h.served.congr (by simp) (by simp) (by simp) (by simp)
    · exact h.served.congr (by simp) (by simp) (by simp) (by simp)
    · exact (h.endTransaction_parts _ _ _ _).1.startPort p
  · unfold State.dieResponds
    split
    · exact h.supply
    · exact h.supply.congr (by simp) (by simp)
    · exact h.supply.congr (by simp) (by simp)
    · exact (h.endTransaction_parts _ _ _ _).2.startPort p

theorem State.Core.raise (h : s.Core) (e : Event) : (s.raise e).Core :=
  h.aside rfl rfl rfl rfl rfl rfl rfl rfl rfl rfl rfl rfl rfl rfl rfl

theorem State.Core.responseTimesOut (h : s.Core) (p : PortId) : (s.responseTimesOut p).Core := by
  refine h.step (by simp) (by simp) (by simp) (by simp) (by simp) (by simp) (h.ports.responseTimesOut p) (fun q => Resting.responseTimesOut h.rest p) (h.kept.responseTimesOut p) ?_ ?_
  · unfold State.responseTimesOut
    split
    · exact ((h.raise _).endTransaction_parts _ _ _ _).1
    · exact h.served
  · unfold State.responseTimesOut
    split
    · exact ((h.raise _).endTransaction_parts _ _ _ _).2
    · exact h.supply

theorem State.Core.breakEnds (h : s.Core) (p : PortId) : (s.breakEnds p).Core := by
  refine h.step (by simp) (by simp) (by simp) (by simp) (by simp) (by simp) (h.ports.breakEnds p) (fun q => Resting.breakEnds h.rest p) (h.kept.breakEnds p) ?_ ?_
  · unfold State.breakEnds
    split
    · refine State.Served.startPort ?_ p; exact h.served.congr rfl rfl rfl rfl
    · exact h.served
  · unfold State.breakEnds
    split
    · refine State.SupplyIn.startPort ?_ p; exact h.supply.congr (fun _ => rfl) (fun _ => rfl)
    · exact h.supply

theorem State.Core.setPortCfg (h : s.Core) (p : PortId) (pt : Port) (e1 : pt.state = (s.port p).state) (e2 : pt.queue = (s.port p).queue)
    (e3 : pt.admissionClosed = (s.port p).admissionClosed) (e4 : pt.gear ≤ 3) : (s.setPort p pt).Core := by
  have hp := h.ports p
  refine h.step rfl rfl rfl rfl rfl rfl (h.ports.setPort ⟨by rw [e2]; exact hp.1, by rw [e1, e2]; exact hp.2, by rw [e1]; exact hp.3, by rw [e2, e3]; exact hp.4, by rw [e1]; exact hp.5, e4⟩) ?_ (h.kept.setPort _ _) (h.served.congr rfl rfl rfl rfl) (h.supply.congr (fun _ => rfl) (fun _ => rfl))
  intro q
  unfold State.Resting
  rw [port_setPort]
  split
  · rw [e1, e2]; exact h.rest p
  · exact h.rest q

theorem clamp_le (lo hi n : Nat) (h : lo ≤ hi) : lo ≤ clamp lo hi n ∧ clamp lo hi n ≤ hi := by
  unfold clamp; omega

theorem State.Core.cmdParamSet (h : s.Core) (tag id : Byte) (v : Word) : (cmdParamSet tag id v s).Core := by
  have hk := h.kept.cmdParamSet tag id v
  unfold Machine.cmdParamSet at *
  split
  · exact h.refuse _ _
  · rename_i q hq
    rw [hq] at hk
    dsimp only at hk
    split
    · exact h.refuse _ _
    · rename_i hb
      rw [if_neg hb] at hk
      refine State.Core.respondOk ?_ _ _
      have hk' : (s.setParam q v).Kept := by
        refine State.Kept.congr hk ⟨?_, ?_, ?_, ?_, ?_, ?_, ?_, ?_, ?_, ?_⟩ <;> simp [State.touchdownIsOpen]
      have key : ∀ t : State, t.Kept → t.phase = s.phase → t.pins = s.pins → t.td = s.td → t.siteMap = s.siteMap → t.control = s.control →
          t.ports = s.ports → t.contexts = s.contexts → t.waitList = s.waitList → t.pool = s.pool → t.log = s.log → t.supplies = s.supplies →
          t.ParamsInRange → t.Core := by
        intro t hk e1 e2 e3 e4 e5 e6 e7 e8 e9 e10 e11 hpar
        have hport : ∀ q, t.port q = s.port q := fun q => by simp [State.port, e6]
        have ho : t.touchdownIsOpen = s.touchdownIsOpen := by simp [State.touchdownIsOpen, e3]
        have ha : t.active = s.active := by simp [State.active, e1, e2, e3]
        refine ⟨hpar, ?_, ?_, ?_, fun q => (h.rest q).congr (hport q), hk, h.served.congr e8 e9 e7 e10, ?_⟩
        · intro i j; simp only [State.sitePort, e4]; exact h.sites i j
        · rw [e5, e3]; exact h.ending
        · rw [ho, ha, e3]; exact h.ports.congr hport
        · rw [ha]; exact h.supply.congr (fun q => by rw [ctx_congr e7 q]) (fun q => by rw [supply_congr e11 q])
      have hpp := h.params
      cases q
      case gear p => exact h.setPortCfg _ _ rfl rfl rfl (clamp_le 0 3 _ (by omega)).2
      case respTmo => exact key _ hk' rfl rfl rfl rfl rfl rfl rfl rfl rfl rfl rfl ⟨clamp_le _ _ _ (by omega), hpp.2, hpp.3, hpp.4, hpp.5, hpp.6, hpp.7, hpp.8⟩
      case burnTmo => exact key _ hk' rfl rfl rfl rfl rfl rfl rfl rfl rfl rfl rfl ⟨hpp.1, clamp_le _ _ _ (by omega), hpp.3, hpp.4, hpp.5, hpp.6, hpp.7, hpp.8⟩
      case settleCode => exact key _ hk' rfl rfl rfl rfl rfl rfl rfl rfl rfl rfl rfl ⟨hpp.1, hpp.2, clamp_le _ _ _ (by omega), hpp.4, hpp.5, hpp.6, hpp.7, hpp.8⟩
      case settleScale => exact key _ hk' rfl rfl rfl rfl rfl rfl rfl rfl rfl rfl rfl ⟨hpp.1, hpp.2, hpp.3, (clamp_le _ _ _ (by omega)).2, hpp.5, hpp.6, hpp.7, hpp.8⟩
      case burnLimit => exact key _ hk' rfl rfl rfl rfl rfl rfl rfl rfl rfl rfl rfl ⟨hpp.1, hpp.2, hpp.3, hpp.4, clamp_le _ _ _ (by omega), hpp.6, hpp.7, hpp.8⟩
      case poolLow => exact key _ hk' rfl rfl rfl rfl rfl rfl rfl rfl rfl rfl rfl ⟨hpp.1, hpp.2, hpp.3, hpp.4, hpp.5, (clamp_le _ _ _ (by omega)).2, hpp.7, hpp.8⟩
      case logHigh => exact key _ hk' rfl rfl rfl rfl rfl rfl rfl rfl rfl rfl rfl ⟨hpp.1, hpp.2, hpp.3, hpp.4, hpp.5, hpp.6, (clamp_le _ _ _ (by omega)).2, hpp.8⟩
      case eventEnable => exact key _ hk' rfl rfl rfl rfl rfl rfl rfl rfl rfl rfl rfl ⟨hpp.1, hpp.2, hpp.3, hpp.4, hpp.5, hpp.6, hpp.7, hpp.8⟩

theorem State.Core.cmdSiteMapWrite (h : s.Core) (tag a b c : Byte) : (cmdSiteMapWrite tag a b c s).Core := by
  unfold Machine.cmdSiteMapWrite
  split
  · exact h.refuse _ _
  · split
    · rename_i hab
      dsimp only
      split
      · exact h.refuse _ _
      · rename_i hc
        refine State.Core.respondOk ?_ _ _
        refine ⟨paramsInRange_of h.params rfl h.params.gear, ?_, h.ending, h.ports, h.rest, ?_, h.served.congr rfl rfl rfl rfl, h.supply.congr (fun _ => rfl) (fun _ => rfl)⟩
        · intro i j hi hj hij
          simp only [State.sitePort, Fin.getElem_fin, Vector.getElem_set] at hi hj hij
          by_cases h1 : a.toNat = i.val
          · by_cases h2 : a.toNat = j.val
            · exact Fin.ext (h1.symm.trans h2)
            · exfalso
              rw [if_pos h1] at hi hij
              rw [if_neg h2] at hj hij
              apply hc
              refine ⟨hi, ?_⟩
              simp only [State.siteConflict, List.any_eq_true]
              refine ⟨j, by simp [allSites], ?_⟩
              have : j ≠ ⟨a.toNat, hab.1⟩ := fun he => h2 (by rw [he])
              simp only [Bool.and_eq_true, bne_iff_ne, ne_eq, beq_iff_eq]
              exact ⟨⟨this, hj⟩, hij.symm⟩
          · by_cases h2 : a.toNat = j.val
            · exfalso
              rw [if_neg h1] at hi hij
              rw [if_pos h2] at hj hij
              apply hc
              refine ⟨hj, ?_⟩
              simp only [State.siteConflict, List.any_eq_true]
              refine ⟨i, by simp [allSites], ?_⟩
              have : i ≠ ⟨a.toNat, hab.1⟩ := fun he => h1 (by rw [he])
              simp only [Bool.and_eq_true, bne_iff_ne, ne_eq, beq_iff_eq]
              exact ⟨⟨this, hi⟩, hij⟩
            · rw [if_neg h1] at hi hij
              rw [if_neg h2] at hj hij
              exact h.sites i j hi hj hij
        · exact h.kept.same rfl rfl rfl rfl rfl rfl rfl rfl rfl rfl
    · exact h.refuse _ _

theorem State.Core.outsideEnd (h : s.Core) (ho : s.touchdownIsOpen = false) : ∀ tag, s.control.executor ≠ .endingTouchdown tag := by
  intro tag ht
  have := h.ending.1 ⟨tag, ht⟩
  simp [State.touchdownIsOpen, this, TdState.isOpen] at ho

theorem State.Core.wafer (h : s.Core) (ho : s.touchdownIsOpen = false) (td : Touchdown) (hn : td.state.isOpen = false)
    (hl : td.contactLost = s.td.contactLost) : ({ s with td := td, dieMap := [] } : State).Core := by
  have hnot : ¬ (s.td.state = .touchdownEnding) := fun hf => by simp [State.touchdownIsOpen, hf, TdState.isOpen] at ho
  have hnot' : ¬ (td.state = .touchdownEnding) := fun hf => by simp [hf, TdState.isOpen] at hn
  have hact : ({ s with td := td, dieMap := [] } : State).active = s.active := by simp [State.active, hl]
  refine ⟨paramsInRange_of h.params rfl h.params.gear, h.sites, ?_, ?_, h.rest, h.kept.wafer ho td hn, h.served.congr rfl rfl rfl rfl, ?_⟩
  · constructor
    · rintro ⟨tag, ht⟩; exact absurd ht (h.outsideEnd ho tag)
    · intro hf; exact absurd hf hnot'
  · rw [hact]
    have e1 : (({ s with td := td, dieMap := [] } : State).touchdownIsOpen = true) = (s.touchdownIsOpen = true) := by
      simp [State.touchdownIsOpen, hn]; simpa [State.touchdownIsOpen] using ho
    have e2 : (({ s with td := td, dieMap := [] } : State).td.state = .touchdownEnding) = (s.td.state = .touchdownEnding) := by
      simp [hnot, hnot']
    rw [e1, e2]
    exact h.ports
  · rw [hact]; exact h.supply.congr (fun _ => rfl) (fun _ => rfl)

theorem State.Core.beginTouchdown (h : s.Core) (ho : s.touchdownIsOpen = false) (hc : s.pins.contact = true) (hph : s.phase ≠ .held)
    (hid : s.control.executor = .idle) (en : BitVec 16) : (s.beginTouchdown en).Core := by
  have htd : (s.beginTouchdown en).td = { s.td with state := .touchdownOpen, number := nextTouchdown s.td.number, enabled := en, contactLost := false } := by
    unfold State.beginTouchdown; dsimp only; split <;> rfl
  have hact : (s.beginTouchdown en).active := by
    refine ⟨by simpa using hph, by simpa using hc, by rw [htd]⟩
  have hpar : ∀ p, (s.port p).state = .parked .noTouchdown ∧ (s.port p).queue = [] := fun p => by
    have := (h.ports p).outside (by simp [ho])
    exact ⟨this, (h.ports p).parked (by rw [this]; rfl)⟩
  refine ⟨paramsInRange_of h.params (by simp) ?_, ?_, ?_, ?_, ?_, h.kept.beginTouchdown ho en, ?_, h.supply.beginTouchdown h.kept ho hact en⟩
  · intro p; rw [beginTouchdown_port]; exact (h.ports p).gear
  · intro i j; simp only [State.sitePort, beginTouchdown_frame]; exact h.sites i j
  · rw [htd]; simp [hid]
  · intro p
    rw [beginTouchdown_port]
    refine ⟨?_, ?_, ?_, ?_, fun _ => hact, (h.ports p).gear⟩
    · exact (h.ports p).bound
    · intro _; exact (hpar p).2
    · intro hf; exfalso; apply hf; simp [State.touchdownIsOpen, htd, TdState.isOpen]
    · intro hf; rw [htd] at hf; cases hf
  · intro p
    unfold State.Resting
    rw [beginTouchdown_port]
    intro _; exact (hpar p).2
  · have hnw : ∀ p, (s.ctx p).state ≠ .wait := fun p => by rw [h.kept.wait.outside ho p]; nofun
    rw [served_iff]
    left
    simpa using h.kept.waitList_nil hnw

theorem State.Core.completeTouchdown (h : s.Core) (hq : s.quiet = true) (he : s.td.state = .touchdownEnding) (tag : Byte) :
    (s.completeTouchdown tag).Core := by
  have htd : (s.completeTouchdown tag).td = { s.td with state := .waferOpen } := by
    unfold State.completeTouchdown; simp
  have hex : (s.completeTouchdown tag).control.executor = .idle := by
    unfold State.completeTouchdown; simp
  have hact : (s.completeTouchdown tag).active = s.active := by simp [State.active]
  have hnw : ∀ p, (s.ctx p).state ≠ .wait := fun p hf => by
    have := (quiet_ended hq p).1; rw [hf] at this; cases this
  refine ⟨paramsInRange_of h.params (by simp) ?_, ?_, ?_, ?_, ?_, h.kept.completeTouchdown hq tag, ?_, ?_⟩
  · intro p; rw [completeTouchdown_port]; exact (h.ports p).gear
  · intro i j; simp only [State.sitePort, completeTouchdown_frame]; exact h.sites i j
  · rw [htd, hex]; simp
  · intro p
    rw [completeTouchdown_port]
    have hq := ((h.ports p).ending he).1
    exact ⟨(h.ports p).bound, fun _ => hq, fun _ => rfl, (fun hf => by rw [htd] at hf; cases hf), nofun, (h.ports p).gear⟩
  · intro p
    unfold State.Resting
    rw [completeTouchdown_port]
    nofun
  · rw [served_iff]; left; simpa using h.kept.waitList_nil hnw
  · rw [hact]; exact h.supply.completeTouchdown tag

theorem State.Core.completeIfQuiet (h : s.Core) : s.completeIfQuiet.Core := by
  unfold State.completeIfQuiet
  split
  · rename_i tag hd
    unfold State.completionDue at hd
    split at hd
    · split at hd
      · rename_i hq; exact h.completeTouchdown hq.2 hq.1 _
      · cases hd
    · cases hd
  · exact h

theorem closePort_supplyIn {a : Prop} (h : s.SupplyIn a) (p : PortId) : (s.closePort p).SupplyIn a := h.congr (by simp) (by simp)

theorem State.Core.endTouchdown (h : s.Core) (ho : s.td.state = .touchdownOpen) (tag : Byte) : (s.endTouchdown tag).Core := by
  have hst : (s.endTouchdown tag).td.state = .touchdownEnding := by unfold State.endTouchdown; rfl
  have hex : (s.endTouchdown tag).control.executor = .endingTouchdown tag := by unfold State.endTouchdown; rfl
  have hcl : (s.endTouchdown tag).td.contactLost = s.td.contactLost := by
    unfold State.endTouchdown
    simp only [setExecutor_td, serviceIf_frame]
    rw [foldl_field (fun s : State => s.td) _ _ (by intros; simp), foldl_field (fun s : State => s.td) _ _ (by intros; simp)]
  have hact : (s.endTouchdown tag).active = s.active := by simp [State.active]
  refine ⟨paramsInRange_of h.params (by simp) ?_, ?_, ?_, ?_, ?_, h.kept.endTouchdown ho tag, h.served.endTouchdown h.kept tag, ?_⟩
  · intro p; rw [endTouchdown_port]; exact (h.ports p).gear
  · intro i j; simp only [State.sitePort, endTouchdown_frame]; exact h.sites i j
  · rw [hst, hex]; simp
  · intro p
    rw [endTouchdown_port, hact]
    exact ⟨Nat.zero_le _, fun _ => rfl, (fun hf => absurd (by simp [State.touchdownIsOpen, hst, TdState.isOpen]) hf), fun _ => ⟨rfl, rfl⟩, (h.ports p).unparked, (h.ports p).gear⟩
  · intro p; unfold State.Resting; rw [endTouchdown_port]; exact fun _ => rfl
  · rw [hact]
    unfold State.endTouchdown
    dsimp only
    refine State.SupplyIn.congr (s := State.serviceIf _ _) ?_ (fun _ => rfl) (fun _ => rfl)
    have h1 := foldl_keeps (P := fun u => u.Kept ∧ u.SupplyIn s.active) (fun s p => s.closePort p)
      (fun s p hu => ⟨hu.1.closePort p, hu.2.congr (by simp) (by simp)⟩) allPorts s ⟨h.kept, h.supply⟩
    have h2 := foldl_keeps (P := fun u => u.Kept ∧ u.SupplyIn s.active) (fun s p => s.abortContext p)
      (fun s p hu => ⟨hu.1.abortContext p, hu.2.abortContext p⟩) s.settlementOrder _ h1
    exact h2.2.serviceIf h2.1 _

theorem State.Core.siteAbort (h : s.Core) (p : PortId) :
    (((s.answerQueue p .aborted).abortContext p).serviceIf ((s.ctx p).state == .held)).Core := by
  have hk1 := h.kept.answerQueue p .aborted
  have hk2 := hk1.abortContext p
  have hu1 : (s.answerQueue p .aborted).SupplyIn s.active := h.supply.congr (by simp) (by simp)
  have hs1 : (s.answerQueue p .aborted).Served := h.served.congr (by simp) (by simp) (by simp) (by simp)
  refine h.step (by simp) (by simp) (by simp) (by simp) (by simp) (by simp) ?_ ?_ (hk2.serviceIf _) ?_ ((hu1.abortContext p).serviceIf hk2 _)
  · exact (h.ports.answerQueue p .aborted).congr (by simp)
  · exact fun q => State.Resting.congr (Resting.answerQueue (p := p) (fun _ => h.rest q) .aborted) (by simp)
  · unfold State.serviceIf
    split
    · exact serviceKeys_served _
    · rename_i hn
      exact hs1.abortContext hk1 (by simpa using hn)

theorem State.Core.acceptKey (h : s.Core) {job : UnwrapJob} (h1 : s.batch.floor < job.index)
    (h2 : job.label = s.batch.label) (h3 : s.poolCustody < Config.poolCapacity) (hx : s.control.executor = .idle) (key : KeyBits) :
    (s.acceptKey job key).Core := by
  have hk := h.kept.acceptKey h1 h2 h3 (by simp [hx]) key
  refine h.step (by simp) (by simp) (by simp) (by simp) (by simp) (by simp) (h.ports.congr (by simp)) (fun q => (h.rest q).congr (by simp)) hk ?_ ?_
  · unfold State.acceptKey; exact serviceKeys_served _
  · unfold State.acceptKey
    refine State.SupplyIn.serviceKeys ?_ (h.kept.pooled h1 h2 h3 (by simp [hx]) key)
    exact h.supply.congr (fun _ => rfl) (fun _ => rfl)

theorem State.Core.setExecutor (h : s.Core) (e : Executor) (h1 : ∀ tag, s.control.executor ≠ .endingTouchdown tag) (h2 : ∀ tag, e ≠ .endingTouchdown tag)
    (hk : (s.setExecutor e).Kept) : (s.setExecutor e).Core := by
  refine ⟨paramsInRange_of h.params rfl h.params.gear, h.sites, ?_, h.ports, h.rest, hk, h.served.congr rfl rfl rfl rfl, h.supply.congr (fun _ => rfl) (fun _ => rfl)⟩
  constructor
  · rintro ⟨tag, ht⟩; exact absurd ht (h2 tag)
  · intro hf; obtain ⟨tag, ht⟩ := h.ending.2 hf; exact absurd ht (h1 tag)

theorem State.Core.runCommand (h : s.Core) (hx : s.control.executor = .idle) (hph : s.phase ≠ .held) (tag : Byte) (c : Command) :
    (runCommand tag c s).Core := by
  have hkk := h.kept.runCommand hx tag c
  have asd := @State.Core.aside s
  cases c <;> simp only [Machine.runCommand] at *
  case identify => exact h.respondOk _ _
  case status => unfold Machine.cmdStatus; split; exact h.respondOk _ _; split; exact h.respondOk _ _; exact h.refuse _ _
  case paramSet => exact h.cmdParamSet _ _ _
  case paramGet => unfold Machine.cmdParamGet; split; exact h.refuse _ _; exact h.respondOk _ _
  case ruleWrite =>
    unfold Machine.cmdRuleWrite; split; exact h.refuse _ _; split; exact h.refuse _ _
    refine State.Core.respondOk ?_ _ _; exact h.aside rfl rfl rfl rfl rfl rfl rfl rfl rfl rfl rfl rfl rfl rfl rfl
  case ruleRead => unfold Machine.cmdRuleRead; split; exact h.respondOk _ _; exact h.refuse _ _
  case siteMapWrite => exact h.cmdSiteMapWrite _ _ _ _
  case siteMapRead => unfold Machine.cmdSiteMapRead; split; exact h.respondOk _ _; exact h.refuse _ _
  case groupWrite =>
    unfold Machine.cmdGroupWrite; split; exact h.refuse _ _; split; exact h.refuse _ _
    refine State.Core.respondOk ?_ _ _; exact h.aside rfl rfl rfl rfl rfl rfl rfl rfl rfl rfl rfl rfl rfl rfl rfl
  case groupRead => unfold Machine.cmdGroupRead; split; exact h.refuse _ _; exact h.respondOk _ _
  case strapSet =>
    unfold Machine.cmdStrapSet; split
    · dsimp only; refine State.Core.respondOk ?_ _ _; exact h.setPortCfg _ _ rfl rfl rfl (h.ports _).gear
    · exact h.refuse _ _
  case strapRead =>
    unfold Machine.cmdStrapRead; split
    · dsimp only; refine State.Core.respondOk ?_ _ _; exact h.aside rfl rfl rfl rfl rfl rfl rfl rfl rfl rfl rfl rfl rfl rfl rfl
    · exact h.refuse _ _
  case batchOpen =>
    unfold Machine.cmdBatchOpen at *; split
    · exact h.refuse _ _
    · rename_i hn
      rw [if_neg hn] at hkk
      dsimp only at *
      refine h.step (by simp) (by simp) (by simp) (by simp) (by simp) (by simp) (h.ports.congr (by simp [State.port])) (fun q => (h.rest q).congr (by simp [State.port])) hkk ?_ (h.supply.congr (by simp [State.ctx]) (by simp [State.supply]))
      refine h.served.mono (by simp) (by simp) ?_
      simp [State.logUse, State.logReservations]
  case keyLoad =>
    unfold Machine.cmdKeyLoad at *; split
    · exact h.refuse _ _
    · rename_i hn; rw [hn] at hkk; exact h.setExecutor _ (by simp [hx]) nofun hkk
  case keyPurge =>
    unfold Machine.cmdKeyPurge at *; dsimp only at *
    refine h.step (by split <;> simp) (by split <;> simp) (by split <;> simp) (by split <;> simp) (by split <;> simp) (by split <;> simp) (h.ports.congr (by split <;> simp [State.port])) (fun q => (h.rest q).congr (by split <;> simp [State.port])) hkk ?_ (h.supply.congr (by split <;> simp [State.ctx]) (by split <;> simp [State.supply]))
    rw [served_iff]; right; left; split <;> simp
  case waferOpen =>
    unfold Machine.cmdWaferOpen; split; exact h.refuse _ _; split; exact h.refuse _ _
    rename_i ho _
    refine State.Core.respondOk ?_ _ _; exact h.wafer (by simpa using ho) _ rfl rfl
  case waferClose =>
    unfold Machine.cmdWaferClose; split; exact h.refuse _ _; split; exact h.refuse _ _
    rename_i ho _
    refine State.Core.respondOk ?_ _ _; exact h.wafer (by simpa using ho) _ rfl rfl
  case touchdownBegin =>
    unfold Machine.cmdTouchdownBegin; split; exact h.refuse _ _; split; exact h.refuse _ _; split; exact h.refuse _ _
    rename_i ho _ hc
    refine State.Core.respondOk ?_ _ _; exact h.beginTouchdown (by simpa using ho) (by simpa using hc) hph hx _
  case touchdownEnd =>
    unfold Machine.cmdTouchdownEnd; split
    · rename_i ho; exact (h.endTouchdown ho _).completeIfQuiet
    · exact h.refuse _ _
  case siteAbort =>
    unfold Machine.cmdSiteAbort; split
    · dsimp only; split; exact h.refuse _ _; split; exact h.refuse _ _
      exact (h.siteAbort _).respondOk _ _
    · exact h.refuse _ _
  case mapQuery => unfold Machine.cmdMapQuery; split; exact h.refuse _ _; split; exact h.refuse _ _; exact h.respondOk _ _
  case logRead => exact h.respondOk _ _
  case logDrop =>
    refine State.Core.respondOk ?_ _ _
    have hk := h.kept.dropped
    refine h.step (by simp) (by simp) (by simp) (by simp) (by simp) (by simp) (h.ports.congr (by simp [State.port])) (fun q => (h.rest q).congr (by simp [State.port])) ((hk _).serviceIf _) ?_ ?_
    · unfold State.serviceIf
      split
      · exact serviceKeys_served _
      · rename_i hn
        have : min (BitVec.toNat ‹Word›) s.log.records.length = 0 := by
          rw [decide_eq_true_eq] at hn; omega
        rw [this]; exact h.served
    · refine State.SupplyIn.serviceIf ?_ (hk _) _; exact h.supply.congr (fun _ => rfl) (fun _ => rfl)
  case eventRead => exact h.respondOk _ _
  case eventClear => unfold Machine.cmdEventClear; dsimp only; refine State.Core.respondOk ?_ _ _; exact h.aside rfl rfl rfl rfl rfl rfl rfl rfl rfl rfl rfl rfl rfl rfl rfl

theorem State.Core.runUpTo (n : Nat) (h : s.Core) (hph : s.phase ≠ .held) : (State.runUpTo n s).Core ∧ (State.runUpTo n s).phase ≠ .held := by
  induction n generalizing s with
  | zero => exact ⟨h, hph⟩
  | succ n ih =>
    unfold State.runUpTo
    split
    · rename_i hx _
      refine ih (State.Core.runCommand ?_ ?_ ?_ _ _) ?_
      · exact h.aside rfl rfl rfl rfl rfl rfl rfl rfl rfl rfl rfl rfl rfl rfl rfl
      · exact hx
      · exact hph
      · rw [(runCommand_frame _ _ _).1]; exact hph
    · exact ⟨h, hph⟩



theorem runCommand_queue (tag : Byte) (c : Command) (s : State) : (runCommand tag c s).control.queue = s.control.queue := by
  cases c <;> simp only [runCommand, cmdIdentify, cmdStatus, cmdParamSet, cmdParamGet, cmdRuleWrite, cmdRuleRead,
    cmdSiteMapWrite, cmdSiteMapRead, cmdGroupWrite, cmdGroupRead, cmdStrapSet, cmdStrapRead, cmdBatchOpen, cmdKeyLoad,
    cmdKeyPurge, cmdWaferOpen, cmdWaferClose, cmdTouchdownBegin, cmdTouchdownEnd, cmdSiteAbort, cmdMapQuery, cmdLogRead,
    cmdLogDrop, cmdEventRead, cmdEventClear]
  case paramSet => 
    repeat' split
    · simp
    · simp
    · rename_i q _ _; cases q <;> simp [State.setParam]
  case touchdownEnd =>
    split
    rotate_left
    · simp
    unfold State.completeIfQuiet
    split <;> simp
  all_goals (repeat' split) <;> (try simp) <;> rfl

theorem runUpTo_ctl (n : Nat) (s : State) (h : s.control.queue.length ≤ n) :
    ((State.runUpTo n s).control.executor = .idle → (State.runUpTo n s).control.queue = []) ∧ (State.runUpTo n s).control.queue.length ≤ s.control.queue.length := by
  induction n generalizing s with
  | zero => exact ⟨fun _ => List.eq_nil_of_length_eq_zero (Nat.le_zero.1 h), Nat.le_refl _⟩
  | succ n ih =>
    unfold State.runUpTo
    split
    · rename_i tag c rest hx hq
      rw [hq] at h
      have hl := runCommand_queue tag c { s with control := { s.control with queue := rest } }
      have hl' : (runCommand tag c { s with control := { s.control with queue := rest } }).control.queue.length = rest.length := by rw [hl]
      obtain ⟨i1, i2⟩ := ih (runCommand tag c { s with control := { s.control with queue := rest } }) (by rw [hl']; exact Nat.le_of_succ_le_succ h)
      refine ⟨i1, Nat.le_trans i2 ?_⟩
      rw [hl', hq]; exact Nat.le_succ _
    · rename_i hn
      refine ⟨fun hx => ?_, Nat.le_refl _⟩
      cases hq : s.control.queue with
      | nil => rfl
      | cons a l => exact absurd hq (hn _ _ _ hx)

theorem State.Core.runQueue (h : s.Core) (hph : s.phase ≠ .held) : s.runQueue.Core := (h.runUpTo _ hph).1

theorem State.Core.submit (h : s.Core) (hph : s.phase ≠ .held) (tag : Byte) (c : Command) : (s.submit tag c).Core := by
  unfold State.submit
  split
  · exact h.refuse _ _
  · refine State.Core.runQueue ?_ hph
    exact h.aside rfl rfl rfl rfl rfl rfl rfl rfl rfl rfl rfl rfl rfl rfl rfl

theorem State.Core.completeAndRelease (h : s.Core) (hph : s.phase ≠ .held) : s.completeAndRelease.Core := by
  have := h.completeIfQuiet
  unfold State.completeIfQuiet at this
  unfold State.completeAndRelease
  split
  · simp_all only; exact this.runQueue (by simpa using hph)
  · exact h

theorem State.Core.answerQueue (h : s.Core) (p : PortId) (st : Status) : (s.answerQueue p st).Core :=
  h.step (by simp) (by simp) (by simp) (by simp) (by simp) (by simp) (h.ports.answerQueue p st)
    (fun _ => Resting.answerQueue (fun _ => h.rest _) st) (h.kept.answerQueue p st)
    (h.served.congr (by simp) (by simp) (by simp) (by simp)) (h.supply.congr (by simp) (by simp))

theorem State.Core.siteAnswersFirst (h : s.Core) {event : State → State}
    (run : ∀ t : State, t.Core → t.control = s.control → t.phase = s.phase → (event t).Core) :
    (s.siteAnswersFirst event).Core :=
  siteAnswersFirst_keeps (P := fun t => t.Core ∧ t.control = s.control ∧ t.phase = s.phase) (Q := State.Core)
    ⟨h, rfl, rfl⟩ (fun _ p hu => ⟨hu.1.answerQueue p _, by simp [hu.2.1], by simp [hu.2.2]⟩)
    fun t ht => run t ht.1 ht.2.1 ht.2.2

theorem State.Core.unwrapEnds (h : s.Core) {job : UnwrapJob} (hj : s.control.executor = .unwrapping job) (r : Option KeyBits) :
    (s.unwrapEnds job r).Core := by
  obtain ⟨h1, h2, h3⟩ := h.kept.pool.unwrap job hj
  have hk : (s.setExecutor .idle).Core := h.setExecutor _ (by simp [hj]) nofun (h.kept.control _ nofun)
  unfold State.unwrapEnds
  dsimp only
  split
  · exact (hk.acceptKey h1 h2 h3 rfl _).respondOk _ _
  · refine State.Core.respond ?_ _ _ _
    refine hk.aside ?_ ?_ ?_ ?_ ?_ ?_ ?_ ?_ ?_ ?_ ?_ ?_ ?_ ?_ ?_ <;> simp

theorem State.Core.settleExpires (h : s.Core) (p : PortId) : (s.settleExpires p).Core :=
  h.step (by simp) (by simp) (by simp) (by simp) (by simp) (by simp) (h.ports.congr (by simp)) (fun q => (h.rest q).congr (by simp)) (h.kept.settleExpires h.params.burnLimit.1 p) (h.served.settleExpires h.kept p) (h.supply.settleExpires p)

theorem State.Core.supplyFaults (h : s.Core) (p : PortId) (hg : (s.supply p).state = .onGood) : (s.supplyFaults p).Core :=
  h.step (by simp) (by simp) (by simp) (by simp) (by simp) (by simp) (h.ports.congr (by simp)) (fun q => (h.rest q).congr (by simp)) (h.kept.supplyFaults p) (h.served.supplyFaults h.kept p) (h.supply.supplyFaults hg)

theorem State.Core.contactFall (h : s.Core) : ((let t := (s.setContact false).raise .contactLost
      if t.touchdownIsOpen ∧ t.td.contactLost = false then t.loseContact else t) : State).Core := by
  dsimp only
  have hk : ((s.setContact false).raise .contactLost).Kept := h.kept.same rfl rfl rfl rfl rfl rfl rfl rfl rfl rfl
  have hs : ((s.setContact false).raise .contactLost).Served := h.served.congr rfl rfl rfl rfl
  have hu : ((s.setContact false).raise .contactLost).SupplyIn s.active := h.supply.congr (fun _ => rfl) (fun _ => rfl)
  split
  · rename_i ho
    have ho' : s.touchdownIsOpen = true := ho.1
    have htd := loseContact_td ((s.setContact false).raise .contactLost)
    have hst : ((s.setContact false).raise .contactLost).loseContact.td.state = s.td.state := by rw [htd]; rfl
    have hop : ((s.setContact false).raise .contactLost).loseContact.touchdownIsOpen = s.touchdownIsOpen := by
      simp only [State.touchdownIsOpen, hst]
    have hact : ((s.setContact false).raise .contactLost).loseContact.active = False := by
      simp [State.active]
    have hport : ∀ q, ((s.setContact false).raise .contactLost).loseContact.port q = _ := fun q => loseContact_port _ q
    refine ⟨paramsInRange_of h.params (by simp) ?_, ?_, ?_, ?_, ?_, hk.loseContact, hs.loseContact hk, ?_⟩
    · intro p; rw [hport]; split <;> exact (h.ports p).gear
    · intro i j; simp only [State.sitePort, loseContact_frame]; exact h.sites i j
    · rw [hst]; simp; exact h.ending
    · intro p
      rw [hst, hop, hact, hport]
      split
      · exact (h.ports p).lost ho'
      · rename_i hp; exact (h.ports p).stays (by simpa using hp)
    · intro p; unfold State.Resting; rw [hport]; split
      · nofun
      · exact h.rest p
    · rw [hact]; exact hu.loseContact hk
  · rename_i ho
    have hna : ∀ p, (s.port p).state.isParked = false → False := by
      intro p hp
      have ha := (h.ports p).unparked hp
      apply ho
      refine ⟨?_, ha.2.2⟩
      show s.touchdownIsOpen = true
      cases hop : s.touchdownIsOpen with
      | true => rfl
      | false => rw [(h.ports p).outside (by simp [hop])] at hp; cases hp
    have hne : ∀ p, (s.ctx p).state.ended = false → False := by
      intro p hp
      have ha := h.supply.active p hp
      apply ho
      refine ⟨?_, ha.2.2⟩
      show s.touchdownIsOpen = true
      cases hop : s.touchdownIsOpen with
      | true => rfl
      | false => rw [h.kept.wait.outside hop p] at hp; cases hp
    refine ⟨paramsInRange_of h.params rfl h.params.gear, h.sites, h.ending, ?_, h.rest, hk, hs, ?_⟩
    · intro p
      have hp := h.ports p
      exact ⟨hp.1, hp.2, hp.3, hp.4, fun hf => (hna p hf).elim, hp.6⟩
    · exact ⟨hu.agree, fun p hf => (hne p hf).elim⟩

/-- A change of pins or phase that makes nothing inactive. -/
theorem State.Core.pinsUp (h : s.Core) (e3 : t.td = s.td)
    (e4 : t.params = s.params) (e5 : t.siteMap = s.siteMap) (e6 : t.control = s.control)
    (e7 : t.ports = s.ports) (e8 : t.contexts = s.contexts) (e9 : t.waitList = s.waitList)
    (f3 : t.pool = s.pool) (f4 : t.batch = s.batch) (f5 : t.counters = s.counters) (f6 : t.log = s.log)
    (f7 : t.dieMap = s.dieMap) (f8 : t.supplies = s.supplies) (ha : s.active → t.active) : t.Core := by
  have hport : ∀ q, t.port q = s.port q := fun q => by simp [State.port, e7]
  have ho : t.touchdownIsOpen = s.touchdownIsOpen := by simp [State.touchdownIsOpen, e3]
  refine ⟨paramsInRange_of h.params e4 fun p => by rw [hport]; exact h.params.gear p, ?_, by rw [e6, e3]; exact h.ending, ?_, fun q => (h.rest q).congr (hport q), h.kept.same e8 e9 f3 f4 f5 f6 f7 e4 e3 e6, h.served.congr e9 f3 e8 f6, ?_⟩
  · intro i j; simp only [State.sitePort, e5]; exact h.sites i j
  · intro p
    rw [hport, ho, e3]
    have hp := h.ports p
    exact ⟨hp.1, hp.2, hp.3, hp.4, fun hf => ha (hp.5 hf), hp.6⟩
  · have := h.supply.congr (t := t) (fun q => by rw [ctx_congr e8 q]) (fun q => by rw [supply_congr f8 q])
    exact ⟨this.1, fun q hq => ha (this.2 q hq)⟩

theorem ctx_taken (s : State) (p : PortId) : s.taken.ctx p = Context.reset p := ctx_reset p

theorem core_taken (s : State) : s.taken.Core := by
  have hport : ∀ p, s.taken.port p = Port.reset := fun p => by simp [State.taken, State.reset, State.port]
  refine ⟨⟨?_, ?_, ?_, ?_, ?_, ?_, ?_, ?_⟩, ?_, ?_, ?_, ?_, kept_taken s, ?_, ?_⟩
  case refine_8 => intro p; rw [hport]; decide
  iterate 7 (show _ ; simp [State.taken, State.reset, Params.reset])
  · intro i j hi; simp [State.taken, State.reset] at hi
  · simp [State.taken, State.reset]
  · intro p; rw [hport]
    exact ⟨Nat.zero_le _, fun _ => rfl, fun _ => rfl, (fun hf => by simp [State.taken, State.reset] at hf), nofun, by decide⟩
  · intro p; unfold State.Resting; rw [hport]; nofun
  · rw [served_iff]; left; rfl
  · refine ⟨?_, ?_⟩
    · intro p; rw [ctx_taken]; simp [State.taken, State.reset, State.supply]; rfl
    · intro p; rw [ctx_taken]; nofun

theorem State.Core.routeFrame (h : s.Core) (hph : s.phase ≠ .held) (f : RequestFrame) : (s.routeFrame f).Core := by
  unfold State.routeFrame
  split
  · exact h.emit _
  · split
    · unfold State.controlFrame
      split
      · exact h.refuse _ _
      · split
        · exact h.refuse _ _
        · split
          · exact h.refuse _ _
          · exact h.submit hph _ _
    · unfold State.siteFrame
      split
      · unfold State.singleFrame; split
        · refine h.step (by simp) (by simp) (by simp) (by simp) (by simp) (by simp) (h.ports.offer _ _) (fun q => Resting.offer h.rest _ _) ?_ ?_ ?_
          all_goals unfold State.offer; split
          · exact State.Kept.startPort (h.kept.setPort _ _) _
          · exact h.kept.emit _
          · exact h.kept.emit _
          · refine State.Served.startPort ?_ _; exact h.served.congr rfl rfl rfl rfl
          · exact (h.emit _).served
          · exact (h.emit _).served
          · refine State.SupplyIn.startPort ?_ _; exact h.supply.congr (fun _ => rfl) (fun _ => rfl)
          · exact h.supply.congr (by simp) (by simp)
          · exact h.supply.congr (by simp) (by simp)
        · exact h.emit _
      · split
        · refine h.step (by simp) (by simp) (by simp) (by simp) (by simp) (by simp) (h.ports.groupFrame h.sites _ _) (fun q => Resting.groupFrame h.rest _ _) ?_ ?_ ?_
          all_goals (unfold State.groupFrame; dsimp only; repeat' split)
          iterate 4 exact h.kept.emit _
          · refine State.Kept.startPorts ?_ _
            unfold State.replicate
            refine foldl_keeps (P := State.Kept) _ (fun s p h => State.Kept.setPort h _ _) _ _ ?_
            exact h.kept.same rfl rfl rfl rfl rfl rfl rfl rfl rfl rfl
          iterate 4 exact (h.emit _).served
          · refine startPorts_keeps (P := State.Served) (fun _ p h => h.startPort p) _ ?_
            unfold State.replicate
            refine foldl_keeps (P := State.Served) (fun s i => s.enqueue (s.sitePort i) _) (fun s p h => State.Served.congr h rfl rfl rfl rfl) _ _ ?_
            exact h.served.congr rfl rfl rfl rfl
          iterate 4 exact h.supply.congr (by simp) (by simp)
          · refine startPorts_keeps (P := fun u => u.SupplyIn s.active) (fun _ p h => State.SupplyIn.startPort h p) _ ?_
            unfold State.replicate
            refine foldl_keeps (P := fun u => u.SupplyIn s.active) (fun s i => s.enqueue (s.sitePort i) _) (fun s p h => State.SupplyIn.congr h (fun _ => rfl) (fun _ => rfl)) _ _ ?_
            exact h.supply.congr (fun _ => rfl) (fun _ => rfl)
        · exact h

theorem State.Core.setRx (h : s.Core) (rx : RxState) (l : List Byte) (n : Nat) : (s.setRx rx l n).Core :=
  h.aside rfl rfl rfl rfl rfl rfl rfl rfl rfl rfl rfl rfl rfl rfl rfl

theorem State.Core.countLinkErrors (h : s.Core) (n : Nat) : (s.countLinkErrors n).Core := by
  refine h.aside ?_ ?_ ?_ ?_ ?_ ?_ ?_ ?_ ?_ ?_ ?_ ?_ ?_ ?_ ?_ <;> simp

theorem State.Core.receiveByte (h : s.Core) (b : Byte) : (s.receiveByte b).Core := by
  unfold State.receiveByte
  split
  · exact h
  · exact h
  · rename_i hph
    have hph' : s.phase ≠ .held := by simp [hph]
    split
    · split; exact h.setRx _ _ _; exact h
    · split; exact h.setRx _ _ _; split; exact h; exact h.setRx _ _ _
    · dsimp only; split; exact h.setRx _ _ _
      unfold State.headerEnds; split; exact (h.setRx _ _ _).countLinkErrors _; split; exact h.setRx _ _ _; exact h.setRx _ _ _
    · dsimp only; split; exact h.setRx _ _ _; exact h.setRx _ _ _
    · split; exact h.setRx _ _ _
      unfold State.frameEnds; dsimp only; split
      · split
        · refine State.Core.routeFrame (s := s.toHunt) ?_ hph' _; exact h.setRx _ _ _
        · exact h.setRx _ _ _
      · exact (h.setRx _ _ _).countLinkErrors _

/-- The control queue is bounded, and empty while the executor is IDLE (R168). -/
def State.Ctl (s : State) : Prop := s.control.queue.length ≤ Config.controlQueueCapacity ∧ (s.control.executor = .idle → s.control.queue = [])

theorem Ctl.congr (h : s.Ctl) (e : t.control = s.control) : t.Ctl := by unfold State.Ctl; rw [e]; exact h

theorem Ctl.runQueue (h : s.control.queue.length ≤ Config.controlQueueCapacity) : s.runQueue.Ctl :=
  ⟨Nat.le_trans (runUpTo_ctl _ s (Nat.le_refl _)).2 h, (runUpTo_ctl _ s (Nat.le_refl _)).1⟩

theorem Ctl.submit (h : s.Ctl) (tag : Byte) (c : Command) : (s.submit tag c).Ctl := by
  unfold State.submit
  split
  · exact Ctl.congr h (by simp)
  · apply Ctl.runQueue
    simp [Config.controlQueueCapacity] at *; omega

theorem Ctl.completeAndRelease (h : s.Ctl) : s.completeAndRelease.Ctl := by
  unfold State.completeAndRelease
  split
  · apply Ctl.runQueue
    unfold State.completeTouchdown; simp; exact h.1
  · exact h

theorem Ctl.receiveByte (h : s.Ctl) (b : Byte) : (s.receiveByte b).Ctl := by
  unfold State.receiveByte
  split
  · exact h
  · exact h
  · split
    · split; exact h; exact h
    · split; exact h; split; exact h; exact h
    · dsimp only; split; exact h
      unfold State.headerEnds; split; exact Ctl.congr h (by simp [State.toHunt, State.setRx]); split; exact h; exact h
    · dsimp only; split; exact h; exact h
    · split; exact h
      unfold State.frameEnds; dsimp only; split
      · split
        · unfold State.routeFrame
          have h' : s.toHunt.Ctl := h
          split
          · exact Ctl.congr h' (by simp)
          · split
            · unfold State.controlFrame
              split
              · exact Ctl.congr h' (by simp)
              · split
                · exact Ctl.congr h' (by simp)
                · split
                  · exact Ctl.congr h' (by simp)
                  · exact Ctl.submit h' _ _
            · exact Ctl.congr h' (by simp)
        · exact h
      · exact Ctl.congr h (by simp [State.toHunt, State.setRx])

end Sys2Proof.Machine
end

