-- ==== Sys2Proof/Tests/Slice0.lean ====
section
/-! SUPPORT. Tests/Slice0.lean: checks of the model against the spec's worked examples and tables, and for every statement
with hypotheses a witness that meets them. Each test names the place its expected result comes from. -/

namespace Sys2Proof.Tests

open Sys2Proof Sys2Proof.Machine

/-! ## States to start from -/

/-- A running part outside a touchdown, all sites' map entries enabled, with a transport key id to compare with. -/
def part : State :=
  { State.reset with
    phase := .running, transportKeyId := 0x1234
    siteMap := Vector.ofFn fun n => { port := n, enabled := true } }

/-- The state a command leads to. -/
def after (i : Instr) (s : State) : State :=
  match exec i s with
  | .next t => t
  | _ => s

/-- The newest response frame in the stream after a command. -/
def said (i : Instr) (s : State) : Option Response := (after i s).link.stream.getLast?

/-- A response from the control site. -/
def reply (tag : Byte) (status : Status) (payload : List Byte) : Option Response :=
  some { tag := tag, site := 31, status := status, payload := payload }

/-- The receiver in the middle of a frame. -/
def receiving (rx : RxState) (bytes : List Byte) (expected : Nat) : State :=
  { part with link := { part.link with rx := rx, partialFrame := bytes, expected := expected } }

/-- A wafer open. -/
def wafer : State :=
  { part with td := { part.td with state := .waferOpen, wafer := some { lot := 0x4C310007, number := 12 } } }

/-- A batch open with floor 200 and keys 205 and 210 in the pool (Key Pool and Batches, Worked Example). -/
def batch : State :=
  { part with
    batch := { isOpen := true, label := 0x31, floor := 210 }
    counters := { accepted := 2, bound := 0, voided := 0, purged := 0 }
    pool := [{ index := 205, bits := 5, label := 0x31 }, { index := 210, bits := 10, label := 0x31 }] }

/-- The key of the Worked Case of The Fuse Image: k(i) = 0x30 + i, but for k6 = 0xB3 and k7 = 0xA6. -/
def key (index : Long) : Key :=
  { index := index, label := 0x31,
    bits := 0x303132333435B3A638393A3B3C3D3E3F404142434445464748494A4B4C4D4E4F }

/-- A die of the Digest worked case's wafer, at X 37 and a Y of its own. -/
def die (y : Byte) : Identity :=
  { lot := 0x4C310007, wafer := 12, coord := { x := 37, y := y }, lock := false, captured := 0x3F }

/-- A context in a state, with what the state holds; key index 261 + n. -/
def inState (n : Fin 16) (st : ContextState) : Context :=
  let k := key (261 + BitVec.ofNat 32 n.val)
  let d := bindingDigest (die (byteOf n.val)) k.index
  let c : Context := { Context.reset n with state := st }
  if st.holdsKey then
    { c with
      identity := die (byteOf n.val), heldKey := some k, exposed := decide (st ≠ .held), digest := some d,
      image := some (if st = .reburn then (Vector.replicate 17 0).set 3 0x0020 else fullImage k.bits d),
      pass := if st = .reburn then .reburn else .full,
      missing := if st = .reburn then (Vector.replicate 17 0).set 3 0x0020 else Vector.replicate 17 0,
      attempts := if st ∈ [.held, .loading, .settling, .ready] then 0 else 1,
      claim := some { x := 37, y := byteOf n.val }, mapReserved := true, logReserved := true }
  else if st = .wait then
    { c with identity := die (byteOf n.val), claim := some { x := 37, y := byteOf n.val }, mapReserved := true }
  else c

/-- The states of the contexts of `floor`, one of each. -/
def floorState : Fin 16 → ContextState
  | 0 => .ident | 1 => .wait | 2 => .held | 3 => .loading | 4 => .settling | 5 => .ready | 6 => .burning | 7 => .checking
  | 8 => .reburn | 9 => .verified | 10 => .locking | 11 => .draining (.aborted true) | 12 => .draining (.aborted false)
  | 13 => .draining .supplyFault | 14 => .done | _ => .idle

/-- A request of tag 0x42. -/
def request (address : Word) (op : DieOp) : Request := { tag := 0x42, site := 7, address := address, op := op, merge := none }

/-- A transaction in flight with an action. -/
def busy (q : Request) (a : Action) (window : Nat) : PortState :=
  .busy { request := q, record := { rule := none, action := a }, window := window, gear := 2 } window

/-- The states of the ports of `floor`. -/
def floorPort : Fin 16 → PortState
  | 6 => busy (request 0x0301 (.write 1)) .gateBurn 800000
  | 7 => busy (request 0x0203 .read) (.verify 3) 20000
  | 10 => busy (request 0x0301 (.write 2)) .gateLock 800000
  | 11 => busy (request 0x0301 (.write 2)) .gateLock 800000
  | 12 => busy (request 0x0103 (.write 0)) (.inject 3) 20000
  | 13 => busy (request 0x0203 .read) (.verify 3) 20000
  | 14 => .breaking 4000
  | 15 => .parked .notEnabled
  | _ => .idle

/-- The rules of the Worked Example of Frame Rules. -/
def exampleRule : Fin 64 → Rule
  | 0 => rd 0x0010 (.capture .lotHi) | 1 => rd 0x0011 (.capture .lotLo) | 2 => rd 0x0012 (.capture .wafer)
  | 3 => rd 0x0013 (.capture .xPos) | 4 => rd 0x0014 (.capture .yPos) | 5 => rd 0x0015 (.capture (.lock 0x8000))
  | 6 => wr 0x0300 0x005A 0x00FF false .pass | 7 => wr 0x0301 0x0001 0xFFFF true .gateBurn
  | 8 => wr 0x0300 0x00C3 0x00FF false .pass | 9 => wr 0x0301 0x0002 0xFFFF true .gateLock
  | 10 => { Rule.reset with enabled := true, addrValue := 0x0300, addrMask := 0xFFFE, action := .block }
  | 12 => wr 0x0100 0 0 false (.inject 0)
  | 20 => rd 0x0200 (.verify 0)
  | _ => Rule.reset
where
  rd (address : Word) (a : Action) : Rule :=
    { Rule.reset with enabled := true, kind := .read, addrValue := address, addrMask := 0xFFFF, action := a }
  wr (address data mask : Word) (chain : Bool) (a : Action) : Rule :=
    { enabled := true, kind := .write, addrValue := address, addrMask := 0xFFFF, dataValue := data, dataMask := mask,
      chain := chain, action := a }

/-- An open touchdown with a context in every state: sites 0 to 14 enabled, twelve keys held, none FREE, one context
waiting. -/
def floor : State :=
  { part with
    pins := { part.pins with contact := true, supplyGood := Vector.replicate 16 true }
    td := { state := .touchdownOpen, wafer := some { lot := 0x4C310007, number := 12 }, number := 1, enabled := 0x7FFF,
            contactLost := false }
    batch := { isOpen := true, label := 0x31, floor := 300 }
    counters := { accepted := 12, bound := 0, voided := 0, purged := 0 }
    waitList := [1]
    contexts := Vector.ofFn fun n => inState n (floorState n)
    ports := Vector.ofFn fun n =>
      { Port.reset with state := floorPort n, queue := if n = 7 then [request 0x0204 .read] else [] }
    supplies := Vector.ofFn fun n =>
      { state :=
          if floorState n = .settling then .settling 12800
          else if floorState n ∈ [.ready, .burning, .checking, .reburn, .verified, .locking, .draining (.aborted true)] then
            .onGood
          else .off,
        interval := none }
    rules := Vector.ofFn exampleRule }

/-- `floor` with one context changed. -/
def floorWith (p : PortId) (f : Context → Context) : State := floor.setCtx p (f (floor.ctx p))

/-- `floor` with one port changed. -/
def floorPortWith (p : PortId) (f : Port → Port) : State := floor.setPort p (f (floor.port p))

/-- A context with sixteen words verified, word 16 still to come. -/
def lastVerify (missing : Vector Word 17) : State :=
  floorWith 7 fun c => { c with verified := 0x0FFFF, missing := missing }

/-- A positive answer with good parity. -/
def ack (word : Option Word) : DieAnswer := { positive := true, parityGood := true, word := word }

/-! ## Well-formedness and the table's bits -/

/-- "a header length byte above 48" (R163): 48 is refused, 49 accepted, and every other row is well formed. -/
theorem test_frame_length_error_48_is_ill_formed : (Instr.frameLengthError 48).wellFormed = false := by decide
theorem test_frame_length_error_49_is_well_formed : (Instr.frameLengthError 49).wellFormed = true := by decide

/-- The table gives no row any bits: no word spells a command, and none is put in the queue. -/
theorem test_no_word_spells_a_command : decodeTableWord 16 0x0001 = none := rfl
theorem test_withFetchWord_leaves_the_state : State.reset.withFetchWord 16 0x0001 = State.reset := rfl

/-! ## Arithmetic of the spec's worked cases -/

/-- The Fuse Image, Stage 2: "The result is 4 × 256 + 3 = 0x0403", and 0x0503 for the bytes exchanged. -/
theorem test_fletcher_worked_case : fletcher16 [1, 2] = 0x0403 ∧ fletcher16 [2, 1] = 0x0503 := by decide

/-- The Fuse Image, Worked Case: Digest: 0x05CE for key 261, 0x06CF for key 262. -/
theorem test_digest_worked_case : bindingDigest (die 19) 261 = 0x05CE ∧ bindingDigest (die 19) 262 = 0x06CF := by decide

/-- The Fuse Image, Worked Case: Key Words. -/
theorem test_key_words : keyWord (key 1).bits 0 = 0x3031 ∧ keyWord (key 1).bits 3 = 0xB3A6 ∧
    keyWord (key 1).bits 8 = 0x4041 ∧ keyWord (key 1).bits 15 = 0x4E4F := by decide

/-- The Fuse Image, Worked Cases: Classification, word 3 expected 0xB3A6. -/
theorem test_verdict_words :
    [0xB3A6, 0xB386, 0x0000, 0xB3E6, 0xB3C6, 0xFFFF].map (verdictWord 0xB3A6) =
      [0x0000, 0x0101, 0x0109, 0x0201, 0x0201, 0x0207] := by decide

/-- Tester Link, Worked Example: the request frame's ten bytes with check 0xB94F. -/
theorem test_request_frame_bytes :
    ({ tag := 0x42, site := 4, kind := 2, address := 0x0205, payload := [] } : RequestFrame).bytes =
      [0x7E, 0xB1, 0x42, 0x04, 0x02, 0x02, 0x05, 0x00, 0xB9, 0x4F] := by decide

/-- Frame Rules, Worked Example, Chains and blocking: the seven starts and their winners. -/
theorem test_chain_worked_example :
    let win := fun (prev : Fin 64) (address : Word) (op : DieOp) =>
      winningRule (Vector.ofFn exampleRule) (some prev) (request address op)
    win 20 0x0300 (.write 0x125A) = some 6 ∧ win 6 0x0301 (.write 0x0001) = some 7 ∧
      win 7 0x0301 (.write 0x0001) = some 10 ∧ win 10 0x0301 .read = some 10 ∧ win 10 0x0300 (.write 0x00C3) = some 8 ∧
      win 8 0x0200 .read = some 20 ∧ win 20 0x0301 (.write 0x0002) = some 10 := by decide

/-! ## Reset, link and pins -/

/-- R187, R171: BURN_LIMIT and GEAR_n are back at 3 and 2, the pins stay. -/
theorem test_reset : (after .reset floor).params.burnLimit = 3 ∧ ((after .reset floor).port 5).gear = 2 ∧
    (after .reset floor).pins = floor.pins ∧ (after .reset floor).transportKeyId = 0x1234 := by decide

/-- R187: the release, and the receiver's start after it. -/
theorem test_release_and_start : (after .resetRelease (after .reset part)).phase = .released ∧
    (after .receiverStart State.reset).phase = .running := by decide

/-- R162: the second sync byte opens a frame; a stray 0x7E stays in SYNC_SEEN (Tester Link, Worked Example). -/
theorem test_downstream_byte : (after (.downstreamByte 0xB1) (receiving .syncSeen [] 0)).link.expected = 6 ∧
    (after (.downstreamByte 0x7E) (receiving .syncSeen [] 0)).link.rx = .syncSeen := by decide

/-- R163, R184: the count saturates at 65535. -/
theorem test_frame_length_error :
    let s := receiving .header [1, 2, 3, 4, 5] 1
    (after (.frameLengthError 49) s).events.linkErrors = 1 ∧
    (after (.frameLengthError 49) { s with events := { s.events with linkErrors := 0xFFFF } }).events =
      { s.events with linkErrors := 0xFFFF, latches := 1 } := by decide

/-- R164, R110: the worked request frame reaches the dispatcher at its last byte; with no touchdown it is answered NOSITE. -/
theorem test_request_frame :
    said (.requestFrame 0x4F) (receiving .check [0x42, 0x04, 0x02, 0x02, 0x05, 0x00, 0xB9] 1) =
      some { tag := 0x42, site := 4, status := .noSite, payload := [] } := by decide

/-- R164: the same frame with a bad check is discarded and answered by nothing. -/
theorem test_bad_check :
    said (.requestFrame 0x4E) (receiving .check [0x42, 0x04, 0x02, 0x02, 0x05, 0x00, 0xB9] 1) = none := by decide

/-- The response of Tester Link, Worked Example. -/
def verdictFrame : Response := { tag := 0x42, site := 4, status := .ok, payload := [0x01, 0x01] }

/-- Tester Link, Worked Example: eleven bytes, check 0xF04A; 0xF44B with attention. -/
theorem test_response_emission :
    (after .responseEmission { part with link := { part.link with stream := [verdictFrame] } }).link.transmitting.map
        SentFrame.bytes = some [0x7E, 0xB1, 0x42, 0x04, 0x00, 0x00, 0x02, 0x01, 0x01, 0xF0, 0x4A] ∧
    (after .responseEmission
        { part with
          link := { part.link with stream := [verdictFrame] }
          events := { part.events with latches := 0x100 }
          params := { part.params with eventEnable := 0x100 } }).link.transmitting.map (·.check) = some 0xF44B := by decide

/-- R175: the frame leaves the stream when its last byte is sent. -/
theorem test_frame_leaves_stream :
    let s := after .responseEmission { part with link := { part.link with stream := [verdictFrame, verdictFrame] } }
    (after .frameLeavesStream s).link.stream = [verdictFrame] := by decide

/-- R176: the fall discards and counts both frames; the rise starts with an empty stream. -/
theorem test_link_rdy :
    let s : State := { part with link := { part.link with stream := [verdictFrame, verdictFrame] } }
    (after .linkRdyFall s).events.linkErrors = 2 ∧ (after .linkRdyFall s).link.stream = [] ∧
      (after .linkRdyRise (after .linkRdyFall s)).pins.linkRdy = true := by decide

/-! ## Setup and reading commands -/

/-- R185. -/
theorem test_identify : said (.identify 9) part = reply 9 .ok [0x16, 0x40, 0x01, 0x12, 0x34] := by decide

/-- R172, R186: a page above 1 is refused; page 1 carries 32 bytes, state codes first (R2). -/
theorem test_status : said (.status 9 2) part = reply 9 .badArg [] ∧
    ((said (.status 9 1) floor).map (·.payload.take 16)) = some [1, 2, 3, 4, 5, 6, 7, 8, 9, 10, 11, 12, 12, 12, 13, 0] := by
  decide

/-- R171: 0 is clamped to 1 and reported so; BURN_LIMIT is refused in a touchdown. -/
theorem test_param_set : said (.paramSet 9 0x00 0) part = reply 9 .ok [0x00, 0x00, 0x01] ∧
    said (.paramSet 9 0x04 2) floor = reply 9 .state [] := by decide

/-- R171: the defaults of RESP_TMO and GEAR_15. -/
theorem test_param_get : said (.paramGet 9 0x00) part = reply 9 .ok [0x00, 0x00, 50] ∧
    said (.paramGet 9 0x1F) part = reply 9 .ok [0x1F, 0x00, 2] := by decide

/-- Rule 12 of the worked example as a written block. -/
def block12 : RuleBlock :=
  { number := 12, enabled := 1, kind := 1, addrValue := 0x0100, addrMask := 0xFFFF, dataValue := 0xABCD, dataMask := 0x00FF,
    chain := 0, action := 2, argument := 16, argMask := 0x8000 }

/-- R45, R46: word 17 is refused; the data value is masked and the argument mask of an INJECT stored as 0. -/
theorem test_rule_write : said (.ruleWrite 9 { block12 with argument := 17 }) part = reply 9 .badArg [] ∧
    said (.ruleWrite 9 block12) part =
      reply 9 .ok [12, 1, 1, 0x01, 0x00, 0xFF, 0xFF, 0x00, 0xCD, 0x00, 0xFF, 0, 2, 16, 0, 0] := by decide

/-- R48 on rule 5 of the worked example, with its argument mask 0x8000. -/
theorem test_rule_read : said (.ruleRead 9 64) part = reply 9 .badArg [] ∧
    said (.ruleRead 9 5) { part with rules := Vector.ofFn exampleRule } =
      reply 9 .ok [5, 1, 2, 0x00, 0x15, 0xFF, 0xFF, 0, 0, 0, 0, 0, 1, 5, 0x80, 0x00] := by decide

/-- R105: the port of another enabled entry conflicts; the entry's own does not. -/
theorem test_sitemap_write : said (.siteMapWrite 9 2 3 1) part = reply 9 .conflict [] ∧
    said (.siteMapWrite 9 2 2 0xFF) part = reply 9 .ok [2, 2, 1] := by decide

/-- R106. -/
theorem test_sitemap_read : said (.siteMapRead 9 15) part = reply 9 .ok [15, 15, 1] ∧
    said (.siteMapRead 9 16) part = reply 9 .badArg [] := by decide

/-- R107. -/
theorem test_group_write : said (.groupWrite 9 17 0x000F) part = reply 9 .ok [17, 0x00, 0x0F] ∧
    said (.groupWrite 9 31 0x000F) part = reply 9 .badArg [] := by decide

/-- R108: after reset every group is empty. -/
theorem test_group_read : said (.groupRead 9 30) part = reply 9 .ok [30, 0, 0] ∧
    said (.groupRead 9 15) part = reply 9 .badArg [] := by decide

/-- R96: mask bits above bit 3 are reported as 0. -/
theorem test_strap_set : said (.strapSet 9 4 0xF5 0x3A) part = reply 9 .ok [4, 0x05, 0x0A] := by decide

/-- R98: the stored configuration comes first; the sensed levels are free. -/
theorem test_strap_read : ((said (.strapRead 9 4) part).map fun r => r.payload.take 3) = some [4, 0, 0] := by decide

/-- R182. -/
theorem test_event_read : said (.eventRead 9)
      { part with events := { latches := 0x802, linkErrors := 3, unwrapFails := 0x0102, lateResponses := 0 } } =
    reply 9 .ok [0x08, 0x02, 0, 0, 0, 3, 0x01, 0x02, 0, 0] := by decide

/-- R183: bit 11 kept, bit 1 cleared. -/
theorem test_event_clear : said (.eventClear 9 0xF800) { part with events := { part.events with latches := 0x802 } } =
    reply 9 .ok [0x08, 0x00] := by decide

/-! ## Batches, keys, wafers and the log -/

/-- Key Pool and Batches, Worked Example: a floor of 150 under 212 leaves 212. -/
theorem test_batch_open :
    said (.batchOpen 9 0x32 150) { part with batch := { isOpen := true, label := 0x31, floor := 212 } } =
      reply 9 .ok [0, 0, 0, 0x32, 0, 0, 0, 212] ∧
    said (.batchOpen 9 0x32 300) floor = reply 9 .busy [] := by decide

/-- A key record of the part's own key id. -/
def record (index : Long) : KeyRecord := { index := index, keyId := 0x1234, ciphertext := 7, integrity := 8 }

/-- Key Pool and Batches, Worked Example: NOBATCH before the batch, STALE_INDEX for 203. -/
theorem test_key_load : said (.keyLoad 9 (record 205)) part = reply 9 .noBatch [] ∧
    said (.keyLoad 9 (record 203)) batch = reply 9 .staleIndex [] := by decide

/-- An unwrap of key 212 in flight. -/
def unwrapping (s : State) : State :=
  { s with control := { s.control with
    executor := .unwrapping { tag := 9, index := 212, ciphertext := 7, integrity := 8, label := 0x31 } } }

/-- Key Pool and Batches, Worked Example: key 212 makes the free count 3; a bad tag leaves it. -/
theorem test_unwrap_completion : said (.unwrapCompletion (some 1)) (unwrapping batch) = reply 9 .ok [0, 0, 0, 212, 3] ∧
    said (.unwrapCompletion none) (unwrapping batch) = reply 9 .unwrapFail [0, 0, 0, 212, 2] := by decide

/-- `floor` in an unwrap, with two SITE ABORTs waiting, the one of the higher port ahead, and a request queued at each port. -/
def abortsWaiting : State :=
  let s := unwrapping (floorPortWith 14 fun pt => { pt with queue := [{ request 0 .read with tag := 0x43, site := 14 }] })
  { s with control := { s.control with queue := [(1, .siteAbort 14), (2, .siteAbort 7)] } }

set_option maxRecDepth 20000 in
/-- R173: the site responses of the event first, port 7 before port 14, then the KEY LOAD's response and the released
commands'. -/
theorem test_unwrap_completion_site_responses_first :
    (after (.unwrapCompletion none) abortsWaiting).link.stream.map (fun r => (r.tag, r.status)) =
      [(0x42, .aborted), (0x43, .aborted), (9, .unwrapFail), (1, .ok), (2, .ok)] := by decide

/-- R40. -/
theorem test_key_purge : said (.keyPurge 9) batch = reply 9 .ok [2] ∧ (after (.keyPurge 9) batch).counters.purged = 2 := by
  decide

/-- R37: the waiting context 1 receives the lowest key, and POOL_LOW is latched with one key left (R43). -/
theorem test_key_service :
    let s := after .keyService { floor with pool := batch.pool }
    (s.ctx 1).heldKey.map (·.index) = some 205 ∧ (s.ctx 1).state = .held ∧ s.events.latches = 4 := by decide

/-- R132: wafer 26 is refused; WAFER CLOSE answers the number of entries. -/
theorem test_wafer_open : said (.waferOpen 9 0x4C310007 26) part = reply 9 .badArg [] ∧
    said (.waferOpen 9 0x4C310007 25) part = reply 9 .ok [0x4C, 0x31, 0x00, 0x07, 25] := by decide
theorem test_wafer_close : said (.waferClose 9) part = reply 9 .noWafer [] ∧
    said (.waferClose 9) wafer = reply 9 .ok [0, 0] := by decide

/-- The wafer with its probes down and touchdown number 65535 behind it. -/
def ready16 : State := { wafer with pins := { wafer.pins with contact := true }, td := { wafer.td with number := 0xFFFF } }

/-- R135, R136: NOCONTACT with the probes up; from 65535 the number advances to 1. -/
theorem test_touchdown_begin : said (.touchdownBegin 9 0x000B) wafer = reply 9 .noContact [] ∧
    said (.touchdownBegin 9 0x000B) ready16 = reply 9 .ok [0, 1, 0, 0x0B] := by decide

set_option maxRecDepth 8000 in
/-- R139, R20: IDENT ends ABANDONED, LOCKING drains; with transactions in flight the command stays in execution. R102: the one
queued request is answered ABORTED. R154: the records of the exposed keys with nothing in flight join in site order. -/
theorem test_touchdown_end :
    let s := after (.touchdownEnd 9) floor
    ((s.ctx 0).verdictCode = 0x0A ∧ (s.ctx 10).state = .draining (.aborted true) ∧ s.td.state = .touchdownEnding) ∧
    s.link.stream.map (·.status) = [.aborted] ∧
    s.log.records.map (fun r => (r.site.val, r.sequence)) = [(3, 0), (4, 1), (5, 2), (8, 3), (9, 4)] := by decide

/-- A touchdown that ends with every context done, context 3 BOUND. -/
def ending : State :=
  { floor with
    td := { floor.td with state := .touchdownEnding, enabled := 0x000C }
    control := { floor.control with executor := .endingTouchdown 9 }
    contexts := Vector.ofFn fun n =>
      { Context.reset n with
        state := if n = 3 then .done else .idle
        verdict := some { verdict := if n = 3 then .bound else .none, reason := none, keyIndex := none, attempts := 0 } }
    ports := Vector.replicate 16 { Port.reset with state := .idle } }

/-- R140: the number and sixteen verdict bytes; the wafer stays open. -/
theorem test_touchdown_end_completion :
    said .touchdownEndCompletion ending = reply 9 .ok [0, 1, 0, 0, 0, 1, 0, 0, 0, 0, 0, 0, 0, 0, 0, 0, 0, 0] ∧
    (after .touchdownEndCompletion ending).td.state = .waferOpen := by decide

/-- R20, R138: HELD is abandoned and its key served again to the waiting context 1; LOCKING reports DRAINING, NONE. -/
theorem test_site_abort : said (.siteAbort 9 2) floor = reply 9 .ok [2, 13, 0x0A] ∧
    ((after (.siteAbort 9 2) floor).ctx 1).heldKey.map (·.index) = some 263 := by decide
theorem test_site_abort_locking : said (.siteAbort 9 10) floor = reply 9 .ok [10, 12, 0] := by decide

/-- R146: a claimed coordinate without an entry has flag 2. -/
theorem test_map_query : said (.mapQuery 9 37 5) floor = reply 9 .ok [37, 5, 2, 0, 0, 0, 0, 0, 0, 0, 0] ∧
    said (.mapQuery 9 256 5) floor = reply 9 .badArg [] := by decide

/-- The record of a BOUND context of the Digest worked case. -/
def boundRecord : LogRecord :=
  { sequence := 0, kind := .bound, reason := none, keyIndex := 261, label := 0x31, lot := 0x4C310007, wafer := 12,
    coord := { x := 37, y := 19 }, digest := 0x05CE, attempts := 3, site := 4, touchdown := 2 }

/-- R179: the layout of a record. -/
theorem test_log_read : said (.logRead 9) { part with log := { records := [boundRecord], nextSequence := 1 } } =
    reply 9 .ok [0, 0, 0, 0, 1, 0, 0, 0, 1, 5, 0, 0, 0, 0x31, 0x4C, 0x31, 0, 7, 12, 37, 19, 0x05, 0xCE, 3, 4, 0, 2, 0] := by
  decide

/-- R157: a count above the number of records empties the log. -/
theorem test_log_drop : said (.logDrop 9 3) { part with log := { records := [boundRecord], nextSequence := 1 } } =
    reply 9 .ok [0, 1, 0, 0] := by decide

/-! ## Ports, contexts and supplies -/

/-- Port 5 in READY with the gated burn of start 2 at the head of its queue (Frame Rules, Worked Example). -/
def armed : State :=
  floorPortWith 5 fun pt => { pt with queue := [request 0x0301 (.write 1)], prevRule := some 6 }

/-- Start 2: sent with BURN_TMO, 20 × 40000 ticks, and the context enters BURNING with one attempt. -/
theorem test_transaction_start : ((after (.transactionStart 5) armed).ctx 5).state = .burning ∧
    ((after (.transactionStart 5) armed).ctx 5).attempts = 1 ∧
    ((after (.transactionStart 5) armed).port 5).prevRule = some 7 := by decide

/-- Start 3: the same command not armed is BLOCKED. -/
theorem test_transaction_start_blocked :
    said (.transactionStart 5) (floorPortWith 5 fun pt =>
      { pt with queue := [request 0x0301 (.write 1)], prevRule := some 7 }) =
    some { tag := 0x42, site := 7, status := .blocked, payload := [] } := by decide

/-- The Fuse Image, Worked Cases: word 3 read 0xB386 answers 0x0101 and records missing 0x0020. -/
theorem test_die_response : (after (.dieResponse 7 (ack (some 0xB386))) floor).link.stream =
      [{ tag := 0x42, site := 7, status := .ok, payload := [0x01, 0x01] }] ∧
    ((after (.dieResponse 7 (ack (some 0xB386))) floor).ctx 7).missing[3] = 0x0020 := by decide

/-- R21, R59: in DRAINING the word is answered NOT_COMPARED and the drain ends VOIDED SUPPLY_FAULT. -/
theorem test_die_response_draining : said (.dieResponse 13 (ack (some 0xB3A6))) floor =
      some { tag := 0x42, site := 7, status := .ok, payload := [0x03, 0x00] } ∧
    ((after (.dieResponse 13 (ack (some 0xB3A6))) floor).ctx 13).verdict.map (·.reason) = some (some .supplyFault) := by
  decide

/-- R92: DIE_TIMEOUT, and the port breaks for 4000 ticks with its queue kept (Site Ports, Worked Example). -/
theorem test_response_timeout : said (.responseTimeout 7) floor =
      some { tag := 0x42, site := 7, status := .dieTimeout, payload := [] } ∧
    ((after (.responseTimeout 7) floor).port 7).state = .breaking 4000 := by decide

/-- R93. -/
theorem test_break_end : ((after (.breakEnd 14) floor).port 14).state = .idle := by decide

/-- Burn Supply Control, Worked Example: a good sense at the expiry leads to READY, a bad one ends VOIDED SUPPLY_FAULT. -/
theorem test_settle_expiry : ((after (.settleExpiry 4) floor).ctx 4).state = .ready ∧
    ((after (.settleExpiry 4) (after (.supplyGoodChange 4 false) floor)).ctx 4).verdict.map (·.reason) =
      some (some .supplyFault) := by decide

/-- Burn Supply Control, Worked Example: a sense that drops with a verify in flight drains the context. -/
theorem test_supply_good_change : ((after (.supplyGoodChange 7 false) floor).ctx 7).state = .draining .supplyFault ∧
    ((after (.supplyGoodChange 7 false) floor).supply 7).state = .off := by decide

set_option maxRecDepth 8000 in
/-- R22: LOCKING ends VOIDED CONTACT_LOST, HELD returns its key, and nothing waits. R100: port 7 answers its transaction (read
0x0203) and then its queued request, between ports 6 and 10. R154: sites 3 to 13 void their keys in site order. -/
theorem test_contact_fall :
    let s := after .contactFall floor
    ((s.ctx 10).verdict.map (·.reason) = some (some .contactLost) ∧ s.pool.map (·.index) = [263] ∧ s.waitList = []) ∧
    s.link.stream.map (·.status) = List.replicate 7 .lost ∧
    s.log.records.map (fun r => (r.site.val, r.sequence.toNat)) = (List.range 11).map fun n => (n + 3, n) := by
  decide

/-- R137: a rise restarts nothing. -/
theorem test_contact_rise : (after .contactRise wafer).pins.contact = true ∧
    (after .contactRise wafer).events = wafer.events := by decide

/-! ## `floor` meets every invariant -/

section

set_option maxRecDepth 20000

theorem floor_params : floor.ParamsInRange := ⟨by decide, by decide, by decide, by decide, by decide, by decide, by decide, by decide⟩
theorem floor_sites : floor.SitesDistinct := by unfold State.SitesDistinct; decide
theorem floor_control : floor.ControlSound := ⟨by decide, by decide, by constructor; rintro ⟨t, h⟩; cases h; intro h; cases h⟩
theorem floor_ports : floor.PortsSound := ⟨by decide, by decide, by decide, by decide, by decide, by decide⟩
theorem floor_wait : floor.WaitSound := ⟨by decide, by decide, by decide⟩
theorem floor_custody : floor.CustodySound := ⟨by decide, by decide, by decide, by decide, by decide, by decide⟩
theorem floor_pool : floor.PoolSound where
  sorted := by decide
  range := by decide
  label := by decide
  heldRange := show ∀ p, ∀ k ∈ (floor.ctx p).heldKey, _ by decide
  heldApart := show ∀ p, ∀ k ∈ (floor.ctx p).heldKey, _ by decide
  heldOnce := by
    have : ∀ p q, ∀ k ∈ (floor.ctx p).heldKey, ∀ j ∈ (floor.ctx q).heldKey, k.index = j.index → p = q := by decide
    exact fun p q k j hk hj => this p q k hk j hj
  capacity := by decide
  unwrap := fun job h => by cases h
theorem floor_log : floor.LogSound := ⟨by decide, by decide, by decide, fun r h => by cases h⟩
theorem floor_image : floor.ImageSound where
  digest := show ∀ p, ∀ k ∈ (floor.ctx p).heldKey, _ by decide
  full := show ∀ p, ∀ k ∈ (floor.ctx p).heldKey, _ by decide
  reburn := by
    have h8 : ∀ p, (floor.ctx p).pass = .reburn → p = 8 := by decide
    intro p k _ hp
    rw [h8 p hp]
    exact ⟨(Vector.replicate 17 0).set 3 0x0020, by decide, by decide⟩
  missing := show ∀ p, ∀ k ∈ (floor.ctx p).heldKey, _ by decide
  fullPass := by decide
  reburnPass := by decide
  unburned := by decide
  admitted := by decide
  bounded := by decide
theorem floor_served : floor.Served := by unfold State.Served; decide
theorem floor_map : floor.MapSound where
  sorted := by decide
  attempts := by decide
  capacity := by decide
  claim := by decide
  once := by
    have : ∀ p q, ∀ c ∈ (floor.ctx p).claim, (floor.ctx q).claim = some c → p = q := by decide
    exact fun p q c h => this p q c h
  reserved := by
    have : ∀ p, (floor.ctx p).mapReserved = true → ∃ c ∈ (floor.ctx p).claim, mapLookup floor.dieMap c = none := by decide
    intro p h
    obtain ⟨c, h1, h2⟩ := this p h
    exact ⟨c, h1, h2⟩
  tried := by
    have : ∀ p, ∀ c ∈ (floor.ctx p).claim, (floor.ctx p).mapReserved = true := by decide
    intro p c h h'
    rw [this p c h] at h'; cases h'
theorem floor_supply : floor.SupplySound := ⟨by decide, by decide⟩

theorem floor_sound : floor.Sound :=
  ⟨floor_params, floor_sites, floor_control, floor_ports, floor_wait, floor_custody, floor_pool, floor_log, floor_image,
    floor_served, floor_map, floor_supply⟩

end

/-! ## Witnesses: for every statement with hypotheses, and for each of its clauses, a state and operands that meet them -/

/-! ### Steps, reset and pins -/

theorem witness_StepRunsTheFrontCommand : part.pending = [] := rfl

theorem witness_PhaseMovesByItsEvents :
    (∃ t, exec .reset part = .next t ∧ part.phase ≠ .held ∧ t.phase = .held) ∧
    (∃ t, exec .resetRelease (after .reset part) = .next t ∧ (after .reset part).phase ≠ .released ∧ t.phase = .released) ∧
    ∃ t, exec .receiverStart State.reset = .next t ∧ State.reset.phase ≠ .running ∧ t.phase = .running :=
  ⟨⟨_, rfl, by decide, by decide⟩, ⟨_, rfl, by decide, by decide⟩, _, rfl, by decide, by decide⟩

theorem witness_PinsFollowTheirEvents : ∃ t, exec (.supplyGoodChange 15 true) part = .next t := ⟨_, rfl⟩

theorem witness_HeldPartIgnoresInputs :
    (after .reset part).phase = .held ∧ Instr.contactFall ≠ .reset ∧ Instr.contactFall ≠ .resetRelease := by decide

/-! ### The tester link -/

/-- One state for each clause, the length byte at 0, 1 and 48. -/
theorem witness_ReceiverHuntsAndCollects :
    State.reset.phase = .released ∧ part.phase = .running ∧ part.link.rx = .hunt ∧
    (receiving .syncSeen [] 0).phase = .running ∧ (receiving .syncSeen [] 0).link.rx = .syncSeen ∧
    (0xB0 : Byte) ≠ 0xB1 ∧ (0xB0 : Byte) ≠ 0x7E ∧
    ((receiving .header [] 2).link.rx = .header ∧ 1 < (receiving .header [] 2).link.expected) ∧
    ((receiving .header [] 1).link.rx = .header ∧ (receiving .header [] 1).link.expected = 1) ∧
    (1 ≤ (1 : Byte).toNat ∧ (48 : Byte).toNat ≤ 48) ∧
    ((receiving .payload [] 2).link.rx = .payload ∧ 1 < (receiving .payload [] 2).link.expected) ∧
    ((receiving .payload [] 1).link.rx = .payload ∧ (receiving .payload [] 1).link.expected = 1) ∧
    ((receiving .check [] 2).link.rx = .check ∧ (receiving .check [] 2).link.expected = 2) := by decide

theorem witness_LengthAbove48IsDiscarded : (receiving .header [1, 2, 3, 4, 5] 1).phase = .running ∧
    (receiving .header [1, 2, 3, 4, 5] 1).link.rx = .header ∧ (receiving .header [1, 2, 3, 4, 5] 1).link.expected = 1 ∧
    48 < (49 : Byte).toNat := by decide

/-- The request frame of Tester Link, Worked Example. -/
def workedFrame : RequestFrame := { tag := 0x42, site := 4, kind := 2, address := 0x0205, payload := [] }

theorem witness_CheckDecidesTheFrame :
    let s := receiving .check (workedFrame.body ++ [0xB9]) 1
    s.phase = .running ∧ s.link.rx = .check ∧ s.link.expected = 1 ∧ s.link.partialFrame = workedFrame.body ++ [0xB9] ∧
      fletcher16 workedFrame.body = word16 0xB9 0x4F := by decide

/-- `workedFrame` on its way to the part, byte by byte. -/
def sending : State :=
  { part with pending :=
      workedFrame.bytes.dropLast.map Instr.downstreamByte ++
        [.requestFrame ((fletcher16 workedFrame.body).extractLsb' 0 8)] }

theorem witness_SentFrameIsRouted : sending.phase = .running ∧ sending.link.rx = .hunt ∧
    workedFrame.payload.length ≤ 48 ∧
    sending.pending = workedFrame.bytes.dropLast.map Instr.downstreamByte ++
      .requestFrame ((fletcher16 workedFrame.body).extractLsb' 0 8) :: [] := by decide

theorem witness_ControlFrameRunsItsRow :
    controlCommand (.keyLoad 9 (record 205)) = some (9, .keyLoad (record 205)) ∧ part.phase ≠ .held := by decide

theorem witness_FrameIsEmittedThenLeaves :
    let s : State := { part with link := { part.link with stream := [verdictFrame] } }
    (s.phase ≠ .held ∧ s.pins.linkRdy = true ∧ s.link.transmitting = none ∧ s.link.stream = verdictFrame :: []) ∧
    (part.phase ≠ .held ∧ part.link.stream = []) ∧ (after .linkRdyFall part).pins.linkRdy = false ∧
    (after .responseEmission s).link.transmitting = some (s.frameNow verdictFrame) := by decide

theorem witness_LaneFollowsReady : part.phase ≠ .held := by decide

/-! ### The control queue -/

theorem ready_part : part.ready := ⟨by decide, rfl, rfl⟩
theorem ready_floor : floor.ready := ⟨by decide, rfl, rfl⟩
theorem ready_batch : batch.ready := ⟨by decide, rfl, rfl⟩
theorem ready_wafer : wafer.ready := ⟨by decide, rfl, rfl⟩

/-- An unwrap in execution with commands waiting behind it. -/
def waiting (n : Nat) : State :=
  { unwrapping part with control := { (unwrapping part).control with queue := List.replicate n (1, .logRead) } }

theorem witness_ControlRowsQueueOrRun :
    controlCommand (.identify 9) = some (9, .identify) ∧
    ((waiting 4).phase ≠ .held ∧ (waiting 4).control.queue.length ≥ 4) ∧
    ((waiting 3).phase ≠ .held ∧ (waiting 3).control.queue.length < 4 ∧ (waiting 3).control.executor ≠ .idle) ∧
    part.ready := ⟨by decide, by decide, by decide, ready_part⟩

theorem witness_ReleasedQueueRunsInOrder :
    let s := (waiting 4).setExecutor .idle
    (s.control.executor = .idle ∧ s.control.queue = (1, .logRead) :: List.replicate 3 (1, .logRead)) ∧
    (waiting 4).control.executor ≠ .idle ∧ part.control.queue = [] := by decide

/-! ### Setup and reading commands -/

theorem witness_IdentifyAnswersTheFixedValues : part.ready ∧ ∃ t, exec (.keyPurge 9) part = .next t :=
  ⟨ready_part, _, rfl⟩

theorem witness_StatusReportsItsPages : part.ready := ready_part

theorem witness_ParamSetStoresTheClampedValue :
    part.ready ∧ floor.ready ∧ Param.ofId 0x08 = none ∧ Param.ofId 0x20 = none ∧ Param.ofId 0x07 = some .eventEnable ∧
    Param.ofId 0x10 = some (.gear 0) ∧ Param.ofId 0x1F = some (.gear 15) ∧
    (Param.ofId 0x04 = some .burnLimit ∧ floor.touchdownIsOpen = true) ∧ part.touchdownIsOpen = false :=
  ⟨ready_part, ready_floor, by decide, by decide, by decide, by decide, by decide, by decide, by decide⟩

theorem witness_ParamGetReadsTheStoredValue : part.ready := ready_part

/-- The fields of a written block at the ends of their ranges: each `bad` clause is met, and `block12` meets none. -/
theorem witness_RuleWriteStoresTheNormalForm :
    (part.ready ∧ part.touchdownIsOpen = false) ∧ (floor.ready ∧ floor.touchdownIsOpen = true) ∧
    63 < (64 : Byte).toNat ∧ 2 < (3 : Byte).toNat ∧ 6 < (7 : Byte).toNat ∧ 16 < (17 : Byte).toNat ∧ 5 < (6 : Byte).toNat ∧
    (block12.number.toNat ≤ 63 ∧ block12.kind = 1 ∧ block12.action = 2 ∧ block12.argument.toNat = 16) ∧
    -- a chain flag in rule 0, an INJECT of READ, a VERIFY and a CAPTURE of WRITE
    [{ block12 with number := 0, chain := 1 }, { block12 with kind := 2 }, { block12 with action := 3 },
      { block12 with action := 1, argument := 5 }].map (fun b => said (.ruleWrite 9 b) part) =
        List.replicate 4 (reply 9 .badArg []) :=
  ⟨⟨ready_part, by decide⟩, ⟨ready_floor, by decide⟩, by decide, by decide, by decide, by decide, by decide,
    by decide, by decide⟩

theorem witness_RuleReadReturnsTheStoredRule : part.ready ∧ (63 : Fin 64).val = (63 : Byte).toNat ∧ 63 < (64 : Byte).toNat :=
  ⟨ready_part, by decide, by decide⟩

theorem witness_SiteMapWriteKeepsPortsApart :
    (floor.ready ∧ floor.touchdownIsOpen = true) ∧ (part.ready ∧ part.touchdownIsOpen = false) ∧ 15 < (16 : Byte).toNat ∧
    ((2 : SiteId).val = (2 : Byte).toNat ∧ (15 : PortId).val = (15 : Byte).toNat) ∧
    (∃ j : SiteId, j ≠ 2 ∧ (part.siteMap[j]).enabled = true ∧ (part.siteMap[j]).port = 15) ∧
    ¬ ∃ j : SiteId, j ≠ 2 ∧ (part.siteMap[j]).enabled = true ∧ (part.siteMap[j]).port = 2 :=
  ⟨⟨ready_floor, by decide⟩, ⟨ready_part, by decide⟩, by decide, by decide, by decide, by decide⟩

theorem witness_SiteMapReadReturnsTheEntry :
    part.ready ∧ (15 : SiteId).val = (15 : Byte).toNat ∧ 15 < (16 : Byte).toNat := ⟨ready_part, by decide, by decide⟩

theorem witness_GroupWriteReplacesTheBitmap :
    (floor.ready ∧ floor.touchdownIsOpen = true) ∧ (part.ready ∧ part.touchdownIsOpen = false) ∧ (15 : Byte).toNat < 16 ∧
    30 < (31 : Byte).toNat ∧ (0 : Fin 15).val + 16 = (16 : Byte).toNat ∧ (14 : Fin 15).val + 16 = (30 : Byte).toNat :=
  ⟨⟨ready_floor, by decide⟩, ⟨ready_part, by decide⟩, by decide, by decide, by decide, by decide⟩

theorem witness_GroupReadReturnsTheBitmap : part.ready ∧ (14 : Fin 15).val + 16 = (30 : Byte).toNat ∧
    (15 : Byte).toNat < 16 ∧ 30 < (31 : Byte).toNat := ⟨ready_part, by decide, by decide, by decide⟩

theorem witness_StrapLinesAreSetAndRead : part.ready ∧ (15 : PortId).val = (15 : Byte).toNat ∧ 15 < (16 : Byte).toNat :=
  ⟨ready_part, by decide, by decide⟩

theorem witness_EventReadReportsAndKeeps : floor.ready := ready_floor

theorem witness_EventClearKeepsTheMaskedLatches : floor.ready ∧ (11 : Nat) < 12 := ⟨ready_floor, by decide⟩

/-! ### Batches, keys, wafers and the log -/

theorem witness_BatchOpenStartsTheAccounts :
    (floor.ready ∧ (floor.ctx 2).state.holdsKey = true) ∧ (batch.ready ∧ batch.pool ≠ []) ∧
    part.ready ∧ ¬ (part.pool ≠ [] ∨ ∃ p, (part.ctx p).state.holdsKey = true) :=
  ⟨⟨ready_floor, by decide⟩, ⟨ready_batch, by decide⟩, ready_part, by decide⟩

theorem witness_KeyLoadChecksInOrder : part.ready ∧ batch.ready ∧ (record 210).index.toNat ≤ batch.batch.floor.toNat :=
  ⟨ready_part, ready_batch, by decide⟩

theorem witness_UnwrapCompletionAcceptsOrCounts :
    ((unwrapping batch).phase ≠ .held ∧ (unwrapping batch).control.executor =
      .unwrapping { tag := 9, index := 212, ciphertext := 7, integrity := 8, label := 0x31 }) ∧
    (abortsWaiting.phase ≠ .held ∧ abortsWaiting.control.executor = (unwrapping batch).control.executor ∧
      (abortsWaiting.port 7).queue ≠ [] ∧ ((after (.unwrapCompletion none) abortsWaiting).port 7).queue = []) ∧
    ∀ job, part.control.executor ≠ .unwrapping job := ⟨by decide, by decide, nofun⟩

theorem witness_KeyPurgeEmptiesThePool : batch.ready ∧ batch.pool ≠ [] ∧ 0 < batch.params.poolLow :=
  ⟨ready_batch, by decide, by decide⟩

theorem witness_KeyServiceServesTheHead :
    let s : State := { floor with pool := batch.pool }
    s.phase ≠ .held ∧ (s.waitList = 1 :: [] ∧ s.pool ≠ [] ∧ s.log.records.length + s.logReservations < 256) ∧
    floor.pool = [] ∧ part.waitList = [] := by decide

theorem witness_WafersOpenAndClose :
    (floor.ready ∧ floor.touchdownIsOpen = true) ∧
    (part.ready ∧ part.touchdownIsOpen = false ∧ part.td.state = .noWafer) ∧ 25 < (26 : Byte).toNat ∧
    ((25 : Byte) ≠ 0 ∧ (25 : Byte).toNat ≤ 25) ∧ wafer.ready ∧ wafer.td.state = .waferOpen :=
  ⟨⟨ready_floor, by decide⟩, ⟨ready_part, by decide, rfl⟩, by decide, by decide, ready_wafer, rfl⟩

theorem witness_TouchdownBeginStartsItsSites :
    (floor.ready ∧ floor.touchdownIsOpen = true) ∧ (part.ready ∧ part.td.state = .noWafer) ∧
    (wafer.ready ∧ wafer.td.state = .waferOpen ∧ wafer.pins.contact = false) ∧
    (ready16.ready ∧ ready16.td.state = .waferOpen ∧ ready16.pins.contact = true ∧ ready16.SitesDistinct) ∧
    -- an empty and a non-empty enabled set
    (after (.touchdownBegin 9 0) ready16).td.enabled = 0 ∧ (after (.touchdownBegin 9 0x000B) ready16).td.enabled = 0x000B :=
  ⟨⟨ready_floor, by decide⟩, ⟨ready_part, rfl⟩, ⟨ready_wafer, rfl, rfl⟩, ⟨⟨by decide, rfl, rfl⟩, rfl, rfl, floor_sites⟩,
    by decide, by decide⟩

/-- `floor` is open and sound, and has a context in every state. -/
theorem witness_TouchdownEndEndsEverySite :
    (part.ready ∧ part.td.state ≠ .touchdownOpen) ∧ floor.ready ∧ floor.td.state = .touchdownOpen ∧ floor.Sound :=
  ⟨⟨ready_part, by decide⟩, ready_floor, rfl, floor_sound⟩

theorem witness_QuietTouchdownCompletes :
    (ending.phase ≠ .held ∧ ending.control.executor = .endingTouchdown 9 ∧ ending.td.state = .touchdownEnding ∧
      ∀ p : PortId, ((ending.ctx p).state = .idle ∨ (ending.ctx p).state = .done) ∧
        (ending.port p).state.isBusy = false) ∧
    ∀ tag, part.control.executor ≠ .endingTouchdown tag := ⟨by decide, nofun⟩

/-- Sites 0 to 14 of `floor` find their contexts in every state but IDLE; site 15 is not enabled. -/
theorem witness_SiteAbortEndsOneSite :
    (part.ready ∧ part.touchdownIsOpen = false) ∧ 15 < (16 : Byte).toNat ∧
    (floor.ready ∧ floor.touchdownIsOpen = true ∧ floor.td.enabled.getLsbD (14 : SiteId).val = true ∧
      floor.td.enabled.getLsbD (15 : SiteId).val = false ∧ (15 : SiteId).val = (15 : Byte).toNat) :=
  ⟨⟨ready_part, by decide⟩, by decide, ready_floor, by decide, by decide, by decide, by decide⟩

/-- A wafer with one entry in its map. -/
def mapped : State :=
  { wafer with dieMap := [{ coord := { x := 255, y := 255 }, outcome := .tried, attempts := 1, lastTouchdown := 1 }] }

theorem witness_MapQueryReportsTheCoordinate :
    (part.ready ∧ part.td.state = .noWafer) ∧ (wafer.ready ∧ wafer.td.state ≠ .noWafer) ∧ 255 < (256 : Word).toNat ∧
    ((255 : Byte).toNat = (255 : Word).toNat ∧ (∃ p, (floor.ctx p).claim = some { x := 37, y := 5 }) ∧
      ¬ ∃ p, (mapped.ctx p).claim = some { x := 255, y := 255 }) ∧
    (∀ e ∈ floor.dieMap, e.coord ≠ { x := 37, y := 5 }) ∧
    mapped.ready ∧ mapped.td.state ≠ .noWafer ∧ (∃ e ∈ mapped.dieMap, e.coord = { x := 255, y := 255 }) ∧
    mapped.dieMap.Pairwise fun a b => a.coord.key < b.coord.key :=
  ⟨⟨ready_part, rfl⟩, ⟨ready_wafer, by decide⟩, by decide, by decide, by decide, ⟨by decide, rfl, rfl⟩, by decide, by decide,
    by decide⟩

theorem witness_LogReadAndDrop :
    let s : State := { part with log := { records := [boundRecord], nextSequence := 1 } }
    (part.ready ∧ part.log.records = []) ∧ s.ready ∧ s.log.records = boundRecord :: [] :=
  ⟨⟨ready_part, rfl⟩, ⟨by decide, rfl, rfl⟩, rfl⟩

/-! ### Requests and transactions -/

/-- Rules 6 and 10 of the worked example hold for start 1, and no rule below 6 does. -/
theorem witness_LowestRuleWins :
    (exampleRule 6).holds 6 (some 20) (request 0x0300 (.write 0x125A)) = true ∧
    (∀ m : Fin 64, m.val < 6 → (exampleRule m).holds m (some 20) (request 0x0300 (.write 0x125A)) = false) ∧
    ∀ n : Fin 64, (exampleRule n).holds n none (request 0xFFFF .read) = false := by decide

theorem witness_TransactionStartAsksTheContext :
    (armed.phase ≠ .held ∧ (armed.port 5).state = .idle ∧
      (armed.port 5).queue = request 0x0301 (.write 1) :: []) ∧
    (floor.port 7).state ≠ .idle ∧ (floor.port 5).queue = [] := by decide

theorem witness_SingleSiteFrameIsOffered : (15 : SiteId).val = (15 : Byte).toNat := by decide

/-- `floor` with group 16 of the given members. -/
def grouped (members : BitVec 16) : State := { floor with groups := floor.groups.set 0 members }

/-- A frame for group 16. -/
def groupRead : SiteFrame := { tag := 0x42, site := 16, address := 0x0205, op := .read }

theorem witness_GroupFrameIsAllOrNothing :
    (0 : Fin 15).val + 16 = groupRead.site.toNat ∧ (grouped 0).groups[(0 : Fin 15)] = 0 ∧
    ((floorPortWith 5 fun pt => { pt with queue := List.replicate 8 (request 0 .read) }).port 5).admission = .full ∧
    ((grouped 0x8000).groups[(0 : Fin 15)] ≠ 0 ∧
      ((grouped 0x8000).port ((grouped 0x8000).sitePort 15)).admission = .declined .noSite) ∧
    (((grouped 0x8020).port ((grouped 0x8020).sitePort 5)).admission = .accept ∧
      ∃ k : Fin 8, (grouped 0x8020).merge[k] = none) := by decide

theorem witness_GroupFrame_sites : (grouped 0x8020).SitesDistinct := floor_sites

/-- A merge record with one of two members done. -/
def halfDone : State :=
  { part with merge := part.merge.set 7 (some
      { tag := 0x42, group := 16, members := 3,
        slots := (Vector.replicate 16 none).set 1 (some { status := .ok, word := none }) }) }

theorem witness_LastMemberProducesTheResponse :
    (halfDone.merge[(7 : Fin 8)]).map (fun m =>
      (m.members.getLsbD 0, m.members.getLsbD 1, (m.slots[(0 : Fin 16)]).isNone, (m.slots[(1 : Fin 16)]).isSome)) =
    some (true, true, true, true) := by decide

theorem witness_DieResponseEndsTheTransaction : floor.phase ≠ .held ∧ (floor.port 15).state = .parked .notEnabled ∧
    (floor.port 5).state = .idle ∧ (floor.port 14).state = .breaking 4000 ∧
    (floor.port 7).state = busy (request 0x0203 .read) (.verify 3) 20000 := by decide

theorem witness_VerifyWordNeverLeaves : (floor.port 13).state = busy (request 0x0203 .read) (.verify 3) 20000 ∧
    (floor.ctx 13).state ≠ .checking ∧ classify 0xB3A6 0xB3E6 = classify 0xB3A6 0xB3B6 ∧
    oneBits (extraBits 0xB3A6 0xB3E6) = oneBits (extraBits 0xB3A6 0xB3B6) ∧
    oneBits (missingBits 0xB3A6 0xB3E6) = oneBits (missingBits 0xB3A6 0xB3B6) ∧
    -- in CHECKING, two words that each miss one bit
    ((floor.port 7).state = busy (request 0x0203 .read) (.verify 3) 20000 ∧ (floor.ctx 7).state = .checking ∧
      floor.td.state ≠ .touchdownEnding ∧ (floor.ctx 7).expectedWord 3 = 0xB3A6 ∧
      classify 0xB3A6 0xB3A4 = classify 0xB3A6 0xB3A2 ∧
      oneBits (extraBits 0xB3A6 0xB3A4) = oneBits (extraBits 0xB3A6 0xB3A2) ∧
      oneBits (missingBits 0xB3A6 0xB3A4) = oneBits (missingBits 0xB3A6 0xB3A2)) := by decide

theorem witness_TimeoutLeadsToABreak : floor.phase ≠ .held ∧ (floor.port 7).state.isBusy = true ∧
    (floor.port 5).state.isBusy = false ∧ (floor.port 14).state = .breaking 4000 ∧
    ∀ n, (floor.port 5).state ≠ .breaking n := ⟨by decide, by decide, by decide, by decide, nofun⟩

/-! ### Contexts, supplies and CONTACT -/

/-- The identities that the checks of R142 tell apart, on `floor`'s wafer. -/
theorem witness_CaptureRunsTheIdentityCheck :
    (floor.ctx 0).state = .ident ∧ (floor.dieMap.Pairwise fun a b => a.coord.key < b.coord.key) ∧
    25 < (26 : Byte).toNat ∧ floor.td.wafer ≠ some { lot := 0, number := 12 } ∧
    floor.td.wafer = some { lot := (die 99).lot, number := (die 99).wafer } ∧
    (∃ q, (floor.ctx q).claim = some (die 5).coord) ∧ (¬ ∃ q, (floor.ctx q).claim = some (die 99).coord) ∧
    floor.identityCheck (die 99) = none ∧
    floor.identityCheck { die 99 with lock := true } = some .foreignLock := by decide

/-- `floor` after an earlier touchdown that bound die (37, 99) and voided die (37, 100). -/
def seen : State :=
  { floor with dieMap :=
      [{ coord := (die 99).coord, outcome := .bound 250, attempts := 1, lastTouchdown := 1 },
       { coord := (die 100).coord, outcome := .voided 251, attempts := 1, lastTouchdown := 1 }] }

theorem witness_IdentityCheck_mapped : (seen.dieMap.Pairwise fun a b => a.coord.key < b.coord.key) ∧
    seen.identityCheck { die 99 with lock := true } = some .alreadyBound ∧
    seen.identityCheck (die 99) = some .lockMissing ∧ seen.identityCheck (die 100) = some .scrap := by decide

theorem witness_ContextActsAtTheEnd : (floor.ctx 11).state = .draining (.aborted true) ∧ (floor.ctx 3).state = .loading ∧
    (floor.ctx 8).state = .reburn ∧ (floor.ctx 6).state = .burning ∧ (floor.ctx 10).state = .locking ∧
    (floor.ctx 0).state.isDraining = false ∧ (floor.ctx 5).state ≠ .ident ∧ (floor.ctx 5).state ≠ .checking := by decide

theorem witness_VerifyClassifiesTheWord : (floor.ctx 7).state = .checking ∧ (floor.ctx 7).heldKey = some (key 268) ∧
    (floor.ctx 7).digest = some (bindingDigest (die 7) 268) := by decide

/-- The Fuse Image, Worked Example: the pass ends VERIFIED, in REBURN, or with no attempt left VOIDED RETRY_LIMIT. -/
theorem test_pass_ends :
    let word16 := some (bindingDigest (die 7) 268)
    let end7 := fun s : State => (s.contextAtEnd 7 (.verify 16) (.ok word16)).ctx 7
    (end7 (lastVerify (Vector.replicate 17 0))).state = .verified ∧
    (end7 (lastVerify ((Vector.replicate 17 0).set 3 0x0020))).state = .reburn ∧
    (end7 { lastVerify ((Vector.replicate 17 0).set 3 0x0020) with params := { floor.params with burnLimit := 1 } }
      ).verdict.map (·.reason) = some (some .retryLimit) := by decide

theorem witness_SettlementClosesTheAccounts : (floor.ctx 10).heldKey = some (key 271) ∧
    (floor.ctx 10).digest = some (bindingDigest (die 10) 271) ∧ (floor.ctx 10).claim = some (die 10).coord ∧
    (floor.ctx 2).heldKey = some (key 263) ∧ (floor.ctx 0).heldKey = none ∧ (floor.ctx 0).claim = none ∧
    (floor.pool.Pairwise fun a b => a.index < b.index) ∧ ∀ j ∈ floor.pool, j.index ≠ (key 263).index := by decide

theorem witness_SupplyFollowsItsInput : floor.phase ≠ .held ∧ (floor.supply 4).state = .settling 12800 ∧
    floor.pins.supplyGood[4] = true ∧ (after (.supplyGoodChange 4 false) floor).pins.supplyGood[4] = false ∧
    (after (.supplyGoodChange 4 false) floor).phase ≠ .held ∧ (floor.supply 5).state = .onGood ∧
    (floor.supply 0).state = .off := by decide

/-- `floor` once more: an open touchdown, contacts not lost, a context in every state; and parts that a fall does not reach. -/
theorem witness_ContactFallEndsEverySite :
    (floor.phase ≠ .held ∧ floor.touchdownIsOpen = true ∧ floor.td.contactLost = false ∧ floor.Sound) ∧
    (part.phase ≠ .held ∧ part.touchdownIsOpen = false) ∧
    let lost : State := { floor with td := { floor.td with contactLost := true } }
    lost.phase ≠ .held ∧ lost.td.contactLost = true :=
  ⟨⟨by decide, by decide, rfl, floor_sound⟩, ⟨by decide, by decide⟩, by decide, rfl⟩

/-! ### Invariants -/

theorem floor_rules : floor.RulesLegal := by
  have h : ∀ n : Fin 64, (floor.rules[n]).action.allows (floor.rules[n]).kind = true ∧
      (n = 0 → (floor.rules[n]).chain = false) ∧
      (floor.rules[n]).addrValue &&& (floor.rules[n]).addrMask = (floor.rules[n]).addrValue ∧
      (floor.rules[n]).dataValue &&& (floor.rules[n]).dataMask = (floor.rules[n]).dataValue ∧
      ((floor.rules[n]).kind = .read → (floor.rules[n]).dataValue = 0 ∧ (floor.rules[n]).dataMask = 0) := by decide
  exact fun n => ⟨(h n).1, (h n).2.1, (h n).2.2.1, (h n).2.2.2.1, (h n).2.2.2.2⟩

theorem halfDone_open : halfDone.MergesOpen := by
  intro k m h
  have h7 : ∀ k : Fin 8, (halfDone.merge[k]).isSome = true → k = 7 := by decide
  have hk := h7 k (by rw [h]; rfl)
  subst hk
  have : m.complete = false := by
    have hm := congrArg (Option.map MergeRecord.complete) h
    have : (halfDone.merge[(7 : Fin 8)]).map MergeRecord.complete = some false := by decide
    rw [this] at hm
    exact (Option.some.inj hm).symm
  exact this

/-- A frame in transmission behind which another waits. -/
def talking : State := after .responseEmission { floor with link := { floor.link with stream := [verdictFrame, verdictFrame] } }

theorem talking_sound : talking.StreamSound ∧ (talking.phase = .held → talking.link.stream = []) := by
  refine ⟨⟨by decide, nofun, fun f h => ?_⟩, nofun⟩
  have : talking.link.transmitting.map (·.response) = some verdictFrame := by decide
  rw [h] at this
  rw [show f.response = verdictFrame from Option.some.inj this]
  decide

theorem witness_SettingsAndStreamsStayLegal :
    (∃ t, exec (.logRead 9) floor = .next t) ∧ floor.ParamsInRange ∧ floor.RulesLegal ∧ floor.SitesDistinct ∧
    halfDone.MergesOpen ∧ talking.StreamSound :=
  ⟨⟨_, rfl⟩, floor_params, floor_rules, floor_sites, halfDone_open, talking_sound.1⟩

theorem witness_EveryCommandKeepsThePartSound :
    floor.Sound ∧ (∃ t, exec .contactFall floor = .next t) ∧ ∃ t, step floor = .next t :=
  ⟨floor_sound, ⟨_, rfl⟩, _, rfl⟩

theorem witness_ResetIsSound : ∃ t, exec .reset floor = .next t := ⟨_, rfl⟩

end Sys2Proof.Tests
end

section
/-! Proofs: what a context does at the end of a transaction of its port, but for CAPTURE and VERIFY (R10, R13, R19, R21). -/
namespace Sys2Proof.Machine

variable (s : State) (p : PortId)

/-! ### The context, written twice -/

@[simp] theorem setCtx_setCtx (c d : Context) : (s.setCtx p c).setCtx p d = s.setCtx p d := by
  simp [State.setCtx]

theorem setCtxState_setCtx (c : Context) (st : ContextState) :
    (s.setCtx p c).setCtxState p st = s.setCtx p { c with state := st } := by
  simp [State.setCtxState]

/-! ### The switch-on request (R122) -/

theorem switchOn_eq :
    s.switchOn p =
      { s with
        supplies :=
          if (s.supply p).state = .off then
            s.supplies.set p
              { state := .settling (settleTicks s.params.settleCode s.params.settleScale)
                interval := some (settleTicks s.params.settleCode s.params.settleScale) }
          else s.supplies } := by
  unfold State.switchOn
  cases (s.supply p).state <;> rfl

/-! ### The context at the end of a transaction, one equation per case (R10, R13, R15, R19, R21) -/

variable {s p}

theorem contextAtEnd_draining {cause : DrainCause} (h : (s.ctx p).state = .draining cause) (a : Action) (o : TxOutcome) :
    s.contextAtEnd p a o = s.endDrain p cause o := by
  simp [State.contextAtEnd, h]

theorem contextAtEnd_inject (h : (s.ctx p).state.isDraining = false) (w : Fin 17) (o : TxOutcome) :
    s.contextAtEnd p (.inject w) o = if o.isOk then s.injectedEnd p w else s := by
  cases hs : (s.ctx p).state with
  | draining cause => simp [hs, ContextState.isDraining] at h
  | _ => cases o <;> simp [State.contextAtEnd, hs, TxOutcome.isOk]

theorem contextAtEnd_gateBurn (h : (s.ctx p).state = .burning) (o : TxOutcome) :
    s.contextAtEnd p .gateBurn o = s.burnEnd p o := by
  simp [State.contextAtEnd, h]

theorem contextAtEnd_gateLock (h : (s.ctx p).state = .locking) (o : TxOutcome) :
    s.contextAtEnd p .gateLock o = s.lockEnd p o := by
  simp [State.contextAtEnd, h]

theorem contextAtEnd_verify (h : (s.ctx p).state = .checking) (w : Fin 17) (read : Word) :
    s.contextAtEnd p (.verify w) (.ok (some read)) = s.verifyEnd p w read := by
  simp [State.contextAtEnd, h]

theorem contextAtEnd_pass (h : (s.ctx p).state.isDraining = false) (o : TxOutcome) : s.contextAtEnd p .pass o = s := by
  cases hs : (s.ctx p).state with
  | draining cause => simp [hs, ContextState.isDraining] at h
  | _ => simp [State.contextAtEnd, hs]

theorem contextAtEnd_capture_idle (h : (s.ctx p).state.isDraining = false) (f : CaptureField) {o : TxOutcome}
    (hn : (s.ctx p).state ≠ .ident ∨ o.isOk = false) : s.contextAtEnd p (.capture f) o = s := by
  cases hs : (s.ctx p).state with
  | draining cause => simp [hs, ContextState.isDraining] at h
  | ident => cases o <;> simp [State.contextAtEnd, hs, TxOutcome.isOk] at hn ⊢
  | _ => simp [State.contextAtEnd, hs]

theorem contextAtEnd_verify_idle (h : (s.ctx p).state.isDraining = false) (w : Fin 17) {o : TxOutcome}
    (hn : (s.ctx p).state ≠ .checking ∨ o.isOk = false) : s.contextAtEnd p (.verify w) o = s := by
  cases hs : (s.ctx p).state with
  | draining cause => simp [hs, ContextState.isDraining] at h
  | checking => cases o <;> simp [State.contextAtEnd, hs, TxOutcome.isOk] at hn ⊢
  | _ => simp [State.contextAtEnd, hs]

/-! ### An injected write that ended OK (R10, R71) -/

theorem injectedEnd_partial {w : Fin 17} (h : (s.ctx p).injected ||| wordBit w ≠ fullMask) :
    s.injectedEnd p w = s.setCtx p { s.ctx p with injected := (s.ctx p).injected ||| wordBit w } := by
  simp [State.injectedEnd, h]

theorem injectedEnd_reburn {w : Fin 17} (h : (s.ctx p).injected ||| wordBit w = fullMask)
    (hs : (s.ctx p).state = .reburn) :
    s.injectedEnd p w = s.setCtx p { s.ctx p with injected := (s.ctx p).injected ||| wordBit w, state := .ready } := by
  simp [State.injectedEnd, h, hs, setCtxState_setCtx]

theorem injectedEnd_loading {w : Fin 17} (h : (s.ctx p).injected ||| wordBit w = fullMask)
    (hs : (s.ctx p).state = .loading) :
    s.injectedEnd p w =
      (s.setCtx p { s.ctx p with injected := (s.ctx p).injected ||| wordBit w, state := .settling }).switchOn p := by
  simp [State.injectedEnd, h, hs, setCtxState_setCtx]

end Sys2Proof.Machine

open Sys2Proof Sys2Proof.Machine

/-- Settles O53, by the cases of the context's state and the action. -/
theorem contextActsAtTheEnd : Obligations.ContextActsAtTheEnd := by
  unfold Obligations.ContextActsAtTheEnd
  intro p s c
  refine ⟨?draining, ?inject, ?burn, ?lock, ?rest⟩
  case draining =>
    intro cause a o h
    exact contextAtEnd_draining h a o
  case inject =>
    intro w o h mask ticks
    have hd : c.state.isDraining = false := by rcases h with h | h <;> rw [h] <;> rfl
    have hfull : (0x1FFFF#17 : BitVec 17) = fullMask := by decide
    rw [contextAtEnd_inject hd, hfull]
    cases o.isOk with
    | false => rfl
    | true =>
      show s.injectedEnd p w = if mask ≠ fullMask then _ else if c.state = .reburn then _ else _
      by_cases hm : mask = fullMask
      · rw [if_neg (not_not.2 hm)]
        rcases h with h | h
        · rw [if_neg (by rw [h]; decide), injectedEnd_loading hm h, switchOn_eq]
          rfl
        · rw [if_pos h, injectedEnd_reburn hm h]
          rfl
      · rw [if_pos hm, injectedEnd_partial hm]
        rfl
  case burn =>
    intro h
    exact ⟨fun w => contextAtEnd_gateBurn h _, contextAtEnd_gateBurn h _, contextAtEnd_gateBurn h _⟩
  case lock =>
    intro h
    exact ⟨fun w => contextAtEnd_gateLock h _, contextAtEnd_gateLock h _, contextAtEnd_gateLock h _⟩
  case rest =>
    intro h
    exact ⟨contextAtEnd_pass h, fun f o => contextAtEnd_capture_idle h f, fun w o => contextAtEnd_verify_idle h w⟩
end

section
/-! Proofs: the end of a verify and of a pass (R15, R16, R72..R76). -/
namespace Sys2Proof.Machine

variable {s : State} {p : PortId}

/-! ### The end of a verify (R72, R73, R75) -/

theorem classify_eq_fatal {expected read : Word} : classify expected read = .fatal ↔ extraBits expected read ≠ 0 := by
  refine ⟨fun h hx => ?_, fun h => if_pos h⟩
  rw [classify, if_neg (not_not.2 hx)] at h
  split at h <;> cases h

theorem verifyEnd_fatal {w : Fin 17} {read : Word} (h : extraBits ((s.ctx p).expectedWord w) read ≠ 0) :
    s.verifyEnd p w read = s.settleVoided p .fatalBits :=
  if_pos (classify_eq_fatal.2 h)

theorem verifyEnd_partial {w : Fin 17} {read : Word} (h : extraBits ((s.ctx p).expectedWord w) read = 0)
    (hv : (s.ctx p).verified ||| wordBit w ≠ fullMask) :
    s.verifyEnd p w read = s.setCtx p ((s.ctx p).afterVerify w read) := by
  have hc : classify ((s.ctx p).expectedWord w) read ≠ .fatal := fun hf => classify_eq_fatal.1 hf h
  simp [State.verifyEnd, hc, Context.afterVerify, hv]

theorem verifyEnd_last {w : Fin 17} {read : Word} (h : extraBits ((s.ctx p).expectedWord w) read = 0)
    (hv : (s.ctx p).verified ||| wordBit w = fullMask) :
    s.verifyEnd p w read = (s.setCtx p ((s.ctx p).afterVerify w read)).passEnd p := by
  have hc : classify ((s.ctx p).expectedWord w) read ≠ .fatal := fun hf => classify_eq_fatal.1 hf h
  simp [State.verifyEnd, hc, Context.afterVerify, hv]

theorem eq_replicate_zero_iff {m : Vector Word 17} : m = Vector.replicate 17 0 ↔ ∀ v : Fin 17, m[v] = 0 := by
  constructor
  · rintro rfl v
    simp
  · intro h
    exact Vector.ext fun i hi => by simpa using h ⟨i, hi⟩

/-- How a pass ends whose last verify leaves the context `c` (R16, R75). -/
theorem passEnd_setCtx (c : Context) :
    (s.setCtx p c).passEnd p =
      if ∀ v : Fin 17, c.missing[v] = 0 then s.setCtx p { c with state := .verified }
      else if s.params.burnLimit ≤ c.attempts then (s.setCtx p c).settleVoided p .retryLimit
      else s.setCtx p c.startReburn := by
  simp only [State.passEnd, ctx_setCtx_self, setCtxState_setCtx, setCtx_setCtx, eq_replicate_zero_iff]
  rfl

theorem expectedWord_of_held {c : Context} {k : Key} {d : Word} (hk : c.heldKey = some k) (hd : c.digest = some d)
    (w : Fin 17) : c.expectedWord w = if w.val < 16 then k.bits.extractLsb' (240 - 16 * w.val) 16 else d := by
  simp [Context.expectedWord, hk, hd, fullWord, keyWord]

end Sys2Proof.Machine

open Sys2Proof Sys2Proof.Machine

/-- Settles O54, by the class of the word read and, at the last word, by how the pass ends. -/
theorem verifyClassifiesTheWord : Obligations.VerifyClassifiesTheWord := by
  unfold Obligations.VerifyClassifiesTheWord
  intro p w read k d s hs hk hd c expected missing verified put c'
  have hexp : c.expectedWord w = expected := expectedWord_of_held hk hd w
  have hfull : (0x1FFFF#17 : BitVec 17) = fullMask := by decide
  have hafter : c.afterVerify w read = c' := by simp only [Context.afterVerify, hexp]; rfl
  rw [contextAtEnd_verify hs, hfull]
  by_cases hx : read &&& ~~~expected = 0
  · have hextra : extraBits (c.expectedWord w) read = 0 := by rw [hexp]; exact hx
    rw [if_neg (not_not.2 hx)]
    by_cases hv : verified = fullMask
    · rw [if_neg (not_not.2 hv), verifyEnd_last hextra hv, hafter, passEnd_setCtx]
      rfl
    · rw [if_pos hv, verifyEnd_partial hextra hv, hafter]
      rfl
  · rw [if_pos hx, verifyEnd_fatal (by rw [hexp]; exact hx)]
end

section
/-! Proofs: a transaction start: what the context answers, and what the port sends, answers or goes on with (R53, R83, R86). -/
namespace Sys2Proof.Machine

/-! ### What a command of an event does while the part runs (R187) -/

theorem whileRunning_of_running {s : State} (h : s.phase ≠ .held) (effect atPins : State → State) :
    whileRunning s effect atPins = .next (effect s) := by
  simp [whileRunning, h]

/-! ### The context at a start (R3, R9, R12, R19) -/

section context

variable {c : Context} {w : Fin 17}

theorem startAnswer_inject (h : c.state = .held ∨ c.state = .loading ∨ c.state = .reburn) :
    c.startAnswer (.inject w) = .substitute (c.passWord w) := by
  rcases h with h | h | h <;> simp [Context.startAnswer, h]

theorem startAnswer_inject_refused (h : ¬ (c.state = .held ∨ c.state = .loading ∨ c.state = .reburn)) :
    c.startAnswer (.inject w) = .refused := by
  cases hs : c.state <;> simp [hs, Context.startAnswer] at h ⊢

theorem atStart_inject_held (h : c.state = .held) :
    c.atStart (.inject w) = { c with state := .loading, exposed := true } := by
  simp [Context.atStart, h]

theorem atStart_inject_of_ne (h : c.state ≠ .held) : c.atStart (.inject w) = c := by
  cases hs : c.state <;> simp [hs, Context.atStart] at h ⊢

theorem atStart_gateBurn (h : c.state = .ready) :
    c.atStart .gateBurn = { c with state := .burning, attempts := c.attempts + 1 } := by
  simp [Context.atStart, h]

theorem atStart_gateLock (h : c.state = .verified) : c.atStart .gateLock = { c with state := .locking } := by
  simp [Context.atStart, h]

end context

/-! ### A transaction start (R53, R83, R86) -/

/-- The port after the head of its queue is taken: the rest of the queue, and the winning rule as its previous one. -/
def State.dequeued (s : State) (p : PortId) (rest : List Request) (rule : Option (Fin 64)) : State :=
  s.setPort p { s.port p with queue := rest, prevRule := rule }

variable {s : State} {p : PortId}

@[simp] theorem setPort_setPort (pt pt' : Port) : (s.setPort p pt).setPort p pt' = s.setPort p pt' := by
  simp [State.setPort]

theorem startUpTo_rests (n : Nat) (h : (s.port p).state ≠ .idle ∨ (s.port p).queue = []) :
    State.startUpTo n s p = s := by
  cases n with
  | zero => rfl
  | succ n => exact if_neg fun hn => h.elim (· hn.1) hn.2

theorem startPort_rests (h : (s.port p).state ≠ .idle ∨ (s.port p).queue = []) : s.startPort p = s :=
  startUpTo_rests _ h

section head

variable {r : Request} {rest : List Request} {m : MatchRecord}
  (hi : (s.port p).state = .idle) (hq : (s.port p).queue = r :: rest)
  (hm : matchRecord s.rules (s.port p).prevRule r = m)

include hi hq

theorem startPort_eq_startUpTo : s.startPort p = State.startUpTo rest.length (s.startHead p) p := by
  rw [State.startPort, hq, List.length_cons, State.startUpTo, if_pos ⟨hi, by rw [hq]; nofun⟩]

include hm in
theorem startHead_eq : s.startHead p = (s.setPort p { s.port p with queue := rest }).startRequest p r m := by
  simp [State.startHead, hi, hq, hm]

/-- A request that is answered at its start leaves the port IDLE, and it goes on with its queue (R83). -/
theorem startPort_of_answered {status : Status}
    (h : s.startHead p = (s.dequeued p rest m.rule).deliver r status none) :
    s.startPort p = ((s.dequeued p rest m.rule).deliver r status none).startPort p := by
  rw [startPort_eq_startUpTo hi hq, h, State.startPort]
  simp [State.dequeued]

include hm

theorem startPort_blocked (hb : m.action = .block) :
    s.startPort p = ((s.dequeued p rest m.rule).deliver r .blocked none).startPort p := by
  refine startPort_of_answered hi hq ?_
  rw [startHead_eq hi hq hm]
  simp [State.startRequest, hb, State.dequeued]

theorem startPort_refused (hb : m.action ≠ .block) (ha : (s.ctx p).startAnswer m.action = .refused) :
    s.startPort p = ((s.dequeued p rest m.rule).deliver r .refused none).startPort p := by
  refine startPort_of_answered hi hq ?_
  rw [startHead_eq hi hq hm]
  simp [State.startRequest, hb, ha, State.dequeued]

omit hm in
/-- A request that is sent leaves the port BUSY, and it starts nothing more (R86). -/
theorem startPort_of_sent {q : Request} (h : s.startHead p = (s.dequeued p rest m.rule).sendRequest p q m) :
    s.startPort p = (s.dequeued p rest m.rule).sendRequest p q m := by
  rw [startPort_eq_startUpTo hi hq, h]
  exact startUpTo_rests _ (.inl (by simp [State.sendRequest]))

theorem startPort_sent (hb : m.action ≠ .block) (ha : (s.ctx p).startAnswer m.action = .send) :
    s.startPort p = (s.dequeued p rest m.rule).sendRequest p r m := by
  refine startPort_of_sent hi hq ?_
  rw [startHead_eq hi hq hm]
  simp [State.startRequest, hb, ha, State.dequeued]

theorem startPort_substituted {w : Word} (hb : m.action ≠ .block) (ha : (s.ctx p).startAnswer m.action = .substitute w) :
    s.startPort p = (s.dequeued p rest m.rule).sendRequest p (r.withData w) m := by
  refine startPort_of_sent hi hq ?_
  rw [startHead_eq hi hq hm]
  simp [State.startRequest, hb, ha, State.dequeued]

end head

/-- What the sending of a request from the queue makes of its port and context. -/
theorem dequeued_sendRequest (rest : List Request) (rule : Option (Fin 64)) (q : Request) (m : MatchRecord) :
    (s.dequeued p rest rule).sendRequest p q m =
      { s with
        ports := s.ports.set p
          { s.port p with
            queue := rest
            prevRule := rule
            state := .busy
              { request := q, record := m, window := s.windowOf m.action, gear := (s.port p).gear } (s.windowOf m.action) }
        contexts := s.contexts.set p ((s.ctx p).atStart m.action) } := by
  simp only [State.dequeued, State.sendRequest, State.setPortState, port_setPort_self, setPort_setPort, setPort_ctx]
  rfl

end Sys2Proof.Machine

open Sys2Proof Sys2Proof.Machine

/-- Settles O45, by the action of the winning rule and the state of the context. -/
theorem transactionStartAsksTheContext : Obligations.TransactionStartAsksTheContext := by
  unfold Obligations.TransactionStartAsksTheContext
  intro p s hrun
  refine ⟨whileRunning_of_running hrun (fun s => s.startPort p) _, startPort_rests, ?_⟩
  intro r rest hi hq m c pt t answered sent normal gated imageWord
  have hm : matchRecord s.rules (s.port p).prevRule r = m := rfl
  have send : ∀ a, m.action = a → a ≠ .block → c.startAnswer a = .send →
      s.startPort p = sent r (s.windowOf a) (c.atStart a) := by
    rintro _ rfl hb ha
    exact (startPort_sent hi hq hm hb ha).trans (dequeued_sendRequest ..)
  have substitute : ∀ w, m.action = .inject w → c.startAnswer (.inject w) = .substitute (c.passWord w) →
      s.startPort p = sent (imageWord w) normal (c.atStart (.inject w)) := by
    intro w hw ha
    rw [startPort_substituted hi hq hm (by rw [hw]; nofun) (by rw [hw]; exact ha), dequeued_sendRequest, hw]
    rfl
  have refuse : ∀ a, m.action = a → a ≠ .block → c.startAnswer a = .refused → s.startPort p = answered .refused := by
    rintro _ rfl hb ha
    exact startPort_refused hi hq hm hb ha
  cases hact : m.action with
  | block => exact startPort_blocked hi hq hm hact
  | inject w =>
    show _ = if c.state = .held then _ else if c.state = .loading ∨ c.state = .reburn then _ else _
    by_cases hheld : c.state = .held
    · rw [if_pos hheld, ← atStart_inject_held hheld]
      exact substitute w hact (startAnswer_inject (.inl hheld))
    · rw [if_neg hheld]
      by_cases hpass : c.state = .loading ∨ c.state = .reburn
      · rw [if_pos hpass, ← atStart_inject_of_ne (w := w) hheld]
        exact substitute w hact (startAnswer_inject (.inr hpass))
      · rw [if_neg hpass]
        exact refuse _ hact nofun (startAnswer_inject_refused (not_or.2 ⟨hheld, hpass⟩))
  | gateBurn =>
    by_cases hs : c.state = .ready
    · exact (send _ hact nofun (if_pos hs)).trans (by rw [atStart_gateBurn hs]; exact (if_pos hs).symm)
    · exact (refuse _ hact nofun (if_neg hs)).trans (if_neg hs).symm
  | gateLock =>
    by_cases hs : c.state = .verified
    · exact (send _ hact nofun (if_pos hs)).trans (by rw [atStart_gateLock hs]; exact (if_pos hs).symm)
    · exact (refuse _ hact nofun (if_neg hs)).trans (if_neg hs).symm
  | pass | capture f | verify w => exact send _ hact nofun rfl
end

section
/-! Proofs: settle expiry and the supply-good input (R11, R18, R123..R125). -/
namespace Sys2Proof.Machine

variable {s : State} {p : PortId}

/-! ### Supply faults (R11, R18, R123, R125) -/

/-- A context ends VOIDED by a supply fault, or drains while its port is BUSY (R11, R18). -/
def State.endByFault (s : State) (p : PortId) : State :=
  if s.inFlight p then s.setCtxState p (.draining .supplyFault) else s.settleVoided p .supplyFault

theorem settleFaultContext_eq :
    s.settleFaultContext p = if (s.ctx p).state = .settling then s.endByFault p else s := rfl

theorem supplyFaultContext_ends
    (h : (s.ctx p).state = .ready ∨ (s.ctx p).state = .checking ∨ (s.ctx p).state = .reburn ∨ (s.ctx p).state = .verified) :
    s.supplyFaultContext p = s.endByFault p := by
  rcases h with h | h | h | h <;> simp [State.supplyFaultContext, State.endByFault, h]

theorem supplyFaultContext_drains
    (h : (s.ctx p).state = .burning ∨ (s.ctx p).state = .locking ∨ (s.ctx p).state = .draining (.aborted true)) :
    s.supplyFaultContext p = s.setCtxState p (.draining .supplyFault) := by
  rcases h with h | h | h <;> simp [State.supplyFaultContext, h]

theorem supplyFaultContext_stays
    (h : (s.ctx p).state ∉
      [.ready, .checking, .reburn, .verified, .burning, .locking, .draining (.aborted true)]) :
    s.supplyFaultContext p = s := by
  unfold State.supplyFaultContext
  split <;> simp_all

theorem settleExpires_good {n : Nat} (hs : (s.supply p).state = .settling n) (hg : s.pins.supplyGood[p] = true) :
    s.settleExpires p =
      if (s.ctx p).state = .settling then
        (s.setSupply p { s.supply p with state := .onGood }).setCtxState p .ready
      else s.setSupply p { s.supply p with state := .onGood } := by
  rw [State.settleExpires, hs]
  exact if_pos hg

theorem settleExpires_fault {n : Nat} (hs : (s.supply p).state = .settling n) (hg : s.pins.supplyGood[p] = false) :
    s.settleExpires p = ((s.switchOff p).raise .supplyFault).settleFaultContext p := by
  simp [State.settleExpires, hs, hg]

theorem isSettling_eq_true_iff {u : SupplyState} : u.isSettling = true ↔ ∃ n, u = .settling n := by
  cases u <;> simp [SupplyState.isSettling]

theorem exec_settleExpiry (hrun : s.phase ≠ .held) :
    exec (.settleExpiry p) s =
      .next (if (s.supply p).state.isSettling then (s.settleExpires p).completeAndRelease else s) :=
  whileRunning_of_running hrun
    (fun s => if (s.supply p).state.isSettling then (s.settleExpires p).completeAndRelease else s) _

theorem exec_supplyGoodChange (hrun : s.phase ≠ .held) (good : Bool) :
    exec (.supplyGoodChange p good) s =
      .next (if (s.supply p).state = .onGood ∧ good = false then
        ((s.setSupplyGood p good).supplyFaults p).completeAndRelease else s.setSupplyGood p good) :=
  whileRunning_of_running hrun (fun s => if (s.supply p).state = .onGood ∧ good = false then
    ((s.setSupplyGood p good).supplyFaults p).completeAndRelease else s.setSupplyGood p good)
    (fun s => s.setSupplyGood p good)

end Sys2Proof.Machine

open Sys2Proof Sys2Proof.Machine

/-- Settles O56, by the state of the supply, the input and the state of the context. -/
theorem supplyFollowsItsInput : Obligations.SupplyFollowsItsInput := by
  unfold Obligations.SupplyFollowsItsInput
  intro p s hrun c on fault drained ends
  refine ⟨?good, ?bad, ?other, ?change⟩
  case good =>
    intro n hs hg
    rw [exec_settleExpiry hrun, if_pos (isSettling_eq_true_iff.2 ⟨n, hs⟩), settleExpires_good hs hg]
    rfl
  case bad =>
    intro n hs hg
    rw [exec_settleExpiry hrun, if_pos (isSettling_eq_true_iff.2 ⟨n, hs⟩), settleExpires_fault hs hg,
      settleFaultContext_eq]
    rfl
  case other =>
    intro hs
    rw [exec_settleExpiry hrun, if_neg fun h => ?_]
    obtain ⟨n, hn⟩ := isSettling_eq_true_iff.1 h
    exact hs n hn
  case change =>
    intro good t
    refine ⟨fun h => ?_, fun hs hgood => ?_⟩
    · have hn : ¬ ((s.supply p).state = .onGood ∧ good = false) := fun ⟨hon, hgood⟩ =>
        h.elim (· hon) fun hg => Bool.noConfusion (hg.symm.trans hgood)
      rw [exec_supplyGoodChange hrun, if_neg hn]
      rfl
    · rw [exec_supplyGoodChange hrun, if_pos ⟨hs, hgood⟩]
      have hfault : t.supplyFaults p = (fault t).supplyFaultContext p := rfl
      have stays : c.state ∉
          [.ready, .checking, .reburn, .verified, .burning, .locking, .draining (.aborted true)] →
          (fault t).supplyFaultContext p = fault t := supplyFaultContext_stays (s := fault t)
      refine congrArg (fun u : State => Host.Outcome.next u.completeAndRelease) (hfault.trans ?_)
      cases hst : c.state with
      | ready => exact supplyFaultContext_ends (.inl hst)
      | checking => exact supplyFaultContext_ends (.inr (.inl hst))
      | reburn => exact supplyFaultContext_ends (.inr (.inr (.inl hst)))
      | verified => exact supplyFaultContext_ends (.inr (.inr (.inr hst)))
      | burning => exact supplyFaultContext_drains (.inl hst)
      | locking => exact supplyFaultContext_drains (.inr (.inl hst))
      | draining cause =>
        rcases cause with (_ | _) | _
        · exact stays (by rw [hst]; decide)
        · exact supplyFaultContext_drains (.inr (.inr hst))
        · exact stays (by rw [hst]; decide)
      | idle | ident | wait | held | loading | settling | done => exact stays (by rw [hst]; decide)
end

section
/-! Proofs: the latches and the die map after one operation, which the settlements are read from (R25, R144, R158, R180). -/
namespace Sys2Proof.Machine

variable (s : State) (p : PortId)

/-! ### The latches after an operation (R25, R158, R180) -/

theorem Event.getLsbD_mask (e : Event) (b : Nat) : e.mask.getLsbD b = (b == e.bit) := by
  have hbit : e.bit < 12 := by cases e <;> decide
  rw [Event.mask, BitVec.getLsbD_shiftLeft, BitVec.getLsbD_one, Bool.eq_iff_iff]
  simp only [Bool.and_eq_true, Bool.not_eq_true', decide_eq_true_eq, decide_eq_false_iff_not, beq_iff_eq]
  omega

theorem raise_latches (e : Event) (b : Nat) :
    (s.raise e).events.latches.getLsbD b = (s.events.latches.getLsbD b || b == e.bit) := by
  rw [← e.getLsbD_mask b]
  exact BitVec.getLsbD_or

theorem appendRecord_latches (r : LogRecord) (b : Nat) :
    (s.appendRecord r).events.latches.getLsbD b =
      (s.events.latches.getLsbD b ||
        (b == 4 && s.params.logHigh != 0 && decide (s.params.logHigh ≤ s.log.records.length + 1))) := by
  have hlen : (s.log.records ++ [r]).length = s.log.records.length + 1 := List.length_append
  unfold State.appendRecord
  simp only [hlen]
  split
  · rename_i h
    simp [raise_latches, Event.bit, bne_iff_ne.2 h.1, h.2]
  · rename_i h
    by_cases h0 : s.params.logHigh = 0
    · simp [h0]
    · simp [not_and.1 h h0]

theorem closeContext_events (v : VerdictRecord) :
    (s.closeContext p v).events =
      if (s.closeContext p v).touchdownComplete then (s.raise .tdComplete).events else s.events := by
  by_cases h : ((s.setCtx p ((s.ctx p).closed v)).switchOff p).touchdownComplete = true
  · rw [show s.closeContext p v = _ from if_pos h]
    exact (if_pos h).symm
  · rw [show s.closeContext p v = _ from if_neg h]
    exact (if_neg h).symm

theorem touchdownComplete_iff :
    s.touchdownComplete = true ↔
      ∀ i : SiteId, s.td.enabled.getLsbD i.val = true → (s.ctx (s.sitePort i)).state = .done := by
  simp only [State.touchdownComplete, State.siteEnabled, allSites, List.all_eq_true, List.mem_finRange,
    forall_const, Bool.or_eq_true, Bool.not_eq_true', beq_iff_eq, ← Bool.not_eq_true, ← imp_iff_not_or]

/-! ### The die map, whatever its order (R133, R144) -/

theorem mapLookup_mapPut_self (e : MapEntry) (m : List MapEntry) : mapLookup (mapPut e m) e.coord = some e := by
  induction m with
  | nil => simp [mapPut, mapLookup]
  | cons h t ih =>
    simp only [mapPut]
    split
    · rename_i hlt
      have hne : h.coord ≠ e.coord := fun he => Nat.lt_irrefl _ (he ▸ hlt)
      simpa [mapLookup, hne] using ih
    · split <;> simp [mapLookup]

theorem mapLookup_mapPut_ne {e : MapEntry} {c : Coord} (hc : c ≠ e.coord) (m : List MapEntry) :
    mapLookup (mapPut e m) c = mapLookup m c := by
  induction m with
  | nil => simp [mapPut, mapLookup, hc.symm]
  | cons h t ih =>
    simp only [mapPut]
    split
    · simp only [mapLookup, List.find?_cons] at ih ⊢
      rw [ih]
    · split
      · rename_i he
        simp [mapLookup, hc.symm, he]
      · simp [mapLookup, hc.symm]

section claim

variable {s p} {c : Coord} (h : (s.ctx p).claim = some c) (o : MapOutcome)

include h

theorem settleClaim_lookup_self :
    mapLookup (s.settleClaim p o).dieMap c =
      some { coord := c, outcome := o, attempts := s.claimAttempts p c, lastTouchdown := s.td.number } := by
  rw [settleClaim_some _ _ h]
  exact mapLookup_mapPut_self _ _

theorem settleClaim_lookup_ne {c' : Coord} (hc : c' ≠ c) :
    mapLookup (s.settleClaim p o).dieMap c' = mapLookup s.dieMap c' := by
  rw [settleClaim_some _ _ h]
  exact mapLookup_mapPut_ne hc _

end claim

end Sys2Proof.Machine
end

section
/-! Proofs: the settlements field by field: those with a record, BOUND and VOIDED, as one operation, and ABANDONED (R24). -/
namespace Sys2Proof.Machine

variable (s : State) (p : PortId)

/-! ### What a settlement does not touch (R24) -/

/-- The state with the accounts that a settlement writes put back to those of `s`: wait list, pool, log, counters, contexts,
supplies, die map and latches. -/
def State.withAccountsOf (t s : State) : State :=
  { t with
    waitList := s.waitList, pool := s.pool, log := s.log, counters := s.counters, contexts := s.contexts,
    supplies := s.supplies, dieMap := s.dieMap, events := { t.events with latches := s.events.latches } }

@[simp] theorem raise_withAccountsOf (u : State) (e : Event) : (u.raise e).withAccountsOf s = u.withAccountsOf s := rfl

@[simp] theorem counters_withAccountsOf (u : State) (c : KeyCounters) :
    ({ u with counters := c } : State).withAccountsOf s = u.withAccountsOf s := rfl

@[simp] theorem appendRecord_withAccountsOf (u : State) (r : LogRecord) :
    (u.appendRecord r).withAccountsOf s = u.withAccountsOf s := by
  unfold State.appendRecord
  dsimp only
  split <;> rfl

@[simp] theorem settleClaim_withAccountsOf (u : State) (o : MapOutcome) :
    (u.settleClaim p o).withAccountsOf s = u.withAccountsOf s := by
  unfold State.settleClaim
  split <;> rfl

@[simp] theorem closeContext_withAccountsOf (u : State) (v : VerdictRecord) :
    (u.closeContext p v).withAccountsOf s = u.withAccountsOf s := by
  unfold State.closeContext
  dsimp only
  split <;> rfl

/-! ### A settlement with a record: BOUND without a void reason, VOIDED with one (R24) -/

/-- The settlement of a context that holds a key. -/
def State.settleRecorded (s : State) (p : PortId) : Option VoidReason → State
  | none => s.settleBound p
  | some why => s.settleVoided p why

/-- The verdict of a settlement with a record. -/
def recordedKind (reason : Option VoidReason) : Verdict := if reason = none then .bound else .voided

/-- The outcome that it leaves in the die map. -/
def recordedOutcome (reason : Option VoidReason) (index : Long) : MapOutcome :=
  if reason = none then .bound index else .voided index

/-- The verdict record that it leaves in the context. -/
def Context.recordedVerdict (c : Context) (reason : Option VoidReason) : VerdictRecord :=
  { verdict := recordedKind reason, reason := reason, keyIndex := some ((c.heldKey.map (·.index)).getD 0),
    attempts := c.attempts }

variable (reason : Option VoidReason)

theorem logRecordOf_of_held {k : Key} {d : Word} (hk : (s.ctx p).heldKey = some k) (hd : (s.ctx p).digest = some d)
    (kind : Verdict) :
    s.logRecordOf p kind reason =
      { sequence := s.log.nextSequence, kind := kind, reason := reason, keyIndex := k.index, label := k.label,
        lot := (s.ctx p).identity.lot, wafer := (s.ctx p).identity.wafer, coord := (s.ctx p).identity.coord, digest := d,
        attempts := (s.ctx p).attempts, site := (s.ctx p).site, touchdown := s.td.number } := by
  simp [State.logRecordOf, hk, hd]

theorem recordedVerdict_of_held {c : Context} {k : Key} (hk : c.heldKey = some k) :
    c.recordedVerdict reason =
      { verdict := recordedKind reason, reason := reason, keyIndex := some k.index, attempts := c.attempts } := by
  simp [Context.recordedVerdict, hk]

theorem settleRecorded_ctx (q : PortId) :
    (s.settleRecorded p reason).ctx q =
      if q = p then (s.ctx p).closed ((s.ctx p).recordedVerdict reason) else s.ctx q := by
  cases reason with
  | none => exact settleBound_ctx s p q
  | some why => exact settleVoided_ctx s p why q

theorem settleRecorded_supply (q : PortId) :
    (s.settleRecorded p reason).supply q = if q = p then { s.supply p with state := .off } else s.supply q := by
  cases reason with
  | none => exact settleBound_supply s p q
  | some why => exact settleVoided_supply s p why q

theorem settleRecorded_log :
    (s.settleRecorded p reason).log =
      { records := s.log.records ++ [s.logRecordOf p (recordedKind reason) reason]
        nextSequence := s.log.nextSequence + 1 } := by
  cases reason with
  | none => exact settleBound_log s p
  | some why => exact settleVoided_log s p why

theorem settleRecorded_dieMap :
    (s.settleRecorded p reason).dieMap =
      (s.settleClaim p (recordedOutcome reason (((s.ctx p).heldKey.map (·.index)).getD 0))).dieMap := by
  cases reason with
  | none => exact settleBound_dieMap s p
  | some why => exact settleVoided_dieMap s p why

theorem settleRecorded_counters :
    (s.settleRecorded p reason).counters =
      if reason = none then { s.counters with bound := s.counters.bound + 1 }
      else { s.counters with voided := s.counters.voided + 1 } := by
  cases reason with
  | none => exact settleBound_counters s p
  | some why => exact settleVoided_counters s p why

/-- The latch TD_COMPLETE of a closed context (R25), and the others as they were. -/
theorem closeContext_latches (v : VerdictRecord) (b : Nat) :
    (s.closeContext p v).events.latches.getLsbD b =
      (s.events.latches.getLsbD b || (b == 10 && (s.closeContext p v).touchdownComplete)) := by
  rw [closeContext_events]
  split
  · rename_i h
    simp [raise_latches, Event.bit, h]
  · rename_i h
    simp [h]

theorem settleRecorded_latches (b : Nat) :
    (s.settleRecorded p reason).events.latches.getLsbD b =
      (s.events.latches.getLsbD b ||
        (b == 4 && s.params.logHigh != 0 && decide (s.params.logHigh ≤ s.log.records.length + 1)) ||
        (b == 5 && reason.isSome) ||
        (b == 10 && (s.settleRecorded p reason).touchdownComplete)) := by
  cases reason with
  | none =>
    rw [State.settleRecorded, State.settleBound, closeContext_latches]
    simp [appendRecord_latches]
  | some why =>
    rw [State.settleRecorded, State.settleVoided, closeContext_latches, raise_latches]
    simp [appendRecord_latches, Event.bit]

/-- A record changes the accounts and nothing else. -/
theorem settleRecorded_withAccountsOf : (s.settleRecorded p reason).withAccountsOf s = s := by
  cases reason with
  | none =>
    simp only [State.settleRecorded, State.settleBound, closeContext_withAccountsOf, counters_withAccountsOf,
      settleClaim_withAccountsOf, appendRecord_withAccountsOf]
    rfl
  | some why =>
    simp only [State.settleRecorded, State.settleVoided, closeContext_withAccountsOf, raise_withAccountsOf,
      counters_withAccountsOf, settleClaim_withAccountsOf, appendRecord_withAccountsOf]
    rfl

@[simp] theorem settleRecorded_waitList : (s.settleRecorded p reason).waitList = s.waitList := by
  cases reason <;> simp [State.settleRecorded]

@[simp] theorem settleRecorded_pool : (s.settleRecorded p reason).pool = s.pool := by
  cases reason <;> simp [State.settleRecorded]

/-! ### A settlement ABANDONED (R24, R39) -/

theorem settleAbandoned_events :
    (s.settleAbandoned p).events =
      if (s.settleAbandoned p).touchdownComplete then (s.raise .tdComplete).events else s.events := by
  rw [State.settleAbandoned, closeContext_events]
  simp [State.raise]

/-- An ABANDONED settlement changes the accounts and nothing else. -/
theorem settleAbandoned_withAccountsOf : (s.settleAbandoned p).withAccountsOf s = s := by
  simp only [State.settleAbandoned, closeContext_withAccountsOf, settleClaim_withAccountsOf]
  rfl

end Sys2Proof.Machine
open Sys2Proof Sys2Proof.Machine

/-- Settles O55, settlement by settlement, each from its lemmas. -/
theorem settlementClosesTheAccounts : Obligations.SettlementClosesTheAccounts := by
  unfold Obligations.SettlementClosesTheAccounts
  refine ⟨?recorded, ?closed, fun _ _ _ => rfl, touchdownComplete_iff, ?abandoned⟩
  case recorded =>
    intro p reason k d c s hk hd hc x kind outcome t
    have ht : t = s.settleRecorded p reason := by cases reason <;> rfl
    have hindex : ((s.ctx p).heldKey.map (·.index)).getD 0 = k.index := by simp [hk]
    clear_value t
    subst ht
    refine ⟨?log, ?next, settleRecorded_counters s p reason, ?self, ?others, ?off, ?interval, ?entry, ?entries,
      fun b _ => settleRecorded_latches s p reason b, ?rest⟩
    case log =>
      rw [settleRecorded_log, logRecordOf_of_held s p reason hk hd]
      rfl
    case next => rw [settleRecorded_log]
    case self =>
      rw [settleRecorded_ctx, if_pos rfl, recordedVerdict_of_held reason hk]
      rfl
    case others =>
      intro q hq
      exact ⟨by rw [settleRecorded_ctx, if_neg hq], by rw [settleRecorded_supply, if_neg hq]⟩
    case off => rw [settleRecorded_supply, if_pos rfl]
    case interval => rw [settleRecorded_supply, if_pos rfl]
    case entry =>
      rw [settleRecorded_dieMap, settleClaim_lookup_self hc, hindex]
      rfl
    case entries =>
      intro c' hne
      rw [settleRecorded_dieMap, settleClaim_lookup_ne hc _ hne]
    case rest =>
      refine Eq.trans ?_ (settleRecorded_withAccountsOf s p reason)
      simp only [State.withAccountsOf, settleRecorded_waitList, settleRecorded_pool]
  case closed =>
    intro p v s t
    rfl
  case abandoned =>
    intro p s x t
    refine ⟨settleAbandoned_waitList s p, by simp [t], by simp [t], settleAbandoned_events s p, ?interval, ?rest, ?self,
      ?others, ?off, ?poolKept, ?poolJoined, ?mapKept, ?entry⟩
    case interval => rw [settleAbandoned_supply, if_pos rfl]
    case rest =>
      have h := settleAbandoned_withAccountsOf s p
      have hev : ({ (s.settleAbandoned p).events with latches := s.events.latches } : Events) = s.events :=
        congrArg State.events h
      refine Eq.trans ?_ h
      simp only [State.withAccountsOf, settleAbandoned_frame, hev, t]
    case self =>
      rw [settleAbandoned_ctx, if_pos rfl]
      rfl
    case others =>
      intro q hq
      exact ⟨by rw [settleAbandoned_ctx, if_neg hq], by rw [settleAbandoned_supply, if_neg hq]⟩
    case off => rw [settleAbandoned_supply, if_pos rfl]
    case poolKept =>
      intro hk
      rw [settleAbandoned_pool, hk]
    case poolJoined =>
      intro k hk
      rw [settleAbandoned_pool, hk]
      exact ⟨poolInsert_perm k s.pool, poolInsert_sorted⟩
    case mapKept =>
      intro hc
      rw [settleAbandoned_dieMap, settleClaim_none _ _ hc]
    case entry =>
      intro c hc
      rw [settleAbandoned_dieMap]
      exact ⟨settleClaim_lookup_self hc _, fun c' => settleClaim_lookup_ne hc _⟩
end

section
/-! Proofs: what answers leave unchanged, and that a latch stays set (R103, R173, R180). -/
namespace Sys2Proof.Machine

variable {s t u : State} {p : PortId}

/-! ### Responses change the stream, the merge records and the events alone (R103, R173) -/

/-- The state with link, merge records and events put back to those of `s`. -/
def State.withAnswersOf (t s : State) : State := { t with link := s.link, merge := s.merge, events := s.events }

/-- `t` differs from `s` in link, merge records and events alone. -/
def State.AnswersOnly (s t : State) : Prop := t.withAnswersOf s = s

namespace State.AnswersOnly

theorem refl (s : State) : s.AnswersOnly s := rfl

theorem trans (h : s.AnswersOnly t) (h' : t.AnswersOnly u) : s.AnswersOnly u :=
  calc
    u.withAnswersOf s = (u.withAnswersOf t).withAnswersOf s := rfl
    _ = t.withAnswersOf s := congrArg (·.withAnswersOf s) h'
    _ = s := h

theorem foldl {α : Type} {step : State → α → State} (h : ∀ (s : State) (a : α), s.AnswersOnly (step s a)) (l : List α)
    (s : State) : s.AnswersOnly (l.foldl step s) := by
  induction l generalizing s with
  | nil => exact refl s
  | cons a l ih => exact (h s a).trans (ih _)

theorem emit (s : State) (r : Response) : s.AnswersOnly (s.emit r) := by
  unfold State.emit
  split <;> rfl

theorem deliverMember (s : State) (ref : MergeRef) (res : MemberResult) : s.AnswersOnly (s.deliverMember ref res) := by
  unfold State.deliverMember
  split
  · exact refl s
  · dsimp only
    split
    · exact trans (t := { s with merge := s.merge.set ref.record none }) rfl (emit _ _)
    · rfl

theorem deliver (s : State) (r : Request) (st : Status) (w : Option Word) : s.AnswersOnly (s.deliver r st w) := by
  unfold State.deliver
  split
  · exact emit _ _
  · exact deliverMember _ _ _

theorem answers (s : State) (queue : List Request) (st : Status) : s.AnswersOnly (s.answers queue st) :=
  foldl (fun s r => deliver s r st none) queue s

theorem lostAnswers (s : State) (pt : Port) : s.AnswersOnly (s.lostAnswers pt) := by
  unfold State.lostAnswers
  split
  · exact refl s
  · exact (deliver _ _ _ _).trans (answers _ _ _)
  · exact answers _ _ _

theorem field {α : Type} (h : s.AnswersOnly t) (f : State → α) : f (t.withAnswersOf s) = f s := congrArg f h

end State.AnswersOnly

/-! ### A latch stays set (R180) -/

/-- Latch `b` is set. -/
def State.Latched (b : Nat) (s : State) : Prop := s.events.latches.getLsbD b = true

namespace State.Latched

variable {b : Nat}

theorem congr (h : s.Latched b) (e : t.events = s.events) : t.Latched b := by
  unfold State.Latched at h ⊢
  rw [e, h]

theorem raise (h : s.Latched b) (e : Event) : (s.raise e).Latched b := by
  unfold State.Latched at h ⊢
  rw [raise_latches, h, Bool.true_or]

theorem countLinkErrors (h : s.Latched b) (n : Nat) : (s.countLinkErrors n).Latched b := by
  unfold State.countLinkErrors
  split
  · exact h
  · exact raise (s := { s with events := _ }) h _

theorem emit (h : s.Latched b) (r : Response) : (s.emit r).Latched b := by
  unfold State.emit
  split
  · exact h
  · exact h.countLinkErrors 1

theorem deliverMember (h : s.Latched b) (ref : MergeRef) (res : MemberResult) :
    (s.deliverMember ref res).Latched b := by
  unfold State.deliverMember
  split
  · exact h
  · dsimp only
    split
    · exact emit (s := { s with merge := s.merge.set ref.record none }) h _
    · exact h

theorem deliver (h : s.Latched b) (r : Request) (st : Status) (w : Option Word) : (s.deliver r st w).Latched b := by
  unfold State.deliver
  split
  · exact h.emit _
  · exact h.deliverMember _ _

theorem answers (h : s.Latched b) (queue : List Request) (st : Status) : (s.answers queue st).Latched b :=
  foldl_keeps _ (fun _ r h => h.deliver r st none) queue s h

theorem lostAnswers (h : s.Latched b) (pt : Port) : (s.lostAnswers pt).Latched b := by
  unfold State.lostAnswers
  split
  · exact h
  · exact (h.deliver _ _ _).answers _ _
  · exact h.answers _ _

theorem endsAs (h : s.Latched b) (p : PortId) (e : Ending) : (s.endsAs p e).Latched b := by
  cases e with
  | stays => exact h
  | abandoned =>
    unfold State.endsAs State.Latched
    rw [settleAbandoned_events]
    split
    · exact h.raise .tdComplete
    · exact h
  | voided why =>
    refine (settleRecorded_latches s p (some why) b).trans ?_
    rw [show s.events.latches.getLsbD b = true from h]
    simp only [Bool.true_or]
  | drains cause off => cases off <;> exact h

theorem endsAll (h : s.Latched b) (l : List PortId) (e : PortId → Ending) : (s.endsAll l e).Latched b :=
  foldl_keeps _ (fun _ p h => h.endsAs p (e p)) l s h

theorem serveHead (h : s.Latched b) (ht : s.serveHead = some t) : t.Latched b := by
  obtain ⟨q, ws, k, ks, -, -, -, rfl⟩ := (serveHead_eq_some s).1 ht
  unfold State.checkPoolLow
  split
  · exact raise (s := State.setCtx { s with waitList := ws, pool := ks } q _) h _
  · exact h

theorem serviceIf (h : s.Latched b) (triggered : Bool) : (s.serviceIf triggered).Latched b :=
  serviceIf_keeps (fun _ _ ht h => h.serveHead ht) s triggered h

end State.Latched

end Sys2Proof.Machine
end

section
/-! Proofs: a contact loss in closed form: the ports' answers, the ends of the contexts, the supplies, key service (R137). -/
namespace Sys2Proof.Machine

/-! ### A contact loss, in closed form (R22, R100, R127, R137) -/

/-- What the ports of the part answer at a contact loss, in ascending order (R100, R173). -/
def State.lostAnswersOf (s : State) (P : PortId → Port) (l : List PortId) : State :=
  l.foldl (fun t p => t.lostAnswers (P p)) s

/-- The touchdown's contacts are lost (R137). -/
def State.markedLost (s : State) : State := { s with td := { s.td with contactLost := true } }

/-- The part once every port has acted on the contact loss. -/
def State.lostParked (s : State) : State :=
  { s.lostAnswersOf s.port (List.finRange 16) with
    td := { s.td with contactLost := true }
    ports := Vector.ofFn fun p => (s.port p).lostContact }

/-- The part once every context has acted on the contact loss too, in the order of R154. -/
def State.lostContexts (s : State) : State :=
  s.lostParked.endsAll s.settlementOrder fun p => contactEnding (s.ctx p)

/-- The part once the supplies are off too, before key service. -/
def State.lostEnded (s : State) : State :=
  { s.lostContexts with supplies := Vector.ofFn fun p => { s.supply p with state := .off } }

variable {s : State}

theorem lostAnswersOf_with (P : PortId → Port) (l : List PortId) (V : Vector Port 16) (T : Touchdown) :
    ({ s with ports := V, td := T } : State).lostAnswersOf P l =
      { s.lostAnswersOf P l with ports := V, td := T } := by
  unfold State.lostAnswersOf
  induction l generalizing s with
  | nil => rfl
  | cons a l ih => rw [List.foldl_cons, List.foldl_cons, lostAnswers_with, ih]

/-- The ports act one after another, each on the record it has before the event. -/
theorem foldl_parkOnContactLoss {P : PortId → Port} {l : List PortId} (hl : l.Nodup) (h : ∀ p ∈ l, s.port p = P p) :
    l.foldl (fun t p => t.parkOnContactLoss p) s =
      l.foldl (fun t p => { t.lostAnswers (P p) with ports := t.ports.set p (P p).lostContact }) s := by
  induction l generalizing s with
  | nil => rfl
  | cons a l ih =>
    obtain ⟨ha, hl⟩ := List.nodup_cons.1 hl
    rw [List.foldl_cons, List.foldl_cons, parkOnContactLoss_eq, h a (by simp)]
    refine ih hl fun p hp => ?_
    rw [← h p (by simp [hp])]
    exact port_setPort_ne s _ fun hpa : p = a => ha (hpa ▸ hp)

theorem markedLost_lostAnswersOf (P : PortId → Port) (l : List PortId) :
    s.markedLost.lostAnswersOf P l =
      { s.lostAnswersOf P l with ports := s.ports, td := { s.td with contactLost := true } } :=
  lostAnswersOf_with P l s.ports { s.td with contactLost := true }

/-- A row of ports that act on a contact loss: their answers, and their records. -/
theorem foldl_lostAnswers_set (P : PortId → Port) (l : List PortId) :
    l.foldl (fun t p => { t.lostAnswers (P p) with ports := t.ports.set p (P p).lostContact }) s =
      { s.lostAnswersOf P l with
        ports := l.foldl (fun (V : Vector Port 16) (p : PortId) => V.set p (P p).lostContact) s.ports } :=
  foldl_with (step := fun t p => t.lostAnswers (P p)) (set := fun p => (P p).lostContact)
    (fun _ V T _ => lostAnswers_with V T _) l s s.ports

theorem foldl_parkOnContactLoss_all :
    allPorts.foldl (fun t p => t.parkOnContactLoss p) s.markedLost = s.lostParked := by
  rw [foldl_parkOnContactLoss (s := s.markedLost) (P := s.port) (l := allPorts) (List.nodup_finRange 16) fun _ _ => rfl,
    foldl_lostAnswers_set, allPorts, foldl_set_all, markedLost_lostAnswersOf]
  rfl

theorem foldl_switchOff_supply (l : List PortId) (q : PortId) :
    (l.foldl (fun t p => t.switchOff p) s).supply q =
      if q ∈ l then { s.supply q with state := .off } else s.supply q := by
  induction l generalizing s with
  | nil => simp
  | cons a l ih =>
    rw [List.foldl_cons, ih, supply_switchOff]
    by_cases hq : q = a
    · subst hq; simp
    · simp [hq]

theorem foldl_switchOff (l : List PortId) :
    l.foldl (fun t p => t.switchOff p) s = { s with supplies := (l.foldl (fun t p => t.switchOff p) s).supplies } := by
  induction l generalizing s with
  | nil => rfl
  | cons a l ih => exact ih (s := s.switchOff a)

theorem foldl_switchOff_all :
    allPorts.foldl (fun t p => t.switchOff p) s =
      { s with supplies := Vector.ofFn fun p => { s.supply p with state := .off } } := by
  have h : (allPorts.foldl (fun t p => t.switchOff p) s).supplies =
      Vector.ofFn fun p => { s.supply p with state := .off } :=
    Vector.ext fun i hi => by simpa [allPorts, State.supply] using foldl_switchOff_supply (s := s) allPorts ⟨i, hi⟩
  rw [foldl_switchOff, h]

/-- The ports' part in a contact loss leaves every field but theirs, the answers' and the mark. -/
theorem lostAnswersOf_answersOnly (P : PortId → Port) (l : List PortId) : s.AnswersOnly (s.lostAnswersOf P l) :=
  .foldl (fun t p => .lostAnswers t (P p)) l s

@[simp] theorem lostParked_frame :
    s.lostParked.pins = s.pins ∧ s.lostParked.control = s.control ∧ s.lostParked.contexts = s.contexts ∧
    s.lostParked.waitList = s.waitList ∧ s.lostParked.pool = s.pool ∧ s.lostParked.counters = s.counters ∧
    s.lostParked.supplies = s.supplies ∧ s.lostParked.dieMap = s.dieMap ∧ s.lostParked.log = s.log := by
  have h := lostAnswersOf_answersOnly (s := s) s.port (List.finRange 16)
  exact ⟨h.field State.pins, h.field State.control, h.field State.contexts, h.field State.waitList,
    h.field State.pool, h.field State.counters, h.field State.supplies, h.field State.dieMap,
    h.field State.log⟩

@[simp] theorem lostParked_answers :
    s.lostParked.link = (s.lostAnswersOf s.port (List.finRange 16)).link ∧
    s.lostParked.merge = (s.lostAnswersOf s.port (List.finRange 16)).merge ∧
    s.lostParked.events = (s.lostAnswersOf s.port (List.finRange 16)).events := by
  simp only [State.lostParked, and_self]

theorem lostParked_ctx (q : PortId) : s.lostParked.ctx q = s.ctx q := ctx_congr (by simp) q

theorem lostParked_supply (q : PortId) : s.lostParked.supply q = s.supply q := supply_congr (by simp) q

theorem Supply.endedAs_off (x : Supply) (e : Ending) :
    ({ x.endedAs e with state := .off } : Supply) = { x with state := .off } := by
  cases e with
  | drains cause off => cases off <;> rfl
  | _ => rfl

/-- What a fall of CONTACT does in an open touchdown (R137): ports, contexts, supplies, and key service (R38). -/
theorem loseContact_eq : s.loseContact = s.lostEnded.serviceIf s.anyHeld := by
  have hends : s.settlementOrder.foldl (fun t p => t.contactLostContext p) s.lostParked = s.lostContexts :=
    foldl_contactLostContext (settlementOrder_nodup s) fun p _ => by rw [lostParked_ctx]
  have hsupplies : ∀ p, ({ s.lostContexts.supply p with state := .off } : Supply) =
      { s.supply p with state := .off } := by
    intro p
    rw [State.lostContexts, endsAll_supply (settlementOrder_nodup s), if_pos (mem_settlementOrder s p),
      Supply.endedAs_off, lostParked_supply]
  show (allPorts.foldl (fun t p => t.switchOff p) (s.settlementOrder.foldl (fun t p => t.contactLostContext p)
    (allPorts.foldl (fun t p => t.parkOnContactLoss p) s.markedLost))).serviceIf s.anyHeld = _
  rw [foldl_parkOnContactLoss_all, hends, foldl_switchOff_all]
  simp only [hsupplies]
  rfl

@[simp] theorem lostEnded_frame :
    s.lostEnded.link = s.lostContexts.link ∧ s.lostEnded.merge = s.lostContexts.merge ∧
    s.lostEnded.events = s.lostContexts.events ∧ s.lostEnded.contexts = s.lostContexts.contexts ∧
    s.lostEnded.waitList = s.lostContexts.waitList ∧ s.lostEnded.pool = s.lostContexts.pool ∧
    s.lostEnded.counters = s.lostContexts.counters ∧ s.lostEnded.dieMap = s.lostContexts.dieMap ∧
    s.lostEnded.log = s.lostContexts.log := by
  simp only [State.lostEnded, and_self]

end Sys2Proof.Machine
end

section
/-! Proofs: how each context ends by a contact loss, and the accounts after it (R22, R39, R144, R154, R155). -/
namespace Sys2Proof.Machine

/-! ### How a context ends by a contact loss (R22) -/

/-- The reason under which a context with an exposed key ends: each drain has its own cause. -/
def Context.lossReason (c : Context) : VoidReason :=
  match c.state with
  | .draining (.aborted _) => .aborted
  | .draining .supplyFault => .supplyFault
  | _ => .contactLost

section ending

variable {c : Context}

theorem contactEnding_stays (h : c.state.ended = true) : contactEnding c = .stays := by
  cases hs : c.state <;> simp [hs, ContextState.ended, contactEnding] at h ⊢

theorem contactEnding_abandoned (h : c.state = .ident ∨ c.state = .wait ∨ c.state = .held) :
    contactEnding c = .abandoned := by
  rcases h with h | h | h <;> simp [contactEnding, h]

theorem contactEnding_voided (h : c.state.holdsKey = true) (hn : c.state ≠ .held) :
    contactEnding c = .voided c.lossReason := by
  unfold contactEnding Context.lossReason
  cases hs : c.state with
  | draining cause => cases cause <;> rfl
  | _ => simp [hs, ContextState.holdsKey] at h hn ⊢

/-- Which of the three ends a context comes to. -/
theorem contactEnding_cases (c : Context) :
    c.state.ended = true ∨ (c.state = .ident ∨ c.state = .wait ∨ c.state = .held) ∨
      (c.state.holdsKey = true ∧ c.state ≠ .held) := by
  cases c.state <;> simp [ContextState.ended, ContextState.holdsKey]

theorem contactEnding_voids (c : Context) :
    (contactEnding c).voids = (c.state.holdsKey && decide (c.state ≠ .held)) := by
  rcases contactEnding_cases c with h | h | ⟨h, hn⟩
  · rw [contactEnding_stays h]
    revert h
    cases c.state <;> simp [ContextState.ended, ContextState.holdsKey, Ending.voids]
  · rw [contactEnding_abandoned h]
    rcases h with h | h | h <;> rw [h] <;> rfl
  · rw [contactEnding_voided h hn, h, decide_eq_true hn]
    rfl

end ending

variable {s : State} {p : PortId}

/-! ### The accounts after a contact loss, from any state (R24, R154, R155) -/

/-- The contexts whose end by a contact loss makes a record, in the order of their ends. -/
def State.lostVoids (s : State) : List PortId :=
  s.settlementOrder.filter fun p => (s.ctx p).state.holdsKey && decide ((s.ctx p).state ≠ .held)

theorem filter_voids_eq_lostVoids :
    (s.settlementOrder.filter fun p => (contactEnding (s.ctx p)).voids) = s.lostVoids :=
  List.filter_congr fun p _ => contactEnding_voids (s.ctx p)

theorem lostParked_recordAt (q : PortId) (why : VoidReason) (n : Long) :
    s.lostParked.recordAt q why n = s.recordAt q why n := by
  simp only [State.recordAt, State.logRecordOf, lostParked_ctx]
  rfl

theorem lostContexts_ctx (q : PortId) : s.lostContexts.ctx q = (s.ctx q).endedAs (contactEnding (s.ctx q)) := by
  rw [State.lostContexts, endsAll_ctx (settlementOrder_nodup s), if_pos (mem_settlementOrder s q), lostParked_ctx]

theorem lostEnded_ctx (q : PortId) : s.lostEnded.ctx q = (s.ctx q).endedAs (contactEnding (s.ctx q)) := by
  have h : s.lostEnded.contexts = s.lostContexts.contexts := by simp only [lostEnded_frame]
  exact (ctx_congr h q).trans (lostContexts_ctx q)

theorem lostContexts_log :
    s.lostContexts.log =
      { records := s.log.records ++ s.lostVoids.zipIdx.map fun x =>
          s.recordAt x.1 (s.ctx x.1).lossReason (s.log.nextSequence + BitVec.ofNat 32 x.2)
        nextSequence := s.log.nextSequence + BitVec.ofNat 32 s.lostVoids.length } := by
  have hlog : s.lostParked.log = s.log := by simp
  rw [State.lostContexts, endsAll_log (settlementOrder_nodup s), filter_voids_eq_lostVoids, hlog]
  congr 2
  refine List.map_congr_left fun x hx => ?_
  have hmem : x.1 ∈ s.lostVoids := List.fst_mem_of_mem_zipIdx hx
  obtain ⟨hk, hh⟩ := Bool.and_eq_true_iff.1 (List.mem_filter.1 hmem).2
  rw [lostParked_recordAt, contactEnding_voided hk (of_decide_eq_true hh)]
  rfl

theorem lostContexts_counters :
    s.lostContexts.counters =
      { s.counters with voided := s.counters.voided + BitVec.ofNat 32 s.lostVoids.length } := by
  have hcounters : s.lostParked.counters = s.counters := by simp
  rw [State.lostContexts, endsAll_counters, filter_voids_eq_lostVoids, hcounters]

/-! ### The accounts after a contact loss, from a sound state -/

theorem State.Sound.kept (h : s.Sound) : s.Kept := ⟨h.wait, h.custody, h.pool, h.log, h.map, h.image⟩

/-- No context waits after a contact loss (R20, R22). -/
theorem lostContexts_waitList (h : s.Kept) : s.lostContexts.waitList = [] := by
  refine List.eq_nil_iff_forall_not_mem.2 fun q hq => ?_
  rw [State.lostContexts, endsAll_waitList] at hq
  obtain ⟨hwaits, hstays⟩ := hq
  have hlist : s.lostParked.waitList = s.waitList := by simp
  have hwait : (s.ctx q).state = .wait := (h.wait.listed q).1 (hlist ▸ hwaits)
  exact hstays ⟨mem_settlementOrder s q, contactEnding_abandoned (.inr (.inl hwait))⟩

theorem serviceIf_of_waitList_nil (h : s.waitList = []) (b : Bool) : s.serviceIf b = s := by
  cases b with
  | false => rfl
  | true => simp [State.serviceIf, State.serviceKeys, h, State.serve]

theorem loseContact_of_kept (h : s.Kept) : s.loseContact = s.lostEnded :=
  loseContact_eq.trans (serviceIf_of_waitList_nil (by simp [lostContexts_waitList h]) _)

/-- The keys of the contexts in HELD are back in the pool (R39). -/
theorem lostContexts_pool (h : s.Kept) :
    s.lostContexts.pool.Perm (s.pool ++ (List.finRange 16).filterMap fun p : PortId =>
      if (s.ctx p).state = .held then (s.ctx p).heldKey else none) := by
  have hpool : s.lostParked.pool = s.pool := by simp
  have hreturned : ∀ p, (match contactEnding (s.ctx p) with
      | .abandoned => (s.lostParked.ctx p).heldKey
      | _ => none) = if (s.ctx p).state = .held then (s.ctx p).heldKey else none := by
    intro p
    rw [lostParked_ctx]
    rcases contactEnding_cases (s.ctx p) with hc | hc | ⟨hc, hn⟩
    · rw [contactEnding_stays hc, if_neg fun hh => by rw [hh] at hc; cases hc]
    · rw [contactEnding_abandoned hc]
      by_cases hh : (s.ctx p).state = .held
      · rw [if_pos hh]
      · rw [if_neg hh]
        rcases hc with hc | hc | hc
        · exact (h.ident_empty hc).1
        · exact (h.wait_empty hc).1
        · exact absurd hc hh
    · rw [contactEnding_voided hc hn, if_neg hn]
  rw [State.lostContexts]
  refine (endsAll_pool (settlementOrder_nodup s)).trans ?_
  rw [hpool]
  refine List.Perm.append_left _ ?_
  refine ((settlementOrder_perm s).filterMap _).trans ?_
  exact .of_eq (List.filterMap_congr fun p _ => hreturned p)

/-- A context with a claim is in WAIT, in HELD, or holds an exposed key (R144). -/
theorem claim_cases (h : s.Kept) {c : Coord} (hc : (s.ctx p).claim = some c) :
    ((s.ctx p).state = .wait ∨ (s.ctx p).state = .held) ∨
      ((s.ctx p).state.holdsKey = true ∧ (s.ctx p).state ≠ .held) := by
  have hclaim : (s.ctx p).state.holdsClaim = true := by
    by_contra hn
    rw [h.map.claim p, if_neg hn] at hc
    cases hc
  rcases Bool.or_eq_true_iff.1 hclaim with hw | hk
  · exact .inl (.inl (beq_iff_eq.1 hw))
  · by_cases hh : (s.ctx p).state = .held
    · exact .inl (.inr hh)
    · exact .inr ⟨hk, hh⟩

theorem contactEnding_settles (h : s.Kept) {c : Coord} (hc : (s.ctx p).claim = some c) :
    (contactEnding (s.ctx p)).settles = true := by
  rcases claim_cases h hc with hw | ⟨hk, hh⟩
  · rw [contactEnding_abandoned (.inr hw)]
    rfl
  · rw [contactEnding_voided hk hh]
    rfl

theorem lostParked_endedEntry (q : PortId) (c : Coord) (e : Ending) :
    s.lostParked.endedEntry q c e = s.endedEntry q c e := by
  simp only [State.endedEntry, State.claimAttempts, lostParked_ctx, lostParked_frame]
  rfl

/-- Every claim has its map entry (R144). -/
theorem lostContexts_lookup (h : s.Kept) {c : Coord} (hc : (s.ctx p).claim = some c) :
    mapLookup s.lostContexts.dieMap c = some (s.endedEntry p c (contactEnding (s.ctx p))) := by
  have hmap : s.lostParked.dieMap = s.dieMap := by simp
  have hsorted : mapSorted s.lostParked.dieMap := hmap.symm ▸ h.map.sorted
  rw [← lostParked_endedEntry, State.lostContexts]
  exact endsAll_lookup (settlementOrder_nodup s) hsorted (mem_settlementOrder s p) (contactEnding_settles h hc)
    ((congrArg Context.claim (lostParked_ctx p)).trans hc)
    fun q hq => h.map.once q p c ((congrArg Context.claim (lostParked_ctx q)).symm.trans hq) hc

theorem lostContexts_lookup_other (h : s.Kept) {c : Coord} (hc : ∀ p, (s.ctx p).claim ≠ some c) :
    mapLookup s.lostContexts.dieMap c = mapLookup s.dieMap c := by
  have hmap : s.lostParked.dieMap = s.dieMap := by simp
  have hsorted : mapSorted s.lostParked.dieMap := hmap.symm ▸ h.map.sorted
  rw [← hmap, State.lostContexts]
  exact endsAll_lookup_other (settlementOrder_nodup s) hsorted c fun p _ _ => by rw [lostParked_ctx]; exact hc p

/-- The outcome of the entry: TRIED where no key was exposed, VOIDED under the key's index otherwise. -/
theorem endedEntry_contactEnding (h : s.Kept) {c : Coord} (hc : (s.ctx p).claim = some c) :
    s.endedEntry p c (contactEnding (s.ctx p)) =
      { coord := c, lastTouchdown := s.td.number, attempts := s.claimAttempts p c,
        outcome :=
          if (s.ctx p).state = .wait ∨ (s.ctx p).state = .held then .tried
          else .voided ((s.heldIndex p).getD 0) } := by
  rcases claim_cases h hc with hw | ⟨hk, hh⟩
  · rw [contactEnding_abandoned (.inr hw), if_pos hw]
    rfl
  · have hnw : (s.ctx p).state ≠ .wait := (holdsKey_ne hk).2.2.1
    rw [contactEnding_voided hk hh, if_neg (not_or.2 ⟨hnw, hh⟩)]
    rfl

/-! ### The rest of the part after a contact loss -/

theorem endsAs_link_merge (e : Ending) :
    (s.endsAs p e).link = s.link ∧ (s.endsAs p e).merge = s.merge := by
  cases e with
  | drains cause off => cases off <;> exact ⟨rfl, rfl⟩
  | _ => simp [State.endsAs]

theorem lostContexts_link_merge :
    s.lostContexts.link = s.lostParked.link ∧ s.lostContexts.merge = s.lostParked.merge :=
  ⟨foldl_field State.link _ _ (fun _ _ => endsAs_link_merge _ |>.1) _,
    foldl_field State.merge _ _ (fun _ _ => endsAs_link_merge _ |>.2) _⟩

theorem loseContact_link_merge :
    s.loseContact.link = (s.lostAnswersOf s.port (List.finRange 16)).link ∧
    s.loseContact.merge = (s.lostAnswersOf s.port (List.finRange 16)).merge := by
  rw [loseContact_eq]
  simp only [serviceIf_frame, lostEnded_frame, lostContexts_link_merge, lostParked_answers, and_self]

/-- A latch that is set stays set through a contact loss (R180). -/
theorem State.Latched.loseContact {b : Nat} (h : s.Latched b) : s.loseContact.Latched b := by
  have hanswers : (s.lostAnswersOf s.port (List.finRange 16)).Latched b :=
    foldl_keeps (P := State.Latched b) _ (fun _ _ h => h.lostAnswers _) (List.finRange 16) s h
  have hparked : s.lostParked.Latched b := hanswers.congr (by simp)
  have hcontexts : s.lostContexts.Latched b := hparked.endsAll _ _
  have hended : s.lostEnded.Latched b := hcontexts.congr (by simp)
  rw [loseContact_eq]
  exact hended.serviceIf _

theorem loseContact_supply (q : PortId) : s.loseContact.supply q = { s.supply q with state := .off } := by
  rw [loseContact_eq, serviceIf_supply]
  simp [State.lostEnded, State.supply]

theorem anyHeld_iff : s.anyHeld = true ↔ ∃ p, (s.ctx p).state = .held := by
  simp [State.anyHeld, allPorts]

/-- How a context stands after a contact loss, from a sound state (R22). -/
theorem endedAs_contactEnding_voided (h : s.Kept) (hk : (s.ctx p).state.holdsKey = true) (hh : (s.ctx p).state ≠ .held) :
    (s.ctx p).endedAs (contactEnding (s.ctx p)) =
      (s.ctx p).closed { verdict := .voided, reason := some (s.ctx p).lossReason, keyIndex := s.heldIndex p,
                         attempts := (s.ctx p).attempts } := by
  obtain ⟨k, hkey⟩ := Option.isSome_iff_exists.1 ((h.custody.key p).trans hk)
  rw [contactEnding_voided hk hh]
  simp [Context.endedAs, Context.voidedRecord, State.heldIndex, hkey]

end Sys2Proof.Machine
end

section
/-! Proofs: the CONTACT input (R137, R141). -/
namespace Sys2Proof.Machine

variable {s : State}

theorem exec_contactRise (hrun : s.phase ≠ .held) : exec .contactRise s = .next (s.setContact true) :=
  whileRunning_of_running hrun (fun s => s.setContact true) (fun s => s.setContact true)

/-- The part at a fall of CONTACT, before anything acts on it: the pin is low and CONTACT_LOST latched (R137, R141). -/
def State.fallen (s : State) : State := (s.setContact false).raise .contactLost

theorem exec_contactFall (hrun : s.phase ≠ .held) :
    exec .contactFall s =
      .next (if s.touchdownIsOpen ∧ s.td.contactLost = false then s.fallen.loseContact.completeAndRelease
        else s.fallen) :=
  whileRunning_of_running hrun
    (fun s => if s.touchdownIsOpen ∧ s.td.contactLost = false then s.fallen.loseContact.completeAndRelease else s.fallen)
    (fun s => s.setContact false)

theorem State.Kept.fallen (h : s.Kept) : s.fallen.Kept := h.same rfl rfl rfl rfl rfl rfl rfl rfl rfl rfl

end Sys2Proof.Machine

open Sys2Proof Sys2Proof.Machine

/-- Settles O57: the contact loss in closed form (`loseContact_eq`), and the accounts of its ends. -/
theorem contactFallEndsEverySite : Obligations.ContactFallEndsEverySite := by
  unfold Obligations.ContactFallEndsEverySite
  intro s hrun fallen
  refine ⟨exec_contactRise hrun, ?stays, ?acts⟩
  case stays =>
    intro h
    have hn : ¬ (s.touchdownIsOpen = true ∧ s.td.contactLost = false) := fun ⟨ho, hc⟩ =>
      h.elim (fun hf => Bool.noConfusion (hf.symm.trans ho)) fun ht => Bool.noConfusion (ht.symm.trans hc)
    rw [exec_contactFall hrun, if_neg hn]
    rfl
  case acts =>
    intro hopen hlost
    refine ⟨s.settlementOrder, settlementOrder_perm s, settlementOrder_sorted s, ?_⟩
    intro queued answered parked why ends v u
    have hanswered : answered = s.fallen.lostAnswersOf s.port (List.finRange 16) := by
      have hstep : (fun (t : State) (p : PortId) =>
          match (s.port p).state with
          | .parked _ => t
          | .busy tx _ => queued (t.deliver tx.request .lost none) p
          | .idle | .breaking _ => queued t p) = fun t p => t.lostAnswers (s.port p) := by
        funext t p
        unfold State.lostAnswers
        cases (s.port p).state <;> rfl
      exact congrArg (fun step => (List.finRange 16).foldl step s.fallen) hstep
    have hends : ends = fun t p => t.endsAs p (contactEnding (s.ctx p)) := by
      funext t p
      simp only [ends, why, contactEnding]
      cases (s.ctx p).state with
      | draining cause => cases cause <;> rfl
      | _ => rfl
    have hparked : parked = s.fallen.lostParked :=
      congrArg (fun x : State => ({ x with
        td := { s.td with contactLost := true }
        ports := Vector.ofFn fun p => (s.port p).lostContact } : State)) hanswered
    have hv : v = s.fallen.lostEnded := by
      have hcontexts : s.settlementOrder.foldl ends parked = s.fallen.lostContexts := by
        rw [hends, hparked]
        rfl
      exact congrArg (fun x : State => ({ x with
        supplies := Vector.ofFn fun p : PortId => { s.supply p with state := .off } } : State)) hcontexts
    have hu : u = s.fallen.loseContact := by
      rw [loseContact_eq, ← hv]
      by_cases hheld : ∃ p, (s.ctx p).state = .held
      · rw [show s.fallen.anyHeld = true from anyHeld_iff.2 hheld]
        exact if_pos hheld
      · rw [show s.fallen.anyHeld = false from Bool.eq_false_iff.2 fun h => hheld (anyHeld_iff.1 h)]
        exact if_neg hheld
    have hwhy : ∀ p, why p = (s.ctx p).lossReason := fun _ => rfl
    clear_value u v ends parked answered why
    subst hu hanswered
    have hlatched : s.fallen.Latched 7 := raise_latched _ .contactLost
    refine ⟨?next, ?pins, loseContact_td _, ?control, loseContact_link_merge.1, loseContact_link_merge.2,
      hlatched.loseContact, ?ports, ?supplies, ?sound⟩
    case next => rw [exec_contactFall hrun, if_pos ⟨hopen, hlost⟩]
    case pins => simp only [loseContact_frame]; rfl
    case control => simp only [loseContact_frame]; rfl
    case ports =>
      intro p
      rw [loseContact_port]
      show (if (s.port p).state.isParked = false then _ else s.port p) = _
      cases (s.port p).state.isParked <;> rfl
    case supplies =>
      intro p
      rw [loseContact_supply]
    case sound =>
      intro hs
      have hk : s.fallen.Kept := hs.kept.fallen
      rw [loseContact_of_kept hk]
      simp only [lostEnded_frame, hwhy]
      refine ⟨lostContexts_log, lostContexts_counters, lostContexts_waitList hk, ?sorted, lostContexts_pool hk, ?entries,
        fun c hc => lostContexts_lookup_other hk hc, ?contexts⟩
      case sorted =>
        have hsorted := hk.loseContact.pool.sorted
        rw [loseContact_of_kept hk] at hsorted
        simpa using hsorted
      case entries =>
        intro p c hc
        exact (lostContexts_lookup (s := s.fallen) hk hc).trans
          (congrArg some (endedEntry_contactEnding (s := s.fallen) hk hc))
      case contexts =>
        intro p
        refine (lostEnded_ctx (s := s.fallen) p).trans ?_
        show (s.ctx p).endedAs (contactEnding (s.ctx p)) = _
        cases hst : (s.ctx p).state with
        | idle | done => rw [contactEnding_stays (by rw [hst]; rfl)]; rfl
        | ident => rw [contactEnding_abandoned (.inl hst)]; rfl
        | wait => rw [contactEnding_abandoned (.inr (.inl hst))]; rfl
        | held => rw [contactEnding_abandoned (.inr (.inr hst))]; rfl
        | _ => exact endedAs_contactEnding_voided hs.kept (by rw [hst]; rfl) (by rw [hst]; nofun)
end

section
/-! Proofs: every command completes, and keeps the transport key id and the commands on their way (R33). -/
namespace Sys2Proof.Machine

variable {s t : State}

/-! ### How a row is executed (R167, R168, R187) -/

/-- A control row stands for the arrival of its command (R168). -/
theorem exec_eq_submit {i : Instr} {tag : Byte} {c : Command} (h : controlCommand i = some (tag, c)) (s : State) :
    exec i s = whileRunning s fun s => s.submit tag c := by
  cases i <;> cases h <;> rfl

/-- What holds after a row's effect, and after its effect on the pins in reset, holds after the row. -/
theorem whileRunning_completes {P : State → Prop} (s : State) (effect atPins : State → State)
    (held : s.phase = .held → P (atPins s)) (run : s.phase ≠ .held → P (effect s)) :
    ∃ t, whileRunning s effect atPins = .next t ∧ P t := by
  refine ⟨_, rfl, ?_⟩
  by_cases h : s.phase = .held
  · rw [if_pos h]
    exact held h
  · rw [if_neg h]
    exact run h

/-- `P` holds of every state that a row can lead to from `s`: one field for each effect of the table's rows. -/
structure State.RowsGive (s : State) (P : State → Prop) : Prop where
  stay : P s
  reset : P s.taken
  release : s.phase = .held → P { s with phase := .released }
  start : s.phase = .released → P { s with phase := .running }
  pinLinkRdy : s.phase = .held → ∀ up, P (s.setLinkRdy up)
  pinContact : s.phase = .held → ∀ high, P (s.setContact high)
  pinSupplyGood : s.phase = .held → ∀ p good, P (s.setSupplyGood p good)
  submit : s.phase ≠ .held → ∀ tag c, P (s.submit tag c)
  receiveByte : s.phase ≠ .held → ∀ b, P (s.receiveByte b)
  emission : s.phase ≠ .held → P s.emission
  frameLeaves : s.phase ≠ .held → P s.frameLeaves
  laneFalls : s.phase ≠ .held → P ((s.setLinkRdy false).clearStream.countLinkErrors s.link.stream.length)
  laneRises : s.phase ≠ .held → P (s.setLinkRdy true).clearStream
  unwrapEnds : s.phase ≠ .held → ∀ job r, s.control.executor = .unwrapping job →
    P (s.siteAnswersFirst fun t => (t.unwrapEnds job r).runQueue)
  completeAndRelease : s.phase ≠ .held → P s.completeAndRelease
  startPort : s.phase ≠ .held → ∀ p, P (s.startPort p)
  serviceKeys : s.phase ≠ .held → P s.serviceKeys
  lateResponse : s.phase ≠ .held → ∀ p a, P (s.dieResponds p a)
  dieResponds : s.phase ≠ .held → ∀ p a, P (s.dieResponds p a).completeAndRelease
  timesOut : s.phase ≠ .held → ∀ p, P (s.responseTimesOut p).completeAndRelease
  breakEnds : s.phase ≠ .held → ∀ p, P (s.breakEnds p)
  settleExpires : s.phase ≠ .held → ∀ p, P (s.settleExpires p).completeAndRelease
  supplyFaults : s.phase ≠ .held → ∀ p, (s.supply p).state = .onGood →
    P ((s.setSupplyGood p false).supplyFaults p).completeAndRelease
  supplyGood : s.phase ≠ .held → ∀ p good, P (s.setSupplyGood p good)
  contactLost : s.phase ≠ .held → s.touchdownIsOpen = true → s.td.contactLost = false →
    P s.fallen.loseContact.completeAndRelease
  contactFalls : s.phase ≠ .held → ¬ (s.touchdownIsOpen = true ∧ s.td.contactLost = false) → P s.fallen
  contactRises : s.phase ≠ .held → P (s.setContact true)

/-- Every row answers a next state, of which `P` holds. -/
theorem State.RowsGive.exec {P : State → Prop} (h : s.RowsGive P) (i : Instr) : ∃ t, exec i s = .next t ∧ P t := by
  have effect : ∀ effect : State → State, (s.phase ≠ .held → P (effect s)) →
      ∃ t, whileRunning s effect = .next t ∧ P t :=
    fun effect => whileRunning_completes s effect id fun _ => h.stay
  cases hc : controlCommand i with
  | some x =>
    rw [exec_eq_submit hc]
    exact effect _ fun hrun => h.submit hrun _ _
  | none =>
    cases i with
    | reset => exact ⟨_, rfl, h.reset⟩
    | resetRelease =>
      refine ⟨_, rfl, ?_⟩
      split
      · exact h.release ‹_›
      · exact h.stay
    | receiverStart =>
      refine ⟨_, rfl, ?_⟩
      split
      · exact h.start ‹_›
      · exact h.stay
    | frameLengthError b => exact effect (·.receiveByte b) (h.receiveByte · b)
    | requestFrame b => exact effect (·.receiveByte b) (h.receiveByte · b)
    | downstreamByte b => exact effect (·.receiveByte b) (h.receiveByte · b)
    | responseEmission => exact effect (·.emission) h.emission
    | frameLeavesStream => exact effect (·.frameLeaves) h.frameLeaves
    | linkRdyFall =>
      unfold Machine.exec execLinkRdyFall
      exact whileRunning_completes s _ _ (h.pinLinkRdy · false) h.laneFalls
    | linkRdyRise =>
      unfold Machine.exec execLinkRdyRise
      refine whileRunning_completes s _ _ (h.pinLinkRdy · true) fun hrun => ?_
      split
      · exact h.stay
      · exact h.laneRises hrun
    | unwrapCompletion r =>
      unfold Machine.exec execUnwrapCompletion
      refine effect _ fun hrun => ?_
      split
      · exact h.unwrapEnds hrun _ r ‹_›
      · exact h.stay
    | touchdownEndCompletion => exact effect (·.completeAndRelease) h.completeAndRelease
    | transactionStart p => exact effect (·.startPort p) (h.startPort · p)
    | dieResponse p a =>
      unfold Machine.exec execDieResponse
      refine effect _ fun hrun => ?_
      split
      · exact h.dieResponds hrun p a
      · exact h.lateResponse hrun p a
    | keyService => exact effect (·.serviceKeys) h.serviceKeys
    | responseTimeout p =>
      unfold Machine.exec execResponseTimeout
      refine effect _ fun hrun => ?_
      split
      · exact h.timesOut hrun p
      · exact h.stay
    | breakEnd p => exact effect (·.breakEnds p) (h.breakEnds · p)
    | settleExpiry p =>
      unfold Machine.exec execSettleExpiry
      refine effect _ fun hrun => ?_
      split
      · exact h.settleExpires hrun p
      · exact h.stay
    | supplyGoodChange p good =>
      unfold Machine.exec execSupplyGoodChange
      refine whileRunning_completes s _ _ (h.pinSupplyGood · p good) fun hrun => ?_
      dsimp only
      split
      · rename_i hfault
        obtain ⟨hon, rfl⟩ := hfault
        exact h.supplyFaults hrun p hon
      · exact h.supplyGood hrun p good
    | contactFall =>
      unfold Machine.exec execContactFall
      refine whileRunning_completes s _ _ (h.pinContact · false) fun hrun => ?_
      dsimp only
      split
      · rename_i hlost
        obtain ⟨hopen, hfirst⟩ := hlost
        exact h.contactLost hrun hopen hfirst
      · exact h.contactFalls hrun ‹_›
    | contactRise =>
      exact whileRunning_completes s (·.setContact true) (·.setContact true) (h.pinContact · true) h.contactRises
    | _ => cases hc

/-! ### The control queue and the receiver leave phase, pins, key id and the commands on their way (R33, R187) -/

variable (s)

@[simp] theorem runUpTo_frame (n : Nat) :
    (State.runUpTo n s).phase = s.phase ∧ (State.runUpTo n s).pins = s.pins ∧
    (State.runUpTo n s).transportKeyId = s.transportKeyId ∧ (State.runUpTo n s).pending = s.pending := by
  induction n generalizing s with
  | zero => exact ⟨rfl, rfl, rfl, rfl⟩
  | succ n ih =>
    unfold State.runUpTo
    split
    · simp only [ih, runCommand_frame, and_self]
    · exact ⟨rfl, rfl, rfl, rfl⟩

@[simp] theorem runQueue_frame :
    s.runQueue.phase = s.phase ∧ s.runQueue.pins = s.pins ∧
    s.runQueue.transportKeyId = s.transportKeyId ∧ s.runQueue.pending = s.pending :=
  runUpTo_frame s _

@[simp] theorem submit_frame (tag : Byte) (c : Command) :
    (s.submit tag c).phase = s.phase ∧ (s.submit tag c).pins = s.pins ∧
    (s.submit tag c).transportKeyId = s.transportKeyId ∧ (s.submit tag c).pending = s.pending := by
  unfold State.submit
  split <;> simp

@[simp] theorem completeAndRelease_frame :
    s.completeAndRelease.phase = s.phase ∧ s.completeAndRelease.pins = s.pins ∧
    s.completeAndRelease.transportKeyId = s.transportKeyId ∧ s.completeAndRelease.pending = s.pending := by
  unfold State.completeAndRelease
  split <;> simp

@[simp] theorem controlFrame_frame (f : RequestFrame) :
    (s.controlFrame f).phase = s.phase ∧ (s.controlFrame f).pins = s.pins ∧
    (s.controlFrame f).transportKeyId = s.transportKeyId ∧ (s.controlFrame f).pending = s.pending := by
  unfold State.controlFrame
  repeat' split
  all_goals simp

@[simp] theorem routeFrame_frame (f : RequestFrame) :
    (s.routeFrame f).phase = s.phase ∧ (s.routeFrame f).pins = s.pins ∧
    (s.routeFrame f).transportKeyId = s.transportKeyId ∧ (s.routeFrame f).pending = s.pending := by
  unfold State.routeFrame
  repeat' split
  all_goals simp

@[simp] theorem receiveByte_frame (b : Byte) :
    (s.receiveByte b).phase = s.phase ∧ (s.receiveByte b).pins = s.pins ∧
    (s.receiveByte b).transportKeyId = s.transportKeyId ∧ (s.receiveByte b).pending = s.pending := by
  unfold State.receiveByte State.headerEnds State.frameEnds State.toCheck State.toHunt
  dsimp only
  repeat' split
  all_goals simp

@[simp] theorem emission_frame :
    s.emission.phase = s.phase ∧ s.emission.pins = s.pins ∧
    s.emission.transportKeyId = s.transportKeyId ∧ s.emission.pending = s.pending := by
  unfold State.emission
  split <;> exact ⟨rfl, rfl, rfl, rfl⟩

@[simp] theorem frameLeaves_frame :
    s.frameLeaves.phase = s.phase ∧ s.frameLeaves.pins = s.pins ∧
    s.frameLeaves.transportKeyId = s.transportKeyId ∧ s.frameLeaves.pending = s.pending := by
  unfold State.frameLeaves
  split <;> exact ⟨rfl, rfl, rfl, rfl⟩

/-- `t` has the phase, the pins, the transport key id and the commands on their way of `s`. -/
def State.SameBench (s t : State) : Prop :=
  t.phase = s.phase ∧ t.pins = s.pins ∧ t.transportKeyId = s.transportKeyId ∧ t.pending = s.pending

/-- So has the state after the end of an unwrap, with the commands it releases and their site responses (R173). -/
theorem sameBench_unwrapRelease (job : UnwrapJob) (r : Option KeyBits) :
    s.SameBench (s.siteAnswersFirst fun t => (t.unwrapEnds job r).runQueue) :=
  siteAnswersFirst_keeps (P := s.SameBench) (Q := s.SameBench) ⟨rfl, rfl, rfl, rfl⟩
    (fun _ _ h => by simpa [State.SameBench] using h) (fun _ h => by simpa [State.SameBench] using h)

theorem rowsGive_pending_transportKeyId :
    s.RowsGive fun t => t.pending = s.pending ∧ t.transportKeyId = s.transportKeyId := by
  constructor
  case unwrapEnds =>
    intro _ job r _
    obtain ⟨-, -, hkeyId, hpending⟩ := sameBench_unwrapRelease s job r
    exact ⟨hpending, hkeyId⟩
  all_goals intros; simp [State.taken, State.fallen]

end Sys2Proof.Machine

open Sys2Proof Sys2Proof.Machine

/-- Settles O2: each row's effect keeps both fields, and a row answers the state its effect leaves. -/
theorem everyCommandCompletes : Obligations.EveryCommandCompletes := by
  unfold Obligations.EveryCommandCompletes
  exact fun c s => (rowsGive_pending_transportKeyId s).exec c
end

section
/-! Proofs: every command keeps the invariants of the part, whatever it finds. -/
namespace Sys2Proof.Machine

variable {s t : State} {p : PortId}

/-! ### The invariants as the laws keep them -/

theorem sound_iff : s.Sound ↔ s.Core ∧ s.Ctl := by
  constructor
  · intro h
    obtain ⟨hports, hrest⟩ := portsSound_iff.1 ⟨h.ports, h.params.gear⟩
    exact ⟨⟨h.params, h.sites, h.control.ending, hports, hrest, h.kept, h.served, supplySound_iff.1 h.supply⟩,
      h.control.bound, h.control.idle⟩
  · rintro ⟨h, hbound, hidle⟩
    obtain ⟨hports, -⟩ := portsSound_iff.2 ⟨h.ports, h.rest⟩
    exact ⟨h.params, h.sites, ⟨hbound, hidle, h.ending⟩, hports, h.kept.wait, h.kept.custody, h.kept.pool, h.kept.log,
      h.kept.image, h.served, h.kept.map, supplySound_iff.2 h.supply⟩

theorem State.Sound.core (h : s.Sound) : s.Core := (sound_iff.1 h).1

theorem State.Sound.ctl (h : s.Sound) : s.Ctl := (sound_iff.1 h).2

/-- An effect that leaves executor and control queue needs to keep the other invariants alone. -/
theorem State.Core.sound (hc : t.Core) (h : s.Sound) (e : t.control = s.control) : t.Sound :=
  sound_iff.2 ⟨hc, Ctl.congr h.ctl e⟩

theorem State.Sound.submit (h : s.Sound) (hrun : s.phase ≠ .held) (tag : Byte) (c : Command) : (s.submit tag c).Sound :=
  sound_iff.2 ⟨h.core.submit hrun tag c, Ctl.submit h.ctl tag c⟩

theorem State.Sound.receiveByte (h : s.Sound) (b : Byte) : (s.receiveByte b).Sound :=
  sound_iff.2 ⟨h.core.receiveByte b, Ctl.receiveByte h.ctl b⟩

theorem State.Sound.completeAndRelease (h : s.Sound) (hrun : s.phase ≠ .held) : s.completeAndRelease.Sound :=
  sound_iff.2 ⟨h.core.completeAndRelease hrun, Ctl.completeAndRelease h.ctl⟩

/-- The end of an unwrap, with the commands it releases and their site responses (R35, R36, R168, R173). -/
theorem State.Sound.unwrapEnds (h : s.Sound) (hrun : s.phase ≠ .held) {job : UnwrapJob}
    (hj : s.control.executor = .unwrapping job) (r : Option KeyBits) :
    (s.siteAnswersFirst fun t => (t.unwrapEnds job r).runQueue).Sound := by
  refine sound_iff.2 ⟨h.core.siteAnswersFirst fun t ht hctl hphase => ?_, ?_⟩
  · exact (ht.unwrapEnds (by rw [hctl]; exact hj) r).runQueue (by simpa [hphase] using hrun)
  · refine siteAnswersFirst_keeps (P := fun t => t.control = s.control) (Q := State.Ctl) rfl
      (fun t p ht => by simpa using ht) fun t ht => Ctl.runQueue ?_
    have hqueue : (t.unwrapEnds job r).control.queue = t.control.queue := by
      cases r <;> simp [State.unwrapEnds, State.setExecutor]
    rw [hqueue, ht]
    exact h.control.bound

/-- Where nobody can be served, key service changes nothing (R37, R38). -/
theorem serviceKeys_of_served (h : s.Served) : s.serviceKeys = s := by
  unfold State.serviceKeys
  cases s.waitList.length with
  | zero => rfl
  | succ n =>
    unfold State.Served at h
    rw [State.serve, h]

/-! ### Link, pins and phase -/

/-- A change of link or upstream ready input alone. -/
theorem State.Core.link (h : s.Core) (l : Link) (up : Bool) :
    ({ s with link := l, pins := { s.pins with linkRdy := up } } : State).Core :=
  h.aside rfl rfl rfl rfl rfl rfl rfl rfl rfl rfl rfl rfl rfl rfl rfl

theorem State.Core.emission (h : s.Core) : s.emission.Core := by
  unfold State.emission
  split
  · exact h.link _ _
  · exact h

theorem State.Core.frameLeaves (h : s.Core) : s.frameLeaves.Core := by
  unfold State.frameLeaves
  split
  · exact h.link _ _
  · exact h

theorem State.Core.setSupplyGood (h : s.Core) (p : PortId) (good : Bool) : (s.setSupplyGood p good).Core :=
  h.aside rfl rfl rfl rfl rfl rfl rfl rfl rfl rfl rfl rfl rfl rfl rfl

/-- Another level of CONTACT or another phase, by which no context comes to stand without contact (R2, R128). -/
theorem State.Core.setOutside (h : s.Core) (phase : Phase) (pins : Pins)
    (ha : s.active → phase ≠ .held ∧ pins.contact = true) : ({ s with phase := phase, pins := pins } : State).Core :=
  h.pinsUp rfl rfl rfl rfl rfl rfl rfl rfl rfl rfl rfl rfl rfl fun hs => ⟨(ha hs).1, (ha hs).2, hs.2.2⟩

theorem sound_taken (s : State) : s.taken.Sound := sound_iff.2 ⟨core_taken s, Nat.zero_le _, fun _ => rfl⟩

/-! ### CONTACT (R137) -/

theorem State.Sound.fallen (h : s.Sound) (hn : ¬ (s.touchdownIsOpen = true ∧ s.td.contactLost = false)) :
    s.fallen.Sound := by
  have hc : (if s.touchdownIsOpen ∧ s.td.contactLost = false then s.fallen.loseContact else s.fallen).Core :=
    h.core.contactFall
  rw [if_neg hn] at hc
  exact hc.sound h rfl

theorem State.Sound.loseContact (h : s.Sound) (ho : s.touchdownIsOpen = true) (hl : s.td.contactLost = false) :
    s.fallen.loseContact.Sound := by
  have hc : (if s.touchdownIsOpen ∧ s.td.contactLost = false then s.fallen.loseContact else s.fallen).Core :=
    h.core.contactFall
  rw [if_pos ⟨ho, hl⟩] at hc
  exact hc.sound h (by simp [State.fallen])

/-! ### Every row -/

theorem State.Sound.rowsGive (h : s.Sound) : s.RowsGive State.Sound where
  stay := h
  reset := sound_taken s
  release hheld := (h.core.setOutside .released s.pins fun ha => absurd hheld ha.1).sound h rfl
  start hrel := (h.core.setOutside .running s.pins fun ha => ⟨nofun, ha.2.1⟩).sound h rfl
  pinLinkRdy _ up := (h.core.link s.link up).sound h rfl
  pinContact hheld high := (h.core.setOutside s.phase _ fun ha => absurd hheld ha.1).sound h rfl
  pinSupplyGood _ p good := (h.core.setSupplyGood p good).sound h rfl
  submit hrun := h.submit hrun
  receiveByte _ := h.receiveByte
  emission _ := h.core.emission.sound h (by unfold State.emission; split <;> rfl)
  frameLeaves _ := h.core.frameLeaves.sound h (by unfold State.frameLeaves; split <;> rfl)
  laneFalls _ := ((h.core.link _ _).countLinkErrors _).sound h (by simp)
  laneRises _ := (h.core.link _ _).sound h rfl
  unwrapEnds hrun _ r hj := h.unwrapEnds hrun hj r
  completeAndRelease := h.completeAndRelease
  startPort _ p := (h.core.startPort p).sound h (by simp)
  serviceKeys _ := by rw [serviceKeys_of_served h.served]; exact h
  lateResponse _ p a := (h.core.dieResponds p a).sound h (by simp)
  dieResponds hrun p a :=
    State.Sound.completeAndRelease ((h.core.dieResponds p a).sound h (by simp)) (by simpa using hrun)
  timesOut hrun p :=
    State.Sound.completeAndRelease ((h.core.responseTimesOut p).sound h (by simp)) (by simpa using hrun)
  breakEnds _ p := (h.core.breakEnds p).sound h (by simp)
  settleExpires hrun p :=
    State.Sound.completeAndRelease ((h.core.settleExpires p).sound h (by simp)) (by simpa using hrun)
  supplyFaults hrun p hon :=
    State.Sound.completeAndRelease (((h.core.setSupplyGood p false).supplyFaults p hon).sound h (by simp))
      (by simpa using hrun)
  supplyGood _ p good := (h.core.setSupplyGood p good).sound h rfl
  contactLost hrun ho hl := (h.loseContact ho hl).completeAndRelease (by simpa [State.fallen] using hrun)
  contactFalls _ hn := h.fallen hn
  contactRises _ := (h.core.setOutside s.phase _ fun ha => ⟨ha.1, rfl⟩).sound h rfl

theorem State.Sound.exec (h : s.Sound) {i : Instr} (e : exec i s = .next t) : t.Sound := by
  obtain ⟨u, hu, hsound⟩ := h.rowsGive.exec i
  rw [e] at hu
  cases hu
  exact hsound

theorem State.Sound.withPending (h : s.Sound) (rest : List Instr) : ({ s with pending := rest } : State).Sound :=
  State.Core.sound (h.core.aside rfl rfl rfl rfl rfl rfl rfl rfl rfl rfl rfl rfl rfl rfl rfl) h rfl

theorem State.Sound.step (h : s.Sound) (e : step s = .next t) : t.Sound := by
  unfold Machine.step at e
  split at e
  · cases e
    exact h
  · exact (h.withPending _).exec e

/-- A supply that is on is one that its context's state asks for, and the context is at work (R2). -/
theorem ended_of_switchOn {st : ContextState} {u : SupplyState} (h : st.agreesWith u = true) (hon : u.switchOn = true) :
    st.ended = false := by
  cases st with
  | idle | done =>
    rw [eq_of_beq h] at hon
    cases hon
  | _ => rfl

/-- A site's supply is on only with the probes down and its context at work (R128). -/
theorem State.SupplySound.switchOn (h : s.SupplySound) (hon : (s.supply p).state.switchOn = true) :
    s.pins.contact = true ∧ (s.ctx p).state.ended = false := by
  have hwork := ended_of_switchOn (h.agree p) hon
  exact ⟨(h.active p hwork).2.1, hwork⟩

end Sys2Proof.Machine

open Sys2Proof Sys2Proof.Machine

/-- Settles O60: the laws' invariants make up `State.Sound` (`sound_iff`), and each row keeps them. -/
theorem everyCommandKeepsThePartSound : Obligations.EveryCommandKeepsThePartSound := by
  unfold Obligations.EveryCommandKeepsThePartSound
  refine ⟨fun c s t h e => h.exec e, fun s t h e => ?_⟩
  have ht : t.Sound := h.step e
  exact ⟨ht, fun p => ht.supply.switchOn, ht.pool.heldOnce, ht.custody.accounting⟩
end

section
/-! Proofs: key service, one service and its repetition (R8, R37, R43). -/
namespace Sys2Proof.Machine

variable {s : State}

/-- POOL_LOW after a removal from the pool (R43). -/
theorem checkPoolLow_eq (s : State) :
    s.checkPoolLow =
      { s with
        events :=
          if s.pool.length < s.params.poolLow then { s.events with latches := s.events.latches ||| 4#12 }
          else s.events } := by
  unfold State.checkPoolLow
  split <;> rfl

/-- The services after the first are those of the state it leaves (R37). -/
theorem serviceKeys_of_serveHead {t : State} (h : s.serveHead = some t) : s.serviceKeys = t.serviceKeys := by
  obtain ⟨q, hq⟩ := serveHead_waitList s h
  rw [State.serviceKeys, hq, List.length_cons, State.serve, h]
  rfl

end Sys2Proof.Machine

open Sys2Proof Sys2Proof.Machine

/-- Settles O36: the first service (`serveHead_eq_some`), the services after it, and where they end. -/
theorem keyServiceServesTheHead : Obligations.KeyServiceServesTheHead := by
  unfold Obligations.KeyServiceServesTheHead
  refine ⟨fun s hrun => whileRunning_of_running hrun (fun s => s.serviceKeys) _, ?stops, ?serves, ?ends⟩
  case stops =>
    intro s h
    exact serviceKeys_of_served ((serveHead_eq_none s).2 h)
  case serves =>
    intro p ws k ks s hw hp hfree d
    have hserve := (serveHead_eq_some s).2 ⟨p, ws, k, ks, hw, hp, hfree, rfl⟩
    rw [serviceKeys_of_serveHead hserve, checkPoolLow_eq]
    rfl
  case ends =>
    intro s
    exact (serveHead_eq_none s.serviceKeys).1 (serviceKeys_done s)
end

section
/-! Proofs: the commands of batches and keys, which a ready executor runs at once (R30, R33, R35, R36, R40). -/
namespace Sys2Proof.Machine

variable {s : State}

/-- A ready executor runs the command that arrives, and nothing else is executed at the event (R168). -/
theorem submit_of_ready (h : s.ready) (tag : Byte) (c : Command) : s.submit tag c = runCommand tag c s := by
  obtain ⟨-, hidle, hqueue⟩ := h
  have hself : ({ s with control := { executor := .idle, queue := [] } } : State) = s := by rw [← hidle, ← hqueue]
  rw [State.submit, hqueue, if_neg (by decide)]
  simp only [State.runQueue, List.nil_append, List.length_singleton, State.runUpTo, hidle, hself]

theorem exec_of_ready (h : s.ready) {i : Instr} {tag : Byte} {c : Command} (hc : controlCommand i = some (tag, c)) :
    exec i s = .next (runCommand tag c s) := by
  rw [exec_eq_submit hc, whileRunning_of_running h.1, submit_of_ready h]

/-! ### BATCH OPEN (R30) -/

theorem heldKeys_ne_zero_iff : s.heldKeys ≠ 0 ↔ ∃ p, (s.ctx p).state.holdsKey = true := by
  rw [Ne, heldKeys_eq_count, count_eq_zero]
  simp

theorem floorInForce_eq (old requested : Long) :
    (if old < requested then requested else old) = if old.toNat ≤ requested.toNat then requested else old := by
  by_cases h : old = requested
  · simp [h]
  · have hne : old.toNat ≠ requested.toNat := fun he => h (BitVec.eq_of_toNat_eq he)
    have hiff : old < requested ↔ old.toNat ≤ requested.toNat := by
      rw [BitVec.lt_def]
      omega
    simp only [hiff]

/-! ### KEY LOAD (R33, R34) -/

theorem cmdKeyLoad_eq (tag : Byte) (r : KeyRecord) :
    cmdKeyLoad tag r s =
      if s.batch.isOpen = false then s.refuse tag .noBatch
      else if r.index = 0 then s.refuse tag .badArg
      else if r.keyId ≠ s.transportKeyId then s.refuse tag .keyId
      else if r.index.toNat ≤ s.batch.floor.toNat then s.refuse tag .staleIndex
      else if Config.poolCapacity ≤ s.poolCustody then s.refuse tag .poolFull
      else s.setExecutor (.unwrapping
        { tag := tag, index := r.index, ciphertext := r.ciphertext, integrity := r.integrity,
          label := s.batch.label }) := by
  unfold cmdKeyLoad State.keyLoadRefusal
  simp only [Bool.not_eq_true', BitVec.lt_def, Nat.not_lt]
  split_ifs <;> rfl

/-! ### The end of an unwrap (R35, R36) -/

theorem exec_unwrapCompletion (hrun : s.phase ≠ .held) {job : UnwrapJob} (hj : s.control.executor = .unwrapping job)
    (r : Option KeyBits) :
    exec (.unwrapCompletion r) s = .next (s.siteAnswersFirst fun t => (t.unwrapEnds job r).runQueue) := by
  show execUnwrapCompletion r s = _
  rw [execUnwrapCompletion, whileRunning_of_running hrun]
  simp only [hj]

theorem exec_unwrapCompletion_idle (hj : ∀ job, s.control.executor ≠ .unwrapping job) (r : Option KeyBits) :
    exec (.unwrapCompletion r) s = .next s := by
  show execUnwrapCompletion r s = _
  rw [execUnwrapCompletion, whileRunning]
  split
  · rfl
  · split
    · exact absurd ‹_› (hj _)
    · rfl

/-- An unwrap without a matching tag leaves the pool alone; counter and latch tell of it (R36). -/
theorem unwrapEnds_none (job : UnwrapJob) :
    s.unwrapEnds job none =
      ({ s with
          control := { s.control with executor := .idle }
          events := { s.events with
            latches := s.events.latches ||| 2#12
            unwrapFails := BitVec.ofNat 16 (min 65535 (s.events.unwrapFails.toNat + 1)) } } : State).respond
        job.tag .unwrapFail (be32 job.index ++ [byteOf s.pool.length]) := rfl

/-! ### KEY PURGE (R40, R43) -/

theorem cmdKeyPurge_eq (tag : Byte) :
    cmdKeyPurge tag s =
      ({ s with
          pool := []
          counters := { s.counters with purged := s.counters.purged + BitVec.ofNat 32 s.pool.length }
          events :=
            if s.pool ≠ [] ∧ 0 < s.params.poolLow then { s.events with latches := s.events.latches ||| 4#12 }
            else s.events } : State).respondOk tag [byteOf s.pool.length] := by
  unfold cmdKeyPurge
  cases hp : s.pool with
  | nil => rfl
  | cons k ks =>
    simp only [List.length_cons, Nat.succ_ne_zero, if_false, checkPoolLow_eq, List.length_nil, ne_eq, reduceCtorEq,
      not_false_eq_true, true_and]

end Sys2Proof.Machine

open Sys2Proof Sys2Proof.Machine

/-- Settles O32, by whether a key is left. -/
theorem batchOpenStartsTheAccounts : Obligations.BatchOpenStartsTheAccounts := by
  unfold Obligations.BatchOpenStartsTheAccounts
  intro tag label floor s h held inForce
  have hheld : (s.pool ≠ [] ∨ s.heldKeys ≠ 0) ↔ held := or_congr_right heldKeys_ne_zero_iff
  have hfloor : (if s.batch.floor < floor then floor else s.batch.floor) = inForce := floorInForce_eq _ _
  have hexec : exec (.batchOpen tag label floor) s = .next (cmdBatchOpen tag label floor s) :=
    exec_of_ready h (tag := tag) (c := .batchOpen label floor) rfl
  rw [hexec, cmdBatchOpen, hfloor]
  exact ⟨fun hk => by rw [if_pos (hheld.2 hk)], fun hk => by rw [if_neg (mt hheld.1 hk)]⟩

/-- Settles O33, check by check. -/
theorem keyLoadChecksInOrder : Obligations.KeyLoadChecksInOrder := by
  unfold Obligations.KeyLoadChecksInOrder
  intro tag r s h job
  exact (exec_of_ready h (tag := tag) (c := .keyLoad r) rfl).trans (congrArg Host.Outcome.next (cmdKeyLoad_eq tag r))

/-- Settles O34, by the outcome of the unwrap: the model's event is the statement's, and the site answers come first. -/
theorem unwrapCompletionAcceptsOrCounts : Obligations.UnwrapCompletionAcceptsOrCounts := by
  unfold Obligations.UnwrapCompletionAcceptsOrCounts
  refine ⟨?accepts, ?counts, ?idle⟩
  case accepts =>
    intro job key s hrun hj event answering
    have hevent : (fun t => (t.unwrapEnds job (some key)).runQueue) = event := rfl
    rw [exec_unwrapCompletion hrun hj, hevent]
    clear_value event
    rfl
  case counts =>
    intro job s hrun hj event answering
    have hevent : (fun t => (t.unwrapEnds job none).runQueue) = event := by
      simp only [unwrapEnds_none]
      rfl
    rw [exec_unwrapCompletion hrun hj, hevent]
    clear_value event
    rfl
  case idle =>
    intro r s hj
    exact exec_unwrapCompletion_idle hj r

/-- Settles O35, by whether the pool holds a key. -/
theorem keyPurgeEmptiesThePool : Obligations.KeyPurgeEmptiesThePool := by
  unfold Obligations.KeyPurgeEmptiesThePool
  intro tag s h
  have hexec : exec (.keyPurge tag) s = .next (cmdKeyPurge tag s) := exec_of_ready h (tag := tag) (c := .keyPurge) rfl
  rw [hexec, cmdKeyPurge_eq]
end

section
/-! Proofs: RULE WRITE and RULE READ: the checks of R46, the normal form of R45, and the layout of R178. -/
namespace Sys2Proof.Machine


/-! ### The codes of a rule, read and reported (R44, R46) -/

/-- A byte is the one its value names. -/
theorem byte_eq_of_toNat {b : Byte} {n : Nat} (h : b.toNat = n) : b = byteOf n := by
  rw [← h, byteOf, BitVec.ofNat_toNat, BitVec.setWidth_eq]

theorem byte_eq_iff (b : Byte) {n : Nat} (hn : n < 256) : b = byteOf n ↔ b.toNat = n := by
  refine ⟨?_, byte_eq_of_toNat⟩
  rintro rfl
  exact Nat.mod_eq_of_lt hn

theorem flagByte_readFlag (b : Byte) : flagByte (readFlag b) = if b = 0 then 0 else 1 := by
  by_cases h : b = 0 <;> simp [flagByte, readFlag, h]

theorem kindMatch_ofCode_eq_none {b : Byte} : KindMatch.ofCode b = none ↔ 2 < b.toNat := by
  have h0 := byte_eq_iff b (n := 0) (by decide)
  have h1 := byte_eq_iff b (n := 1) (by decide)
  have h2 := byte_eq_iff b (n := 2) (by decide)
  simp only [byteOf] at h0 h1 h2
  unfold KindMatch.ofCode
  split_ifs <;> simp_all
  omega

theorem kindMatch_code_ofCode {b : Byte} {k : KindMatch} (h : KindMatch.ofCode b = some k) : k.code = b := by
  unfold KindMatch.ofCode at h
  split_ifs at h with h0 h1 h2 <;> cases h <;> symm <;> assumption

theorem captureField_ofCode_eq_none {b : Byte} {mask : Word} :
    CaptureField.ofCode b mask = none ↔ 5 < b.toNat := by
  unfold CaptureField.ofCode
  split
  case h_7 => simp_all only [imp_false, true_iff]; omega
  all_goals simp_all

theorem captureField_code_ofCode {b : Byte} {mask : Word} {f : CaptureField} (h : CaptureField.ofCode b mask = some f) :
    f.code = b ∧ (Action.capture f).argMask = if b = 5 then mask else 0 := by
  unfold CaptureField.ofCode at h
  split at h <;> cases h
  all_goals obtain rfl := byte_eq_of_toNat ‹_›
  all_goals exact ⟨rfl, rfl⟩

theorem wordNumber_eq_none {b : Byte} : wordNumber b = none ↔ 16 < b.toNat := by
  unfold wordNumber
  split <;> simp <;> omega

theorem wordNumber_byteOf {b : Byte} {w : Fin 17} (h : wordNumber b = some w) : byteOf w.val = b := by
  unfold wordNumber at h
  split at h <;> cases h
  exact (byte_eq_of_toNat rfl).symm

/-! ### Actions (R44, R45, R46) -/

theorem action_ofCode_eq_none {code argument : Byte} {mask : Word} :
    Action.ofCode code argument mask = none ↔
      6 < code.toNat ∨ (code = 1 ∧ 5 < argument.toNat) ∨ ((code = 2 ∨ code = 3) ∧ 16 < argument.toNat) := by
  have hcode := fun n (hn : n < 256) => byte_eq_iff code hn
  have h1 := hcode 1 (by decide)
  have h2 := hcode 2 (by decide)
  have h3 := hcode 3 (by decide)
  simp only [byteOf] at h1 h2 h3
  unfold Action.ofCode
  split
  case h_8 => simp_all only [imp_false, true_iff]; omega
  all_goals simp_all [captureField_ofCode_eq_none, wordNumber_eq_none]

/-- A stored action reports code, argument and argument mask as they were written, in the normal form of R45. -/
theorem action_ofCode_reports {code argument : Byte} {mask : Word} {a : Action}
    (h : Action.ofCode code argument mask = some a) :
    a.code = code ∧ a.argument = (if code = 1 ∨ code = 2 ∨ code = 3 then argument else 0) ∧
      a.argMask = if code = 1 ∧ argument = 5 then mask else 0 := by
  unfold Action.ofCode at h
  split at h
  case h_8 => cases h
  all_goals obtain rfl := byte_eq_of_toNat ‹_›
  case h_2 =>
    obtain ⟨f, hf, rfl⟩ := Option.map_eq_some_iff.1 h
    obtain ⟨hcode, hmask⟩ := captureField_code_ofCode hf
    exact ⟨rfl, hcode, hmask.trans (by simp [byteOf])⟩
  case h_3 | h_4 =>
    obtain ⟨w, hw, rfl⟩ := Option.map_eq_some_iff.1 h
    exact ⟨rfl, wordNumber_byteOf hw, rfl⟩
  all_goals cases h; exact ⟨rfl, rfl, rfl⟩

/-- Which kind match an action may stand with (R46, orders 5 and 6), by the codes. -/
theorem action_allows_iff (a : Action) (k : KindMatch) :
    a.allows k = true ↔ ¬ ((a.code = 2 ∧ k.code ≠ 1) ∨ (a.code = 3 ∧ k.code ≠ 2) ∨ (a.code = 1 ∧ k.code ≠ 2)) := by
  cases a with
  | inject w | verify w | capture f => cases k <;> simp [Action.allows, Action.code, KindMatch.code]
  | _ => simp [Action.allows, Action.code]

theorem kindMatch_eq_read_iff (k : KindMatch) : k = .read ↔ k.code = 2 := by cases k <;> decide

/-! ### RULE WRITE (R45, R46) -/

/-- The checks 2..8 of RULE WRITE, by the bytes of the parameter block (R46). -/
def BadBlock (b : RuleBlock) : Prop :=
  63 < b.number.toNat ∨ 2 < b.kind.toNat ∨ 6 < b.action.toNat ∨ (b.number = 0 ∧ b.chain ≠ 0) ∨
    (b.action = 2 ∧ b.kind ≠ 1) ∨ (b.action = 3 ∧ b.kind ≠ 2) ∨ (b.action = 1 ∧ b.kind ≠ 2) ∨
    ((b.action = 2 ∨ b.action = 3) ∧ 16 < b.argument.toNat) ∨ (b.action = 1 ∧ 5 < b.argument.toNat)

/-- The sixteen bytes of the rule that a parameter block is stored as, in the normal form of R45. -/
def normalBytes (b : RuleBlock) : List Byte :=
  [b.number, if b.enabled = 0 then 0 else 1, b.kind] ++ be16 (b.addrValue &&& b.addrMask) ++ be16 b.addrMask ++
    be16 (if b.kind = 2 then 0 else b.dataValue &&& b.dataMask) ++ be16 (if b.kind = 2 then 0 else b.dataMask) ++
    [if b.chain = 0 then 0 else 1, b.action,
      if b.action = 1 ∨ b.action = 2 ∨ b.action = 3 then b.argument else 0] ++
    be16 (if b.action = 1 ∧ b.argument = 5 then b.argMask else 0)

/-- What a block is refused or stored as, once its number, kind and action are read. -/
theorem ruleOfBlock_eq (b : RuleBlock) (h : b.number.toNat < 64) {kind : KindMatch} {action : Action}
    (hk : KindMatch.ofCode b.kind = some kind) (ha : Action.ofCode b.action b.argument b.argMask = some action) :
    ruleOfBlock b =
      if (b.number = 0 ∧ b.chain ≠ 0) ∨ action.allows kind = false then none
      else some (⟨b.number.toNat, h⟩,
        { enabled := readFlag b.enabled
          kind := kind
          addrValue := b.addrValue &&& b.addrMask
          addrMask := b.addrMask
          dataValue := if kind = .read then 0 else b.dataValue &&& b.dataMask
          dataMask := if kind = .read then 0 else b.dataMask
          chain := readFlag b.chain
          action := action }) := by
  have hchain : readFlag b.chain = true ↔ b.chain ≠ 0 := bne_iff_ne
  simp only [ruleOfBlock, dif_pos h, hk, ha, hchain]
  cases action.allows kind <;> by_cases hc : b.number = 0 ∧ b.chain ≠ 0 <;> simp [hc]
theorem ruleOfBlock_eq_none (b : RuleBlock) : ruleOfBlock b = none ↔ BadBlock b := by
  unfold BadBlock
  by_cases hn : b.number.toNat < 64
  swap
  · exact iff_of_true (by simp [ruleOfBlock, hn]) (.inl (by omega))
  cases hk : KindMatch.ofCode b.kind with
  | none => exact iff_of_true (by simp [ruleOfBlock, hn, hk]) (.inr (.inl (kindMatch_ofCode_eq_none.1 hk)))
  | some kind =>
    have hkind : ¬ 2 < b.kind.toNat := fun h => by simp [kindMatch_ofCode_eq_none.2 h] at hk
    cases ha : Action.ofCode b.action b.argument b.argMask with
    | none =>
      have hbad := action_ofCode_eq_none.1 ha
      exact iff_of_true (by simp [ruleOfBlock, hn, hk, ha]) (by tauto)
    | some action =>
      obtain ⟨hknown, hfield, hword⟩ := by simpa only [not_or] using mt action_ofCode_eq_none.2 (by rw [ha]; nofun)
      obtain ⟨hcode, -, -⟩ := action_ofCode_reports ha
      have hallows := action_allows_iff action kind
      rw [hcode, kindMatch_code_ofCode hk] at hallows
      have hnumber : ¬ 63 < b.number.toNat := by omega
      rw [ruleOfBlock_eq b hn hk ha, ite_eq_left_iff, ← Bool.not_eq_true, hallows]
      simp only [reduceCtorEq, imp_false, not_not, hnumber, hkind, hknown, hfield, hword, false_or, or_false]

/-- A stored rule comes from a block whose number, kind and action are known, with no chain flag in rule 0, and is held
in its normal form (R45, R46). -/
theorem ruleOfBlock_eq_some {b : RuleBlock} {n : Fin 64} {r : Rule} (h : ruleOfBlock b = some (n, r)) :
    KindMatch.ofCode b.kind = some r.kind ∧ Action.ofCode b.action b.argument b.argMask = some r.action ∧
    r.action.allows r.kind = true ∧ (b.number = 0 → b.chain = 0) ∧ n.val = b.number.toNat ∧
    r = { enabled := readFlag b.enabled
          kind := r.kind
          addrValue := b.addrValue &&& b.addrMask
          addrMask := b.addrMask
          dataValue := if r.kind = .read then 0 else b.dataValue &&& b.dataMask
          dataMask := if r.kind = .read then 0 else b.dataMask
          chain := readFlag b.chain
          action := r.action } := by
  have hn : b.number.toNat < 64 := by
    by_contra hn
    simp [ruleOfBlock, hn] at h
  obtain ⟨kind, hk⟩ : ∃ kind, KindMatch.ofCode b.kind = some kind :=
    Option.ne_none_iff_exists'.1 fun hk => by simp [ruleOfBlock, hn, hk] at h
  obtain ⟨action, ha⟩ : ∃ action, Action.ofCode b.action b.argument b.argMask = some action :=
    Option.ne_none_iff_exists'.1 fun ha => by simp [ruleOfBlock, hn, hk, ha] at h
  rw [ruleOfBlock_eq b hn hk ha] at h
  split at h <;> cases h
  rename_i hgood
  simp only [not_or, not_and, not_not, Bool.not_eq_false] at hgood
  obtain ⟨hchain, hallows⟩ := hgood
  exact ⟨hk, ha, hallows, hchain, rfl, rfl⟩

/-- A good block is stored under its number, and reported as it was written, in its normal form (R45, R178). -/
theorem ruleOfBlock_stores {b : RuleBlock} (h : ¬ BadBlock b) :
    ∃ n r, ruleOfBlock b = some (n, r) ∧ n.val = b.number.toNat ∧ r.bytes n = normalBytes b := by
  obtain ⟨⟨n, r⟩, hr⟩ := Option.ne_none_iff_exists'.1 (mt (ruleOfBlock_eq_none b).1 h)
  obtain ⟨hk, ha, -, -, hn, hnormal⟩ := ruleOfBlock_eq_some hr
  obtain ⟨hcode, hargument, hmask⟩ := action_ofCode_reports ha
  have hkind := kindMatch_code_ofCode hk
  have hread : r.kind = .read ↔ b.kind = 2 := by rw [kindMatch_eq_read_iff, hkind]
  refine ⟨n, r, hr, hn, ?_⟩
  rw [hnormal]
  simp only [Rule.bytes, normalBytes, hcode, hargument, hmask, hkind, hread, flagByte_readFlag,
    ← byte_eq_of_toNat hn.symm]

/-- What RULE WRITE stores is legal (R45, R46). -/
theorem ruleOfBlock_legal {b : RuleBlock} {n : Fin 64} {r : Rule} (h : ruleOfBlock b = some (n, r)) : r.Legal n := by
  obtain ⟨-, -, hallows, hchain, hn, hnormal⟩ := ruleOfBlock_eq_some h
  refine ⟨hallows, fun h0 => ?_, ?_, ?_, fun hread => ?_⟩ <;> rw [hnormal]
  · have hnumber : b.number = 0 := BitVec.eq_of_toNat_eq (by rw [← hn, h0]; rfl)
    simp [readFlag, hchain hnumber]
  · rw [BitVec.and_assoc, BitVec.and_self]
  · dsimp only
    split
    · rfl
    · rw [BitVec.and_assoc, BitVec.and_self]
  · simp [hread]

end Sys2Proof.Machine

open Sys2Proof Sys2Proof.Machine

/-- Settles O23: `ruleOfBlock` has no rule exactly for a bad block (`ruleOfBlock_eq_none`), and stores a good one in its
normal form (`ruleOfBlock_stores`). -/
theorem ruleWriteStoresTheNormalForm : Obligations.RuleWriteStoresTheNormalForm := by
  unfold Obligations.RuleWriteStoresTheNormalForm
  intro tag b s h bad
  have hexec : exec (.ruleWrite tag b) s = .next (cmdRuleWrite tag b s) :=
    exec_of_ready h (tag := tag) (c := .ruleWrite b) rfl
  rw [hexec]
  refine ⟨fun ho => ?_, fun ho hbad => ?_, fun ho hgood => ?_⟩
  · rw [cmdRuleWrite, if_pos ho]
  · rw [cmdRuleWrite, if_neg (by rw [ho]; nofun), (ruleOfBlock_eq_none b).2 hbad]
  · obtain ⟨n, r, hr, hn, hbytes⟩ := ruleOfBlock_stores (b := b) hgood
    exact ⟨n, r, hn, by rw [cmdRuleWrite, if_neg (by rw [ho]; nofun), hr], hbytes⟩

/-- Settles O24, by the number's bound. -/
theorem ruleReadReturnsTheStoredRule : Obligations.RuleReadReturnsTheStoredRule := by
  unfold Obligations.RuleReadReturnsTheStoredRule
  intro tag number s h
  have hexec : exec (.ruleRead tag number) s = .next (cmdRuleRead tag number s) :=
    exec_of_ready h (tag := tag) (c := .ruleRead number) rfl
  rw [hexec]
  constructor
  · rintro ⟨n, hn⟩ rfl
    exact congrArg _ (dif_pos hn)
  · intro hn
    exact congrArg _ (dif_neg (by omega))
end

section
/-! Proofs: the Rule Matcher: when a rule holds, bit by bit, and which rule wins (R49, R50, R53). -/
namespace Sys2Proof.Machine

variable {rules : Vector Rule 64} {prev : Option (Fin 64)} {q : Request}

/-- Two words agree under a mask exactly where every selected bit is equal (R49). -/
theorem maskedEq_iff (mask value word : Word) :
    maskedEq mask value word = true ↔
      ∀ b : Nat, b < 16 → mask.getLsbD b = true → word.getLsbD b = value.getLsbD b := by
  rw [maskedEq, beq_iff_eq]
  constructor
  · intro h b _ hb
    simpa [hb] using congrArg (·.getLsbD b) h
  · intro h
    refine BitVec.eq_of_getLsbD_eq fun b hb => ?_
    rw [BitVec.getLsbD_and, BitVec.getLsbD_and]
    cases hm : mask.getLsbD b with
    | false => simp
    | true => rw [h b hb hm]

/-- The conditions of R49, one for each field of the rule. -/
theorem rule_holds_iff (r : Rule) (n : Fin 64) :
    r.holds n prev q = true ↔
      r.enabled = true ∧
      (r.kind = .any ∨ (r.kind = .write ∧ q.op ≠ .read) ∨ (r.kind = .read ∧ q.op = .read)) ∧
      (∀ b : Nat, b < 16 → r.addrMask.getLsbD b = true → q.address.getLsbD b = r.addrValue.getLsbD b) ∧
      (∀ d, q.op = .write d → ∀ b : Nat, b < 16 → r.dataMask.getLsbD b = true →
        d.getLsbD b = r.dataValue.getLsbD b) ∧
      (r.chain = true → ∃ k : Fin 64, prev = some k ∧ k.val + 1 = n.val) := by
  have hchain : (!r.chain || (prev.map fun k => k.val + 1) == some n.val) = true ↔
      (r.chain = true → ∃ k : Fin 64, prev = some k ∧ k.val + 1 = n.val) := by
    cases r.chain <;> simp
  unfold Rule.holds
  simp only [Bool.and_eq_true, hchain, maskedEq_iff, and_assoc]
  cases q.op with
  | write d => simp [DieOp.kind, maskedEq_iff]
  | read => simp [DieOp.kind]

/-- The lowest-numbered rule that holds wins (R50). -/
theorem winningRule_of_lowest {n : Fin 64} (hn : (rules[n]).holds n prev q = true)
    (hlow : ∀ m : Fin 64, m.val < n.val → ¬ (rules[m]).holds m prev q = true) : winningRule rules prev q = some n := by
  refine List.find?_eq_some_iff_getElem.2 ⟨hn, n.val, by simp, by simp, fun j hj => ?_⟩
  simpa using hlow ⟨j, by omega⟩ hj

theorem winningRule_of_none (h : ∀ n : Fin 64, ¬ (rules[n]).holds n prev q = true) : winningRule rules prev q = none :=
  List.find?_eq_none.2 fun n _ => h n

end Sys2Proof.Machine

open Sys2Proof Sys2Proof.Machine

/-- Settles O44: the statement's conditions are those of `Rule.holds` (`rule_holds_iff`). -/
theorem lowestRuleWins : Obligations.LowestRuleWins := by
  unfold Obligations.LowestRuleWins
  intro rules prev q holds
  have hholds : ∀ n, holds n ↔ (rules[n]).holds n prev q = true := fun n => (rule_holds_iff _ n).symm
  refine ⟨fun n hn hlow => ?_, fun hnone => ?_⟩
  · rw [matchRecord, winningRule_of_lowest ((hholds n).1 hn) fun m hm => mt (hholds m).2 (hlow m hm)]
  · rw [matchRecord, winningRule_of_none fun n => mt (hholds n).2 (hnone n)]
end

section
/-! Proofs: a port's result, upstream or into its merge record (R63, R103, R115, R116). -/
namespace Sys2Proof.Machine

variable {s : State}

theorem mem_membersOf {m : BitVec 16} {i : SiteId} : i ∈ membersOf m ↔ m.getLsbD i.val = true := by
  simp [membersOf, allSites]

/-- A result that comes to a merge record in use (R115, R116). -/
theorem deliverMember_eq {ref : MergeRef} {m : MergeRecord} (h : s.merge[ref.record] = some m) (res : MemberResult) :
    s.deliverMember ref res =
      if ({ m with slots := m.slots.set ref.member (some res) } : MergeRecord).complete then
        ({ s with merge := s.merge.set ref.record none } : State).emit
          (mergedResponse { m with slots := m.slots.set ref.member (some res) })
      else { s with merge := s.merge.set ref.record (some { m with slots := m.slots.set ref.member (some res) }) } := by
  rw [State.deliverMember, h]

theorem complete_eq_true_iff (m : MergeRecord) :
    m.complete = true ↔ ∀ i : SiteId, m.members.getLsbD i.val = true → ∃ res, m.slots[i] = some res := by
  simp only [MergeRecord.complete, List.all_eq_true, mem_membersOf, Option.isSome_iff_exists]

/-- The merged response of a record whose every member is done (R116). -/
theorem mergedResponse_eq {m : MergeRecord} {result : SiteId → MemberResult}
    (h : ∀ i : SiteId, m.members.getLsbD i.val = true → m.slots[i] = some (result i)) :
    mergedResponse m =
      { tag := m.tag, site := m.group,
        status := if ∀ i ∈ membersOf m.members, (result i).status = .ok then .ok else .partialOk,
        payload := (membersOf m.members).flatMap fun i => (result i).bytes } := by
  have hresults : memberResults m.members m.slots = (membersOf m.members).map result := by
    rw [memberResults, ← List.filterMap_eq_map]
    exact List.filterMap_congr fun i hi => h i (mem_membersOf.1 hi)
  simp only [mergedResponse, hresults, List.flatMap_map, List.all_map, List.all_eq_true,
    Function.comp_apply, beq_iff_eq]

end Sys2Proof.Machine

open Sys2Proof Sys2Proof.Machine

/-- Settles O48, by whether the request has a merge record, and whether a member's slot is left empty. -/
theorem lastMemberProducesTheResponse : Obligations.LastMemberProducesTheResponse := by
  unfold Obligations.LastMemberProducesTheResponse
  intro r status word s
  constructor
  case left =>
    intro hr
    rw [State.deliver, hr]
    cases word <;> rfl
  case right =>
    intro ref m hr hm _ slots
    have hdeliver : s.deliver r status word = s.deliverMember ref { status := status, word := word } := by
      rw [State.deliver, hr]
    rw [hdeliver, deliverMember_eq hm]
    constructor
    case left =>
      rintro ⟨i, hne, hi, hnone⟩
      refine if_neg fun hc => ?_
      obtain ⟨res, hres⟩ := (complete_eq_true_iff _).1 hc i hi
      have hv : ref.member.val ≠ i.val := fun hv => hne (Fin.ext hv.symm)
      have hslot : slots[i] = none := by simpa [slots, hv] using hnone
      cases hres.symm.trans hslot
    case right =>
      intro result hdone members
      have hfull : ({ m with slots := slots } : MergeRecord).complete = true :=
        (complete_eq_true_iff _).2 fun i hi => ⟨_, hdone i hi⟩
      rw [if_pos hfull, mergedResponse_eq hdone]
      rfl
end

section
/-! Proofs: a die response, in every state of its port (R63, R88, R91, R94). -/
namespace Sys2Proof.Machine

variable {s : State} {p : PortId}

theorem exec_dieResponse_busy (hrun : s.phase ≠ .held) {tx : Transaction} {n : Nat} (h : (s.port p).state = .busy tx n)
    (a : DieAnswer) :
    exec (.dieResponse p a) s = .next
      ((s.endTransaction p tx (tx.request.op.outcome a) .idle).startPort p).completeAndRelease := by
  have hbusy : s.inFlight p = true := by rw [State.inFlight, h]; rfl
  show execDieResponse p a s = _
  rw [execDieResponse, whileRunning_of_running hrun, if_pos hbusy, State.dieResponds, h]

theorem exec_dieResponse_notBusy (hrun : s.phase ≠ .held) (h : (s.port p).state.isBusy = false) (a : DieAnswer) :
    exec (.dieResponse p a) s = .next (s.dieResponds p a) := by
  have hbusy : ¬ s.inFlight p = true := by rw [State.inFlight, h]; nofun
  show execDieResponse p a s = _
  rw [execDieResponse, whileRunning_of_running hrun, if_neg hbusy]

/-- How the port reads a die response: OK or NAK (R88). -/
theorem outcome_eq (op : DieOp) (a : DieAnswer) :
    op.outcome a =
      if a.parityGood = true ∧ a.positive = true then
        match op, a.word with
        | .read, some w => .ok (some w)
        | .write _, none => .ok none
        | _, _ => .nak
      else .nak := by
  unfold DieOp.outcome
  cases a.parityGood <;> cases a.positive <;> rfl

theorem outcome_ok_or_nak (op : DieOp) (a : DieAnswer) : (∃ w, op.outcome a = .ok w) ∨ op.outcome a = .nak := by
  rw [outcome_eq]
  split
  · split <;> simp
  · exact .inr rfl

end Sys2Proof.Machine

open Sys2Proof Sys2Proof.Machine

/-- Settles O49, by the state of the port. -/
theorem dieResponseEndsTheTransaction : Obligations.DieResponseEndsTheTransaction := by
  unfold Obligations.DieResponseEndsTheTransaction
  intro p a s hrun
  refine ⟨?parked, ?late, ?busy⟩
  case parked =>
    intro cause h
    rw [exec_dieResponse_notBusy hrun (by rw [h]; rfl), State.dieResponds, h]
  case late =>
    intro h
    have hb : (s.port p).state.isBusy = false := by rcases h with h | ⟨n, h⟩ <;> rw [h] <;> rfl
    rw [exec_dieResponse_notBusy hrun hb, State.dieResponds]
    rcases h with h | ⟨n, h⟩ <;> rw [h] <;> rfl
  case busy =>
    intro tx n h o word
    have ho : tx.request.op.outcome a = o := (outcome_eq _ _).trans rfl
    have hreply : (s.ctx p).responseOf tx.record.action o = (if o.isOk = true then .ok else .dieNak, word) := by
      rcases outcome_ok_or_nak tx.request.op a with ⟨w, hw⟩ | hw <;> rw [ho] at hw <;> simp only [word, hw]
      · cases w with
        | none => cases tx.record.action <;> rfl
        | some w => cases tx.record.action <;> rfl
      · rfl
    rw [exec_dieResponse_busy hrun h, ho, State.endTransaction, hreply]
end

section
/-! Proofs: a port's starts read no image of its context, but for the word of an injected write (R9, R70, R86). -/
namespace Sys2Proof.Machine

/-! ### A context with another image (R64) -/

/-- The context with other missing masks and another image. -/
def Context.withImage (c : Context) (image : Option (Vector Word 17)) (missing : Vector Word 17) : Context :=
  { c with image := image, missing := missing }

/-- The state with other missing masks and another image in one context. -/
def State.withImage (s : State) (p : PortId) (image : Option (Vector Word 17)) (missing : Vector Word 17) : State :=
  s.setCtx p ((s.ctx p).withImage image missing)

/-- `t` differs from `s` at most in image and missing masks of one context, and in what its port has in flight. -/
def State.ImageApart (p : PortId) (s t : State) : Prop :=
  ∃ image missing st, t = (s.withImage p image missing).setPortState p st ∧ st.isBusy = (s.port p).state.isBusy

variable {s t : State} {p : PortId} {image : Option (Vector Word 17)} {missing : Vector Word 17}

@[simp] theorem withImage_port (q : PortId) : (s.withImage p image missing).port q = s.port q := rfl

@[simp] theorem withImage_ctx_self : (s.withImage p image missing).ctx p = (s.ctx p).withImage image missing :=
  ctx_setCtx_self ..

@[simp] theorem withImage_state (c : Context) : (c.withImage image missing).state = c.state := rfl

@[simp] theorem setCtx_self : s.setCtx p (s.ctx p) = s := by simp [State.setCtx, State.ctx]

@[simp] theorem setPort_self : s.setPort p (s.port p) = s := by simp [State.setPort, State.port]

@[simp] theorem setPortState_self : s.setPortState p (s.port p).state = s := setPort_self

theorem imageApart_withImage : s.ImageApart p (s.withImage p image missing) :=
  ⟨image, missing, (s.port p).state, (setPortState_self (s := s.withImage p image missing)).symm, rfl⟩

theorem imageApart_refl : s.ImageApart p s :=
  ⟨(s.ctx p).image, (s.ctx p).missing, (s.port p).state, by
    rw [State.withImage, Context.withImage, setCtx_self, setPortState_self], rfl⟩

/-- What two such states have in common. -/
theorem State.ImageApart.shows (h : s.ImageApart p t) :
    s.link = t.link ∧ s.merge = t.merge ∧ ({ s with contexts := t.contexts, ports := t.ports } : State) = t ∧
    (∀ q, q ≠ p → s.ctx q = t.ctx q ∧ s.port q = t.port q) ∧
    ({ s.ctx p with image := (t.ctx p).image, missing := (t.ctx p).missing } : Context) = t.ctx p ∧
    (s.port p).queue = (t.port p).queue ∧ (s.port p).prevRule = (t.port p).prevRule ∧
    (s.port p).state.isBusy = (t.port p).state.isBusy := by
  obtain ⟨image, missing, st, rfl, hbusy⟩ := h
  refine ⟨rfl, rfl, rfl, fun q hq => ⟨?_, ?_⟩, ?_, ?_, ?_, ?_⟩
  · rw [setPortState_ctx, State.withImage, ctx_setCtx_ne _ _ hq]
  · rw [port_setPortState_ne _ _ hq, withImage_port]
  · rw [setPortState_ctx, withImage_ctx_self]
    rfl
  all_goals rw [port_setPortState_self, withImage_port]
  exact hbusy.symm

/-! ### Starts (R3, R53, R86) -/

/-- Only the word of an injected write is read from the image (R70). -/
theorem startAnswer_withImage (c : Context) (a : Action) :
    (c.withImage image missing).startAnswer a = c.startAnswer a ∨
      ∃ w w', c.startAnswer a = .substitute w ∧ (c.withImage image missing).startAnswer a = .substitute w' := by
  cases a with
  | inject w =>
    by_cases h : c.state = .held ∨ c.state = .loading ∨ c.state = .reburn
    · exact .inr ⟨_, _, startAnswer_inject h, startAnswer_inject h⟩
    · exact .inl ((startAnswer_inject_refused (c := c.withImage image missing) h).trans
        (startAnswer_inject_refused h).symm)
  | _ => exact .inl rfl

theorem atStart_withImage (c : Context) (a : Action) :
    (c.withImage image missing).atStart a = (c.atStart a).withImage image missing := by
  unfold Context.atStart
  rw [withImage_state]
  split <;> rfl

theorem emit_setCtx (c : Context) (r : Response) : (s.setCtx p c).emit r = (s.emit r).setCtx p c := by
  unfold State.emit State.setCtx
  dsimp only
  split <;> rfl

/-- A delivery neither reads nor changes the contexts. -/
theorem deliver_setCtx (c : Context) (r : Request) (st : Status) (w : Option Word) :
    (s.setCtx p c).deliver r st w = (s.deliver r st w).setCtx p c := by
  unfold State.deliver
  cases r.merge with
  | none => exact emit_setCtx ..
  | some ref =>
    unfold State.deliverMember
    simp only [setCtx_merge]
    cases s.merge[ref.record] with
    | none => rfl
    | some m =>
      dsimp only
      split
      · exact emit_setCtx (s := { s with merge := s.merge.set ref.record none }) ..
      · rfl

theorem deliver_withImage (r : Request) (st : Status) (w : Option Word) :
    (s.withImage p image missing).deliver r st w = (s.deliver r st w).withImage p image missing := by
  rw [State.withImage, deliver_setCtx, State.withImage, deliver_ctx]

/-- Two sent requests with one match record leave the port BUSY, whatever their data words (R86, R87). -/
theorem imageApart_sendRequest (rest : List Request) (rule : Option (Fin 64)) (q q' : Request) (m : MatchRecord) :
    ((s.dequeued p rest rule).sendRequest p q m).ImageApart p
      (((s.withImage p image missing).dequeued p rest rule).sendRequest p q' m) := by
  refine ⟨image, missing, .busy ⟨q', m, s.windowOf m.action, (s.port p).gear⟩ (s.windowOf m.action), ?_, ?_⟩
  · rw [dequeued_sendRequest, dequeued_sendRequest, withImage_ctx_self, atStart_withImage]
    simp [State.withImage, State.setPortState, State.setPort, State.setCtx, State.port, State.ctx]
    rfl
  · rw [dequeued_sendRequest]
    simp [State.port, PortState.isBusy]

theorem imageApart_startPort {queue : List Request} (hq : (s.port p).queue = queue) :
    (s.startPort p).ImageApart p ((s.withImage p image missing).startPort p) := by
  induction queue generalizing s with
  | nil =>
    rw [startPort_rests (.inr hq), startPort_rests (s := s.withImage p image missing) (.inr hq)]
    exact imageApart_withImage
  | cons r rest ih =>
    by_cases hi : (s.port p).state = .idle
    swap
    · rw [startPort_rests (.inl hi), startPort_rests (s := s.withImage p image missing) (.inl hi)]
      exact imageApart_withImage
    have answered : ∀ (st : Status) (rule : Option (Fin 64)),
        (((s.dequeued p rest rule).deliver r st none).startPort p).ImageApart p
          ((((s.withImage p image missing).dequeued p rest rule).deliver r st none).startPort p) := by
      intro st rule
      have hq' : (((s.dequeued p rest rule).deliver r st none).port p).queue = rest := by
        rw [deliver_port, State.dequeued, port_setPort_self]
      exact deliver_withImage (s := s.dequeued p rest rule) r st none ▸ ih hq'
    obtain ⟨m, hm⟩ : ∃ m, matchRecord s.rules (s.port p).prevRule r = m := ⟨_, rfl⟩
    by_cases hb : m.action = .block
    · rw [startPort_blocked hi hq hm hb, startPort_blocked (s := s.withImage p image missing) hi hq hm hb]
      exact answered ..
    have ha := withImage_ctx_self (s := s) (p := p) (image := image) (missing := missing)
    rcases startAnswer_withImage (image := image) (missing := missing) (s.ctx p) m.action with hsame | ⟨w, w', hw, hw'⟩
    · rw [← ha] at hsame
      cases hans : (s.ctx p).startAnswer m.action with
      | refused =>
        rw [startPort_refused hi hq hm hb hans, startPort_refused (s := s.withImage p image missing) hi hq hm hb
          (hsame.trans hans)]
        exact answered ..
      | send =>
        rw [startPort_sent hi hq hm hb hans, startPort_sent (s := s.withImage p image missing) hi hq hm hb
          (hsame.trans hans)]
        exact imageApart_sendRequest ..
      | substitute w =>
        rw [startPort_substituted hi hq hm hb hans, startPort_substituted (s := s.withImage p image missing) hi hq hm hb
          (hsame.trans hans)]
        exact imageApart_sendRequest ..
    · rw [← ha] at hw'
      rw [startPort_substituted hi hq hm hb hw,
        startPort_substituted (s := s.withImage p image missing) hi hq hm hb hw']
      exact imageApart_sendRequest ..

end Sys2Proof.Machine
end

section
/-! Proofs: what the word read back by a VERIFY can change (R59, R72..R76). -/
namespace Sys2Proof.Machine

variable {s : State} {p : PortId} {image : Option (Vector Word 17)} {missing : Vector Word 17}

/-! ### A settlement reads no image (R24) -/

theorem withImage_own (s : State) (p : PortId) : s.withImage p (s.ctx p).image (s.ctx p).missing = s :=
  setCtx_self

theorem setCtx_withImage (c : Context) :
    s.setCtx p (c.withImage image missing) = (s.setCtx p c).withImage p image missing := by
  rw [State.withImage, ctx_setCtx_self, setCtx_setCtx]

theorem withImage_ctx_state (q : PortId) : ((s.withImage p image missing).ctx q).state = (s.ctx q).state := by
  rw [State.withImage, ctx_setCtx]
  split
  · subst q
    rfl
  · rfl

theorem touchdownComplete_withImage : (s.withImage p image missing).touchdownComplete = s.touchdownComplete := by
  unfold State.touchdownComplete
  simp only [withImage_ctx_state]
  rfl

theorem appendRecord_withImage (r : LogRecord) :
    (s.withImage p image missing).appendRecord r = (s.appendRecord r).withImage p image missing := by
  unfold State.appendRecord
  dsimp only
  rw [State.withImage, setCtx_params, setCtx_log]
  split <;> rfl

theorem settleClaim_withImage (o : MapOutcome) :
    (s.withImage p image missing).settleClaim p o = (s.settleClaim p o).withImage p image missing := by
  unfold State.settleClaim
  rw [withImage_ctx_self, show ((s.ctx p).withImage image missing).claim = (s.ctx p).claim from rfl]
  split <;> rfl

theorem closeContext_withImage (v : VerdictRecord) :
    (s.withImage p image missing).closeContext p v = (s.closeContext p v).withImage p none missing := by
  have hclosed : ((s.withImage p image missing).setCtx p (((s.withImage p image missing).ctx p).closed v)).switchOff p =
      ((s.setCtx p ((s.ctx p).closed v)).switchOff p).withImage p none missing := by
    rw [withImage_ctx_self, State.withImage, setCtx_setCtx]
    exact congrArg (fun t : State => t.switchOff p) (setCtx_withImage (image := none) ((s.ctx p).closed v))
  unfold State.closeContext
  dsimp only
  rw [hclosed, touchdownComplete_withImage]
  split <;> rfl

theorem settleVoided_withImage (why : VoidReason) :
    (s.withImage p image missing).settleVoided p why = (s.settleVoided p why).withImage p none missing := by
  have hlog : (s.withImage p image missing).logRecordOf p .voided (some why) = s.logRecordOf p .voided (some why) := by
    unfold State.logRecordOf
    rw [withImage_ctx_self]
    rfl
  unfold State.settleVoided
  dsimp only
  rw [hlog, appendRecord_withImage, settleClaim_withImage, withImage_ctx_self]
  exact closeContext_withImage (s := State.raise { State.settleClaim _ p _ with counters := _ } .keyVoid) _

/-! ### The end of a verify in CHECKING (R72, R73, R75, R76) -/

theorem missingBits_eq_zero_iff {expected read : Word} (h : extraBits expected read = 0) :
    missingBits expected read = 0 ↔ classify expected read = .matched := by
  rw [classify, if_neg (not_not.2 h)]
  split <;> simp_all

theorem afterVerify_withImage (c : Context) (k : Fin 17) (w w' : Word) :
    c.afterVerify k w' = (c.afterVerify k w).withImage c.image (c.afterVerify k w').missing := rfl

theorem afterVerify_matched_iff (c : Context) (k : Fin 17) (w : Word) :
    (∀ v : Fin 17, (c.afterVerify k w).missing[v] = 0) ↔
      missingBits (c.expectedWord k) w = 0 ∧ ∀ v : Fin 17, v ≠ k → c.missing[v] = 0 := by
  have hget : ∀ v : Fin 17, (c.afterVerify k w).missing[v] =
      if v = k then missingBits (c.expectedWord k) w else c.missing[v] := fun v => by
    simp only [Context.afterVerify, Fin.getElem_fin, Vector.getElem_set, Fin.ext_iff, eq_comm]
  simp only [hget]
  constructor
  · intro h
    exact ⟨by simpa using h k, fun v hv => by simpa [hv] using h v⟩
  · rintro ⟨hk, h⟩ v
    split
    · exact hk
    · exact h v ‹_›

/-- Two words of one class lead to the same end of a verify, but for the missing masks and the image made of them. -/
theorem verifyEnd_apart {k : Fin 17} {w w' : Word}
    (h : classify ((s.ctx p).expectedWord k) w = classify ((s.ctx p).expectedWord k) w') :
    ∃ image missing, s.verifyEnd p k w' = (s.verifyEnd p k w).withImage p image missing := by
  have hextra : extraBits ((s.ctx p).expectedWord k) w = 0 ↔ extraBits ((s.ctx p).expectedWord k) w' = 0 := by
    rw [← not_iff_not, ← ne_eq, ← classify_eq_fatal, h, classify_eq_fatal]
  by_cases hx : extraBits ((s.ctx p).expectedWord k) w = 0
  swap
  · rw [verifyEnd_fatal hx, verifyEnd_fatal (mt hextra.2 hx)]
    exact ⟨_, _, (withImage_own _ p).symm⟩
  have hx' := hextra.1 hx
  by_cases hv : (s.ctx p).verified ||| wordBit k = fullMask
  swap
  · rw [verifyEnd_partial hx hv, verifyEnd_partial hx' hv, afterVerify_withImage (s.ctx p) k w w', setCtx_withImage]
    exact ⟨_, _, rfl⟩
  have hpass : (∀ v : Fin 17, ((s.ctx p).afterVerify k w').missing[v] = 0) ↔
      ∀ v : Fin 17, ((s.ctx p).afterVerify k w).missing[v] = 0 := by
    rw [afterVerify_matched_iff, afterVerify_matched_iff, missingBits_eq_zero_iff hx, missingBits_eq_zero_iff hx', h]
  rw [verifyEnd_last hx hv, verifyEnd_last hx' hv, passEnd_setCtx, passEnd_setCtx]
  simp only [hpass]
  split
  · exact ⟨_, _, setCtx_withImage { (s.ctx p).afterVerify k w with state := .verified }⟩
  · show ∃ image missing, (if s.params.burnLimit ≤ (s.ctx p).attempts then _ else _) =
      State.withImage (if s.params.burnLimit ≤ (s.ctx p).attempts then _ else _) p image missing
    split
    · rw [afterVerify_withImage (s.ctx p) k w w', setCtx_withImage, settleVoided_withImage]
      exact ⟨_, _, rfl⟩
    · exact ⟨_, _, setCtx_withImage ((s.ctx p).afterVerify k w).startReburn⟩

/-- The verdict word tells the class and one count (R74). -/
theorem verdictWord_congr {expected w w' : Word} (hclass : classify expected w = classify expected w')
    (hextra : oneBits (extraBits expected w) = oneBits (extraBits expected w'))
    (hmissing : oneBits (missingBits expected w) = oneBits (missingBits expected w')) :
    verdictWord expected w = verdictWord expected w' := by
  unfold verdictWord
  rw [hclass, hextra, hmissing]

/-! ### The end of a VERIFY transaction (R59, R91) -/

section transaction

variable {tx : Transaction} {k : Fin 17} {w w' : Word} (hk : tx.record.action = .verify k)

include hk

/-- Outside CHECKING nothing reads the word (R59, R74). -/
theorem endTransaction_verify_blind (hs : (s.ctx p).state ≠ .checking) (after : PortState) :
    s.endTransaction p tx (.ok (some w)) after = s.endTransaction p tx (.ok (some w')) after := by
  have hact : ∀ t : State, (t.ctx p).state ≠ .checking →
      t.contextAtEnd p (.verify k) (.ok (some w)) = t.contextAtEnd p (.verify k) (.ok (some w')) := by
    intro t ht
    cases hd : (t.ctx p).state.isDraining with
    | false => rw [contextAtEnd_verify_idle hd k (.inl ht), contextAtEnd_verify_idle hd k (.inl ht)]
    | true =>
      obtain ⟨cause, hc⟩ : ∃ cause, (t.ctx p).state = .draining cause := by
        cases hst : (t.ctx p).state with
        | draining cause => exact ⟨cause, rfl⟩
        | _ => simp [hst, ContextState.isDraining] at hd
      rw [contextAtEnd_draining hc, contextAtEnd_draining hc]
      rfl
  unfold State.endTransaction
  rw [hk, hact (s.setPortState p after) hs]
  simp only [Context.responseOf, if_neg hs]

/-- In CHECKING two words with one verdict word lead to ends that differ in image and missing masks alone. -/
theorem endTransaction_verify_apart (hs : (s.ctx p).state = .checking)
    (hclass : classify ((s.ctx p).expectedWord k) w = classify ((s.ctx p).expectedWord k) w')
    (hword : verdictWord ((s.ctx p).expectedWord k) w = verdictWord ((s.ctx p).expectedWord k) w') (after : PortState) :
    ∃ image missing, s.endTransaction p tx (.ok (some w')) after =
      (s.endTransaction p tx (.ok (some w)) after).withImage p image missing := by
  obtain ⟨image, missing, h⟩ := verifyEnd_apart (s := s.setPortState p after) hclass
  refine ⟨image, missing, ?_⟩
  unfold State.endTransaction
  rw [hk, contextAtEnd_verify (s := s.setPortState p after) hs, contextAtEnd_verify (s := s.setPortState p after) hs, h,
    deliver_withImage]
  simp only [Context.responseOf, hword]

end transaction

/-- A response with a word: OK with it, or NAK whatever it is (R88). -/
theorem outcome_of_word (op : DieOp) (positive parityGood : Bool) :
    (∀ w, op.outcome { positive := positive, parityGood := parityGood, word := some w } = .ok (some w)) ∨
      ∀ w, op.outcome { positive := positive, parityGood := parityGood, word := some w } = .nak := by
  simp only [outcome_eq]
  by_cases h : parityGood = true ∧ positive = true
  · cases op with
    | write d => exact .inr fun w => if_pos h
    | read => exact .inl fun w => if_pos h
  · exact .inr fun w => if_neg h

theorem exec_dieResponse_held (h : s.phase = .held) (a : DieAnswer) : exec (.dieResponse p a) s = .next s := by
  show execDieResponse p a s = _
  rw [execDieResponse, whileRunning, if_pos h]
  rfl

theorem completeAndRelease_of_not_ending (h : s.td.state ≠ .touchdownEnding) : s.completeAndRelease = s := by
  have hdue : s.completionDue = none := by
    unfold State.completionDue
    split
    · rw [if_neg fun hq => h hq.1]
    · rfl
  rw [State.completeAndRelease, hdue]

end Sys2Proof.Machine

open Sys2Proof Sys2Proof.Machine

/-- Settles O50: outside CHECKING nothing reads the word (`endTransaction_verify_blind`); in CHECKING the ends differ in
the image alone (`endTransaction_verify_apart`), and the starts that follow show none of it (`imageApart_startPort`). -/
theorem verifyWordNeverLeaves : Obligations.VerifyWordNeverLeaves := by
  unfold Obligations.VerifyWordNeverLeaves
  refine ⟨?blind, fun _ _ _ => verdictWord_congr, ?checking⟩
  case blind =>
    intro p s tx n k positive parityGood w w' hbusy hk hs
    by_cases hrun : s.phase = .held
    · rw [exec_dieResponse_held hrun, exec_dieResponse_held hrun]
    rw [exec_dieResponse_busy hrun hbusy, exec_dieResponse_busy hrun hbusy]
    rcases outcome_of_word tx.request.op positive parityGood with ho | ho
    · rw [ho, ho, endTransaction_verify_blind hk hs]
    · rw [ho, ho]
  case checking =>
    intro p s tx n k positive parityGood w w' hbusy hk hs hending expected hclass hextra hmissing
    have hword := verdictWord_congr hclass hextra hmissing
    suffices h : ∃ t t' : State,
        exec (.dieResponse p { positive := positive, parityGood := parityGood, word := some w }) s = .next t ∧
        exec (.dieResponse p { positive := positive, parityGood := parityGood, word := some w' }) s = .next t' ∧
        t.ImageApart p t' by
      obtain ⟨t, t', ht, ht', hap⟩ := h
      exact ⟨t, t', ht, ht', hap.shows⟩
    by_cases hrun : s.phase = .held
    · exact ⟨s, s, exec_dieResponse_held hrun _, exec_dieResponse_held hrun _, imageApart_refl⟩
    have hexec : ∀ a, exec (.dieResponse p a) s =
        .next ((s.endTransaction p tx (tx.request.op.outcome a) .idle).startPort p) := fun a => by
      rw [exec_dieResponse_busy hrun hbusy, completeAndRelease_of_not_ending (by simpa using hending)]
    refine ⟨_, _, hexec _, hexec _, ?_⟩
    rcases outcome_of_word tx.request.op positive parityGood with ho | ho
    · obtain ⟨image, missing, h⟩ := endTransaction_verify_apart hk hs hclass hword .idle
      rw [ho, ho, h]
      exact imageApart_startPort rfl
    · rw [ho, ho]
      exact imageApart_refl
end

section
/-! Proofs: what every row does to the settings: parameters, gears, rules and site map (R45, R95, R104, R171). -/
namespace Sys2Proof.Machine

/-- `t` is reached from `s` by reset, by accepted writes of parameters, rules and site map entries, and by changes that
touch none of these. -/
inductive State.Configured : State → State → Prop where
  | same {s t : State} (params : t.params = s.params) (rules : t.rules = s.rules) (siteMap : t.siteMap = s.siteMap)
      (gear : ∀ p, (t.port p).gear = (s.port p).gear) : State.Configured s t
  | reset (s : State) : State.Configured s s.taken
  | param (s : State) (q : Param) (v : Word) : State.Configured s (s.setParam q v)
  | rule (s : State) (n : Fin 64) {r : Rule} (legal : r.Legal n) :
      State.Configured s { s with rules := s.rules.set n r }
  | site (s : State) (i : SiteId) {e : MapSlot} (apart : ¬ (e.enabled = true ∧ s.siteConflict i e.port = true)) :
      State.Configured s { s with siteMap := s.siteMap.set i e }
  | trans {s t u : State} (a : State.Configured s t) (b : State.Configured t u) : State.Configured s u

variable {s t u : State}

/-! ### What it keeps -/

theorem taken_paramsInRange (s : State) : s.taken.ParamsInRange := (core_taken s).params

theorem State.ParamsInRange.setParam (h : s.ParamsInRange) (q : Param) (v : Word) : (s.setParam q v).ParamsInRange := by
  obtain ⟨hresp, hburn, hcode, hscale, hlimit, hlow, hhigh, hgear⟩ := h
  cases q with
  | respTmo => exact ⟨clamp_le _ _ _ (by decide), hburn, hcode, hscale, hlimit, hlow, hhigh, hgear⟩
  | burnTmo => exact ⟨hresp, clamp_le _ _ _ (by decide), hcode, hscale, hlimit, hlow, hhigh, hgear⟩
  | settleCode => exact ⟨hresp, hburn, clamp_le _ _ _ (by decide), hscale, hlimit, hlow, hhigh, hgear⟩
  | settleScale => exact ⟨hresp, hburn, hcode, (clamp_le _ _ _ (by decide)).2, hlimit, hlow, hhigh, hgear⟩
  | burnLimit => exact ⟨hresp, hburn, hcode, hscale, clamp_le _ _ _ (by decide), hlow, hhigh, hgear⟩
  | poolLow => exact ⟨hresp, hburn, hcode, hscale, hlimit, (clamp_le _ _ _ (by decide)).2, hhigh, hgear⟩
  | logHigh => exact ⟨hresp, hburn, hcode, hscale, hlimit, hlow, (clamp_le _ _ _ (by decide)).2, hgear⟩
  | eventEnable => exact ⟨hresp, hburn, hcode, hscale, hlimit, hlow, hhigh, hgear⟩
  | gear p =>
    refine ⟨hresp, hburn, hcode, hscale, hlimit, hlow, hhigh, fun q => ?_⟩
    rw [State.setParam, port_setPort]
    split
    · exact (clamp_le _ _ _ (by decide)).2
    · exact hgear q

theorem State.ParamsInRange.configured (h : s.ParamsInRange) (hc : s.Configured t) : t.ParamsInRange := by
  induction hc with
  | same hparams _ _ hgear => exact paramsInRange_of h hparams fun p => by rw [hgear]; exact h.gear p
  | reset s => exact taken_paramsInRange s
  | param s q v => exact h.setParam q v
  | rule | site => exact paramsInRange_of h rfl h.gear
  | trans _ _ ih ih' => exact ih' (ih h)

theorem setParam_rules (s : State) (q : Param) (v : Word) : (s.setParam q v).rules = s.rules := by cases q <;> rfl

theorem setParam_siteMap (s : State) (q : Param) (v : Word) : (s.setParam q v).siteMap = s.siteMap := by
  cases q <;> rfl

theorem State.RulesLegal.congr (h : s.RulesLegal) (e : t.rules = s.rules) : t.RulesLegal := by
  unfold State.RulesLegal
  rw [e]
  exact h

theorem taken_rulesLegal (s : State) : s.taken.RulesLegal := by
  intro n
  have hn : s.taken.rules[n] = Rule.reset := by simp [State.taken, State.reset]
  rw [hn]
  exact ⟨rfl, fun _ => rfl, rfl, rfl, nofun⟩

theorem State.RulesLegal.configured (h : s.RulesLegal) (hc : s.Configured t) : t.RulesLegal := by
  induction hc with
  | same _ hrules => exact h.congr hrules
  | reset s => exact taken_rulesLegal s
  | param s q v => exact h.congr (setParam_rules s q v)
  | rule s n hr =>
    intro m
    rw [Fin.getElem_fin, Vector.getElem_set]
    split
    · rename_i hm
      exact Fin.ext hm ▸ hr
    · exact h m
  | site => exact h
  | trans _ _ ih ih' => exact ih' (ih h)

theorem State.SitesDistinct.congr (h : s.SitesDistinct) (e : t.siteMap = s.siteMap) : t.SitesDistinct := by
  unfold State.SitesDistinct State.sitePort
  rw [e]
  exact h

theorem siteConflict_eq_true_iff {i : SiteId} {p : PortId} :
    s.siteConflict i p = true ↔ ∃ j : SiteId, j ≠ i ∧ (s.siteMap[j]).enabled = true ∧ s.sitePort j = p := by
  simp [State.siteConflict, State.sitePort, allSites, and_assoc]

/-- An entry that names no port of another enabled entry leaves the ports apart (R104, R105). -/
theorem State.SitesDistinct.setSite (h : s.SitesDistinct) (i : SiteId) {e : MapSlot}
    (apart : ¬ (e.enabled = true ∧ s.siteConflict i e.port = true)) :
    ({ s with siteMap := s.siteMap.set i e } : State).SitesDistinct := by
  have hget : ∀ j : SiteId, (s.siteMap.set i e)[j] = if j = i then e else s.siteMap[j] := fun j => by
    simp only [Fin.getElem_fin, Vector.getElem_set, Fin.ext_iff, eq_comm]
  have hother : ∀ j : SiteId, j ≠ i → e.enabled = true → (s.siteMap[j]).enabled = true → s.sitePort j ≠ e.port :=
    fun j hj he henabled hport => apart ⟨he, siteConflict_eq_true_iff.2 ⟨j, hj, henabled, hport⟩⟩
  intro j k hj hk hjk
  simp only [State.sitePort, hget] at hj hk hjk
  by_cases hji : j = i <;> by_cases hki : k = i <;> simp only [hji, hki, if_true, if_false] at hj hk hjk ⊢
  · exact absurd hjk.symm (hother k hki hj hk)
  · exact absurd hjk (hother j hji hk hj)
  · exact h j k hj hk hjk

theorem State.SitesDistinct.configured (h : s.SitesDistinct) (hc : s.Configured t) : t.SitesDistinct := by
  induction hc with
  | same _ _ hsiteMap => exact h.congr hsiteMap
  | reset s => exact (core_taken s).sites
  | param s q v => exact h.congr (setParam_siteMap s q v)
  | rule => exact h
  | site s i apart => exact h.setSite i apart
  | trans _ _ ih ih' => exact ih' (ih h)

/-! ### Gears (R95) -/

theorem enqueue_gear (s : State) (p : PortId) (r : Request) (q : PortId) :
    ((s.enqueue p r).port q).gear = (s.port q).gear := by
  rw [port_enqueue]
  split
  · subst q
    rfl
  · rfl

theorem answerQueue_gear (s : State) (p : PortId) (st : Status) (q : PortId) :
    ((s.answerQueue p st).port q).gear = (s.port q).gear := by
  rw [answerQueue_port]
  split
  · subst q
    rfl
  · rfl

theorem startHead_gear (s : State) (p q : PortId) : ((s.startHead p).port q).gear = (s.port q).gear := by
  by_cases hq : q = p
  swap
  · rw [startHead_other s hq]
  subst hq
  unfold State.startHead State.startRequest
  dsimp only
  repeat' split
  all_goals simp [sendRequest_port]

theorem startPort_gear (s : State) (p q : PortId) : ((s.startPort p).port q).gear = (s.port q).gear := by
  have upTo : ∀ (n : Nat) (s : State), ((State.startUpTo n s p).port q).gear = (s.port q).gear := by
    intro n
    induction n with
    | zero => exact fun s => rfl
    | succ n ih =>
      intro s
      unfold State.startUpTo
      split
      · rw [ih, startHead_gear]
      · rfl
  exact upTo _ s

theorem endTransaction_gear (s : State) (p : PortId) (tx : Transaction) (o : TxOutcome) (st : PortState) (q : PortId) :
    ((s.endTransaction p tx o st).port q).gear = (s.port q).gear := by
  rw [endTransaction_port]
  split
  · subst q
    rfl
  · rfl

/-! ### Site frames and the receiver (R109, R162..R165) -/

/-- A site frame is for one site or for a group (R109). -/
theorem siteFrame_gives {P : State → Prop} {f : SiteFrame} (single : ∀ i, P (s.singleFrame f i))
    (group : ∀ m, P (s.groupFrame f m)) (h : P s) : P (s.siteFrame f) := by
  unfold State.siteFrame
  split
  · exact single _
  · split
    · exact group _
    · exact h

/-- What the receiver's moves, discards, responses, commands and site frames keep, a byte keeps. -/
theorem receiveByte_keeps {P : State → Prop} (rx : ∀ s x l n, P s → P (State.setRx s x l n))
    (discard : ∀ s n, P s → P (State.countLinkErrors s n)) (emit : ∀ s r, P s → P (State.emit s r))
    (submit : ∀ s tag c, P s → P (State.submit s tag c)) (site : ∀ s f, P s → P (State.siteFrame s f)) (h : P s)
    (b : Byte) : P (s.receiveByte b) := by
  have control : ∀ s f, P s → P (State.controlFrame s f) := by
    intro s f h
    unfold State.controlFrame
    repeat' split
    iterate 3 exact emit _ _ h
    exact submit _ _ _ h
  have route : ∀ s f, P s → P (State.routeFrame s f) := by
    intro s f h
    unfold State.routeFrame
    repeat' split
    · exact emit _ _ h
    · exact control _ _ h
    · exact site _ _ h
  have header : ∀ bytes, P (s.headerEnds bytes b) := by
    intro bytes
    unfold State.headerEnds
    repeat' split
    · exact discard _ _ (rx _ _ _ _ h)
    · exact rx _ _ _ _ h
    · exact rx _ _ _ _ h
  have frame : ∀ bytes, P (s.frameEnds bytes b) := by
    intro bytes
    unfold State.frameEnds
    dsimp only
    repeat' split
    · exact route _ _ (rx _ _ _ _ h)
    · exact rx _ _ _ _ h
    · exact discard _ _ (rx _ _ _ _ h)
  unfold State.receiveByte
  dsimp only
  cases s.phase with
  | held => exact h
  | released => exact h
  | running =>
    cases s.link.rx <;> dsimp only
    case hunt => split; exacts [rx _ _ _ _ h, h]
    case syncSeen => split_ifs; exacts [rx _ _ _ _ h, h, rx _ _ _ _ h]
    case header => split; exacts [rx _ _ _ _ h, header _]
    case payload => split; exacts [rx _ _ _ _ h, rx _ _ _ _ h]
    case check => split; exacts [rx _ _ _ _ h, frame _]

/-! ### The operations -/

namespace State.Configured

theorem refl (s : State) : s.Configured s := same rfl rfl rfl fun _ => rfl

theorem foldl {α : Type} (f : State → α → State) (h : ∀ (s : State) a, s.Configured (f s a)) (l : List α) :
    ∀ s : State, s.Configured (l.foldl f s) := by
  induction l with
  | nil => exact refl
  | cons a l ih => exact fun s => (h s a).trans (ih _)

theorem emit (s : State) (r : Response) : s.Configured (s.emit r) := same (by simp) (by simp) (by simp) (by simp)

theorem answerQueue (s : State) (p : PortId) (st : Status) : s.Configured (s.answerQueue p st) :=
  same (by simp) (by simp) (by simp) (answerQueue_gear s p st)

theorem startPort (s : State) (p : PortId) : s.Configured (s.startPort p) :=
  same (by simp) (by simp) (by simp) (startPort_gear s p)

theorem endTransaction (s : State) (p : PortId) (tx : Transaction) (o : TxOutcome) (st : PortState) :
    s.Configured (s.endTransaction p tx o st) :=
  same (by simp) (by simp) (by simp) (endTransaction_gear s p tx o st)

theorem dieResponds (s : State) (p : PortId) (a : DieAnswer) : s.Configured (s.dieResponds p a) := by
  unfold State.dieResponds
  split
  · exact refl s
  · exact same (by simp) (by simp) (by simp) (by simp)
  · exact same (by simp) (by simp) (by simp) (by simp)
  · exact (endTransaction ..).trans (startPort ..)

theorem responseTimesOut (s : State) (p : PortId) : s.Configured (s.responseTimesOut p) := by
  unfold State.responseTimesOut
  split
  · exact (same rfl rfl rfl fun _ => rfl : s.Configured (s.raise .dieTimeout)).trans (endTransaction ..)
  · exact refl s

theorem setPort (s : State) (p : PortId) {pt : Port} (h : pt.gear = (s.port p).gear) :
    s.Configured (s.setPort p pt) := by
  refine same rfl rfl rfl fun q => ?_
  rw [port_setPort]
  split
  · subst q
    exact h
  · rfl

theorem breakEnds (s : State) (p : PortId) : s.Configured (s.breakEnds p) := by
  unfold State.breakEnds
  split
  · exact (setPort s p rfl : s.Configured (s.setPortState p .idle)).trans (startPort ..)
  · exact refl s

theorem loseContact (s : State) : s.Configured s.loseContact := by
  refine same (by simp) (by simp) (by simp) fun q => ?_
  rw [loseContact_port]
  split <;> rfl

theorem beginTouchdown (s : State) (m : BitVec 16) : s.Configured (s.beginTouchdown m) :=
  same (by simp) (by simp) (by simp) fun q => by rw [beginTouchdown_port]; rfl

theorem endTouchdown (s : State) (tag : Byte) : s.Configured (s.endTouchdown tag) :=
  same (by simp) (by simp) (by simp) fun q => by rw [endTouchdown_port]

theorem completeTouchdown (s : State) (tag : Byte) : s.Configured (s.completeTouchdown tag) :=
  same (by simp) (by simp) (by simp) fun q => by rw [completeTouchdown_port]; rfl

theorem completeIfQuiet (s : State) : s.Configured s.completeIfQuiet := by
  unfold State.completeIfQuiet
  split
  · exact completeTouchdown _ _
  · exact refl s

theorem unwrapEnds (s : State) (job : UnwrapJob) (r : Option KeyBits) : s.Configured (s.unwrapEnds job r) :=
  same (by simp) (by simp) (by simp) (by simp)

theorem enqueue (s : State) (p : PortId) (r : Request) : s.Configured (s.enqueue p r) :=
  same rfl rfl rfl (enqueue_gear s p r)

theorem offer (s : State) (f : SiteFrame) (p : PortId) : s.Configured (s.offer f p) := by
  unfold State.offer
  split
  · exact (enqueue s p _).trans (startPort _ _)
  · exact emit _ _
  · exact emit _ _

theorem singleFrame (s : State) (f : SiteFrame) (i : SiteId) : s.Configured (s.singleFrame f i) := by
  unfold State.singleFrame
  split
  · exact offer _ _ _
  · exact emit _ _

theorem replicate (s : State) (f : SiteFrame) (k : Fin 8) (l : List SiteId) : s.Configured (s.replicate f k l) :=
  foldl (fun s i => s.enqueue (s.sitePort i) (f.request (some { record := k, member := i })))
    (fun s _ => enqueue s _ _) l s

theorem groupFrame (s : State) (f : SiteFrame) (m : BitVec 16) : s.Configured (s.groupFrame f m) := by
  unfold State.groupFrame
  dsimp only
  repeat' split
  iterate 4 exact emit _ _
  refine trans ?_ (foldl _ startPort _ _)
  refine trans ?_ (replicate _ _ _ _)
  exact same rfl rfl rfl fun _ => rfl

theorem siteFrame (s : State) (f : SiteFrame) : s.Configured (s.siteFrame f) :=
  siteFrame_gives (singleFrame s f) (groupFrame s f) (refl s)

/-! ### The commands -/

/-- A change that touches no setting, and its response. -/
theorem thenEmit (h : s.Configured t) (r : Response) : s.Configured (t.emit r) := h.trans (emit t r)

theorem cmdParamSet (tag id : Byte) (value : Word) (s : State) : s.Configured (cmdParamSet tag id value s) := by
  unfold Machine.cmdParamSet
  split
  · exact emit _ _
  · split
    · exact emit _ _
    · exact (param s _ value).thenEmit _

theorem cmdRuleWrite (tag : Byte) (b : RuleBlock) (s : State) : s.Configured (cmdRuleWrite tag b s) := by
  unfold Machine.cmdRuleWrite
  split
  · exact emit _ _
  · split
    · exact emit _ _
    · exact (rule s _ (ruleOfBlock_legal ‹_›)).thenEmit _

theorem cmdSiteMapWrite (tag site port enabled : Byte) (s : State) :
    s.Configured (cmdSiteMapWrite tag site port enabled s) := by
  unfold Machine.cmdSiteMapWrite
  split
  · exact emit _ _
  · split
    · dsimp only
      split
      · exact emit _ _
      · rename_i apart
        refine thenEmit ?_ _
        exact .site s _ (e := { port := _, enabled := _ }) apart
    · exact emit _ _

theorem cmdStrapSet (tag port directions levels : Byte) (s : State) :
    s.Configured (cmdStrapSet tag port directions levels s) := by
  unfold Machine.cmdStrapSet
  split
  · refine thenEmit ?_ _
    exact setPort s _ rfl
  · exact emit _ _

theorem cmdTouchdownBegin (tag : Byte) (enable : Word) (s : State) : s.Configured (cmdTouchdownBegin tag enable s) := by
  unfold Machine.cmdTouchdownBegin
  dsimp only
  split_ifs
  iterate 3 exact emit _ _
  exact (beginTouchdown s _).thenEmit _

theorem cmdTouchdownEnd (tag : Byte) (s : State) : s.Configured (cmdTouchdownEnd tag s) := by
  unfold Machine.cmdTouchdownEnd
  split
  · exact (endTouchdown s tag).trans (completeIfQuiet _)
  · exact emit _ _

theorem cmdSiteAbort (tag site : Byte) (s : State) : s.Configured (cmdSiteAbort tag site s) := by
  unfold Machine.cmdSiteAbort
  dsimp only
  split_ifs
  iterate 2 exact emit _ _
  · refine thenEmit ?_ _
    exact same (by simp) (by simp) (by simp) (by simp [answerQueue_gear])
  · exact emit _ _

/-- A command writes settings legally, moves ports, or touches neither. -/
theorem runCommand (tag : Byte) (c : Command) (s : State) : s.Configured (runCommand tag c s) := by
  cases c with
  | paramSet id value => exact cmdParamSet ..
  | ruleWrite block => exact cmdRuleWrite ..
  | siteMapWrite site port enabled => exact cmdSiteMapWrite ..
  | strapSet port directions levels => exact cmdStrapSet ..
  | touchdownBegin enable => exact cmdTouchdownBegin ..
  | touchdownEnd => exact cmdTouchdownEnd ..
  | siteAbort site => exact cmdSiteAbort ..
  | _ =>
    simp only [Machine.runCommand, cmdIdentify, cmdStatus, cmdParamGet, cmdRuleRead, cmdSiteMapRead, cmdGroupWrite,
      cmdGroupRead, cmdStrapRead, cmdBatchOpen, cmdKeyLoad, cmdKeyPurge, cmdWaferOpen, cmdWaferClose, cmdMapQuery,
      cmdLogRead, cmdLogDrop, cmdEventRead, cmdEventClear]
    refine same ?_ ?_ ?_ fun p => ?_ <;> (repeat' split) <;> simp [State.port]

theorem runUpTo (n : Nat) (s : State) : s.Configured (State.runUpTo n s) := by
  induction n generalizing s with
  | zero => exact refl s
  | succ n ih =>
    unfold State.runUpTo
    split
    · refine trans ?_ (ih _)
      refine trans ?_ (runCommand _ _ _)
      exact same rfl rfl rfl fun _ => rfl
    · exact refl s

theorem runQueue (s : State) : s.Configured s.runQueue := runUpTo _ _

theorem submit (s : State) (tag : Byte) (c : Command) : s.Configured (s.submit tag c) := by
  unfold State.submit
  split
  · exact emit _ _
  · refine trans ?_ (runQueue _)
    exact same rfl rfl rfl fun _ => rfl

theorem completeAndRelease (s : State) : s.Configured s.completeAndRelease := by
  unfold State.completeAndRelease
  split
  · exact (completeTouchdown _ _).trans (runQueue _)
  · exact refl s

theorem unwrapRelease (s : State) (job : UnwrapJob) (r : Option KeyBits) :
    s.Configured (s.siteAnswersFirst fun t => (t.unwrapEnds job r).runQueue) :=
  siteAnswersFirst_keeps (P := s.Configured) (refl s) (fun t p h => h.trans (answerQueue t p _)) fun t h =>
    h.trans ((unwrapEnds t job r).trans (runQueue _))

theorem receiveByte (s : State) (b : Byte) : s.Configured (s.receiveByte b) :=
  receiveByte_keeps (P := s.Configured) (fun _ _ _ _ h => h.trans (same rfl rfl rfl fun _ => rfl))
    (fun _ _ h => h.trans (same (by simp) (by simp) (by simp) (by simp))) (fun t r h => h.trans (emit t r))
    (fun t tag c h => h.trans (submit t tag c)) (fun t f h => h.trans (siteFrame t f)) (refl s) b

/-- Every row. -/
theorem rowsGive (s : State) : s.RowsGive s.Configured := by
  have quiet : ∀ {t : State}, t.params = s.params → t.rules = s.rules → t.siteMap = s.siteMap → t.ports = s.ports →
      s.Configured t := fun hp hr hs hports => same hp hr hs fun q => by rw [port_congr hports]
  constructor
  case stay => exact refl s
  case reset => exact reset s
  case submit => exact fun _ => submit s
  case receiveByte => exact fun _ => receiveByte s
  case unwrapEnds => exact fun _ job r _ => unwrapRelease s job r
  case completeAndRelease => exact fun _ => completeAndRelease s
  case startPort => exact fun _ => startPort s
  case lateResponse => exact fun _ => dieResponds s
  case dieResponds => exact fun _ p a => (dieResponds s p a).trans (completeAndRelease _)
  case timesOut => exact fun _ p => (responseTimesOut s p).trans (completeAndRelease _)
  case breakEnds => exact fun _ => breakEnds s
  case settleExpires =>
    exact fun _ p =>
      (quiet (t := s.settleExpires p) (by simp) (by simp) (by simp) (by simp)).trans (completeAndRelease _)
  case supplyFaults =>
    exact fun _ p _ =>
      (quiet (t := (s.setSupplyGood p false).supplyFaults p) (by simp) (by simp) (by simp) (by simp)).trans
        (completeAndRelease _)
  case contactLost =>
    exact fun _ _ _ => (quiet (t := s.fallen) rfl rfl rfl rfl).trans ((loseContact _).trans (completeAndRelease _))
  case emission =>
    intro _
    unfold State.emission
    split <;> exact quiet rfl rfl rfl rfl
  case frameLeaves =>
    intro _
    unfold State.frameLeaves
    split <;> exact quiet rfl rfl rfl rfl
  case laneFalls | serviceKeys => exact fun _ => quiet (by simp) (by simp) (by simp) (by simp)
  all_goals intros; exact quiet rfl rfl rfl rfl

end State.Configured
end Sys2Proof.Machine
end

section
/-! Proofs: what every row does to the upstream stream and to the merge records (R116, R161, R174..R176). -/
namespace Sys2Proof.Machine

variable {s t : State}

/-! ### The merge records (R116) -/

theorem State.MergesOpen.congr (h : s.MergesOpen) (e : t.merge = s.merge) : t.MergesOpen := by
  unfold State.MergesOpen
  rw [e]
  exact h

theorem State.MergesOpen.siteFrame (h : s.MergesOpen) (f : SiteFrame) : (s.siteFrame f).MergesOpen :=
  siteFrame_gives (fun i => h.traffic (.singleFrame s f i)) (h.groupFrame f) h

theorem State.MergesOpen.receiveByte (h : s.MergesOpen) (b : Byte) : (s.receiveByte b).MergesOpen :=
  receiveByte_keeps (P := State.MergesOpen) (fun _ _ _ _ h => h.congr rfl) (fun _ _ h => h.congr (by simp))
    (fun _ _ h => h.traffic (.emit _ _)) (fun _ _ _ h => h.traffic (.submit _ _ _)) (fun _ f h => h.siteFrame f) h b

theorem taken_mergesOpen (s : State) : s.taken.MergesOpen := by
  intro k m hm
  have hk : s.taken.merge[k] = none := by simp [State.taken, State.reset]
  rw [hk] at hm
  cases hm

/-! ### The stream (R161, R174, R175, R176) -/

/-- What a stream is read from. -/
theorem State.StreamSound.of_stream (h : s.StreamSound) (hstream : t.link.stream = s.link.stream)
    (htransmitting : t.link.transmitting = s.link.transmitting) (hup : t.pins.linkRdy = s.pins.linkRdy) :
    t.StreamSound :=
  ⟨by rw [hstream]; exact h.bound, by rw [hstream, hup]; exact h.down, by rw [hstream, htransmitting]; exact h.head⟩

/-- An empty stream is sound on either lane. -/
theorem streamSound_of_empty (hstream : s.link.stream = []) (htransmitting : s.link.transmitting = none) :
    s.StreamSound :=
  ⟨by rw [hstream]; exact Nat.zero_le _, fun _ => hstream, by rw [htransmitting]; nofun⟩

theorem State.StreamSound.transmitting_eq_none (h : s.StreamSound) (hstream : s.link.stream = []) :
    s.link.transmitting = none := by
  rw [Option.eq_none_iff_forall_ne_some]
  intro f hf
  have hhead := h.head f hf
  rw [hstream] at hhead
  cases hhead

theorem State.StreamSound.siteFrame (h : s.StreamSound) (f : SiteFrame) : (s.siteFrame f).StreamSound :=
  siteFrame_gives (fun i => h.traffic (.singleFrame s f i)) (h.groupFrame f) h

theorem State.StreamSound.receiveByte (h : s.StreamSound) (b : Byte) : (s.receiveByte b).StreamSound :=
  receiveByte_keeps (P := State.StreamSound) (fun _ _ _ _ h => h.of_stream rfl rfl rfl)
    (fun _ _ h => h.congr (by simp) (by simp)) (fun _ r h => h.emit r) (fun _ _ _ h => h.traffic (.submit _ _ _))
    (fun _ f h => h.siteFrame f) h b

/-- The frame that begins to be sent is the head of the stream (R175). -/
theorem State.StreamSound.emission (h : s.StreamSound) : s.emission.StreamSound := by
  unfold State.emission
  split
  · rename_i r rest hup hnone hstream
    refine ⟨h.bound, h.down, fun f hf => ?_⟩
    cases hf
    rw [hstream]
    rfl
  · exact h

theorem State.StreamSound.frameLeaves (h : s.StreamSound) : s.frameLeaves.StreamSound := by
  unfold State.frameLeaves
  split
  · refine ⟨?_, fun hdown => ?_, nofun⟩
    · exact (List.length_tail.trans_le (Nat.sub_le _ _)).trans h.bound
    · exact congrArg List.tail (h.down hdown)
  · exact h

/-! ### Every row -/

/-- The rows whose effect on link and merge records is a row of responses and of member results. -/
theorem rowsGive_of_traffic {P : State → Prop} (traffic : ∀ t, s.Traffic t → P t) (reset : P s.taken)
    (pinLinkRdy : s.phase = .held → ∀ up, P (s.setLinkRdy up)) (receiveByte : ∀ b, P (s.receiveByte b))
    (emission : P s.emission) (frameLeaves : P s.frameLeaves)
    (laneFalls : P ((s.setLinkRdy false).clearStream.countLinkErrors s.link.stream.length))
    (laneRises : P (s.setLinkRdy true).clearStream) : s.RowsGive P where
  stay := traffic _ (.refl s)
  reset := reset
  release _ := traffic _ (.same rfl rfl rfl)
  start _ := traffic _ (.same rfl rfl rfl)
  pinLinkRdy := pinLinkRdy
  pinContact _ _ := traffic _ (.same rfl rfl rfl)
  pinSupplyGood _ _ _ := traffic _ (.same rfl rfl rfl)
  submit _ _ _ := traffic _ (.submit _ _ _)
  receiveByte _ := receiveByte
  emission _ := emission
  frameLeaves _ := frameLeaves
  laneFalls _ := laneFalls
  laneRises _ := laneRises
  unwrapEnds _ job r _ := traffic _
    (.siteAnswersFirst _ fun t => (State.Traffic.unwrapEnds t job r).trans (.runQueue _))
  completeAndRelease _ := traffic _ (.completeAndRelease _)
  startPort _ _ := traffic _ (.startPort _ _)
  serviceKeys _ := traffic _ (.same (by simp) (by simp) (by simp))
  lateResponse _ _ _ := traffic _ (.dieResponds _ _ _)
  dieResponds _ p a := traffic _ ((State.Traffic.dieResponds s p a).trans (.completeAndRelease _))
  timesOut _ p := traffic _ ((State.Traffic.responseTimesOut s p).trans (.completeAndRelease _))
  breakEnds _ _ := traffic _ (.breakEnds _ _)
  settleExpires _ p := traffic _
    ((State.Traffic.same (t := s.settleExpires p) (by simp) (by simp) (by simp)).trans (.completeAndRelease _))
  supplyFaults _ p _ := traffic _
    ((State.Traffic.same (t := (s.setSupplyGood p false).supplyFaults p) (by simp) (by simp [State.setSupplyGood])
      (by simp)).trans (.completeAndRelease _))
  supplyGood _ _ _ := traffic _ (.same rfl rfl rfl)
  contactLost _ _ _ := traffic _
    ((State.Traffic.same (s := s) (t := s.fallen) rfl rfl rfl).trans
      ((State.Traffic.loseContact _).trans (.completeAndRelease _)))
  contactFalls _ _ := traffic _ (.same rfl rfl rfl)
  contactRises _ := traffic _ (.same rfl rfl rfl)

theorem State.MergesOpen.rowsGive (h : s.MergesOpen) : s.RowsGive State.MergesOpen :=
  rowsGive_of_traffic (fun _ ht => h.traffic ht) (taken_mergesOpen s) (fun _ _ => h) h.receiveByte
    (h.congr (by unfold State.emission; split <;> rfl)) (h.congr (by unfold State.frameLeaves; split <;> rfl))
    (h.congr (by simp)) h

theorem State.StreamSound.rowsGive (h : s.StreamSound) (held : s.phase = .held → s.link.stream = []) :
    s.RowsGive State.StreamSound :=
  rowsGive_of_traffic (fun _ ht => h.traffic ht) (streamSound_of_empty rfl rfl)
    (fun hh _ => streamSound_of_empty (held hh) (h.transmitting_eq_none (held hh))) h.receiveByte h.emission
    h.frameLeaves
    (streamSound_of_empty (by simp [State.clearStream]) (by simp [State.clearStream])) (streamSound_of_empty rfl rfl)

/-- Nothing is upstream in a part held in reset (R187). -/
theorem rowsGive_heldEmpty (held : s.phase = .held → s.link.stream = []) :
    s.RowsGive fun t => t.phase = .held → t.link.stream = [] := by
  have running : s.phase ≠ .held → ∀ {t : State}, t.phase = s.phase → t.phase = .held → t.link.stream = [] :=
    fun hrun _ hphase hh => absurd (hphase ▸ hh) hrun
  constructor
  case stay => exact held
  case reset => exact fun _ => rfl
  case release | start => exact fun _ => nofun
  case pinLinkRdy | pinContact | pinSupplyGood => exact fun hh => by intros; exact held hh
  case unwrapEnds => exact fun hrun job r _ => running hrun (sameBench_unwrapRelease s job r).1
  all_goals
    intro hrun
    intros
    refine running hrun ?_ ‹_›
    simp [State.fallen]

/-- What holds of every state a row can lead to holds of the one it does lead to. -/
theorem State.RowsGive.of_exec {P : State → Prop} (h : s.RowsGive P) {c : Instr} (e : Machine.exec c s = .next t) :
    P t := by
  obtain ⟨u, hu, hP⟩ := h.exec c
  rw [e] at hu
  cases hu
  exact hP

end Sys2Proof.Machine

open Sys2Proof Sys2Proof.Machine

/-- Settles O59: a row writes settings legally or leaves them (`State.Configured`), and what it does to stream and merge
records is traffic but for the link's own rows (`rowsGive_of_traffic`). -/
theorem settingsAndStreamsStayLegal : Obligations.SettingsAndStreamsStayLegal := by
  unfold Obligations.SettingsAndStreamsStayLegal
  intro c s t e
  have hconfigured : s.Configured t := (State.Configured.rowsGive s).of_exec e
  exact ⟨fun h => h.configured hconfigured, fun h => h.configured hconfigured, fun h => h.configured hconfigured,
    fun h => h.rowsGive.of_exec e, fun h held => ⟨(h.rowsGive held).of_exec e, (rowsGive_heldEmpty held).of_exec e⟩⟩
end

section
/-! Proofs: a port's answer to an offered request, and a frame for one logical site (R83, R85, R109, R110). -/
namespace Sys2Proof.Machine

/-- A port's answer to an offered request, check by check (R85). -/
theorem admission_eq (pt : Port) :
    pt.admission =
      if pt.state = .parked .contact then .declined .lost
      else if pt.state.isParked = true then .declined .noSite
      else if pt.admissionClosed = true then .declined .aborted
      else if 8 ≤ pt.queue.length then .full
      else .accept := by
  unfold Port.admission
  cases pt.state with
  | parked cause => cases cause <;> rfl
  | idle | busy | breaking => rfl

variable {s : State} {f : SiteFrame}

/-- A site field below 16 names one logical site (R109). -/
theorem siteFrame_of_site {i : SiteId} (h : i.val = f.site.toNat) : s.siteFrame f = s.singleFrame f i := by
  have hi : f.site.toNat < 16 := h ▸ i.isLt
  rw [State.siteFrame, dif_pos hi]
  exact congrArg _ (Fin.ext h.symm)

theorem singleFrame_disabled {i : SiteId} (h : (s.siteMap[i]).enabled = false) :
    s.singleFrame f i = s.answerFrame f .noSite :=
  if_neg (by rw [h]; nofun)

theorem singleFrame_enabled {i : SiteId} (h : (s.siteMap[i]).enabled = true) :
    s.singleFrame f i = s.offer f (s.sitePort i) :=
  if_pos h

end Sys2Proof.Machine

open Sys2Proof Sys2Proof.Machine

/-- Settles O46, by the site map entry and then by the checks of the port's admission (`admission_eq`). -/
theorem singleSiteFrameIsOffered : Obligations.SingleSiteFrameIsOffered := by
  unfold Obligations.SingleSiteFrameIsOffered
  intro f i s h p pt answer request
  rw [siteFrame_of_site h]
  cases henabled : (s.siteMap[i]).enabled with
  | false => exact singleFrame_disabled henabled
  | true =>
    have hpt : s.port (s.sitePort i) = pt := rfl
    rw [singleFrame_enabled henabled, if_neg nofun, State.offer, admission_eq, hpt]
    split_ifs <;> rfl
end

section
/-! Proofs: the strap lines: STRAP SET, STRAP READ, and what a port drives (R96..R98). -/
namespace Sys2Proof.Machine

variable {s : State}

/-- The four lines of a strap mask, reported with bits 4 to 7 as 0 (R96). -/
theorem lowNibble_eq (b : Byte) : (b.setWidth 4).setWidth 8 = b &&& 0x0F := by
  have hmask : b.toNat &&& (0x0F : Byte).toNat = b.toNat % 2 ^ 4 := Nat.and_two_pow_sub_one_eq_mod b.toNat 4
  rw [← BitVec.toNat_inj, BitVec.toNat_and, hmask, BitVec.toNat_setWidth, BitVec.toNat_setWidth]
  omega

/-- STRAP SET for a port of the part (R96). -/
theorem cmdStrapSet_port {port : Byte} {p : PortId} (h : p.val = port.toNat) (tag directions levels : Byte) :
    cmdStrapSet tag port directions levels s =
      (s.setPort p { s.port p with
        strapDirections := directions.setWidth 4, strapLevels := levels.setWidth 4 }).respondOk tag
        [port, directions &&& 0x0F, levels &&& 0x0F] := by
  obtain ⟨n, hn⟩ := p
  subst h
  rw [cmdStrapSet, dif_pos hn]
  simp only [lowNibble_eq]

/-- STRAP READ for a port of the part (R98). -/
theorem cmdStrapRead_port {port : Byte} {p : PortId} (h : p.val = port.toNat) (tag : Byte) :
    cmdStrapRead tag port s =
      ({ s with strapSamples := s.strapSamples + 1 } : State).respondOk tag
        [port, (s.port p).strapDirections.setWidth 8, (s.port p).strapLevels.setWidth 8,
          (Config.strapSense s.strapSamples).setWidth 8] := by
  obtain ⟨n, hn⟩ := p
  subst h
  rw [cmdStrapRead, dif_pos hn]

theorem cmdStrapSet_badPort {port : Byte} (h : 15 < port.toNat) (tag directions levels : Byte) :
    cmdStrapSet tag port directions levels s = s.refuse tag .badArg :=
  dif_neg (by omega)

theorem cmdStrapRead_badPort {port : Byte} (h : 15 < port.toNat) (tag : Byte) :
    cmdStrapRead tag port s = s.refuse tag .badArg :=
  dif_neg (by omega)

/-- What a port drives on a strap line (R97). -/
theorem strapDrive_eq (pt : Port) (i : Fin 4) :
    pt.strapDrive i =
      if pt.state.isParked = false ∧ pt.strapDirections.getLsbD i.val = true then some (pt.strapLevels.getLsbD i.val)
      else none := by
  unfold Port.strapDrive
  cases pt.state with
  | parked cause => rfl
  | idle | busy | breaking => simp [PortState.isParked]

end Sys2Proof.Machine

open Sys2Proof Sys2Proof.Machine

/-- Settles O29, by the port's bound: each command is run at once (`exec_of_ready`). -/
theorem strapLinesAreSetAndRead : Obligations.StrapLinesAreSetAndRead := by
  unfold Obligations.StrapLinesAreSetAndRead
  refine ⟨?commands, strapDrive_eq⟩
  intro tag port dirs levels s h
  have hset : exec (.strapSet tag port dirs levels) s = .next (cmdStrapSet tag port dirs levels s) :=
    exec_of_ready h (tag := tag) (c := .strapSet port dirs levels) rfl
  have hread : exec (.strapRead tag port) s = .next (cmdStrapRead tag port s) :=
    exec_of_ready h (tag := tag) (c := .strapRead port) rfl
  rw [hset, hread]
  constructor
  · intro p hp
    exact ⟨congrArg _ (cmdStrapSet_port hp ..), congrArg _ (cmdStrapRead_port hp _)⟩
  · intro hport
    exact ⟨congrArg _ (cmdStrapSet_badPort hport ..), congrArg _ (cmdStrapRead_badPort hport _)⟩
end

section
/-! Proofs: the timers of a port: the response timer in BUSY and the break timer in BREAK (R92, R93). -/
namespace Sys2Proof.Machine

variable {s : State} {p : PortId}

/-- A timeout is answered DIE_TIMEOUT with no word, whatever the action (R92). -/
theorem endTransaction_timeout (tx : Transaction) (after : PortState) :
    s.endTransaction p tx .timeout after =
      ((s.setPortState p after).contextAtEnd p tx.record.action .timeout).deliver tx.request .dieTimeout none := rfl

theorem exec_responseTimeout_busy (hrun : s.phase ≠ .held) {tx : Transaction} {n : Nat}
    (h : (s.port p).state = .busy tx n) :
    exec (.responseTimeout p) s = .next
      ((s.raise .dieTimeout).endTransaction p tx .timeout (.breaking 4000)).completeAndRelease := by
  have hbusy : s.inFlight p = true := by rw [State.inFlight, h]; rfl
  show execResponseTimeout p s = _
  rw [execResponseTimeout, whileRunning_of_running hrun, if_pos hbusy, State.responseTimesOut, h]
  rfl

theorem exec_responseTimeout_notBusy (hrun : s.phase ≠ .held) (h : (s.port p).state.isBusy = false) :
    exec (.responseTimeout p) s = .next s := by
  have hbusy : ¬ s.inFlight p = true := by rw [State.inFlight, h]; nofun
  show execResponseTimeout p s = _
  rw [execResponseTimeout, whileRunning_of_running hrun, if_neg hbusy]

theorem exec_breakEnd (hrun : s.phase ≠ .held) : exec (.breakEnd p) s = .next (s.breakEnds p) :=
  whileRunning_of_running hrun (fun s => s.breakEnds p) _

theorem breakEnds_breaking {n : Nat} (h : (s.port p).state = .breaking n) :
    s.breakEnds p = (s.setPortState p .idle).startPort p := by
  rw [State.breakEnds, h]

theorem breakEnds_of_not_breaking (h : ∀ n, (s.port p).state ≠ .breaking n) : s.breakEnds p = s := by
  unfold State.breakEnds
  split
  · exact absurd ‹_› (h _)
  · rfl

end Sys2Proof.Machine

open Sys2Proof Sys2Proof.Machine

/-- Settles O51, row by row, by whether the row's timer runs in the state of the port. -/
theorem timeoutLeadsToABreak : Obligations.TimeoutLeadsToABreak := by
  unfold Obligations.TimeoutLeadsToABreak
  intro p s hrun
  refine ⟨?timeout, exec_responseTimeout_notBusy hrun, ?breakOver, ?noBreak⟩
  case timeout =>
    intro tx n h t
    have ht : (s.raise .dieTimeout).setPortState p (.breaking 4000) = t := rfl
    rw [exec_responseTimeout_busy hrun h, endTransaction_timeout, ht]
  case breakOver =>
    intro n h
    rw [exec_breakEnd hrun, breakEnds_breaking h]
    rfl
  case noBreak =>
    intro h
    rw [exec_breakEnd hrun, breakEnds_of_not_breaking h]
end

section
/-! Proofs: the commands of the logical site map and of the groups (R105..R108). -/
namespace Sys2Proof.Machine

variable {s : State} {tag site port enabled group : Byte} {i : SiteId} {p : PortId}

/-! ### The operands (R107, R166) -/

theorem readFlag_eq_true_iff : readFlag enabled = true ↔ enabled ≠ 0 := bne_iff_ne

theorem groupIndex_eq_some {g : Fin 15} (h : g.val + 16 = group.toNat) : groupIndex group = some g := by
  have hg : 16 ≤ group.toNat ∧ group.toNat ≤ 30 := by omega
  rw [groupIndex, dif_pos hg]
  exact congrArg some (Fin.ext (by simp only; omega))

theorem groupIndex_eq_none (h : group.toNat < 16 ∨ 30 < group.toNat) : groupIndex group = none :=
  dif_neg (by omega)

/-! ### SITEMAP WRITE (R105) -/

theorem cmdSiteMapWrite_open (ho : s.touchdownIsOpen = true) :
    cmdSiteMapWrite tag site port enabled s = s.refuse tag .state :=
  if_pos ho

theorem cmdSiteMapWrite_badArg (ho : s.touchdownIsOpen = false) (h : 15 < site.toNat ∨ 15 < port.toNat) :
    cmdSiteMapWrite tag site port enabled s = s.refuse tag .badArg := by
  rw [cmdSiteMapWrite, if_neg (by rw [ho]; nofun), dif_neg (by omega)]

theorem cmdSiteMapWrite_site (ho : s.touchdownIsOpen = false) (hi : i.val = site.toNat) (hp : p.val = port.toNat) :
    cmdSiteMapWrite tag site port enabled s =
      if readFlag enabled = true ∧ s.siteConflict i p = true then s.refuse tag .conflict
      else ({ s with siteMap := s.siteMap.set i { port := p, enabled := readFlag enabled } } : State).respondOk tag
        [site, port, if enabled = 0 then 0 else 1] := by
  have hbound : site.toNat < 16 ∧ port.toNat < 16 := ⟨hi ▸ i.isLt, hp ▸ p.isLt⟩
  obtain rfl : i = ⟨site.toNat, hbound.1⟩ := Fin.ext hi
  obtain rfl : p = ⟨port.toNat, hbound.2⟩ := Fin.ext hp
  rw [cmdSiteMapWrite, if_neg (by rw [ho]; nofun), dif_pos hbound]
  dsimp only
  rw [mapSlotBytes, flagByte_readFlag, ← byte_eq_of_toNat rfl, ← byte_eq_of_toNat rfl]

/-! ### The other commands (R106, R107, R108) -/

theorem cmdSiteMapRead_site (hi : i.val = site.toNat) :
    cmdSiteMapRead tag site s =
      s.respondOk tag [site, byteOf (s.siteMap[i]).port.val, if (s.siteMap[i]).enabled then 1 else 0] := by
  have hbound : site.toNat < 16 := hi ▸ i.isLt
  obtain rfl : i = ⟨site.toNat, hbound⟩ := Fin.ext hi
  rw [cmdSiteMapRead, dif_pos hbound, mapSlotBytes, ← byte_eq_of_toNat rfl]
  rfl

theorem cmdSiteMapRead_badArg (h : 15 < site.toNat) : cmdSiteMapRead tag site s = s.refuse tag .badArg :=
  dif_neg (by omega)

end Sys2Proof.Machine

open Sys2Proof Sys2Proof.Machine

/-- Settles O25, check by check; the CONFLICT check reads the other enabled entries (`siteConflict_eq_true_iff`). -/
theorem siteMapWriteKeepsPortsApart : Obligations.SiteMapWriteKeepsPortsApart := by
  unfold Obligations.SiteMapWriteKeepsPortsApart
  intro tag site port enabled s h
  have hexec : exec (.siteMapWrite tag site port enabled) s = .next (cmdSiteMapWrite tag site port enabled s) :=
    exec_of_ready h (tag := tag) (c := .siteMapWrite site port enabled) rfl
  rw [hexec]
  refine ⟨fun ho => congrArg _ (cmdSiteMapWrite_open ho),
    fun ho hbad => congrArg _ (cmdSiteMapWrite_badArg ho hbad), ?_⟩
  intro i p ho hi hp taken flag
  have hflag : flag = readFlag enabled := Bool.eq_iff_iff.2 (decide_eq_true_iff.trans readFlag_eq_true_iff.symm)
  have htaken : taken ↔ s.siteConflict i p = true := siteConflict_eq_true_iff.symm
  rw [hflag, htaken, cmdSiteMapWrite_site ho hi hp]
  exact ⟨fun hf ht => congrArg _ (if_pos ⟨hf, ht⟩), fun hn => congrArg _ (if_neg hn)⟩

/-- Settles O26, by the site's bound. -/
theorem siteMapReadReturnsTheEntry : Obligations.SiteMapReadReturnsTheEntry := by
  unfold Obligations.SiteMapReadReturnsTheEntry
  intro tag site s h
  have hexec : exec (.siteMapRead tag site) s = .next (cmdSiteMapRead tag site s) :=
    exec_of_ready h (tag := tag) (c := .siteMapRead site) rfl
  rw [hexec]
  exact ⟨fun i hi => congrArg _ (cmdSiteMapRead_site hi), fun hbad => congrArg _ (cmdSiteMapRead_badArg hbad)⟩

/-- Settles O27, by the touchdown and then by the group's index (`groupIndex_eq_some`, `groupIndex_eq_none`). -/
theorem groupWriteReplacesTheBitmap : Obligations.GroupWriteReplacesTheBitmap := by
  unfold Obligations.GroupWriteReplacesTheBitmap
  intro tag group members s h
  have hexec : exec (.groupWrite tag group members) s = .next (cmdGroupWrite tag group members s) :=
    exec_of_ready h (tag := tag) (c := .groupWrite group members) rfl
  rw [hexec]
  refine ⟨fun ho => ?_, fun ho hbad => ?_, fun g ho hg => ?_⟩
  · rw [cmdGroupWrite, if_pos ho]
  · rw [cmdGroupWrite, if_neg (by rw [ho]; nofun), groupIndex_eq_none hbad]
  · rw [cmdGroupWrite, if_neg (by rw [ho]; nofun), groupIndex_eq_some hg]

/-- Settles O28, by the group's index. -/
theorem groupReadReturnsTheBitmap : Obligations.GroupReadReturnsTheBitmap := by
  unfold Obligations.GroupReadReturnsTheBitmap
  intro tag group s h
  have hexec : exec (.groupRead tag group) s = .next (cmdGroupRead tag group s) :=
    exec_of_ready h (tag := tag) (c := .groupRead group) rfl
  rw [hexec]
  refine ⟨fun g hg => ?_, fun hbad => ?_⟩
  · rw [cmdGroupRead, groupIndex_eq_some hg]
  · rw [cmdGroupRead, groupIndex_eq_none hbad]
end

section
/-! Proofs: a group frame: the members' classes, the whole frame by the classes, and the replication (R109, R111..R116). -/
namespace Sys2Proof.Machine

variable {s : State} {f : SiteFrame} {i : SiteId} {m : BitVec 16} {k : Fin 8} {st : Status}

/-- A site field of 16 to 30 names a group (R109). -/
theorem siteFrame_of_group {g : Fin 15} (h : g.val + 16 = f.site.toNat) :
    s.siteFrame f = s.groupFrame f s.groups[g] := by
  have hg : f.site.toNat - 16 = g.val := by omega
  rw [State.siteFrame, dif_neg (by omega), dif_pos (by omega)]
  simp only [hg]
  rfl

/-! ### The class of a member (R85, R111) -/

theorem memberClass_eq_accept_iff :
    s.memberClass i = .accept ↔ (s.siteMap[i]).enabled = true ∧ (s.port (s.sitePort i)).admission = .accept := by
  unfold State.memberClass
  split <;> simp_all

theorem memberClass_eq_full_iff :
    s.memberClass i = .full ↔ (s.siteMap[i]).enabled = true ∧ (s.port (s.sitePort i)).admission = .full := by
  unfold State.memberClass
  split <;> simp_all

theorem memberClass_eq_declined_iff :
    s.memberClass i = .declined st ↔
      if (s.siteMap[i]).enabled = true then (s.port (s.sitePort i)).admission = .declined st else st = .noSite := by
  unfold State.memberClass
  split
  · rfl
  · simp [eq_comm]

/-- No member is immediate with status OK (R85, R111). -/
theorem memberClass_ne_declined_ok : s.memberClass i ≠ .declined .ok := by
  unfold State.memberClass
  split
  · rw [admission_eq]
    split_ifs <;> nofun
  · nofun

/-! ### The frame as a whole (R109, R112..R114, R116) -/

/-- The admissible members of a group, in ascending logical site order (R111). -/
def State.admissible (s : State) (m : BitVec 16) : List SiteId :=
  (membersOf m).filter fun i => s.memberClass i == .accept

theorem mem_admissible :
    i ∈ s.admissible m ↔
      m.getLsbD i.val = true ∧ (s.siteMap[i]).enabled = true ∧ (s.port (s.sitePort i)).admission = .accept := by
  rw [State.admissible, List.mem_filter, mem_membersOf, beq_iff_eq, memberClass_eq_accept_iff]

theorem admissible_ne_nil_iff :
    s.admissible m ≠ [] ↔ ∃ i : SiteId, m.getLsbD i.val = true ∧ (s.siteMap[i]).enabled = true ∧
      (s.port (s.sitePort i)).admission = .accept := by
  simp only [ne_eq, List.eq_nil_iff_forall_not_mem, not_forall, not_not, mem_admissible]

/-- The merge record of a group frame at its arrival (R114). -/
def State.arrivalRecord (s : State) (f : SiteFrame) (m : BitVec 16) : MergeRecord :=
  { tag := f.tag, group := f.site, members := m, slots := s.immediateSlots m }

/-- The part with the merge record taken and every admissible member's request queued, no port started yet
(R113, R114). -/
def State.replicated (s : State) (f : SiteFrame) (m : BitVec 16) (k : Fin 8) : State :=
  ({ s with merge := s.merge.set k (some (s.arrivalRecord f m)) } : State).replicate f k (s.admissible m)

/-- A group frame, check by check (R109, R112, R114, R116). -/
theorem groupFrame_eq :
    s.groupFrame f m =
      if m = 0 then s.answerFrame f .noSite
      else if ∃ i : SiteId, m.getLsbD i.val = true ∧ s.memberClass i = .full then s.answerFrame f .qFull
      else if s.admissible m = [] then s.emit (mergedResponse (s.arrivalRecord f m))
      else s.freeMerge.elim (s.answerFrame f .qFull) fun k =>
        (s.replicated f m k).startPorts ((s.admissible m).map s.sitePort) := by
  have hfull : ((membersOf m).any fun i => s.memberClass i == .full) = true ↔
      ∃ i : SiteId, m.getLsbD i.val = true ∧ s.memberClass i = .full := by
    simp only [List.any_eq_true, mem_membersOf, beq_iff_eq]
  unfold State.groupFrame
  simp only [hfull]
  cases s.freeMerge <;> rfl

theorem ne_zero_of_member (h : m.getLsbD i.val = true) : m ≠ 0 := by
  rintro rfl
  simp at h

theorem groupFrame_full (hi : m.getLsbD i.val = true) (h : s.memberClass i = .full) :
    s.groupFrame f m = s.answerFrame f .qFull := by
  rw [groupFrame_eq, if_neg (ne_zero_of_member hi), if_pos ⟨i, hi, h⟩]

/-- A frame with an admissible member and no full one needs a merge record (R114). -/
theorem groupFrame_admitted (hfull : ∀ i : SiteId, m.getLsbD i.val = true → s.memberClass i ≠ .full)
    (hadm : s.admissible m ≠ []) :
    s.groupFrame f m = s.freeMerge.elim (s.answerFrame f .qFull) fun k =>
      (s.replicated f m k).startPorts ((s.admissible m).map s.sitePort) := by
  obtain ⟨i, hi, -⟩ := admissible_ne_nil_iff.1 hadm
  rw [groupFrame_eq, if_neg (ne_zero_of_member hi), if_neg fun ⟨j, hj, h⟩ => hfull j hj h, if_neg hadm]

/-! ### Every member immediate (R111, R116) -/

theorem immediateSlots_declined (hi : m.getLsbD i.val = true) (h : s.memberClass i = .declined st) :
    (s.immediateSlots m)[i] = some { status := st, word := none } := by
  simp [State.immediateSlots, hi, h]

theorem immediateSlots_accept (h : s.memberClass i = .accept) : (s.immediateSlots m)[i] = none := by
  simp [State.immediateSlots, h]

/-- A member without a word reports 0 in its place (R116). -/
theorem bytes_of_no_word : ({ status := st, word := none } : MemberResult).bytes = [st.code, 0, 0] :=
  congrArg (st.code :: ·) (show be16 0 = [0, 0] by decide)

/-- The merged response of a frame whose every member is immediate: PARTIAL, three bytes a member. -/
theorem mergedResponse_immediate {why : SiteId → Status} (hne : m ≠ 0)
    (h : ∀ i : SiteId, m.getLsbD i.val = true → s.memberClass i = .declined (why i)) :
    mergedResponse (s.arrivalRecord f m) =
      { tag := f.tag, site := f.site, status := .partialOk,
        payload := (membersOf m).flatMap fun i => [(why i).code, 0, 0] } := by
  obtain ⟨i, hi⟩ : ∃ i : SiteId, m.getLsbD i.val = true := by
    by_contra hnone
    refine hne (BitVec.eq_of_getLsbD_eq fun b hb => ?_)
    simpa using fun hbit => hnone ⟨⟨b, hb⟩, hbit⟩
  have hok : ¬ ∀ i ∈ membersOf m, why i = .ok := fun hall =>
    memberClass_ne_declined_ok ((h i hi).trans (congrArg _ (hall i (mem_membersOf.2 hi))))
  have hslots : ∀ i : SiteId, (s.arrivalRecord f m).members.getLsbD i.val = true →
      (s.arrivalRecord f m).slots[i] = some { status := why i, word := none } :=
    fun i hi => immediateSlots_declined hi (h i hi)
  rw [mergedResponse_eq (result := fun i => { status := why i, word := none }) hslots]
  simp only [bytes_of_no_word, Response.mk.injEq]
  exact ⟨rfl, rfl, if_neg hok, rfl⟩

theorem groupFrame_immediate {why : SiteId → Status} (hne : m ≠ 0)
    (h : ∀ i : SiteId, m.getLsbD i.val = true → s.memberClass i = .declined (why i)) :
    s.groupFrame f m = s.emit
      { tag := f.tag, site := f.site, status := .partialOk,
        payload := (membersOf m).flatMap fun i => [(why i).code, 0, 0] } := by
  have hfull : ¬ ∃ i : SiteId, m.getLsbD i.val = true ∧ s.memberClass i = .full := by
    rintro ⟨i, hi, hc⟩
    cases (h i hi).symm.trans hc
  have hadm : s.admissible m = [] := by
    refine List.filter_eq_nil_iff.2 fun i hi hc => ?_
    cases (h i (mem_membersOf.1 hi)).symm.trans (beq_iff_eq.1 hc)
  rw [groupFrame_eq, if_neg hne, if_neg hfull, if_pos hadm, mergedResponse_immediate hne h]

/-! ### The merge record taken (R114) -/

theorem freeMerge_eq_none (h : ∀ k : Fin 8, s.merge[k] ≠ none) : s.freeMerge = none :=
  List.find?_eq_none.2 fun k _ hk => h k (Option.isNone_iff_eq_none.1 hk)

theorem freeMerge_eq_some (h : ∃ k : Fin 8, s.merge[k] = none) : ∃ k, s.freeMerge = some k ∧ s.merge[k] = none := by
  obtain ⟨k, hk⟩ := h
  have hsome : s.freeMerge.isSome := List.find?_isSome.2 ⟨k, List.mem_finRange k, Option.isNone_iff_eq_none.2 hk⟩
  obtain ⟨k', hk'⟩ := Option.isSome_iff_exists.1 hsome
  have hnone : (s.merge[k']).isNone = true := List.find?_some (p := fun k : Fin 8 => (s.merge[k]).isNone) hk'
  exact ⟨k', hk', Option.isNone_iff_eq_none.1 hnone⟩

/-! ### The replication (R113, R173) -/

theorem replicate_cons (l : List SiteId) :
    s.replicate f k (i :: l) =
      (s.enqueue (s.sitePort i) (f.request (some { record := k, member := i }))).replicate f k l := rfl

/-- With their ports apart, each member's port takes its own request and no other. -/
theorem replicate_port_member {l : List SiteId} (hl : l.Nodup)
    (apart : ∀ a ∈ l, ∀ b ∈ l, s.sitePort a = s.sitePort b → a = b) (hi : i ∈ l) :
    (s.replicate f k l).port (s.sitePort i) =
      { s.port (s.sitePort i) with
        queue := (s.port (s.sitePort i)).queue ++ [f.request (some { record := k, member := i })] } := by
  induction l generalizing s with
  | nil => nomatch hi
  | cons j l ih =>
    obtain ⟨hj, hl⟩ := List.nodup_cons.1 hl
    rw [replicate_cons]
    rcases List.mem_cons.1 hi with rfl | hil
    · have hother : ∀ a ∈ l, s.sitePort a ≠ s.sitePort i := fun a ha heq =>
        hj (apart a (List.mem_cons_of_mem _ ha) i List.mem_cons_self heq ▸ ha)
      rw [replicate_other f k l (s.enqueue _ _) hother, port_enqueue, if_pos rfl]
    · have hne : s.sitePort i ≠ s.sitePort j := fun heq => hj (apart i hi j List.mem_cons_self heq ▸ hil)
      have hport : (s.enqueue (s.sitePort j) (f.request (some { record := k, member := j }))).port (s.sitePort i) =
          s.port (s.sitePort i) := by rw [port_enqueue, if_neg hne]
      rw [← hport]
      exact ih (s := s.enqueue _ _) hl
        (fun a ha b hb => apart a (List.mem_cons_of_mem _ ha) b (List.mem_cons_of_mem _ hb)) hil

/-- The replication changes the ports alone. -/
theorem replicate_withPorts (l : List SiteId) :
    ({ s.replicate f k l with ports := s.ports } : State) = s := by
  induction l generalizing s with
  | nil => rfl
  | cons i l ih => exact congrArg (fun u : State => { u with ports := s.ports }) (ih (s := s.enqueue _ _))

theorem replicated_merge : (s.replicated f m k).merge = s.merge.set k (some (s.arrivalRecord f m)) := by
  simp [State.replicated]

theorem replicated_port_member (hd : s.SitesDistinct) (hi : i ∈ s.admissible m) :
    (s.replicated f m k).port (s.sitePort i) =
      { s.port (s.sitePort i) with
        queue := (s.port (s.sitePort i)).queue ++ [f.request (some { record := k, member := i })] } := by
  refine replicate_port_member (s := { s with merge := s.merge.set k (some (s.arrivalRecord f m)) })
    ((membersOf_nodup m).filter _) ?_ hi
  intro a ha b hb
  obtain ⟨-, henabledA, -⟩ := mem_admissible.1 ha
  obtain ⟨-, henabledB, -⟩ := mem_admissible.1 hb
  exact hd a b henabledA henabledB

theorem replicated_port_other {p : PortId} (h : ∀ i ∈ s.admissible m, s.sitePort i ≠ p) :
    (s.replicated f m k).port p = s.port p :=
  replicate_other f k _ { s with merge := s.merge.set k (some (s.arrivalRecord f m)) } h

/-- The replication changes the merge records and the ports alone. -/
theorem replicated_rest : ({ s.replicated f m k with merge := s.merge, ports := s.ports } : State) = s :=
  congrArg (fun u : State => { u with merge := s.merge })
    (replicate_withPorts (s := { s with merge := s.merge.set k (some (s.arrivalRecord f m)) }) (s.admissible m))

/-- The ports of the admissible members, as the ports that start (R173). -/
theorem admissible_ports_contains (p : PortId) :
    ((s.admissible m).map s.sitePort).contains p =
      (List.finRange 16).any fun i : SiteId =>
        m.getLsbD i.val && (s.siteMap[i]).enabled && (s.port (s.sitePort i)).admission == .accept &&
          s.sitePort i == p := by
  rw [Bool.eq_iff_iff]
  simp only [List.contains_iff_mem, List.mem_map, mem_admissible, List.any_eq_true, List.mem_finRange, true_and,
    Bool.and_eq_true, beq_iff_eq, and_assoc]

end Sys2Proof.Machine

open Sys2Proof Sys2Proof.Machine

/-- Settles O47, by the classes of the members (`groupFrame_eq`); the clause with a free record is read from the state
in which every request is queued (`State.replicated`). -/
theorem groupFrameIsAllOrNothing : Obligations.GroupFrameIsAllOrNothing := by
  unfold Obligations.GroupFrameIsAllOrNothing
  intro f g s hg members within answer declines admits isFull
  have hdeclines : ∀ i st, declines i st ↔ s.memberClass i = .declined st := fun _ _ =>
    memberClass_eq_declined_iff.symm
  have hisFull : ∀ i, isFull i ↔ s.memberClass i = .full := fun _ => memberClass_eq_full_iff.symm
  rw [siteFrame_of_group hg]
  refine ⟨fun hzero => ?empty, fun i hi h => ?full, fun why hne h => ?immediate, fun hfull hadm hused => ?noRecord,
    fun hfull hadm hfree hd => ?replicated⟩
  case empty => exact groupFrame_eq.trans (if_pos hzero)
  case full => exact groupFrame_full hi ((hisFull i).1 h)
  case immediate => exact groupFrame_immediate hne fun i hi => (hdeclines i _).1 (h i hi)
  case noRecord =>
    rw [groupFrame_admitted (fun i hi => mt (hisFull i).2 (hfull i hi)) (admissible_ne_nil_iff.2 hadm),
      freeMerge_eq_none hused]
    rfl
  case replicated =>
    obtain ⟨k, hk, hnone⟩ := freeMerge_eq_some hfree
    refine ⟨k, s.arrivalRecord f members, s.replicated f members k, hnone, ?starts, rfl, rfl, rfl,
      fun i _ h => immediateSlots_accept (memberClass_eq_accept_iff.2 h),
      fun i st hi h => immediateSlots_declined hi ((hdeclines i st).1 h), replicated_merge,
      fun i hi h => replicated_port_member hd (mem_admissible.2 ⟨hi, h⟩),
      fun p h => replicated_port_other fun i hi => ?other, replicated_rest⟩
    case starts =>
      rw [groupFrame_admitted (fun i hi => mt (hisFull i).2 (hfull i hi)) (admissible_ne_nil_iff.2 hadm), hk]
      simp only [Option.elim_some, State.startPorts, admissible_ports_contains]
      rfl
    case other =>
      obtain ⟨hwithin, hadmits⟩ := mem_admissible.1 hi
      exact h i hwithin hadmits
end

section
/-! Proofs: the commands of wafers and of the die map: WAFER OPEN, WAFER CLOSE, MAP QUERY (R132, R146). -/
namespace Sys2Proof.Machine

variable {s : State} {tag number : Byte} {x y : Word} {c : Coord}

/-! ### WAFER OPEN and WAFER CLOSE (R132) -/

theorem touchdownIsOpen_of_noWafer (h : s.td.state = .noWafer) : s.touchdownIsOpen = false := by
  rw [State.touchdownIsOpen, h]
  rfl

theorem touchdownIsOpen_of_waferOpen (h : s.td.state = .waferOpen) : s.touchdownIsOpen = false := by
  rw [State.touchdownIsOpen, h]
  rfl

theorem validWafer_eq_true_iff : validWafer number = true ↔ number ≠ 0 ∧ number.toNat ≤ 25 := by
  have hzero : number ≠ 0 ↔ 1 ≤ number.toNat := by bv_omega
  rw [validWafer, Bool.and_eq_true, decide_eq_true_iff, decide_eq_true_iff, hzero]

theorem validWafer_eq_false_iff : validWafer number = false ↔ number = 0 ∨ 25 < number.toNat := by
  rw [← Bool.not_eq_true, validWafer_eq_true_iff, not_and_or, not_ne_iff, Nat.not_le]

theorem cmdWaferOpen_open (ho : s.touchdownIsOpen = true) (lot : Long) :
    cmdWaferOpen tag lot number s = s.refuse tag .state :=
  if_pos ho

theorem cmdWaferOpen_badArg (ho : s.touchdownIsOpen = false) (h : validWafer number = false) (lot : Long) :
    cmdWaferOpen tag lot number s = s.refuse tag .badArg := by
  rw [cmdWaferOpen, ho, h]
  rfl

theorem cmdWaferOpen_valid (ho : s.touchdownIsOpen = false) (h : validWafer number = true) (lot : Long) :
    cmdWaferOpen tag lot number s =
      ({ s with
          td := { s.td with state := .waferOpen, wafer := some { lot := lot, number := number } }
          dieMap := [] } : State).respondOk tag (be32 lot ++ [number]) := by
  rw [cmdWaferOpen, ho, h]
  rfl

theorem cmdWaferClose_open (ho : s.touchdownIsOpen = true) : cmdWaferClose tag s = s.refuse tag .state := if_pos ho

theorem cmdWaferClose_noWafer (h : s.td.state = .noWafer) : cmdWaferClose tag s = s.refuse tag .noWafer := by
  rw [cmdWaferClose, touchdownIsOpen_of_noWafer h, if_pos h]
  rfl

theorem cmdWaferClose_waferOpen (h : s.td.state = .waferOpen) :
    cmdWaferClose tag s =
      ({ s with td := { s.td with state := .noWafer, wafer := none }, dieMap := [] } : State).respondOk tag
        (be16 (wordOf s.dieMap.length)) := by
  rw [cmdWaferClose, if_neg (by rw [touchdownIsOpen_of_waferOpen h]; nofun), if_neg (by rw [h]; nofun)]

/-! ### MAP QUERY (R146) -/

theorem cmdMapQuery_noWafer (h : s.td.state = .noWafer) : cmdMapQuery tag x y s = s.refuse tag .noWafer := if_pos h

theorem cmdMapQuery_badArg (h : s.td.state ≠ .noWafer) (hbad : 255 < x.toNat ∨ 255 < y.toNat) :
    cmdMapQuery tag x y s = s.refuse tag .badArg := by
  rw [cmdMapQuery, if_neg h, if_pos hbad]

theorem setWidth_eq_of_toNat {b : Byte} (h : b.toNat = x.toNat) : x.setWidth 8 = b := by
  rw [← BitVec.toNat_inj, BitVec.toNat_setWidth, ← h]
  exact Nat.mod_eq_of_lt b.isLt

/-- MAP QUERY of a coordinate of the wafer (R146). -/
theorem cmdMapQuery_coord (h : s.td.state ≠ .noWafer) (hx : c.x.toNat = x.toNat) (hy : c.y.toNat = y.toNat) :
    cmdMapQuery tag x y s = s.respondOk tag (mapQueryBytes c (s.claimed c) (mapLookup s.dieMap c)) := by
  have hgood : ¬ (255 < x.toNat ∨ 255 < y.toNat) := by
    have := c.x.isLt
    have := c.y.isLt
    omega
  rw [cmdMapQuery, if_neg h, if_neg hgood, setWidth_eq_of_toNat hx, setWidth_eq_of_toNat hy]

theorem claimed_eq {claimed : Bool} (h : claimed = true ↔ ∃ p, (s.ctx p).claim = some c) : s.claimed c = claimed :=
  Bool.eq_iff_iff.2 ((claimed_iff s c).trans h.symm)

end Sys2Proof.Machine

open Sys2Proof Sys2Proof.Machine

/-- Settles O37, check by check. -/
theorem wafersOpenAndClose : Obligations.WafersOpenAndClose := by
  unfold Obligations.WafersOpenAndClose
  intro tag lot number s h
  have hopen : exec (.waferOpen tag lot number) s = .next (cmdWaferOpen tag lot number s) :=
    exec_of_ready h (tag := tag) (c := .waferOpen lot number) rfl
  have hclose : exec (.waferClose tag) s = .next (cmdWaferClose tag s) :=
    exec_of_ready h (tag := tag) (c := .waferClose) rfl
  rw [hopen, hclose]
  refine ⟨fun ho => ⟨congrArg _ (cmdWaferOpen_open ho lot), congrArg _ (cmdWaferClose_open ho)⟩,
    fun ho hbad => congrArg _ (cmdWaferOpen_badArg ho (validWafer_eq_false_iff.2 hbad) lot),
    fun ho hzero hle => congrArg _ (cmdWaferOpen_valid ho (validWafer_eq_true_iff.2 ⟨hzero, hle⟩) lot),
    fun hn => congrArg _ (cmdWaferClose_noWafer hn), fun hw => congrArg _ (cmdWaferClose_waferOpen hw)⟩

/-- Settles O42, check by check, and then by the coordinate's entry. -/
theorem mapQueryReportsTheCoordinate : Obligations.MapQueryReportsTheCoordinate := by
  unfold Obligations.MapQueryReportsTheCoordinate
  intro tag x y s h
  have hexec : exec (.mapQuery tag x y) s = .next (cmdMapQuery tag x y s) :=
    exec_of_ready h (tag := tag) (c := .mapQuery x y) rfl
  rw [hexec]
  refine ⟨fun hn => congrArg _ (cmdMapQuery_noWafer hn), fun hn hbad => congrArg _ (cmdMapQuery_badArg hn hbad), ?_⟩
  intro c claimed hn hx hy hclaimed
  rw [cmdMapQuery_coord hn hx hy, claimed_eq hclaimed]
  constructor
  · intro hnone
    rw [mapLookup_eq_none.2 hnone]
    rfl
  · intro e he hc hsorted
    rw [(mapLookup_eq_some hsorted).2 ⟨he, hc⟩, mapQueryBytes]
    cases e.outcome with
    | bound index | voided index => rfl
    | tried => rfl
end

section
/-! Proofs: TOUCHDOWN BEGIN: the enabled set, the site that names a port, and the new start (R4, R99, R135, R136). -/
namespace Sys2Proof.Machine

variable {s : State} {tag : Byte} {enable : Word} {enabled : BitVec 16} {i : SiteId} {p : PortId}

/-! ### The enabled set (R135) -/

theorem getLsbD_siteBit (i j : SiteId) : (1#16 <<< i.val).getLsbD j.val = decide (j = i) := by
  revert i j
  decide

theorem foldl_siteBit_getLsbD (f : SiteId → Bool) (l : List SiteId) (m : BitVec 16) (j : SiteId) :
    (l.foldl (fun m i => if f i then m ||| (1#16 <<< i.val) else m) m).getLsbD j.val =
      (m.getLsbD j.val || (decide (j ∈ l) && f j)) := by
  induction l generalizing m with
  | nil => simp
  | cons a l ih =>
    rw [List.foldl_cons, ih]
    cases hf : f a with
    | true =>
      rw [if_pos rfl, BitVec.getLsbD_or, getLsbD_siteBit]
      by_cases hj : j = a <;> simp [hj, hf]
    | false =>
      rw [if_neg nofun]
      by_cases hj : j = a <;> simp [hj, hf]

theorem siteMask_getLsbD (f : SiteId → Bool) (i : SiteId) : (siteMask f).getLsbD i.val = f i := by
  rw [siteMask, foldl_siteBit_getLsbD]
  simp [allSites]

theorem enabledSetFor_getLsbD (i : SiteId) :
    (s.enabledSetFor enable).getLsbD i.val = (enable.getLsbD i.val && (s.siteMap[i]).enabled) :=
  siteMask_getLsbD _ i

/-! ### The site that names a port (R4, R104) -/

theorem namingSite_eq_none (h : ∀ i : SiteId, enabled.getLsbD i.val = true → s.sitePort i ≠ p) :
    s.namingSite enabled p = none := by
  refine List.find?_eq_none.2 fun i _ hi => ?_
  obtain ⟨henabled, hport⟩ := Bool.and_eq_true_iff.1 hi
  exact h i henabled (beq_iff_eq.1 hport)

theorem namingSite_eq_some (h : s.namingSite enabled p = some i) : enabled.getLsbD i.val = true ∧ s.sitePort i = p := by
  unfold State.namingSite at h
  have hnames := List.find?_some h
  obtain ⟨henabled, hport⟩ := Bool.and_eq_true_iff.1 hnames
  exact ⟨henabled, beq_iff_eq.1 hport⟩

/-- Two enabled entries never name one port, so the site that names the port of an enabled site is this site. -/
theorem namingSite_sitePort (hd : s.SitesDistinct)
    (hset : ∀ i : SiteId, enabled.getLsbD i.val = true → (s.siteMap[i]).enabled = true)
    (h : enabled.getLsbD i.val = true) : s.namingSite enabled (s.sitePort i) = some i := by
  cases hfind : s.namingSite enabled (s.sitePort i) with
  | none =>
    have hnone := List.find?_eq_none.1 hfind i (List.mem_finRange i)
    exact absurd (Bool.and_eq_true_iff.2 ⟨h, beq_self_eq_true _⟩) hnone
  | some j =>
    obtain ⟨hj, hport⟩ := namingSite_eq_some hfind
    rw [hd j i (hset j hj) (hset i h) hport]

/-! ### The command (R25, R135, R136) -/

theorem beginTouchdown_td :
    (s.beginTouchdown enabled).td =
      { s.td with
        state := .touchdownOpen, number := nextTouchdown s.td.number, enabled := enabled, contactLost := false } := by
  unfold State.beginTouchdown
  dsimp only
  split <;> rfl

theorem beginTouchdown_events :
    (s.beginTouchdown enabled).events =
      if enabled = 0 then { s.events with latches := s.events.latches ||| 0x400#12 } else s.events := by
  unfold State.beginTouchdown
  dsimp only
  split <;> rfl

/-- TOUCHDOWN BEGIN changes touchdown, contexts, ports and events, and nothing else. -/
theorem beginTouchdown_rest :
    ({ s.beginTouchdown enabled with td := s.td, contexts := s.contexts, ports := s.ports, events := s.events } : State) =
      s := by
  simp only [beginTouchdown_frame]

theorem cmdTouchdownBegin_open (ho : s.touchdownIsOpen = true) :
    cmdTouchdownBegin tag enable s = s.refuse tag .state :=
  if_pos ho

theorem cmdTouchdownBegin_noWafer (h : s.td.state = .noWafer) :
    cmdTouchdownBegin tag enable s = s.refuse tag .noWafer := by
  rw [cmdTouchdownBegin, if_neg (by rw [touchdownIsOpen_of_noWafer h]; nofun), if_pos h]

theorem cmdTouchdownBegin_waferOpen (h : s.td.state = .waferOpen) :
    cmdTouchdownBegin tag enable s =
      if s.pins.contact = true then
        (s.beginTouchdown (s.enabledSetFor enable)).respondOk tag
          (be16 (s.beginTouchdown (s.enabledSetFor enable)).td.number ++ be16 (s.enabledSetFor enable))
      else s.refuse tag .noContact := by
  rw [cmdTouchdownBegin, if_neg (by rw [touchdownIsOpen_of_waferOpen h]; nofun), if_neg (by rw [h]; nofun)]
  cases s.pins.contact <;> rfl

end Sys2Proof.Machine

open Sys2Proof Sys2Proof.Machine

/-- Settles O38: the refusals check by check; the new start of a context and of a port is that of `Context.begun` and
`Port.begun`, by the site that names the port. -/
theorem touchdownBeginStartsItsSites : Obligations.TouchdownBeginStartsItsSites := by
  unfold Obligations.TouchdownBeginStartsItsSites
  intro tag enable s h
  have hexec : exec (.touchdownBegin tag enable) s = .next (cmdTouchdownBegin tag enable s) :=
    exec_of_ready h (tag := tag) (c := .touchdownBegin enable) rfl
  rw [hexec]
  refine ⟨fun ho => congrArg _ (cmdTouchdownBegin_open ho), fun hn => congrArg _ (cmdTouchdownBegin_noWafer hn),
    fun hw hcontact => ?noContact, fun hw hcontact hd => ?accepted⟩
  case noContact => rw [cmdTouchdownBegin_waferOpen hw, if_neg (by rw [hcontact]; nofun)]
  case accepted =>
    have henabled : (s.beginTouchdown (s.enabledSetFor enable)).td.enabled = s.enabledSetFor enable := by
      rw [beginTouchdown_td]
    have hset : ∀ i : SiteId, (s.enabledSetFor enable).getLsbD i.val = true → (s.siteMap[i]).enabled = true := by
      intro i hi
      rw [enabledSetFor_getLsbD] at hi
      exact (Bool.and_eq_true_iff.1 hi).2
    refine ⟨s.beginTouchdown (s.enabledSetFor enable), ?next, by rw [beginTouchdown_td], by rw [beginTouchdown_td],
      by rw [beginTouchdown_td], by rw [beginTouchdown_td]; rfl, ?set, ?enabled, ?others, ?events, beginTouchdown_rest⟩
    all_goals rw [henabled]
    case next => rw [cmdTouchdownBegin_waferOpen hw, if_pos hcontact]
    case set => exact enabledSetFor_getLsbD
    case enabled =>
      intro i hi
      rw [ctx_beginTouchdown, beginTouchdown_port, namingSite_sitePort hd hset hi]
      exact ⟨rfl, rfl⟩
    case others =>
      intro p hp
      rw [ctx_beginTouchdown, beginTouchdown_port, namingSite_eq_none hp]
      exact ⟨rfl, rfl⟩
    case events => exact beginTouchdown_events
end

section
/-! Proofs: SITE ABORT, which answers one queue and ends one context (R20, R101, R138). -/
namespace Sys2Proof.Machine

variable {s : State} {tag site : Byte} {i : SiteId}

theorem cmdSiteAbort_badSite (h : 15 < site.toNat) : cmdSiteAbort tag site s = s.refuse tag .badArg := dif_neg (by omega)

theorem cmdSiteAbort_site (h : i.val = site.toNat) :
    cmdSiteAbort tag site s =
      if s.touchdownIsOpen = false then s.refuse tag .state
      else if s.siteEnabled i = false then s.refuse tag .badArg
      else
        let p := s.sitePort i
        let t := ((s.answerQueue p .aborted).abortContext p).serviceIf ((s.ctx p).state == .held)
        t.respondOk tag [site, (t.ctx p).state.code, (t.ctx p).verdictCode] := by
  have hbound : site.toNat < 16 := h ▸ i.isLt
  obtain rfl : i = ⟨site.toNat, hbound⟩ := Fin.ext h
  rw [cmdSiteAbort, dif_pos hbound]
  simp only [Bool.not_eq_true']

end Sys2Proof.Machine

open Sys2Proof Sys2Proof.Machine

/-- Settles O41: a port answers its queue by its definition; SITE ABORT check by check, and then by the context's state. -/
theorem siteAbortEndsOneSite : Obligations.SiteAbortEndsOneSite := by
  unfold Obligations.SiteAbortEndsOneSite
  refine ⟨fun p status s => ⟨rfl, answerQueue_port s p status⟩, ?_⟩
  intro tag site s h
  have hexec : exec (.siteAbort tag site) s = .next (cmdSiteAbort tag site s) :=
    exec_of_ready h (tag := tag) (c := .siteAbort site) rfl
  rw [hexec]
  refine ⟨fun hsite => congrArg _ (cmdSiteAbort_badSite hsite), fun i hi => ?_⟩
  rw [cmdSiteAbort_site hi]
  refine ⟨fun hclosed => congrArg _ (if_pos hclosed), fun hopen hdisabled => ?disabled, fun hopen henabled => ?ends⟩
  case disabled => rw [if_neg (by rw [hopen]; nofun), if_pos (show s.siteEnabled i = false from hdisabled)]
  case ends =>
    intro p a drain off t
    have hctx : a.ctx p = s.ctx p := answerQueue_ctx ..
    have hbusy : a.inFlight p = (s.port p).state.isBusy := by
      rw [State.inFlight, answerQueue_port, if_pos rfl]
    have hdrain : ∀ mark, a.setCtxState p (.draining (.aborted mark)) = drain mark := by
      intro mark
      rw [State.setCtxState, hctx]
      rfl
    have hoff : ∀ mark, (drain mark).switchOff p = off (drain mark) := by
      intro mark
      have hsupply : (drain mark).supply p = s.supply p := answerQueue_supply ..
      rw [State.switchOff, hsupply]
      rfl
    have ht : (a.abortContext p).serviceIf ((s.ctx p).state == .held) = t := by
      rw [State.abortContext, hctx, hbusy]
      simp only [hdrain, hoff, t]
      cases (s.ctx p).state <;> rfl
    rw [if_neg (by rw [hopen]; nofun), if_neg (by rw [State.siteEnabled, henabled]; nofun)]
    exact congrArg
      (fun t : State => Host.Outcome.next (t.respondOk tag [site, (t.ctx p).state.code, (t.ctx p).verdictCode])) ht
end

section
/-! Proofs: the completion of TOUCHDOWN END (R23, R102, R140). -/
namespace Sys2Proof.Machine

variable {s : State} {tag : Byte}

theorem ended_iff {st : ContextState} : st.ended = true ↔ st = .idle ∨ st = .done := by
  cases st <;> simp [ContextState.ended]

theorem quiet_iff :
    s.quiet = true ↔
      ∀ p : PortId, ((s.ctx p).state = .idle ∨ (s.ctx p).state = .done) ∧ (s.port p).state.isBusy = false := by
  simp only [State.quiet, allPorts, List.all_eq_true, List.mem_finRange, forall_const, Bool.and_eq_true, ended_iff,
    Bool.not_eq_true', State.inFlight]

theorem completionDue_eq_some :
    s.completionDue = some tag ↔
      s.control.executor = .endingTouchdown tag ∧ s.td.state = .touchdownEnding ∧ s.quiet = true := by
  unfold State.completionDue
  cases s.control.executor with
  | idle | unwrapping job => simp
  | endingTouchdown tag' =>
    by_cases h : s.td.state = .touchdownEnding ∧ s.quiet = true <;> simp [h]

theorem completeAndRelease_of_due (h : s.completionDue = some tag) :
    s.completeAndRelease = (s.completeTouchdown tag).runQueue := by
  rw [State.completeAndRelease, h]

theorem completeAndRelease_of_not_due (h : ∀ tag, s.completionDue ≠ some tag) : s.completeAndRelease = s := by
  rw [State.completeAndRelease, Option.eq_none_iff_forall_ne_some.2 h]

/-- Where every context is IDLE or DONE, all of them are IDLE after the completion (R140). -/
theorem completeTouchdown_of_quiet (h : s.quiet = true) :
    s.completeTouchdown tag =
      ({ s with
          contexts := Vector.ofFn fun p : PortId => { s.ctx p with state := .idle }
          ports := Vector.ofFn fun p : PortId => { s.port p with state := .parked .noTouchdown }
          td := { s.td with state := .waferOpen }
          control := { s.control with executor := .idle } } : State).respondOk tag
        (be16 s.td.number ++ s.verdictBytes) := by
  have hcontexts : s.contexts.map Context.returned = Vector.ofFn fun p : PortId => { s.ctx p with state := .idle } := by
    refine Vector.ext fun n hn => ?_
    rw [Vector.getElem_map, Vector.getElem_ofFn]
    show (s.ctx ⟨n, hn⟩).returned = _
    rw [Context.returned]
    split
    · rfl
    · rename_i hnot
      rw [← ((quiet_iff.1 h ⟨n, hn⟩).1.resolve_right hnot)]
  have hports : s.ports.map Port.parkedAtEnd =
      Vector.ofFn fun p : PortId => { s.port p with state := .parked .noTouchdown } := by
    refine Vector.ext fun n hn => ?_
    rw [Vector.getElem_map, Vector.getElem_ofFn]
    rfl
  rw [State.completeTouchdown, hcontexts, hports]

end Sys2Proof.Machine

open Sys2Proof Sys2Proof.Machine

/-- Settles O40, by whether a completion is due (`completionDue_eq_some`). -/
theorem quietTouchdownCompletes : Obligations.QuietTouchdownCompletes := by
  unfold Obligations.QuietTouchdownCompletes
  intro s hrun due
  have hdue : ∀ tag, s.completionDue = some tag ↔ due tag := by
    intro tag
    rw [completionDue_eq_some, quiet_iff]
  have hexec : exec .touchdownEndCompletion s = .next s.completeAndRelease :=
    whileRunning_of_running hrun (fun s => s.completeAndRelease) _
  refine ⟨?completes, ?stays, hexec⟩
  case completes =>
    intro tag h verdicts
    have hsome : s.completionDue = some tag := (hdue tag).2 h
    obtain ⟨-, -, hquiet⟩ := completionDue_eq_some.1 hsome
    rw [hexec, completeAndRelease_of_due hsome, completeTouchdown_of_quiet hquiet]
    rfl
  case stays =>
    intro h
    rw [hexec, completeAndRelease_of_not_due fun tag hsome => h tag ((hdue tag).1 hsome)]
end

section
/-! Proofs: the input pins (R148, R188). -/
namespace Sys2Proof.Machine

variable {s t : State}

/-- The pins after a row's effect, where its effect on the pins in reset gives the same. -/
theorem whileRunning_pins {effect atPins : State → State} {pins : Pins} (h : whileRunning s effect atPins = .next t)
    (run : (effect s).pins = pins) (held : (atPins s).pins = pins) : t.pins = pins := by
  cases h
  split
  · exact held
  · exact run

/-- The pins after the effect of a row that names no pin. -/
theorem whileRunning_pins_same {effect : State → State} (h : whileRunning s effect = .next t)
    (run : (effect s).pins = s.pins) : t.pins = s.pins :=
  whileRunning_pins h run rfl

theorem pins_ite {c : Prop} [Decidable c] {a b : State} {pins : Pins} (ha : a.pins = pins) (hb : b.pins = pins) :
    (if c then a else b).pins = pins := by
  split
  · exact ha
  · exact hb

/-- What a row makes of the input pins (R148, R188). -/
def pinsAfter (pins : Pins) : Instr → Pins
  | .linkRdyFall => { pins with linkRdy := false }
  | .linkRdyRise => { pins with linkRdy := true }
  | .supplyGoodChange p good => { pins with supplyGood := pins.supplyGood.set p good }
  | .contactFall => { pins with contact := false }
  | .contactRise => { pins with contact := true }
  | _ => pins

theorem exec_pins {i : Instr} (e : exec i s = .next t) : t.pins = pinsAfter s.pins i := by
  cases hc : controlCommand i with
  | some x =>
    have hsame : pinsAfter s.pins i = s.pins := by cases i <;> cases hc <;> rfl
    rw [exec_eq_submit hc] at e
    rw [hsame]
    exact whileRunning_pins_same e (by simp)
  | none =>
    cases i with
    | reset => cases e; rfl
    | resetRelease => cases e; exact pins_ite rfl rfl
    | receiverStart => cases e; exact pins_ite rfl rfl
    | linkRdyFall =>
      unfold exec execLinkRdyFall at e
      exact whileRunning_pins e (by simp [State.setLinkRdy, pinsAfter]) rfl
    | linkRdyRise =>
      unfold exec execLinkRdyRise at e
      refine whileRunning_pins e ?_ rfl
      split
      · rename_i hup
        rw [pinsAfter, ← hup]
      · rfl
    | supplyGoodChange p good =>
      unfold exec execSupplyGoodChange at e
      exact whileRunning_pins e (pins_ite (by simp [State.setSupplyGood, pinsAfter]) rfl) rfl
    | contactFall =>
      unfold exec execContactFall at e
      exact whileRunning_pins e (pins_ite (by simp [State.setContact, pinsAfter]) rfl) rfl
    | contactRise => exact whileRunning_pins (effect := (·.setContact true)) (atPins := (·.setContact true)) e rfl rfl
    | frameLengthError b | requestFrame b | downstreamByte b =>
      exact whileRunning_pins_same (effect := (·.receiveByte b)) e (by simp)
    | responseEmission => exact whileRunning_pins_same (effect := (·.emission)) e (by simp)
    | frameLeavesStream => exact whileRunning_pins_same (effect := (·.frameLeaves)) e (by simp)
    | unwrapCompletion r =>
      unfold exec execUnwrapCompletion at e
      refine whileRunning_pins_same e ?_
      split
      · exact (sameBench_unwrapRelease s _ r).2.1
      · rfl
    | touchdownEndCompletion => exact whileRunning_pins_same (effect := (·.completeAndRelease)) e (by simp)
    | keyService => exact whileRunning_pins_same (effect := (·.serviceKeys)) e (by simp)
    | transactionStart p => exact whileRunning_pins_same (effect := (·.startPort p)) e (by simp)
    | breakEnd p => exact whileRunning_pins_same (effect := (·.breakEnds p)) e (by simp)
    | dieResponse p a =>
      unfold exec execDieResponse at e
      exact whileRunning_pins_same e (pins_ite (by simp) (by simp))
    | responseTimeout p =>
      unfold exec execResponseTimeout at e
      exact whileRunning_pins_same e (pins_ite (by simp) rfl)
    | settleExpiry p =>
      unfold exec execSettleExpiry at e
      exact whileRunning_pins_same e (pins_ite (by simp) rfl)
    | _ => cases hc

end Sys2Proof.Machine

open Sys2Proof Sys2Proof.Machine

/-- Settles O4, row by row: what a row makes of the pins while the part runs, it makes of them in reset (`exec_pins`). -/
theorem pinsFollowTheirEvents : Obligations.PinsFollowTheirEvents := by
  unfold Obligations.PinsFollowTheirEvents
  intro c s t e
  rw [exec_pins e]
  cases c <;> rfl
end

section
/-! Proofs: CAPTURE and the identity check (R5, R6, R7, R55, R56, R142, R143). -/
namespace Sys2Proof.Machine

variable {s : State} {p : PortId} {i : Identity}

/-! ### A capture (R5, R56) -/

theorem contextAtEnd_capture (h : (s.ctx p).state = .ident) (f : CaptureField) (w : Word) :
    s.contextAtEnd p (.capture f) (.ok (some w)) = s.captureField p f w := by
  simp [State.contextAtEnd, h]

theorem complete_iff : i.complete = true ↔ i.captured = 0x3F#6 := beq_iff_eq

theorem captureField_eq (f : CaptureField) (w : Word) :
    s.captureField p f w =
      if ((s.ctx p).identity.record f w).captured = 0x3F#6 then
        (s.setCtx p { s.ctx p with identity := (s.ctx p).identity.record f w }).checkIdentity p
      else s.setCtx p { s.ctx p with identity := (s.ctx p).identity.record f w } := by
  simp only [State.captureField, ctx_setCtx_self, complete_iff]

/-! ### The identity check, condition by condition (R142) -/

/-- The outcome of a coordinate's map entry, where it has one. -/
def State.outcomeAt (s : State) (c : Coord) : Option MapOutcome := (mapLookup s.dieMap c).map (·.outcome)

theorem outcomeAt_eq_some (hm : mapSorted s.dieMap) {c : Coord} {o : MapOutcome} :
    s.outcomeAt c = some o ↔ ∃ e ∈ s.dieMap, e.coord = c ∧ e.outcome = o := by
  simp only [State.outcomeAt, Option.map_eq_some_iff, mapLookup_eq_some hm, and_assoc]

theorem exists_outcomeAt_iff (hm : mapSorted s.dieMap) {c : Coord} (f : Long → MapOutcome) :
    (∃ e ∈ s.dieMap, e.coord = c ∧ ∃ k, e.outcome = f k) ↔ ∃ k, s.outcomeAt c = some (f k) := by
  simp only [outcomeAt_eq_some hm]
  constructor
  · rintro ⟨e, he, hc, k, hk⟩
    exact ⟨k, e, he, hc, hk⟩
  · rintro ⟨k, e, he, hc, hk⟩
    exact ⟨e, he, hc, k, hk⟩

theorem outcomeAt_eq_none {c : Coord} : s.outcomeAt c = none ↔ ∀ e ∈ s.dieMap, e.coord ≠ c := by
  rw [State.outcomeAt, Option.map_eq_none_iff, mapLookup_eq_none]

theorem identityCheck_badId (h : validWafer i.wafer = false) : s.identityCheck i = some .badId := by
  simp [State.identityCheck, h]

theorem identityCheck_wrongWafer (hv : validWafer i.wafer = true)
    (h : s.td.wafer ≠ some { lot := i.lot, number := i.wafer }) : s.identityCheck i = some .wrongWafer := by
  simp [State.identityCheck, hv, h]

theorem identityCheck_duplicate (hv : validWafer i.wafer = true)
    (hw : s.td.wafer = some { lot := i.lot, number := i.wafer }) (h : s.claimed i.coord = true) :
    s.identityCheck i = some .duplicateDie := by
  simp [State.identityCheck, hv, hw, h]

section own

variable (hv : validWafer i.wafer = true) (hw : s.td.wafer = some { lot := i.lot, number := i.wafer })
  (hc : s.claimed i.coord = false)

include hv hw hc

/-! #### A die of the open wafer that no context claims, by the outcome of its entry -/

theorem identityCheck_bound {k : Long} (h : s.outcomeAt i.coord = some (.bound k)) :
    s.identityCheck i = if i.lock then some .alreadyBound else some .lockMissing := by
  unfold State.outcomeAt at h
  simp [State.identityCheck, hv, hw, hc, h]

theorem identityCheck_voided {k : Long} (h : s.outcomeAt i.coord = some (.voided k)) :
    s.identityCheck i = some .scrap := by
  unfold State.outcomeAt at h
  simp [State.identityCheck, hv, hw, hc, h]

theorem identityCheck_free (hb : ∀ k, s.outcomeAt i.coord ≠ some (.bound k))
    (hs : ∀ k, s.outcomeAt i.coord ≠ some (.voided k)) :
    s.identityCheck i =
      if i.lock then some .foreignLock
      else if s.outcomeAt i.coord = none ∧ Config.mapCapacity ≤ s.dieMap.length + s.mapReservations then some .mapFull
      else none := by
  unfold State.outcomeAt at hb hs ⊢
  simp only [State.identityCheck, hv, hw, hc]
  generalize (mapLookup s.dieMap i.coord).map (·.outcome) = outcome at hb hs ⊢
  cases outcome with
  | none => simp
  | some o =>
    cases o with
    | bound k => exact absurd rfl (hb k)
    | voided k => exact absurd rfl (hs k)
    | tried => simp

end own

/-! ### What follows from the check (R6, R7, R143) -/

theorem checkIdentity_rejected {v : Verdict} (h : s.identityCheck (s.ctx p).identity = some v) (hv : v ≠ .mapFull) :
    s.checkIdentity p = s.settleRejected p v := by
  unfold State.checkIdentity
  rw [h]
  cases v with
  | mapFull => exact absurd rfl hv
  | _ => rfl

theorem checkIdentity_mapFull (h : s.identityCheck (s.ctx p).identity = some .mapFull) :
    s.checkIdentity p = (s.raise .mapFull).settleRejected p .mapFull := by
  rw [State.checkIdentity, h]

theorem checkIdentity_pass (h : s.identityCheck (s.ctx p).identity = none) :
    s.checkIdentity p = (s.passCheck p).serveJoined p := by
  rw [State.checkIdentity, h]

theorem passCheck_eq {fresh : Bool} (h : fresh = true ↔ ∀ e ∈ s.dieMap, e.coord ≠ (s.ctx p).identity.coord) :
    s.passCheck p =
      { s with
        waitList := s.waitList ++ [p]
        contexts := s.contexts.set p
          { s.ctx p with state := .wait, claim := some (s.ctx p).identity.coord, mapReserved := fresh } } := by
  have hfresh : (mapLookup s.dieMap (s.ctx p).identity.coord).isNone = fresh := by
    rw [Bool.eq_iff_iff, Option.isNone_iff_eq_none, mapLookup_eq_none, h]
  rw [State.passCheck, hfresh]
  rfl

end Sys2Proof.Machine

open Sys2Proof Sys2Proof.Machine

/-- Settles O52: the capture field by field, the check condition by condition, and what follows from its result. -/
theorem captureRunsTheIdentityCheck : Obligations.CaptureRunsTheIdentityCheck := by
  unfold Obligations.CaptureRunsTheIdentityCheck
  refine ⟨?capture, ?check, ?result⟩
  case capture =>
    intro p f w s h i bit i' t
    have hlock : ∀ mask : Word, (w &&& mask != 0) = decide (w &&& mask ≠ 0) := fun mask =>
      Bool.eq_iff_iff.2 (bne_iff_ne.trans decide_eq_true_iff.symm)
    have hrecord : (s.ctx p).identity.record f w = i' := by
      cases f with
      | lock mask =>
        rw [Identity.record, hlock]
        rfl
      | _ => rfl
    rw [contextAtEnd_capture h, captureField_eq, hrecord]
    rfl
  case check =>
    intro i s hsorted entry badId wrongWafer duplicate bound voided full
    have hbad : validWafer i.wafer = false ↔ badId := validWafer_eq_false_iff
    have hvalid : ¬ badId → validWafer i.wafer = true := fun h => Bool.not_eq_false _ ▸ mt hbad.1 h
    have hfree : ¬ duplicate → s.claimed i.coord = false := fun h => Bool.not_eq_true _ ▸ mt (claimed_iff s _).1 h
    have hbound : bound ↔ ∃ k, s.outcomeAt i.coord = some (.bound k) := exists_outcomeAt_iff hsorted .bound
    have hvoided : voided ↔ ∃ k, s.outcomeAt i.coord = some (.voided k) := exists_outcomeAt_iff hsorted .voided
    have hfull : full ↔ s.outcomeAt i.coord = none ∧ Config.mapCapacity ≤ s.dieMap.length + s.mapReservations := by
      rw [outcomeAt_eq_none]
      simp only [full, entry, and_true, not_exists, not_and, ne_eq, Config.mapCapacity]
    clear_value bound voided full
    refine ⟨fun h => identityCheck_badId (hbad.2 h), fun hb hw => identityCheck_wrongWafer (hvalid hb) hw,
      fun hb hw hd => identityCheck_duplicate (hvalid hb) (not_not.1 hw) ((claimed_iff s _).2 hd),
      fun hb hw hd h hl => ?alreadyBound, fun hb hw hd h hl => ?lockMissing, fun hb hw hd h => ?scrap,
      fun hb hw hd hnb hnv hl => ?foreignLock, fun hb hw hd hnb hnv hl h => ?mapFull,
      fun hb hw hd hnb hnv hl h => ?pass⟩
    case alreadyBound =>
      obtain ⟨k, hk⟩ := hbound.1 h
      rw [identityCheck_bound (hvalid hb) (not_not.1 hw) (hfree hd) hk, if_pos hl]
    case lockMissing =>
      obtain ⟨k, hk⟩ := hbound.1 h
      rw [identityCheck_bound (hvalid hb) (not_not.1 hw) (hfree hd) hk, if_neg (by rw [hl]; nofun)]
    case scrap =>
      obtain ⟨k, hk⟩ := hvoided.1 h
      exact identityCheck_voided (hvalid hb) (not_not.1 hw) (hfree hd) hk
    all_goals
      rw [identityCheck_free (hvalid hb) (not_not.1 hw) (hfree hd) (not_exists.1 (mt hbound.2 hnb))
        (not_exists.1 (mt hvoided.2 hnv)), hl]
    case foreignLock => rfl
    case mapFull => rw [if_neg nofun, if_pos (hfull.1 h)]
    case pass => rw [if_neg nofun, if_neg (mt hfull.2 h)]
  case result =>
    intro p s c rejected
    refine ⟨fun v h hv => checkIdentity_rejected h hv, fun h => checkIdentity_mapFull h, ?_⟩
    intro fresh h hfresh u
    have hu : (s.passCheck p).serviceKeys = u := congrArg State.serviceKeys (passCheck_eq hfresh)
    rw [checkIdentity_pass h, State.serveJoined, hu]
    rfl
end

section
/-! Proofs: TOUCHDOWN END in closed form: the ports' answers, the ends of the contexts, key service (R20, R102, R139). -/
namespace Sys2Proof.Machine

/-! ### The ports (R102, R173) -/

/-- What the ports of the part answer at TOUCHDOWN END, in ascending order (R102, R173). -/
def State.abortedAnswers (s : State) : State :=
  (List.finRange 16).foldl (fun t p => t.answers (s.port p).queue .aborted) s

/-- A port after TOUCHDOWN END (R102). -/
def Port.closed (pt : Port) : Port := { pt with queue := [], admissionClosed := true }

/-- The part once every port has acted on TOUCHDOWN END. -/
def State.portsClosed (s : State) : State :=
  { s.abortedAnswers with ports := Vector.ofFn fun p => (s.port p).closed }

/-- How the context of a port ends at TOUCHDOWN END (R20). -/
def State.abortEndingOf (s : State) (p : PortId) : Ending := abortEnding (s.ctx p) (s.inFlight p)

/-- The part once every context has ended too, in the order of R154, before key service. -/
def State.contextsAborted (s : State) : State := s.portsClosed.endsAll s.settlementOrder s.abortEndingOf

variable {s : State} {p : PortId} {l : List PortId}

/-- The ports act one after another, each on the record it has before the event. -/
theorem foldl_closePort {P : PortId → Port} (hl : l.Nodup) (h : ∀ p ∈ l, s.port p = P p) :
    l.foldl (fun t p => t.closePort p) s =
      l.foldl (fun t p => { t.answers (P p).queue .aborted with ports := t.ports.set p (P p).closed }) s := by
  induction l generalizing s with
  | nil => rfl
  | cons a l ih =>
    obtain ⟨ha, hl⟩ := List.nodup_cons.1 hl
    rw [List.foldl_cons, List.foldl_cons, closePort_eq, h a (by simp)]
    refine ih hl fun p hp => ?_
    rw [← h p (by simp [hp])]
    exact port_setPort_ne s _ fun hpa : p = a => ha (hpa ▸ hp)

/-- A row of ports that close: their answers, and their records. -/
theorem foldl_answers_set (P : PortId → Port) :
    l.foldl (fun t p => { t.answers (P p).queue .aborted with ports := t.ports.set p (P p).closed }) s =
      { l.foldl (fun t p => t.answers (P p).queue .aborted) s with
        ports := l.foldl (fun (V : Vector Port 16) (p : PortId) => V.set p (P p).closed) s.ports } :=
  foldl_with (step := fun t p => t.answers (P p).queue .aborted) (set := fun p => (P p).closed)
    (fun _ V T _ => answers_with V T _ _) l s s.ports

theorem foldl_closePort_all : allPorts.foldl (fun t p => t.closePort p) s = s.portsClosed := by
  rw [foldl_closePort (P := s.port) (l := allPorts) (List.nodup_finRange 16) fun _ _ => rfl, foldl_answers_set, allPorts,
    foldl_set_all]
  rfl

theorem abortedAnswers_answersOnly : s.AnswersOnly s.abortedAnswers := .foldl (fun t _ => .answers t _ _) _ s

@[simp] theorem portsClosed_frame :
    s.portsClosed.control = s.control ∧ s.portsClosed.contexts = s.contexts ∧ s.portsClosed.waitList = s.waitList ∧
    s.portsClosed.pool = s.pool ∧ s.portsClosed.counters = s.counters ∧ s.portsClosed.supplies = s.supplies ∧
    s.portsClosed.td = s.td ∧ s.portsClosed.dieMap = s.dieMap ∧ s.portsClosed.log = s.log := by
  have h := abortedAnswers_answersOnly (s := s)
  exact ⟨h.field State.control, h.field State.contexts, h.field State.waitList, h.field State.pool,
    h.field State.counters, h.field State.supplies, h.field State.td, h.field State.dieMap, h.field State.log⟩

theorem portsClosed_ctx (q : PortId) : s.portsClosed.ctx q = s.ctx q := ctx_congr (by simp) q

theorem portsClosed_supply (q : PortId) : s.portsClosed.supply q = s.supply q := supply_congr (by simp) q

theorem portsClosed_inFlight (q : PortId) : s.portsClosed.inFlight q = s.inFlight q := by
  simp [State.inFlight, State.portsClosed, State.port, Port.closed]

/-! ### The contexts (R20, R154) -/

/-- A row of steps, each of which ends a context that stands, with its supply, as in `s`. -/
theorem foldl_eq_endsAll {step : State → PortId → State} {how : PortId → Ending}
    (hstep : ∀ t p, t.ctx p = s.ctx p → t.supply p = s.supply p → step t p = t.endsAs p (how p)) (hl : l.Nodup)
    {t : State} (ht : ∀ p ∈ l, t.ctx p = s.ctx p ∧ t.supply p = s.supply p) : l.foldl step t = t.endsAll l how := by
  induction l generalizing t with
  | nil => rfl
  | cons a l ih =>
    obtain ⟨ha, hl⟩ := List.nodup_cons.1 hl
    obtain ⟨hctx, hsupply⟩ := ht a (by simp)
    rw [List.foldl_cons, endsAll_cons, hstep t a hctx hsupply]
    refine ih hl fun p hp => ?_
    have hpa : p ≠ a := fun hn : p = a => ha (hn ▸ hp)
    rw [endsAs_ctx, endsAs_supply, if_neg hpa, if_neg hpa]
    exact ht p (by simp [hp])

/-- The drain of a context that stands as in `s`, its supply on. -/
theorem endsAs_drains_on {t : State} (hctx : t.ctx p = s.ctx p) (cause : DrainCause) :
    t.endsAs p (.drains cause false) =
      { t with contexts := t.contexts.set p { s.ctx p with state := .draining cause } } := by
  rw [← hctx]
  rfl

/-- The drain of a context that stands, with its supply, as in `s`, its supply off. -/
theorem endsAs_drains_off {t : State} (hctx : t.ctx p = s.ctx p) (hsupply : t.supply p = s.supply p)
    (cause : DrainCause) :
    t.endsAs p (.drains cause true) =
      { t with
        contexts := t.contexts.set p { s.ctx p with state := .draining cause }
        supplies := t.supplies.set p { s.supply p with state := .off } } := by
  rw [← hctx, ← hsupply]
  rfl

theorem contextsAborted_ctx (q : PortId) : s.contextsAborted.ctx q = (s.ctx q).endedAs (s.abortEndingOf q) := by
  rw [State.contextsAborted, endsAll_ctx (settlementOrder_nodup s), if_pos (mem_settlementOrder s q), portsClosed_ctx]

theorem contextsAborted_supply (q : PortId) :
    s.contextsAborted.supply q = (s.supply q).endedAs (s.abortEndingOf q) := by
  rw [State.contextsAborted, endsAll_supply (settlementOrder_nodup s), if_pos (mem_settlementOrder s q),
    portsClosed_supply]

theorem contextsAborted_td : s.contextsAborted.td = s.td := (endsAll_td _).trans (by simp)

theorem endsAs_control (e : Ending) : (s.endsAs p e).control = s.control := by
  cases e with
  | drains cause off => cases off <;> rfl
  | _ => simp [State.endsAs]

theorem contextsAborted_control : s.contextsAborted.control = s.control :=
  (foldl_field State.control _ _ (fun _ _ => endsAs_control _) _).trans (by simp)

theorem contextsAborted_link_merge :
    s.contextsAborted.link = s.abortedAnswers.link ∧ s.contextsAborted.merge = s.abortedAnswers.merge :=
  ⟨foldl_field State.link _ _ (fun _ _ => endsAs_link_merge _ |>.1) _,
    foldl_field State.merge _ _ (fun _ _ => endsAs_link_merge _ |>.2) _⟩

/-! ### The command (R38, R139) -/

/-- What TOUCHDOWN END does up to its completion (R139): ports, contexts, and key service (R38). -/
theorem endTouchdown_eq (tag : Byte) :
    s.endTouchdown tag =
      { s.contextsAborted.serviceIf s.anyHeld with
        td := { s.td with state := .touchdownEnding }
        control := { s.control with executor := .endingTouchdown tag } } := by
  have hends : s.settlementOrder.foldl (fun t p => t.abortContext p) s.portsClosed = s.contextsAborted :=
    foldl_abortContext (settlementOrder_nodup s) fun p _ => by rw [portsClosed_ctx, portsClosed_inFlight]; rfl
  have htd : (s.contextsAborted.serviceIf s.anyHeld).td = s.td := by simp [contextsAborted_td]
  have hcontrol : (s.contextsAborted.serviceIf s.anyHeld).control = s.control := by simp [contextsAborted_control]
  rw [State.endTouchdown]
  simp only [foldl_closePort_all, hends, State.setExecutor, htd, hcontrol]

/-- A completion releases nothing where no command waits (R140, R168). -/
theorem completeAndRelease_of_queue_nil (h : s.control.queue = []) : s.completeAndRelease = s.completeIfQuiet := by
  unfold State.completeAndRelease State.completeIfQuiet
  cases s.completionDue with
  | none => rfl
  | some tag =>
    have hqueue : (s.completeTouchdown tag).control.queue = [] := by rw [completeTouchdown_control]; exact h
    dsimp only
    rw [State.runQueue, hqueue]
    rfl

end Sys2Proof.Machine
end

section
/-! Proofs: how each context ends at TOUCHDOWN END, and the accounts after it (R20, R39, R144, R154, R155). -/
namespace Sys2Proof.Machine

/-! ### How a context ends (R20) -/

/-- The four ends that TOUCHDOWN END has for a context, each with the states it is for. -/
inductive AbortCase (c : Context) : Ending → Prop where
  | stays (h : c.state.ended = true ∨ c.state.isDraining = true) : AbortCase c .stays
  | abandoned (h : c.state = .ident ∨ c.state = .wait ∨ c.state = .held) : AbortCase c .abandoned
  | voided (hkey : c.state.holdsKey = true) (hexposed : c.state ≠ .held) : AbortCase c (.voided .aborted)
  | drains (cause : DrainCause) (off : Bool) (hkey : c.state.holdsKey = true) (hexposed : c.state ≠ .held) :
      AbortCase c (.drains cause off)

section ending

variable {c : Context} {e : Ending}

theorem abortCase (c : Context) (busy : Bool) : AbortCase c (abortEnding c busy) := by
  unfold abortEnding
  cases h : c.state with
  | idle | done => exact .stays (.inl (by rw [h]; rfl))
  | draining cause => exact .stays (.inr (by rw [h]; rfl))
  | ident => exact .abandoned (.inl h)
  | wait => exact .abandoned (.inr (.inl h))
  | held => exact .abandoned (.inr (.inr h))
  | burning | locking => exact .drains _ _ (by rw [h]; rfl) (by rw [h]; nofun)
  | _ =>
    cases busy
    · exact .voided (by rw [h]; rfl) (by rw [h]; nofun)
    · exact .drains _ _ (by rw [h]; rfl) (by rw [h]; nofun)

theorem AbortCase.reason_eq (h : AbortCase c e) : e.reason = .aborted := by cases h <;> rfl

/-- A VOIDED record is made of a context with an exposed key that does not drain. -/
theorem AbortCase.voids_eq (h : AbortCase c e) :
    e.voids = (c.state.holdsKey && decide ((c.endedAs e).state = .done) && decide (c.state ≠ .held)) := by
  cases h with
  | stays h =>
    rcases h with h | h
    · have hkey : c.state.holdsKey = false := by
        rcases ended_iff.1 h with h | h <;> rw [h] <;> rfl
      rw [hkey]
      rfl
    · have hdone : c.state ≠ .done := by
        intro hd
        rw [hd] at h
        cases h
      rw [Context.endedAs, decide_eq_false hdone, Bool.and_false]
      rfl
  | abandoned h => rcases h with h | h | h <;> rw [h] <;> rfl
  | voided hkey hexposed =>
    rw [hkey, decide_eq_true hexposed]
    rfl
  | drains cause off hkey hexposed =>
    rw [hkey]
    rfl

/-- The claim of a context is settled where it ends in DONE (R144). -/
theorem AbortCase.settles_iff (h : AbortCase c e) (hclaim : c.state.holdsClaim = true) :
    e.settles = true ↔ (c.endedAs e).state = .done := by
  cases h with
  | stays =>
    refine iff_of_false nofun fun hd => ?_
    rw [show c.state = .done from hd] at hclaim
    cases hclaim
  | abandoned | voided => exact iff_of_true rfl rfl
  | drains => exact iff_of_false nofun nofun

end ending

variable {s : State} {p : PortId}

theorem abortCaseOf (s : State) (p : PortId) : AbortCase (s.ctx p) (s.abortEndingOf p) := abortCase _ _

/-! ### The accounts after TOUCHDOWN END, from any state (R24, R154, R155) -/

/-- The contexts whose end by TOUCHDOWN END makes a record, in the order of their ends. -/
def State.abortVoids (s : State) : List PortId :=
  s.settlementOrder.filter fun p =>
    (s.ctx p).state.holdsKey && decide ((s.contextsAborted.ctx p).state = .done) && decide ((s.ctx p).state ≠ .held)

theorem filter_voids_eq_abortVoids : (s.settlementOrder.filter fun p => (s.abortEndingOf p).voids) = s.abortVoids :=
  List.filter_congr fun p _ => by rw [(abortCaseOf s p).voids_eq, contextsAborted_ctx]

theorem portsClosed_recordAt (q : PortId) (why : VoidReason) (n : Long) :
    s.portsClosed.recordAt q why n = s.recordAt q why n := by
  simp only [State.recordAt, State.logRecordOf, portsClosed_ctx, portsClosed_frame]

theorem contextsAborted_log :
    s.contextsAborted.log =
      { records := s.log.records ++ s.abortVoids.zipIdx.map fun x =>
          s.recordAt x.1 .aborted (s.log.nextSequence + BitVec.ofNat 32 x.2)
        nextSequence := s.log.nextSequence + BitVec.ofNat 32 s.abortVoids.length } := by
  have hlog : s.portsClosed.log = s.log := by simp
  rw [State.contextsAborted, endsAll_log (settlementOrder_nodup s), filter_voids_eq_abortVoids, hlog]
  simp only [portsClosed_recordAt, (abortCaseOf s _).reason_eq]

theorem contextsAborted_counters :
    s.contextsAborted.counters =
      { s.counters with voided := s.counters.voided + BitVec.ofNat 32 s.abortVoids.length } := by
  have hcounters : s.portsClosed.counters = s.counters := by simp
  rw [State.contextsAborted, endsAll_counters, filter_voids_eq_abortVoids, hcounters]

/-! ### The accounts after TOUCHDOWN END, from a sound state -/

/-- No context waits after TOUCHDOWN END (R20, R23). -/
theorem contextsAborted_waitList (h : s.Kept) : s.contextsAborted.waitList = [] := by
  refine List.eq_nil_iff_forall_not_mem.2 fun q hq => ?_
  rw [State.contextsAborted, endsAll_waitList] at hq
  obtain ⟨hwaits, hstays⟩ := hq
  have hlist : s.portsClosed.waitList = s.waitList := by simp
  have hwait : (s.ctx q).state = .wait := (h.wait.listed q).1 (hlist ▸ hwaits)
  refine hstays ⟨mem_settlementOrder s q, ?_⟩
  rw [State.abortEndingOf, abortEnding, hwait]

/-- So every returned key stays in the pool. -/
theorem endTouchdown_of_kept (h : s.Kept) (tag : Byte) :
    s.endTouchdown tag =
      { s.contextsAborted with
        td := { s.td with state := .touchdownEnding }
        control := { s.control with executor := .endingTouchdown tag } } := by
  rw [endTouchdown_eq, serviceIf_of_waitList_nil (contextsAborted_waitList h)]

/-- The keys of the contexts in HELD are back in the pool (R39). -/
theorem contextsAborted_pool (h : s.Kept) :
    s.contextsAborted.pool.Perm (s.pool ++ (List.finRange 16).filterMap fun p : PortId =>
      if (s.ctx p).state = .held then (s.ctx p).heldKey else none) := by
  have hpool : s.portsClosed.pool = s.pool := by simp
  have hreturned : ∀ p, (match s.abortEndingOf p with
      | .abandoned => (s.portsClosed.ctx p).heldKey
      | _ => none) = if (s.ctx p).state = .held then (s.ctx p).heldKey else none := by
    intro p
    rw [portsClosed_ctx]
    have hcase := abortCaseOf s p
    generalize s.abortEndingOf p = e at hcase ⊢
    cases hcase with
    | stays hs =>
      have hn : (s.ctx p).state ≠ .held := by
        intro hh
        rw [hh] at hs
        exact hs.elim nofun nofun
      exact (if_neg hn).symm
    | abandoned ha =>
      rcases ha with hi | hw | hh
      · rw [if_neg (by rw [hi]; nofun)]
        exact (h.ident_empty hi).1
      · rw [if_neg (by rw [hw]; nofun)]
        exact (h.wait_empty hw).1
      · exact (if_pos hh).symm
    | voided hkey hexposed => exact (if_neg hexposed).symm
    | drains cause off hkey hexposed => exact (if_neg hexposed).symm
  rw [State.contextsAborted]
  refine (endsAll_pool (settlementOrder_nodup s)).trans ?_
  rw [hpool]
  refine List.Perm.append_left _ ?_
  refine ((settlementOrder_perm s).filterMap _).trans ?_
  exact .of_eq (List.filterMap_congr fun p _ => hreturned p)

theorem holdsClaim_of_claim (h : s.Kept) {c : Coord} (hc : (s.ctx p).claim = some c) :
    (s.ctx p).state.holdsClaim = true := by
  by_contra hn
  rw [h.map.claim p, if_neg hn] at hc
  cases hc

/-- A claim is settled exactly where its context ends in DONE (R144). -/
theorem abortEndingOf_settles_iff (h : s.Kept) {c : Coord} (hc : (s.ctx p).claim = some c) :
    (s.abortEndingOf p).settles = true ↔ (s.contextsAborted.ctx p).state = .done := by
  rw [contextsAborted_ctx]
  exact (abortCaseOf s p).settles_iff (holdsClaim_of_claim h hc)

theorem portsClosed_endedEntry (q : PortId) (c : Coord) (e : Ending) :
    s.portsClosed.endedEntry q c e = s.endedEntry q c e := by
  simp only [State.endedEntry, State.claimAttempts, portsClosed_ctx, portsClosed_frame]

theorem portsClosed_mapSorted (h : s.Kept) : mapSorted s.portsClosed.dieMap := by
  have hmap : s.portsClosed.dieMap = s.dieMap := by simp
  exact hmap.symm ▸ h.map.sorted

/-- Every ended claim has its map entry (R144). -/
theorem contextsAborted_lookup (h : s.Kept) {c : Coord} (hc : (s.ctx p).claim = some c)
    (hdone : (s.contextsAborted.ctx p).state = .done) :
    mapLookup s.contextsAborted.dieMap c = some (s.endedEntry p c (s.abortEndingOf p)) := by
  rw [← portsClosed_endedEntry, State.contextsAborted]
  exact endsAll_lookup (settlementOrder_nodup s) (portsClosed_mapSorted h) (mem_settlementOrder s p)
    ((abortEndingOf_settles_iff h hc).2 hdone) ((congrArg Context.claim (portsClosed_ctx p)).trans hc)
    fun q hq => h.map.once q p c ((congrArg Context.claim (portsClosed_ctx q)).symm.trans hq) hc

theorem contextsAborted_lookup_other (h : s.Kept) {c : Coord}
    (hc : ∀ p, (s.ctx p).claim = some c → (s.contextsAborted.ctx p).state ≠ .done) :
    mapLookup s.contextsAborted.dieMap c = mapLookup s.dieMap c := by
  have hmap : s.portsClosed.dieMap = s.dieMap := by simp
  rw [← hmap, State.contextsAborted]
  refine endsAll_lookup_other (settlementOrder_nodup s) (portsClosed_mapSorted h) c fun p _ hsettles hclaim => ?_
  rw [portsClosed_ctx] at hclaim
  exact hc p hclaim ((abortEndingOf_settles_iff h hclaim).1 hsettles)

/-- The entry of an ended claim: TRIED where no key was exposed, VOIDED under the key's index otherwise. -/
theorem endedEntry_abortEndingOf (h : s.Kept) {c : Coord} (hc : (s.ctx p).claim = some c)
    (hdone : (s.contextsAborted.ctx p).state = .done) :
    s.endedEntry p c (s.abortEndingOf p) =
      { coord := c, lastTouchdown := s.td.number, attempts := s.claimAttempts p c,
        outcome :=
          if (s.ctx p).state = .wait ∨ (s.ctx p).state = .held then .tried
          else .voided ((s.heldIndex p).getD 0) } := by
  have hsettles := (abortEndingOf_settles_iff h hc).2 hdone
  have hcase := abortCaseOf s p
  generalize s.abortEndingOf p = e at hsettles hcase ⊢
  cases hcase with
  | stays | drains => cases hsettles
  | abandoned ha =>
    have hclaim := holdsClaim_of_claim h hc
    have hw : (s.ctx p).state = .wait ∨ (s.ctx p).state = .held :=
      ha.resolve_left fun hi => by rw [hi] at hclaim; cases hclaim
    rw [if_pos hw]
    rfl
  | voided hkey hexposed =>
    rw [if_neg (not_or.2 ⟨(holdsKey_ne hkey).2.2.1, hexposed⟩)]
    rfl

/-- The VOIDED record of a context that holds a key names the key (R24, R28). -/
theorem voidedRecord_of_holdsKey (h : s.Kept) (hkey : (s.ctx p).state.holdsKey = true) (why : VoidReason) :
    (s.ctx p).voidedRecord why =
      { verdict := .voided, reason := some why, keyIndex := s.heldIndex p, attempts := (s.ctx p).attempts } := by
  obtain ⟨k, hk⟩ := Option.isSome_iff_exists.1 ((h.custody.key p).trans hkey)
  simp [Context.voidedRecord, State.heldIndex, hk]

end Sys2Proof.Machine

open Sys2Proof Sys2Proof.Machine

/-- Settles O39: TOUCHDOWN END in closed form (`endTouchdown_eq`), and the accounts of its ends. -/
theorem touchdownEndEndsEverySite : Obligations.TouchdownEndEndsEverySite := by
  unfold Obligations.TouchdownEndEndsEverySite
  intro tag s hready
  have hexec : exec (.touchdownEnd tag) s = .next (cmdTouchdownEnd tag s) :=
    exec_of_ready hready (tag := tag) (c := .touchdownEnd) rfl
  rw [hexec]
  refine ⟨fun hn => congrArg _ (if_neg hn), fun hopen => ?_⟩
  refine ⟨s.settlementOrder, settlementOrder_perm s, settlementOrder_sorted s, ?_⟩
  intro answered closed drain off ends v u
  have hends : ∀ t p, t.ctx p = s.ctx p → t.supply p = s.supply p → ends t p = t.endsAs p (s.abortEndingOf p) := by
    intro t p hctx hsupply
    simp only [ends, State.abortEndingOf, abortEnding]
    cases (s.ctx p).state with
    | idle | done | draining | ident | wait | held => rfl
    | locking => exact (endsAs_drains_on hctx (.aborted true)).symm
    | burning => exact (endsAs_drains_off hctx hsupply (.aborted false)).symm
    | _ =>
      cases hbusy : s.inFlight p with
      | false => exact if_neg (by rw [← State.inFlight, hbusy]; nofun)
      | true => exact (if_pos hbusy).trans (endsAs_drains_off hctx hsupply (.aborted false)).symm
  have hv : v = s.contextsAborted :=
    foldl_eq_endsAll hends (settlementOrder_nodup s) fun p _ => ⟨portsClosed_ctx p, portsClosed_supply p⟩
  obtain ⟨-, -, hqueue⟩ := hready
  have hu : u = s.endTouchdown tag := by
    have hcontrol : ({ s.control with executor := .endingTouchdown tag } : Control) =
        { executor := .endingTouchdown tag, queue := [] } :=
      congrArg (Control.mk (.endingTouchdown tag)) hqueue
    rw [endTouchdown_eq, ← hv, hcontrol]
    by_cases hheld : ∃ p, (s.ctx p).state = .held
    · simp only [u, if_pos hheld, anyHeld_iff.2 hheld]
      rfl
    · simp only [u, if_neg hheld, Bool.eq_false_iff.2 (mt anyHeld_iff.1 hheld)]
      rfl
  have hanswered : answered = s.abortedAnswers := rfl
  clear_value u v ends answered
  subst hu hanswered
  refine ⟨?next, ?link, ?merge, endTouchdown_port s tag, ?sound⟩
  case next =>
    rw [completeAndRelease_of_queue_nil (by rw [endTouchdown_control]; exact hqueue), cmdTouchdownEnd, if_pos hopen]
  case link =>
    rw [endTouchdown_eq]
    simp only [serviceIf_frame, contextsAborted_link_merge]
  case merge =>
    rw [endTouchdown_eq]
    simp only [serviceIf_frame, contextsAborted_link_merge]
  case sound =>
    intro hs
    have hk : s.Kept := hs.kept
    have hsorted := (hk.endTouchdown hopen tag).pool.sorted
    have hctx : ∀ p, (s.endTouchdown tag).ctx p = s.contextsAborted.ctx p := fun p => by rw [endTouchdown_of_kept hk]; rfl
    have hsupply : ∀ p, (s.endTouchdown tag).supply p = s.contextsAborted.supply p := fun p => by
      rw [endTouchdown_of_kept hk]; rfl
    simp only [hctx, hsupply]
    rw [endTouchdown_of_kept hk] at hsorted ⊢
    refine ⟨contextsAborted_log, contextsAborted_counters, contextsAborted_waitList hk, hsorted, contextsAborted_pool hk,
      ?entries, fun c hc => contextsAborted_lookup_other hk hc, ?contexts⟩
    case entries =>
      intro p c hc hdone
      exact (contextsAborted_lookup hk hc hdone).trans (congrArg some (endedEntry_abortEndingOf hk hc hdone))
    case contexts =>
      intro p
      have hvoided := voidedRecord_of_holdsKey hk (p := p)
      rw [contextsAborted_ctx, contextsAborted_supply, State.abortEndingOf, abortEnding]
      cases hst : (s.ctx p).state with
      | idle | done | draining | ident | wait | held | locking | burning => exact ⟨rfl, rfl⟩
      | _ =>
        rw [← hvoided (by rw [hst]; rfl)]
        cases hbusy : s.inFlight p with
        | false => exact ⟨(if_neg (by rw [← State.inFlight, hbusy]; nofun)).symm, rfl⟩
        | true => exact ⟨(if_pos hbusy).symm, rfl⟩
end

section
/-! Proofs: LOG READ and LOG DROP, the layout of a record and the services of the freed slots (R156, R157, R179). -/
namespace Sys2Proof.Machine

variable {s : State} {r : LogRecord}

/-! ### LOG READ (R156, R179) -/

theorem LogRecord.bytes_length (r : LogRecord) : r.bytes.length = 28 := rfl

/-- The kind byte as R179 lists it: 0x01 for BOUND, the verdict code for any other kind (R26). -/
theorem Verdict.code_eq_ite (v : Verdict) : v.code = if v = .bound then 0x01 else v.code := by
  split
  case isTrue hbound => rw [hbound]; rfl
  case isFalse => rfl

theorem cmdLogRead_nil (h : s.log.records = []) (tag : Byte) : cmdLogRead tag s = s.respondOk tag [] := by
  rw [cmdLogRead, h]
  rfl

theorem cmdLogRead_cons {rest : List LogRecord} (h : s.log.records = r :: rest) (tag : Byte) :
    cmdLogRead tag s = s.respondOk tag r.bytes := by
  rw [cmdLogRead, h]
  rfl

/-! ### LOG DROP (R38, R157) -/

/-- The pool is served where a slot was freed, and only there. -/
theorem serviceIf_pos_eq (s : State) (n : Nat) : s.serviceIf (0 < n) = if n = 0 then s else s.serviceKeys := by
  cases n with
  | zero => rfl
  | succ n => rw [State.serviceIf, if_pos (decide_eq_true n.succ_pos), if_neg n.succ_ne_zero]

end Sys2Proof.Machine

open Sys2Proof Sys2Proof.Machine

/-- Settles O43: LOG READ by whether a record is left, LOG DROP by whether one is removed. -/
theorem logReadAndDrop : Obligations.LogReadAndDrop := by
  unfold Obligations.LogReadAndDrop
  intro tag count s h
  have hread : exec (.logRead tag) s = .next (cmdLogRead tag s) := exec_of_ready h (tag := tag) (c := .logRead) rfl
  have hdrop : exec (.logDrop tag count) s = .next (cmdLogDrop tag count s) :=
    exec_of_ready h (tag := tag) (c := .logDrop count) rfl
  rw [hread, hdrop]
  refine ⟨fun hnil => congrArg _ (cmdLogRead_nil hnil tag), ?record, ?drop⟩
  case record =>
    intro r rest hr layout
    have hlayout : r.bytes = layout := by
      rw [LogRecord.bytes, Verdict.code_eq_ite]
    rw [← hlayout]
    exact ⟨r.bytes_length, congrArg _ (cmdLogRead_cons hr tag)⟩
  case drop =>
    rw [cmdLogDrop, serviceIf_pos_eq, List.length_drop]
end

section
/-! Proofs: the receiver, byte by byte, and the frame it completes (R162..R164, R177, R184, R187). -/
namespace Sys2Proof.Machine

variable {s : State} {b : Byte}

/-! ### A discard is counted (R184) -/

/-- At least one discard: LINK_ERRORS rises, saturating, and LINK_ERR is latched (R184). -/
theorem countLinkErrors_of_ne_zero {n : Nat} (h : n ≠ 0) (s : State) :
    s.countLinkErrors n =
      { s with events := { s.events with
          latches := s.events.latches ||| 1#12
          linkErrors := BitVec.ofNat 16 (min 65535 (s.events.linkErrors.toNat + n)) } } := by
  rw [State.countLinkErrors, if_neg h]
  rfl

/-! ### One byte in each receive state (R162, R163, R187) -/

theorem exec_downstreamByte (hrun : s.phase = .running) (b : Byte) :
    exec (.downstreamByte b) s = .next (s.receiveByte b) :=
  whileRunning_of_running (by rw [hrun]; decide) (·.receiveByte b) _

theorem exec_frameLengthError (hrun : s.phase = .running) (b : Byte) :
    exec (.frameLengthError b) s = .next (s.receiveByte b) :=
  whileRunning_of_running (by rw [hrun]; decide) (·.receiveByte b) _

theorem exec_requestFrame (hrun : s.phase = .running) (b : Byte) :
    exec (.requestFrame b) s = .next (s.receiveByte b) :=
  whileRunning_of_running (by rw [hrun]; decide) (·.receiveByte b) _

theorem exec_downstreamByte_of_released (h : s.phase = .released) (b : Byte) :
    exec (.downstreamByte b) s = .next s := by
  have hexec : exec (.downstreamByte b) s = .next (s.receiveByte b) :=
    whileRunning_of_running (by rw [h]; decide) (·.receiveByte b) _
  rw [hexec, State.receiveByte, h]

theorem receiveByte_hunt (hrun : s.phase = .running) (hrx : s.link.rx = .hunt) :
    s.receiveByte b = if b = Config.sync0 then s.setRx .syncSeen [] 0 else s := by
  rw [State.receiveByte, hrun, hrx]

theorem receiveByte_syncSeen (hrun : s.phase = .running) (hrx : s.link.rx = .syncSeen) :
    s.receiveByte b =
      if b = Config.sync1 then s.setRx .header [] 6 else if b = Config.sync0 then s else s.toHunt := by
  rw [State.receiveByte, hrun, hrx]

/-- A byte after which the receive state expects more is collected, in HEADER, PAYLOAD and CHECK alike (R163). -/
theorem receiveByte_collects (hrun : s.phase = .running)
    (hrx : s.link.rx = .header ∨ s.link.rx = .payload ∨ s.link.rx = .check) (hmore : 1 < s.link.expected) :
    s.receiveByte b = s.setRx s.link.rx (s.link.partialFrame ++ [b]) (s.link.expected - 1) := by
  obtain h | h | h := hrx <;> simp only [State.receiveByte, hrun, h, if_pos hmore]

theorem receiveByte_lastHeader (hrun : s.phase = .running) (hrx : s.link.rx = .header) (hlast : s.link.expected = 1) :
    s.receiveByte b = s.headerEnds (s.link.partialFrame ++ [b]) b := by
  simp only [State.receiveByte, hrun, hrx, hlast, Nat.lt_irrefl, if_false]

theorem receiveByte_lastPayload (hrun : s.phase = .running) (hrx : s.link.rx = .payload)
    (hlast : s.link.expected = 1) : s.receiveByte b = s.toCheck (s.link.partialFrame ++ [b]) := by
  simp only [State.receiveByte, hrun, hrx, hlast, Nat.lt_irrefl, if_false]

theorem receiveByte_lastCheck (hrun : s.phase = .running) (hrx : s.link.rx = .check) (hlast : s.link.expected = 1) :
    s.receiveByte b = s.frameEnds s.link.partialFrame b := by
  simp only [State.receiveByte, hrun, hrx, hlast, Nat.lt_irrefl, if_false]

/-! ### The length byte (R163) -/

theorem headerEnds_of_zero (bytes : List Byte) : s.headerEnds bytes 0 = s.toCheck bytes := rfl

theorem headerEnds_of_payload (h : 1 ≤ b.toNat) (h' : b.toNat ≤ 48) (bytes : List Byte) :
    s.headerEnds bytes b = s.setRx .payload bytes b.toNat := by
  have hb : b ≠ 0 := by
    rintro rfl
    exact absurd h (by decide)
  have hfits : ¬ Config.maxPayload < b.toNat := Nat.not_lt.2 h'
  rw [State.headerEnds, if_neg hfits, if_neg hb]

theorem headerEnds_of_tooLong (h : 48 < b.toNat) (bytes : List Byte) :
    s.headerEnds bytes b = s.toHunt.countLinkErrors 1 :=
  if_pos h

/-! ### The second check byte (R164) -/

/-- The fields of a frame are read back from its checked bytes (R163, R177). -/
theorem ofBody_body (f : RequestFrame) : RequestFrame.ofBody f.body = some f := by
  obtain ⟨tag, site, kind, address, payload⟩ := f
  show some (RequestFrame.mk tag site kind (word16 (address.extractLsb' 8 8) (address.extractLsb' 0 8)) payload) = _
  rw [Laws.CommandSurvivesItsBytes.word16_halves]

theorem frameEnds_of_body (f : RequestFrame) (hi lo : Byte) :
    s.frameEnds (f.body ++ [hi]) lo =
      if fletcher16 f.body = word16 hi lo then s.toHunt.routeFrame f else s.toHunt.countLinkErrors 1 := by
  simp only [State.frameEnds, List.dropLast_concat, List.getLast?_concat, Option.getD_some, ofBody_body]

theorem exec_requestFrame_check (f : RequestFrame) (hi lo : Byte) (hrun : s.phase = .running)
    (hrx : s.link.rx = .check) (hlast : s.link.expected = 1) (hbytes : s.link.partialFrame = f.body ++ [hi]) :
    exec (.requestFrame lo) s =
      .next (if fletcher16 f.body = word16 hi lo then s.toHunt.routeFrame f else s.toHunt.countLinkErrors 1) := by
  rw [exec_requestFrame hrun, receiveByte_lastCheck hrun hrx hlast, hbytes, frameEnds_of_body]

/-! ### Steps of a run -/

theorem run_succ_of_step {t : State} (h : step s = .next t) (k : Nat) : core.run (k + 1) s = core.run k t := by
  have hstep : core.step s = .next t := h
  simp only [Host.Core.run, hstep]

/-! ### A run of bytes (R162..R164)

`Hears s bytes t` speaks of the receiver and says nothing of the commands on their way, which every step takes from. -/

/-- The bytes, sent as DOWNSTREAM_BYTE rows, take the part from `s` to `t`, whatever commands follow them. -/
def State.Hears (s : State) (bytes : List Byte) (t : State) : Prop :=
  ∀ (k : Nat) (rest : List Instr),
    core.run (bytes.length + k) { s with pending := bytes.map Instr.downstreamByte ++ rest } =
      core.run k { t with pending := rest }

namespace State.Hears

variable {t u : State} {bytes more : List Byte}

theorem nil (s : State) : s.Hears [] s := fun k _ => congrArg (core.run · _) (Nat.zero_add k)

theorem byte (hrun : s.phase = .running)
    (h : ∀ rest, ({ s with pending := rest } : State).receiveByte b = { t with pending := rest }) : s.Hears [b] t := by
  intro k rest
  have hstep : step { s with pending := .downstreamByte b :: rest } = .next { t with pending := rest } := by
    rw [← h]
    exact exec_downstreamByte (s := { s with pending := rest }) hrun b
  rw [List.length_singleton, Nat.add_comm]
  exact run_succ_of_step hstep k

theorem append (h : s.Hears bytes t) (h' : t.Hears more u) : s.Hears (bytes ++ more) u := by
  intro k rest
  rw [List.map_append, List.append_assoc, List.length_append, Nat.add_assoc, h, h']

/-- Heard bytes and one step after them, as one run. -/
theorem run_then_step {c : Instr} {rest : List Instr} (h : s.Hears bytes t)
    (hpending : s.pending = bytes.map Instr.downstreamByte ++ c :: rest)
    (hstep : step { t with pending := c :: rest } = .next u) : core.run (bytes.length + 1) s = .next u := by
  have hrun := h 1 (c :: rest)
  rw [← hpending] at hrun
  exact hrun.trans (run_succ_of_step hstep 0)

end State.Hears

/-- Bytes after which the receive state still expects one are collected (R163). -/
theorem hears_collected (hrun : s.phase = .running) {rx : RxState} (hrx : rx = .header ∨ rx = .payload ∨ rx = .check)
    (bytes : List Byte) (got : List Byte) {n : Nat} (h : bytes.length < n) :
    (s.setRx rx got n).Hears bytes (s.setRx rx (got ++ bytes) (n - bytes.length)) := by
  induction bytes generalizing got n with
  | nil =>
    rw [List.append_nil]
    exact .nil _
  | cons b bytes ih =>
    rw [List.length_cons] at h
    have hbyte : (s.setRx rx got n).Hears [b] (s.setRx rx (got ++ [b]) (n - 1)) :=
      .byte hrun fun rest => receiveByte_collects (s := { s.setRx rx got n with pending := rest }) hrun hrx
        (show 1 < n by omega)
    have hrest := hbyte.append (ih (got ++ [b]) (n := n - 1) (by omega))
    rwa [List.append_assoc, Nat.sub_sub, Nat.add_comm 1] at hrest

theorem hears_sync (hrun : s.phase = .running) (hrx : s.link.rx = .hunt) :
    s.Hears [Config.sync0, Config.sync1] (s.setRx .header [] 6) := by
  have hfirst : s.Hears [Config.sync0] (s.setRx .syncSeen [] 0) :=
    .byte hrun fun rest => receiveByte_hunt (s := { s with pending := rest }) hrun hrx
  have hsecond : (s.setRx .syncSeen [] 0).Hears [Config.sync1] (s.setRx .header [] 6) :=
    .byte hrun fun rest => receiveByte_syncSeen (s := { s.setRx .syncSeen [] 0 with pending := rest }) hrun rfl
  exact hfirst.append hsecond

/-- The length byte and as many payload bytes as it names lead to CHECK (R163). -/
theorem hears_payload (hrun : s.phase = .running) (header payload : List Byte) (h : payload.length ≤ 48) :
    (s.setRx .header header 1).Hears (byteOf payload.length :: payload)
      (s.setRx .check (header ++ byteOf payload.length :: payload) 2) := by
  have hlen : (byteOf payload.length).toNat = payload.length := by
    rw [byteOf, BitVec.toNat_ofNat]
    omega
  obtain rfl | ⟨front, last, rfl⟩ := payload.eq_nil_or_concat'
  case inl =>
    exact .byte hrun fun rest => receiveByte_lastHeader (s := { s.setRx .header header 1 with pending := rest }) hrun rfl rfl
  case inr =>
    generalize hlenByte : byteOf (front ++ [last]).length = len at hlen ⊢
    rw [List.length_append, List.length_singleton] at h hlen
    have hlength : (s.setRx .header header 1).Hears [len] (s.setRx .payload (header ++ [len]) (front.length + 1)) := by
      refine .byte hrun fun rest => ?_
      rw [receiveByte_lastHeader (s := { s.setRx .header header 1 with pending := rest }) hrun rfl rfl,
        headerEnds_of_payload (by omega) (by omega), hlen]
      rfl
    have hfront := hears_collected hrun (.inr (.inl rfl)) front (header ++ [len]) front.length.lt_succ_self
    have hlast : (s.setRx .payload (header ++ [len] ++ front) (front.length + 1 - front.length)).Hears [last]
        (s.setRx .check (header ++ [len] ++ front ++ [last]) 2) := by
      rw [Nat.add_sub_cancel_left]
      exact .byte hrun fun rest => receiveByte_lastPayload
        (s := { s.setRx .payload (header ++ [len] ++ front) 1 with pending := rest }) hrun rfl rfl
    have hall := (hlength.append hfront).append hlast
    simpa only [List.append_assoc, List.cons_append, List.nil_append] using hall

/-- The sync pair and the checked bytes of a frame lead from HUNT to CHECK (R162, R163). -/
theorem hears_body (hrun : s.phase = .running) (hrx : s.link.rx = .hunt) (f : RequestFrame)
    (h : f.payload.length ≤ 48) :
    s.Hears ([Config.sync0, Config.sync1] ++ f.body) (s.setRx .check f.body 2) := by
  have hheader := hears_collected (s := s) hrun (.inl rfl) ([f.tag, f.site, f.kind] ++ be16 f.address) []
    (show 5 < 6 by decide)
  have hpayload := hears_payload hrun ([f.tag, f.site, f.kind] ++ be16 f.address) f.payload h
  have hbody := (hears_sync hrun hrx).append (hheader.append hpayload)
  have heq : [f.tag, f.site, f.kind] ++ be16 f.address ++ byteOf f.payload.length :: f.payload = f.body := rfl
  rwa [heq] at hbody

theorem RequestFrame.bytes_dropLast (f : RequestFrame) :
    f.bytes.dropLast = [Config.sync0, Config.sync1] ++ f.body ++ [(fletcher16 f.body).extractLsb' 8 8] := by
  rw [RequestFrame.bytes, be16, List.dropLast_append_of_ne_nil (by simp)]
  rfl

/-- All bytes of a frame but the second check byte are heard (R162..R164). -/
theorem hears_dropLast (hrun : s.phase = .running) (hrx : s.link.rx = .hunt) (f : RequestFrame)
    (h : f.payload.length ≤ 48) :
    s.Hears f.bytes.dropLast (s.setRx .check (f.body ++ [(fletcher16 f.body).extractLsb' 8 8]) 1) := by
  rw [f.bytes_dropLast]
  exact (hears_body hrun hrx f h).append (hears_collected hrun (.inr (.inr rfl)) _ f.body (show 1 < 2 by decide))

/-- The second check byte of a frame as sent completes it (R164). -/
theorem step_requestFrame_sent (hrun : s.phase = .running) (f : RequestFrame) (rest : List Instr) :
    step { s.setRx .check (f.body ++ [(fletcher16 f.body).extractLsb' 8 8]) 1 with
        pending := .requestFrame ((fletcher16 f.body).extractLsb' 0 8) :: rest } =
      .next (({ s with pending := rest } : State).toHunt.routeFrame f) := by
  refine (exec_requestFrame_check
    (s := { s.setRx .check (f.body ++ [(fletcher16 f.body).extractLsb' 8 8]) 1 with pending := rest }) f _ _
    hrun rfl rfl rfl).trans ?_
  rw [Laws.CommandSurvivesItsBytes.word16_halves, if_pos rfl]
  rfl

end Sys2Proof.Machine

open Sys2Proof Sys2Proof.Machine

/-- Settles O8, by the phase, the receive state and the count still expected. -/
theorem receiverHuntsAndCollects : Obligations.ReceiverHuntsAndCollects := by
  unfold Obligations.ReceiverHuntsAndCollects
  intro b s
  refine ⟨fun hreleased => exec_downstreamByte_of_released hreleased b, fun hrun => ?_⟩
  rw [exec_downstreamByte hrun]
  refine ⟨?sync0, ?noise, ?sync1, ?sync0Again, ?noSync1, ?header, ?noPayload, ?length, ?payload, ?lastPayload, ?check⟩
  case sync0 =>
    intro hrx hb
    rw [receiveByte_hunt hrun hrx, hb]
    rfl
  case noise =>
    intro hrx hb
    have hsync0 : b ≠ Config.sync0 := hb
    rw [receiveByte_hunt hrun hrx, if_neg hsync0]
  case sync1 =>
    intro hrx hb
    rw [receiveByte_syncSeen hrun hrx, hb]
    rfl
  case sync0Again =>
    intro hrx hb
    rw [receiveByte_syncSeen hrun hrx, hb]
    rfl
  case noSync1 =>
    intro hrx hb1 hb0
    have hsync1 : b ≠ Config.sync1 := hb1
    have hsync0 : b ≠ Config.sync0 := hb0
    rw [receiveByte_syncSeen hrun hrx, if_neg hsync1, if_neg hsync0]
    rfl
  case header =>
    intro hrx hmore
    rw [receiveByte_collects hrun (.inl hrx) hmore]
    rfl
  case noPayload =>
    intro hrx hlast hb
    rw [receiveByte_lastHeader hrun hrx hlast, hb, headerEnds_of_zero]
    rfl
  case length =>
    intro hrx hlast hpos hmax
    rw [receiveByte_lastHeader hrun hrx hlast, headerEnds_of_payload hpos hmax]
    rfl
  case payload =>
    intro hrx hmore
    rw [receiveByte_collects hrun (.inr (.inl hrx)) hmore]
    rfl
  case lastPayload =>
    intro hrx hlast
    rw [receiveByte_lastPayload hrun hrx hlast]
    rfl
  case check =>
    intro hrx htwo
    rw [receiveByte_collects hrun (.inr (.inr hrx)) (by omega), htwo]
    rfl

/-- Settles O9: the sixth header byte is the length (`headerEnds_of_tooLong`). -/
theorem lengthAbove48IsDiscarded : Obligations.LengthAbove48IsDiscarded := by
  unfold Obligations.LengthAbove48IsDiscarded
  intro b s hrun hrx hlast hlong
  rw [exec_frameLengthError hrun, receiveByte_lastHeader hrun hrx hlast, headerEnds_of_tooLong hlong,
    countLinkErrors_of_ne_zero Nat.one_ne_zero]
  rfl

/-- Settles O10: the collected bytes give the frame back (`frameEnds_of_body`), and the check decides. -/
theorem checkDecidesTheFrame : Obligations.CheckDecidesTheFrame := by
  unfold Obligations.CheckDecidesTheFrame
  intro f hi lo s hrun hrx hlast hbytes t
  rw [exec_requestFrame_check f hi lo hrun hrx hlast hbytes, countLinkErrors_of_ne_zero Nat.one_ne_zero]
  rfl

/-- Settles O11: the bytes before the last are heard (`hears_dropLast`), and the last one completes the frame. -/
theorem sentFrameIsRouted : Obligations.SentFrameIsRouted := by
  unfold Obligations.SentFrameIsRouted
  intro f rest s hrun hrx hpayload hpending
  have hlength : f.bytes.length = f.bytes.dropLast.length + 1 := by simp [RequestFrame.bytes]
  rw [hlength]
  exact (hears_dropLast hrun hrx f hpayload).run_then_step hpending (step_requestFrame_sent hrun f rest)
end

section
/-! Proofs: the checks of a complete frame, and the commands it carries (R165..R168, R178). -/
namespace Sys2Proof.Machine

variable {s : State} {tag : Byte} {c : Command}

/-! ### The checks of a frame (R165) -/

/-- A kind and a site agree where CONTROL alone goes to the control site (R165). -/
theorem kindAgainstSite_iff (f : RequestFrame) :
    (f.kind = 3 ∧ f.site ≠ Config.controlSite) ∨ (f.kind ≠ 3 ∧ f.site = Config.controlSite) ↔
      ¬ (f.kind = 3 ↔ f.site = 31) := by
  rw [Config.controlSite]
  tauto

/-- The checks in the order of R165; a frame that passes is routed by its kind. -/
theorem routeFrame_eq (f : RequestFrame) :
    s.routeFrame f =
      if 31 < f.site.toNat then s.emit { tag := f.tag, site := f.site, status := .badSite, payload := [] }
      else if f.kind ≠ 1 ∧ f.kind ≠ 2 ∧ f.kind ≠ 3 then
        s.emit { tag := f.tag, site := f.site, status := .badKind, payload := [] }
      else if ¬ (f.kind = 3 ↔ f.site = 31) then
        s.emit { tag := f.tag, site := f.site, status := .badKind, payload := [] }
      else if (f.kind = 1 ∧ f.payload.length ≠ 2) ∨ (f.kind = 2 ∧ f.payload ≠ []) then
        s.emit { tag := f.tag, site := f.site, status := .badLen, payload := [] }
      else if f.kind = 3 then s.controlFrame f
      else s.siteFrame { tag := f.tag, site := f.site, address := f.address, op := f.op } := by
  have hempty : f.payload.length ≠ 0 ↔ f.payload ≠ [] := not_congr List.length_eq_zero_iff
  rw [State.routeFrame, frameRefusal]
  simp only [kindAgainstSite_iff, hempty]
  split_ifs <;> rfl

/-! ### The arrival checks of a command (R167) -/

theorem controlFrame_of_badCode {f : RequestFrame} (h : paramLength f.address = none) :
    s.controlFrame f = s.refuse f.tag .badCmd := by
  rw [State.controlFrame, h]

theorem controlFrame_of_badLength {f : RequestFrame} {n : Nat} (h : paramLength f.address = some n)
    (hn : f.payload.length ≠ n) : s.controlFrame f = s.refuse f.tag .badLen := by
  simp only [State.controlFrame, h, if_pos hn]

theorem controlFrame_of_goodLength {f : RequestFrame} (h : paramLength f.address = some f.payload.length) :
    s.controlFrame f =
      ((commandOfPayload f.address f.payload).map (s.submit f.tag)).getD (s.refuse f.tag .badLen) := by
  simp only [State.controlFrame, h, ne_eq, not_true_eq_false, if_false]
  cases commandOfPayload f.address f.payload <;> rfl

/-! ### The frame of a command (R166, R178) -/

open Laws.CommandSurvivesItsBytes in
/-- The command that a row stands for survives the bytes of its frame. -/
theorem survives_of_controlCommand {i : Instr} (h : controlCommand i = some (tag, c)) : Survives c := by
  have hrow : Statement i := by
    cases i with
    | identify tag => exact identify tag
    | status tag page => exact status tag page
    | paramSet tag id value => exact paramSet tag id value
    | paramGet tag id => exact paramGet tag id
    | ruleWrite tag block => exact ruleWrite tag block
    | ruleRead tag number => exact ruleRead tag number
    | siteMapWrite tag site port enabled => exact siteMapWrite tag site port enabled
    | siteMapRead tag site => exact siteMapRead tag site
    | groupWrite tag group members => exact groupWrite tag group members
    | groupRead tag group => exact groupRead tag group
    | strapSet tag port directions levels => exact strapSet tag port directions levels
    | strapRead tag port => exact strapRead tag port
    | batchOpen tag label floor => exact batchOpen tag label floor
    | keyLoad tag record => exact keyLoad tag record
    | keyPurge tag => exact keyPurge tag
    | waferOpen tag lot number => exact waferOpen tag lot number
    | waferClose tag => exact waferClose tag
    | touchdownBegin tag enable => exact touchdownBegin tag enable
    | touchdownEnd tag => exact touchdownEnd tag
    | siteAbort tag site => exact siteAbort tag site
    | mapQuery tag x y => exact mapQuery tag x y
    | logRead tag => exact logRead tag
    | logDrop tag count => exact logDrop tag count
    | eventRead tag => exact eventRead tag
    | eventClear tag keep => exact eventClear tag keep
    | _ => exact of_none rfl
  exact hrow tag c h

/-- A CONTROL frame for the control site passes every check of R165. -/
theorem routeFrame_commandFrame (c : Command) (tag : Byte) :
    s.routeFrame (commandFrame c tag) = s.controlFrame (commandFrame c tag) := by
  have hpasses : frameRefusal (commandFrame c tag) = none := by
    simp [frameRefusal, commandFrame, Config.controlSite]
  rw [State.routeFrame, hpasses]
  rfl

/-- A command that survives its bytes passes the arrival checks 1 and 2 (R167). -/
theorem controlFrame_commandFrame (h : Laws.CommandSurvivesItsBytes.Survives c) (tag : Byte) :
    s.controlFrame (commandFrame c tag) = s.submit tag c := by
  obtain ⟨hlength, hcommand⟩ := h
  rw [controlFrame_of_goodLength hlength, commandFrame, hcommand]
  rfl

/-! ### The control queue (R167, R168) -/

theorem exec_controlRow {i : Instr} (hc : controlCommand i = some (tag, c)) (hrun : s.phase ≠ .held) :
    exec i s = .next (s.submit tag c) := by
  rw [exec_eq_submit hc]
  exact whileRunning_of_running hrun (·.submit tag c) _

/-- A released queue runs its first command, and then what that command leaves (R168). -/
theorem runQueue_cons {rest : List (Byte × Command)} (hidle : s.control.executor = .idle)
    (hqueue : s.control.queue = (tag, c) :: rest) :
    s.runQueue = (runCommand tag c { s with control := { s.control with queue := rest } }).runQueue := by
  rw [State.runQueue, hqueue, List.length_cons, State.runUpTo]
  simp only [hidle, hqueue]
  rw [State.runQueue, runCommand_queue]

/-- Nothing runs while a command is in execution, or where none waits (R168). -/
theorem runQueue_stays (h : s.control.executor ≠ .idle ∨ s.control.queue = []) : s.runQueue = s := by
  rw [State.runQueue]
  cases hn : s.control.queue.length with
  | zero => rfl
  | succ n =>
    rw [State.runUpTo]
    split
    · rename_i hidle hqueue
      obtain hbusy | hnil := h
      · exact absurd hidle hbusy
      · rw [hnil] at hqueue
        cases hqueue
    · rfl

end Sys2Proof.Machine

open Sys2Proof Sys2Proof.Machine

/-- Settles O12, check by check; a frame that passes is routed by its kind. -/
theorem frameChecksInOrder : Obligations.FrameChecksInOrder := by
  unfold Obligations.FrameChecksInOrder
  intro f s answer control
  rw [routeFrame_eq]
  iterate 4 refine ite_congr rfl (fun _ => rfl) fun _ => ?_
  refine ite_congr rfl (fun _ => ?arrives) fun _ => rfl
  case arrives =>
    cases hcode : paramLength f.address with
    | none => exact controlFrame_of_badCode hcode
    | some n =>
      by_cases hlength : f.payload.length = n
      · rw [← hlength] at hcode
        simp only [controlFrame_of_goodLength hcode, hlength, ne_eq, not_true_eq_false, if_false]
      · simp only [controlFrame_of_badLength hcode hlength, ne_eq, hlength, not_false_eq_true, if_true]

/-- Settles O13: the frame passes the checks, and its bytes spell the command (`survives_of_controlCommand`). -/
theorem controlFrameRunsItsRow : Obligations.ControlFrameRunsItsRow := by
  unfold Obligations.ControlFrameRunsItsRow
  intro i tag c s hc hrun
  rw [exec_controlRow hc hrun, routeFrame_commandFrame, controlFrame_commandFrame (survives_of_controlCommand hc)]

/-- Settles O17, by the length of the queue and the executor. -/
theorem controlRowsQueueOrRun : Obligations.ControlRowsQueueOrRun := by
  unfold Obligations.ControlRowsQueueOrRun
  intro i tag c s hc hrun
  refine ⟨?full, ?waits, fun hready => exec_of_ready hready hc⟩
  case full =>
    intro hfull
    have hfour : Config.controlQueueCapacity ≤ s.control.queue.length := hfull
    rw [exec_controlRow hc hrun, State.submit, if_pos hfour]
  case waits =>
    intro hroom hbusy
    have hfits : ¬ Config.controlQueueCapacity ≤ s.control.queue.length := Nat.not_le.2 hroom
    rw [exec_controlRow hc hrun, State.submit, if_neg hfits]
    exact congrArg _ (runQueue_stays (.inl hbusy))

/-- Settles O18: the first command (`runQueue_cons`), and where the run ends (`runQueue_stays`). -/
theorem releasedQueueRunsInOrder : Obligations.ReleasedQueueRunsInOrder := by
  unfold Obligations.ReleasedQueueRunsInOrder
  exact fun s => ⟨fun _ _ _ => runQueue_cons, runQueue_stays⟩
end

section
/-! Proofs: the upstream stream and the lane (R173..R177, R181, R184). -/
namespace Sys2Proof.Machine

variable {s : State}

/-- Frames are discarded and counted, and none where none is (R176, R184). -/
theorem countLinkErrors_eq (s : State) (n : Nat) :
    s.countLinkErrors n =
      { s with
        events :=
          if n = 0 then s.events
          else { s.events with
            latches := s.events.latches ||| 1#12
            linkErrors := BitVec.ofNat 16 (min 65535 (s.events.linkErrors.toNat + n)) } } := by
  by_cases h : n = 0
  · rw [State.countLinkErrors, if_pos h, if_pos h]
  · rw [countLinkErrors_of_ne_zero h, if_neg h]

/-! ### Emission (R175, R181) -/

/-- Bit 0 of the flags byte is attention, and the other bits are 0 (R177, R181). -/
theorem flagsByte_eq (s : State) : s.flagsByte = if s.events.latches &&& s.params.eventEnable = 0 then 0 else 1 := by
  by_cases h : s.events.latches &&& s.params.eventEnable = 0 <;>
    simp [State.flagsByte, State.attention, flagByte, h]

theorem emission_of_head {r : Response} {rest : List Response} (hup : s.pins.linkRdy = true)
    (hnone : s.link.transmitting = none) (hhead : s.link.stream = r :: rest) :
    s.emission = { s with link := { s.link with transmitting := some (s.frameNow r) } } := by
  rw [State.emission, hup, hnone, hhead]

theorem emission_stays (h : s.pins.linkRdy = false ∨ s.link.transmitting ≠ none ∨ s.link.stream = []) :
    s.emission = s := by
  unfold State.emission
  split
  · rename_i hup hnone hhead
    simp [hup, hnone, hhead] at h
  · rfl

theorem frameLeaves_of_some {f : SentFrame} (h : s.link.transmitting = some f) :
    s.frameLeaves = { s with link := { s.link with transmitting := none, stream := s.link.stream.tail } } := by
  rw [State.frameLeaves, h]

theorem frameLeaves_of_none (h : s.link.transmitting = none) : s.frameLeaves = s := by
  rw [State.frameLeaves, h]

/-! ### The lane (R176) -/

theorem exec_linkRdyFall (hrun : s.phase ≠ .held) :
    exec .linkRdyFall s = .next ((s.setLinkRdy false).clearStream.countLinkErrors s.link.stream.length) :=
  whileRunning_of_running hrun (fun s => (s.setLinkRdy false).clearStream.countLinkErrors s.link.stream.length)
    (·.setLinkRdy false)

theorem exec_linkRdyRise (hrun : s.phase ≠ .held) :
    exec .linkRdyRise s = .next (if s.pins.linkRdy = true then s else (s.setLinkRdy true).clearStream) :=
  whileRunning_of_running hrun (fun s => if s.pins.linkRdy = true then s else (s.setLinkRdy true).clearStream)
    (·.setLinkRdy true)

end Sys2Proof.Machine

open Sys2Proof Sys2Proof.Machine

/-- Settles O14: a response that does not join is one discard. -/
theorem responseJoinsOrIsCounted : Obligations.ResponseJoinsOrIsCounted := by
  unfold Obligations.ResponseJoinsOrIsCounted
  intro r s
  rw [State.emit, countLinkErrors_of_ne_zero Nat.one_ne_zero]
  rfl

/-- Settles O15, by whether there is a frame to emit, and whether one is being sent. -/
theorem frameIsEmittedThenLeaves : Obligations.FrameIsEmittedThenLeaves := by
  unfold Obligations.FrameIsEmittedThenLeaves
  intro s hrun
  have hemit : exec .responseEmission s = .next s.emission := whileRunning_of_running hrun (·.emission) _
  have hleave : exec .frameLeavesStream s = .next s.frameLeaves := whileRunning_of_running hrun (·.frameLeaves) _
  rw [hemit, hleave]
  refine ⟨?emits, fun h => congrArg _ (emission_stays h), fun f h => congrArg _ (frameLeaves_of_some h),
    fun h => congrArg _ (frameLeaves_of_none h)⟩
  case emits =>
    intro r rest hup hnone hhead flags f
    have hframe : s.frameNow r = f := by
      rw [State.frameNow, flagsByte_eq]
      rfl
    rw [emission_of_head hup hnone hhead, hframe]

/-- Settles O16, by the level the lane takes; what stood in the stream is counted (`countLinkErrors_eq`). -/
theorem laneFollowsReady : Obligations.LaneFollowsReady := by
  unfold Obligations.LaneFollowsReady
  intro s hrun
  refine ⟨?falls, exec_linkRdyRise hrun⟩
  case falls =>
    rw [exec_linkRdyFall hrun, countLinkErrors_eq]
    simp only [List.length_eq_zero_iff]
    rfl
end

section
/-! Proofs: STATUS and the parameters (R79, R95, R171, R172, R186). -/
namespace Sys2Proof.Machine

variable {s : State}

/-! ### STATUS (R172, R186) -/

/-- The three flags stand in bits of their own, so that their sum is their union (R172). -/
theorem statusFlags_eq (s : State) :
    s.statusFlags =
      (if s.batch.isOpen then 1 else 0) + (if s.pins.contact then 2 else 0) + (if s.td.contactLost then 4 else 0) := by
  unfold State.statusFlags
  cases s.batch.isOpen <;> cases s.pins.contact <;> cases s.td.contactLost <;> rfl

theorem statusPage0_length (s : State) : s.statusPage0.length = 34 := rfl

theorem statusPage1_length (s : State) : s.statusPage1.length = 32 := by
  simp [State.statusPage1, allPorts]

/-! ### What is stored (R171) -/

/-- A written value in its parameter's range; of EVENT_ENABLE, bits 12 to 15 are cleared (R171). -/
def Param.inRange (v : Word) : Param → Word
  | .respTmo | .burnTmo | .settleCode => wordOf (clamp 1 255 v.toNat)
  | .settleScale | .gear _ => wordOf (clamp 0 3 v.toNat)
  | .burnLimit => wordOf (clamp 1 4 v.toNat)
  | .poolLow => wordOf (clamp 0 64 v.toNat)
  | .logHigh => wordOf (clamp 0 255 v.toNat)
  | .eventEnable => (v.setWidth 12).setWidth 16

/-- EVENT_ENABLE is stored in twelve bits and reported in sixteen (R171). -/
theorem lowTwelve_eq (v : Word) : (v.setWidth 12).setWidth 16 = v &&& 0x0FFF := by
  have hmask : v.toNat &&& (0x0FFF : Word).toNat = v.toNat % 2 ^ 12 := Nat.and_two_pow_sub_one_eq_mod v.toNat 12
  rw [← BitVec.toNat_inj, BitVec.toNat_and, hmask, BitVec.toNat_setWidth, BitVec.toNat_setWidth]
  omega

/-- The parameter written reads the value in its range, and no other one changes (R171). -/
theorem paramValue_setParam (s : State) (q q' : Param) (v : Word) :
    (s.setParam q v).paramValue q' = if q' = q then q.inRange v else s.paramValue q' := by
  cases q with
  | gear p =>
    cases q' with
    | gear p' =>
      simp only [Param.gear.injEq]
      show wordOf ((s.setPort p { s.port p with gear := clamp 0 3 v.toNat }).port p').gear = _
      rw [port_setPort]
      split <;> rfl
    | _ => rfl
  | _ => cases q' <;> rfl

/-- Parameters stand in the parameter record and in the ports, and PARAM SET writes nowhere else (R171, R82). -/
theorem setParam_elsewhere (s : State) (q : Param) (v : Word) :
    ({ s.setParam q v with params := s.params, ports := s.ports } : State) = s := by
  cases q <;> rfl

/-- Of a port, PARAM SET writes the gear alone (R95). -/
theorem setParam_port (s : State) (q : Param) (v : Word) (p : PortId) :
    { (s.setParam q v).port p with gear := (s.port p).gear } = s.port p := by
  cases q with
  | gear p' =>
    show { (s.setPort p' { s.port p' with gear := clamp 0 3 v.toNat }).port p with gear := (s.port p).gear } = s.port p
    rw [port_setPort]
    split
    · rename_i hp
      rw [hp]
    · rfl
  | _ => rfl

/-! ### PARAM SET and PARAM GET (R79, R171) -/

theorem cmdParamSet_unknown {id : Byte} (h : Param.ofId id = none) (tag : Byte) (v : Word) :
    cmdParamSet tag id v s = s.refuse tag .badArg := by
  rw [cmdParamSet, h]

theorem cmdParamSet_burnLimit {id : Byte} (h : Param.ofId id = some .burnLimit) (hopen : s.touchdownIsOpen = true)
    (tag : Byte) (v : Word) : cmdParamSet tag id v s = s.refuse tag .state := by
  simp only [cmdParamSet, h, hopen, and_self, if_true]

theorem cmdParamSet_stores {id : Byte} {q : Param} (h : Param.ofId id = some q)
    (hfree : ¬ (q = .burnLimit ∧ s.touchdownIsOpen = true)) (tag : Byte) (v : Word) :
    cmdParamSet tag id v s = (s.setParam q v).respondOk tag (id :: be16 (q.inRange v)) := by
  simp only [cmdParamSet, h, if_neg hfree, paramValue_setParam, if_true]

theorem cmdParamGet_unknown {id : Byte} (h : Param.ofId id = none) (tag : Byte) :
    cmdParamGet tag id s = s.refuse tag .badArg := by
  rw [cmdParamGet, h]

theorem cmdParamGet_known {id : Byte} {q : Param} (h : Param.ofId id = some q) (tag : Byte) :
    cmdParamGet tag id s = s.respondOk tag (id :: be16 (s.paramValue q)) := by
  rw [cmdParamGet, h]

end Sys2Proof.Machine

open Sys2Proof Sys2Proof.Machine

/-- Settles O20: the pages are the model's, with the flags byte as the statement spells it (`statusFlags_eq`). -/
theorem statusReportsItsPages : Obligations.StatusReportsItsPages := by
  unfold Obligations.StatusReportsItsPages
  intro tag page s h flags page0 page1
  have hpage0 : s.statusPage0 = page0 := by
    rw [State.statusPage0, statusFlags_eq]
  have hpage1 : s.statusPage1 = page1 := rfl
  rw [← hpage0, ← hpage1]
  exact ⟨statusPage0_length s, statusPage1_length s, exec_of_ready h (tag := tag) (c := .status page) rfl⟩

/-- Settles O21, by the identifier and the two refusals; what is stored is read parameter by parameter. -/
theorem paramSetStoresTheClampedValue : Obligations.ParamSetStoresTheClampedValue := by
  unfold Obligations.ParamSetStoresTheClampedValue
  intro tag id value s h
  have hexec : exec (.paramSet tag id value) s = .next (cmdParamSet tag id value s) :=
    exec_of_ready h (tag := tag) (c := .paramSet id value) rfl
  rw [hexec]
  split
  next hid => rw [cmdParamSet_unknown hid]
  next q hid =>
    intro inRange
    have hrange : q.inRange value = inRange := by
      cases q with
      | respTmo | burnTmo | settleCode | burnLimit => rfl
      | settleScale | poolLow | logHigh | gear p => exact congrArg wordOf (Nat.zero_max _)
      | eventEnable => exact lowTwelve_eq value
    refine ⟨?refused, fun hfree => ⟨s.setParam q value, ?stored, ?reads, fun q' hne => ?others,
      setParam_elsewhere s q value, setParam_port s q value⟩⟩
    case refused =>
      rintro rfl hopen
      rw [cmdParamSet_burnLimit hid hopen]
    case stored => rw [cmdParamSet_stores hid hfree, hrange]
    case reads => rw [paramValue_setParam, if_pos rfl, hrange]
    case others => rw [paramValue_setParam, if_neg hne]

/-- Settles O22, by the identifier. -/
theorem paramGetReadsTheStoredValue : Obligations.ParamGetReadsTheStoredValue := by
  unfold Obligations.ParamGetReadsTheStoredValue
  intro tag id s h
  have hexec : exec (.paramGet tag id) s = .next (cmdParamGet tag id s) :=
    exec_of_ready h (tag := tag) (c := .paramGet id) rfl
  rw [hexec]
  split
  next hid => rw [cmdParamGet_unknown hid]
  next q hid => rw [cmdParamGet_known hid]
end

section
/-! Proofs: what every row does to the phase, and what it does while reset is held (R187). -/
namespace Sys2Proof.Machine

variable {s t : State}

/-- A state with the input pins as a row leaves them. -/
def State.withPinsAfter (s : State) (i : Instr) : State := { s with pins := pinsAfter s.pins i }

/-- Row `i` leads from `s` to `t` without moving the phase, and in reset by the pins alone (R187). -/
def State.PinsAloneInReset (s : State) (i : Instr) (t : State) : Prop :=
  t.phase = s.phase ∧ (s.phase = .held → t = s.withPinsAfter i)

theorem whileRunning_pinsAlone {i : Instr} {effect atPins : State → State}
    (e : whileRunning s effect atPins = .next t) (run : (effect s).phase = s.phase)
    (held : atPins s = s.withPinsAfter i) : s.PinsAloneInReset i t := by
  cases e
  split
  · exact ⟨by rw [held]; rfl, fun _ => held⟩
  · exact ⟨run, fun h => absurd h ‹_›⟩

theorem phase_ite {c : Prop} [Decidable c] {a b : State} {phase : Phase} (ha : a.phase = phase) (hb : b.phase = phase) :
    (if c then a else b).phase = phase := by
  split
  · exact ha
  · exact hb

/-- Every row but the three of reset. -/
theorem exec_pinsAlone {i : Instr} (hreset : i ≠ .reset) (hrelease : i ≠ .resetRelease) (hstart : i ≠ .receiverStart)
    (e : exec i s = .next t) : s.PinsAloneInReset i t := by
  cases hc : controlCommand i with
  | some x =>
    have hpins : s = s.withPinsAfter i := by cases i <;> cases hc <;> rfl
    rw [exec_eq_submit hc] at e
    exact whileRunning_pinsAlone e (by simp) hpins
  | none =>
    cases i with
    | reset => exact absurd rfl hreset
    | resetRelease => exact absurd rfl hrelease
    | receiverStart => exact absurd rfl hstart
    | frameLengthError b | requestFrame b | downstreamByte b =>
      exact whileRunning_pinsAlone (effect := (·.receiveByte b)) e (by simp) rfl
    | responseEmission => exact whileRunning_pinsAlone (effect := (·.emission)) e (by simp) rfl
    | frameLeavesStream => exact whileRunning_pinsAlone (effect := (·.frameLeaves)) e (by simp) rfl
    | linkRdyFall =>
      unfold exec execLinkRdyFall at e
      exact whileRunning_pinsAlone e (by simp) rfl
    | linkRdyRise =>
      unfold exec execLinkRdyRise at e
      exact whileRunning_pinsAlone e (phase_ite rfl rfl) rfl
    | unwrapCompletion r =>
      unfold exec execUnwrapCompletion at e
      refine whileRunning_pinsAlone e ?_ rfl
      split
      · exact (sameBench_unwrapRelease s _ r).1
      · rfl
    | touchdownEndCompletion => exact whileRunning_pinsAlone (effect := (·.completeAndRelease)) e (by simp) rfl
    | transactionStart p => exact whileRunning_pinsAlone (effect := (·.startPort p)) e (by simp) rfl
    | dieResponse p a =>
      unfold exec execDieResponse at e
      exact whileRunning_pinsAlone e (phase_ite (by simp) (by simp)) rfl
    | keyService => exact whileRunning_pinsAlone (effect := (·.serviceKeys)) e (by simp) rfl
    | responseTimeout p =>
      unfold exec execResponseTimeout at e
      exact whileRunning_pinsAlone e (phase_ite (by simp) rfl) rfl
    | breakEnd p => exact whileRunning_pinsAlone (effect := (·.breakEnds p)) e (by simp) rfl
    | settleExpiry p =>
      unfold exec execSettleExpiry at e
      exact whileRunning_pinsAlone e (phase_ite (by simp) rfl) rfl
    | supplyGoodChange p good =>
      unfold exec execSupplyGoodChange at e
      exact whileRunning_pinsAlone e (phase_ite (by simp) rfl) rfl
    | contactFall =>
      unfold exec execContactFall at e
      exact whileRunning_pinsAlone e (phase_ite (by simp) rfl) rfl
    | contactRise =>
      exact whileRunning_pinsAlone (effect := (·.setContact true)) (atPins := (·.setContact true)) e rfl rfl
    | _ => cases hc

/-- What a row makes of the phase (R187). -/
def phaseAfter : Phase → Instr → Phase
  | _, .reset => .held
  | .held, .resetRelease => .released
  | .released, .receiverStart => .running
  | phase, _ => phase

theorem phaseAfter_of_ne {i : Instr} (hreset : i ≠ .reset) (hrelease : i ≠ .resetRelease) (hstart : i ≠ .receiverStart)
    (phase : Phase) : phaseAfter phase i = phase := by
  unfold phaseAfter
  split
  next => exact absurd rfl hreset
  next => exact absurd rfl hrelease
  next => exact absurd rfl hstart
  next => rfl

theorem exec_phase {i : Instr} (e : exec i s = .next t) : t.phase = phaseAfter s.phase i := by
  obtain rfl | hreset := eq_or_ne i .reset
  · cases e
    rfl
  obtain rfl | hrelease := eq_or_ne i .resetRelease
  · cases e
    cases hphase : s.phase <;> simp [phaseAfter, hphase]
  obtain rfl | hstart := eq_or_ne i .receiverStart
  · cases e
    cases hphase : s.phase <;> simp [phaseAfter, hphase]
  rw [phaseAfter_of_ne hreset hrelease hstart]
  exact (exec_pinsAlone hreset hrelease hstart e).1

/-- In reset no row but the two that take and end it changes anything beyond the pins (R187). -/
theorem exec_of_held {i : Instr} (h : s.phase = .held) (hreset : i ≠ .reset) (hrelease : i ≠ .resetRelease) :
    exec i s = .next (s.withPinsAfter i) := by
  obtain rfl | hstart := eq_or_ne i .receiverStart
  · have hstay : (if s.phase = .released then { s with phase := .running } else s) = s := if_neg (by rw [h]; nofun)
    exact congrArg Host.Outcome.next hstay
  · obtain ⟨t, e, -⟩ := (rowsGive_pending_transportKeyId s).exec i
    rw [e, (exec_pinsAlone hreset hrelease hstart e).2 h]

end Sys2Proof.Machine

open Sys2Proof Sys2Proof.Machine

/-- Settles O3, from what each row makes of the phase (`exec_phase`). -/
theorem phaseMovesByItsEvents : Obligations.PhaseMovesByItsEvents := by
  unfold Obligations.PhaseMovesByItsEvents
  intro c s t e
  rw [exec_phase e]
  unfold phaseAfter
  split
  next => exact ⟨fun _ _ => rfl, fun _ => nofun, fun _ => nofun⟩
  next => exact ⟨fun _ => nofun, fun _ _ => ⟨rfl, ‹_›⟩, fun _ => nofun⟩
  next => exact ⟨fun _ => nofun, fun _ => nofun, fun _ _ => ⟨rfl, ‹_›⟩⟩
  next => exact ⟨fun hne heq => absurd heq hne, fun hne heq => absurd heq hne, fun hne heq => absurd heq hne⟩

/-- Settles O6: both rows are the model's definitions of them. -/
theorem releaseThenReceiverStart : Obligations.ReleaseThenReceiverStart := by
  unfold Obligations.ReleaseThenReceiverStart
  exact fun s => ⟨rfl, rfl⟩

/-- Settles O7, by what a row does in reset (`exec_of_held`). -/
theorem heldPartIgnoresInputs : Obligations.HeldPartIgnoresInputs := by
  unfold Obligations.HeldPartIgnoresInputs
  intro c s h hreset hrelease
  rw [exec_of_held h hreset hrelease]
  cases c <;> rfl
end

section
/-! Proofs: what reset leaves, block by block, and that it meets every invariant (R187). -/
namespace Sys2Proof.Machine

variable (s : State)

theorem taken_siteMap (i : SiteId) : s.taken.siteMap[i] = { port := i, enabled := false } := by
  simp [State.taken, State.reset]

theorem taken_groups (g : Fin 15) : s.taken.groups[g] = 0 := by
  simp [State.taken, State.reset]

theorem taken_merge (k : Fin 8) : s.taken.merge[k] = none := by
  simp [State.taken, State.reset]

theorem taken_rules (n : Fin 64) : s.taken.rules[n] = Rule.reset := by
  simp [State.taken, State.reset]

@[simp] theorem port_taken (p : PortId) : s.taken.port p = Port.reset := by
  simp [State.taken, State.reset, State.port]

@[simp] theorem supply_taken (p : PortId) : s.taken.supply p = { state := .off, interval := none } := by
  simp [State.taken, State.reset, State.supply]

/-- A rule with every field 0 reads as 0 in every byte but its number (R44, R48). -/
theorem ruleReset_bytes (n : Fin 64) :
    Rule.reset.bytes n = [byteOf n.val, 0, 0, 0, 0, 0, 0, 0, 0, 0, 0, 0, 0, 0, 0, 0] := rfl

/-- A supply at its reset value is switched off, and a port at its own drives no line (R83, R97, R119). -/
theorem taken_outputs (p : PortId) :
    (s.taken.supply p).state.switchOn = false ∧ (s.taken.port p).state.lines = .highImpedance ∧
      ∀ i : Fin 4, (s.taken.port p).strapDrive i = none := by
  rw [supply_taken, port_taken]
  exact ⟨rfl, rfl, fun _ => rfl⟩

/-- The part just released is what the release makes of the part in reset (R187). -/
theorem exec_resetRelease_taken : exec .resetRelease State.reset.taken = .next State.reset := rfl

end Sys2Proof.Machine

open Sys2Proof Sys2Proof.Machine

/-- Settles O5, block by block. -/
theorem resetTakesEveryBlock : Obligations.ResetTakesEveryBlock := by
  unfold Obligations.ResetTakesEveryBlock
  intro s
  refine ⟨s.taken, rfl, rfl, rfl, rfl, rfl, rfl, rfl, rfl, taken_siteMap s, taken_groups s, taken_merge s, port_taken s,
    fun n k => ?rule, ctx_taken s, rfl, rfl, rfl, rfl, supply_taken s, rfl, rfl, rfl, rfl, rfl, rfl, rfl,
    taken_outputs s⟩
  case rule => rw [taken_rules, ruleReset_bytes]

/-- Settles O58: what RESET leaves is sound, and the release keeps the invariants (O60). -/
theorem resetIsSound : Obligations.ResetIsSound := by
  unfold Obligations.ResetIsSound
  refine ⟨(sound_taken State.reset).exec exec_resetRelease_taken, streamSound_of_empty rfl rfl,
    (taken_mergesOpen State.reset).rowsGive.of_exec exec_resetRelease_taken, taken_rulesLegal State.reset, ?_⟩
  rintro s t ⟨⟩
  exact ⟨sound_taken s, streamSound_of_empty rfl rfl, taken_mergesOpen s, taken_rulesLegal s, rfl⟩
end

section
/-! Proofs: IDENTIFY, EVENT READ and EVENT CLEAR (R182, R183, R185). -/
namespace Sys2Proof.Machine

/-- A latch stays set exactly where the keep-mask has its bit (R183). -/
theorem getLsbD_keptLatches (latches : BitVec 12) (keep : Word) {n : Nat} (h : n < 12) :
    (latches &&& keep.extractLsb' 0 12).getLsbD n = (latches.getLsbD n && keep.getLsbD n) := by
  simp [h]

end Sys2Proof.Machine

open Sys2Proof Sys2Proof.Machine

/-- Settles O19: the row runs its command at once, and no row changes the transport key id
(`rowsGive_pending_transportKeyId`). -/
theorem identifyAnswersTheFixedValues : Obligations.IdentifyAnswersTheFixedValues := by
  unfold Obligations.IdentifyAnswersTheFixedValues
  refine ⟨fun tag s h => exec_of_ready h (tag := tag) (c := .identify) rfl, fun c s t e => ?_⟩
  exact ((rowsGive_pending_transportKeyId s).of_exec e).2

/-- Settles O30: the row runs its command at once, which answers and changes nothing else. -/
theorem eventReadReportsAndKeeps : Obligations.EventReadReportsAndKeeps := by
  unfold Obligations.EventReadReportsAndKeeps
  exact fun tag s h => exec_of_ready h (tag := tag) (c := .eventRead) rfl

/-- Settles O31: the row runs its command at once, and the latches it leaves are read bit by bit. -/
theorem eventClearKeepsTheMaskedLatches : Obligations.EventClearKeepsTheMaskedLatches := by
  unfold Obligations.EventClearKeepsTheMaskedLatches
  intro tag keep s h left
  refine ⟨?answers, fun n hn => getLsbD_keptLatches s.events.latches keep hn⟩
  case answers =>
    have hleft : s.events.latches &&& keep.setWidth 12 = left :=
      congrArg (s.events.latches &&& ·) (BitVec.setWidth_eq_extractLsb' (by decide))
    rw [exec_of_ready h (tag := tag) (c := .eventClear keep) rfl, runCommand, cmdEventClear, hleft]
end

section
/-! Proofs: one step takes the front command of the queue, and an empty queue idles (Conventions, Time). -/
namespace Sys2Proof.Machine

theorem step_pending_cons (c : Instr) (s : State) (rest : List Instr) :
    step { s with pending := c :: rest } = exec c { s with pending := rest } := rfl

theorem step_of_pending_nil {s : State} (h : s.pending = []) : step s = .next s := by
  rw [step, h]

end Sys2Proof.Machine

open Sys2Proof Sys2Proof.Machine

/-- Settles O1: the two branches of a step, a command at the front of the queue and the empty queue. -/
theorem stepRunsTheFrontCommand : Obligations.StepRunsTheFrontCommand := by
  unfold Obligations.StepRunsTheFrontCommand
  exact ⟨step_pending_cons, fun _ => step_of_pending_nil⟩
end
